-- ==== Sys2Proof/Word.lean ====
section
/-! DEFINITION. The widths of 00_scope.md rule R7 and 30_encoding.md rules R80, R81: the word types of the command port,
the response port, addresses, identifiers and control registers, and the number formats of the tag array. -/

namespace Sys2Proof

/-- A linear, partition or block address: 64 bits, unsigned (R7). -/
abbrev Addr := BitVec 64

/-- A control or status register, and a 64-bit response field (R7, R24, R83). -/
abbrev Reg64 := BitVec 64

/-- A request identifier (R7). -/
abbrev ReqId := BitVec 32

/-- A request size in bytes (R7). -/
abbrev ReqSize := BitVec 32

/-- An opaque crossbar payload (R7). -/
abbrev Payload := BitVec 64

/-- A node (device) index (R7). -/
abbrev NodeId := BitVec 16

/-- The address of a control or status register (R24). -/
abbrev CsrAddr := BitVec 16

/-- A sector mask: bit k names tag sector k of the line (R86). -/
abbrev SectorMask := BitVec 16

/-- The per-byte modification mask of a line: bit b is byte b of the line; a line has at most 4096 bytes (R32, R33). -/
abbrev ByteMask := BitVec 4096

/-- The command word CMD (R80). -/
abbrev CmdWord := BitVec 192

/-- The response word RSP (R80). -/
abbrev RspWord := BitVec 256

/-- One byte of a serialised word (R63). -/
abbrev Byte := BitVec 8

end Sys2Proof
end

