-- ==== Sys2Proof/Syntax.lean ====
section
/-! DEFINITION. The 22 commands of 30_encoding.md rule R85 (opcode_table.json), one constructor per row, with the named
operands of rule R82 as arguments, each at exactly its field's width (R86: unsigned, never scaled). -/

namespace Sys2Proof

/-- One command. Every operand a format names is carried, also where no rule reads it (R194: the payload of XB.HASBUF;
W4: the size of XB commands), so that no bit of an encoding is lost. -/
inductive Instr where
  /-- NOP (R210). -/
  | nop
  /-- CSRR csr (R211). -/
  | csrr (csr : CsrAddr)
  /-- CSRW csr, value (R212). -/
  | csrw (csr : CsrAddr) (value : Reg64)
  /-- AD.CONFIGURE (R111). -/
  | adConfigure
  /-- AD.DECODE addr (R116). -/
  | adDecode (addr : Addr)
  /-- AD.PADDR addr (R120). -/
  | adPaddr (addr : Addr)
  /-- AD.SWEEP base, count, stride (R122). -/
  | adSweep (base : Addr) (count stride : BitVec 32)
  /-- CC.CONFIGURE (R140). -/
  | ccConfigure
  /-- CC.ACCESS is_write, is_atomic, smask, addr, id, size (R150). -/
  | ccAccess (isWrite isAtomic : Bool) (smask : SectorMask) (addr : Addr) (id : ReqId) (size : ReqSize)
  /-- CC.FILL has_parent, id, parent (R160). -/
  | ccFill (hasParent : Bool) (id parent : ReqId)
  /-- CC.CYCLE ds_ok (R170). -/
  | ccCycle (dsOk : Bool)
  /-- CC.DPFREE (R172). -/
  | ccDpfree
  /-- CC.FPFREE (R173). -/
  | ccFpfree
  /-- CC.READY (R174). -/
  | ccReady
  /-- CC.NEXT (R175). -/
  | ccNext
  /-- CC.MQHEAD (R176). -/
  | ccMqhead
  /-- XB.CONFIGURE (R190). -/
  | xbConfigure
  /-- XB.HASBUF src, dst, payload, size (R194). -/
  | xbHasbuf (src dst : NodeId) (payload : Payload) (size : ReqSize)
  /-- XB.PUSH src, dst, payload, size (R195). -/
  | xbPush (src dst : NodeId) (payload : Payload) (size : ReqSize)
  /-- XB.POP dev (R196). -/
  | xbPop (dev : NodeId)
  /-- XB.ADVANCE (R198). -/
  | xbAdvance
  /-- XB.BUSY (R199). -/
  | xbBusy
  deriving DecidableEq, Repr

end Sys2Proof
end

