-- ==== Sys2Proof/WellFormed.lean ====
section
/-! DEFINITION. Which command words are legal encodings, written from the opcode table alone (30_encoding.md rules R85, R87,
R88 and opcode_table.json): `CmdWord.wellFormed` does not mention the decoder. Every term of `Instr` is well formed by
its type (each operand is carried at exactly its field's width), so the checks stand on words. -/

namespace Sys2Proof

/-- One row of opcode_table.json: `w` is the row's legal encoding exactly when `w & mask = match` (R85). -/
structure OpcodeRow where
  mnemonic : String
  mask     : CmdWord
  bits     : CmdWord
  deriving DecidableEq, Repr

/-- The 22 rows of opcode_table.json, in its order. -/
def opcodeRows : List OpcodeRow :=
  [⟨"NOP", 0xffffffffffffffffffffffffffffffffffffffffffffffff#192, 0x000000000000000000000000000000000000000000000000#192⟩,
   ⟨"CSRR", 0xffffffffffffffffffffffffffffffffffffffff0000ffff#192, 0x000000000000000000000000000000000000000000000001#192⟩,
   ⟨"CSRW", 0xffffffffffffffff0000000000000000ffffffff0000ffff#192, 0x000000000000000000000000000000000000000000000002#192⟩,
   ⟨"AD.CONFIGURE", 0xffffffffffffffffffffffffffffffffffffffffffffffff#192, 0x000000000000000000000000000000000000000000000010#192⟩,
   ⟨"AD.DECODE", 0xffffffffffffffff0000000000000000ffffffffffffffff#192, 0x000000000000000000000000000000000000000000000011#192⟩,
   ⟨"AD.PADDR", 0xffffffffffffffff0000000000000000ffffffffffffffff#192, 0x000000000000000000000000000000000000000000000012#192⟩,
   ⟨"AD.SWEEP", 0x00000000000000000000000000000000ffffffffffffffff#192, 0x000000000000000000000000000000000000000000000013#192⟩,
   ⟨"CC.CONFIGURE", 0xffffffffffffffffffffffffffffffffffffffffffffffff#192, 0x000000000000000000000000000000000000000000000020#192⟩] ++
  [⟨"CC.ACCESS", 0x000000000000000000000000000000000000fffffffcffff#192, 0x000000000000000000000000000000000000000000000021#192⟩,
   ⟨"CC.FILL", 0x0000000000000000fffffffffffffffffffffffffffeffff#192, 0x000000000000000000000000000000000000000000000022#192⟩,
   ⟨"CC.CYCLE", 0xfffffffffffffffffffffffffffffffffffffffffffeffff#192, 0x000000000000000000000000000000000000000000000023#192⟩,
   ⟨"CC.DPFREE", 0xffffffffffffffffffffffffffffffffffffffffffffffff#192, 0x000000000000000000000000000000000000000000000024#192⟩,
   ⟨"CC.FPFREE", 0xffffffffffffffffffffffffffffffffffffffffffffffff#192, 0x000000000000000000000000000000000000000000000025#192⟩,
   ⟨"CC.READY", 0xffffffffffffffffffffffffffffffffffffffffffffffff#192, 0x000000000000000000000000000000000000000000000026#192⟩,
   ⟨"CC.NEXT", 0xffffffffffffffffffffffffffffffffffffffffffffffff#192, 0x000000000000000000000000000000000000000000000027#192⟩,
   ⟨"CC.MQHEAD", 0xffffffffffffffffffffffffffffffffffffffffffffffff#192, 0x000000000000000000000000000000000000000000000028#192⟩] ++
  [⟨"XB.CONFIGURE", 0xffffffffffffffffffffffffffffffffffffffffffffffff#192, 0x000000000000000000000000000000000000000000000030#192⟩,
   ⟨"XB.HASBUF", 0xffffffff000000000000000000000000ffff00000000ffff#192, 0x000000000000000000000000000000000000000000000031#192⟩,
   ⟨"XB.PUSH", 0xffffffff000000000000000000000000ffff00000000ffff#192, 0x000000000000000000000000000000000000000000000032#192⟩,
   ⟨"XB.POP", 0xffffffffffffffffffffffffffffffffffffffff0000ffff#192, 0x000000000000000000000000000000000000000000000033#192⟩,
   ⟨"XB.ADVANCE", 0xffffffffffffffffffffffffffffffffffffffffffffffff#192, 0x000000000000000000000000000000000000000000000034#192⟩,
   ⟨"XB.BUSY", 0xffffffffffffffffffffffffffffffffffffffffffffffff#192, 0x000000000000000000000000000000000000000000000035#192⟩]

/-- The mnemonic of each command (R85). -/
def Instr.mnemonic : Instr → String
  | .nop => "NOP"
  | .csrr _ => "CSRR"
  | .csrw _ _ => "CSRW"
  | .adConfigure => "AD.CONFIGURE"
  | .adDecode _ => "AD.DECODE"
  | .adPaddr _ => "AD.PADDR"
  | .adSweep _ _ _ => "AD.SWEEP"
  | .ccConfigure => "CC.CONFIGURE"
  | .ccAccess _ _ _ _ _ _ => "CC.ACCESS"
  | .ccFill _ _ _ => "CC.FILL"
  | .ccCycle _ => "CC.CYCLE"
  | .ccDpfree => "CC.DPFREE"
  | .ccFpfree => "CC.FPFREE"
  | .ccReady => "CC.READY"
  | .ccNext => "CC.NEXT"
  | .ccMqhead => "CC.MQHEAD"
  | .xbConfigure => "XB.CONFIGURE"
  | .xbHasbuf _ _ _ _ => "XB.HASBUF"
  | .xbPush _ _ _ _ => "XB.PUSH"
  | .xbPop _ => "XB.POP"
  | .xbAdvance => "XB.ADVANCE"
  | .xbBusy => "XB.BUSY"

/-- The word is the legal encoding of this row (R85). -/
def OpcodeRow.matches (r : OpcodeRow) (w : CmdWord) : Bool := w &&& r.mask == r.bits

/-- A legal encoding: the word matches some row (R85). No other word is one: an unknown opcode, a nonzero `rsv`, a
nonzero field the format does not read or a nonzero must-be-zero sub-field each break every row's match (R88). -/
def CmdWord.wellFormed (w : CmdWord) : Bool := opcodeRows.any fun r => r.matches w

end Sys2Proof
end

