-- ==== Sys2Proof/Decode.lean ====
section
/-! DEFINITION. The fields of the command word (30_encoding.md rule R81), the formats (R82), the decoder, total on every
192-bit word and rejecting by name (R87, R88), the encoder written from the same tables, and the little-endian
serialisation of words (20_memory.md rule R63). -/

namespace Sys2Proof

/-! ## Fields (R81) -/

def CmdWord.op  (w : CmdWord) : BitVec 8  := w.extractLsb' 0 8
def CmdWord.rsv (w : CmdWord) : BitVec 8  := w.extractLsb' 8 8
def CmdWord.h0  (w : CmdWord) : BitVec 16 := w.extractLsb' 16 16
def CmdWord.h1  (w : CmdWord) : BitVec 16 := w.extractLsb' 32 16
def CmdWord.w0  (w : CmdWord) : BitVec 16 := w.extractLsb' 48 16
def CmdWord.d0  (w : CmdWord) : BitVec 64 := w.extractLsb' 64 64
def CmdWord.d1  (w : CmdWord) : BitVec 64 := w.extractLsb' 128 64

/-- `d1[31:0]`. -/
def CmdWord.d1lo (w : CmdWord) : BitVec 32 := w.d1.extractLsb' 0 32
/-- `d1[63:32]`. -/
def CmdWord.d1hi (w : CmdWord) : BitVec 32 := w.d1.extractLsb' 32 32

/-! ## Formats (R82) -/

/-- The formats of R82. Format R stands twice, because CSRR also requires `d0 = 0`. -/
inductive Format where
  | z | rRead | rWrite | a | s | q | f | c | x | p
  deriving DecidableEq, Repr

/-- Every whole field the format does not read is zero (R82). -/
def Format.unusedZero (w : CmdWord) : Format → Bool
  | .z      => w.h0 == 0 && w.h1 == 0 && w.w0 == 0 && w.d0 == 0 && w.d1 == 0
  | .rRead  => w.h1 == 0 && w.w0 == 0 && w.d1 == 0
  | .rWrite => w.h1 == 0 && w.w0 == 0 && w.d1 == 0
  | .a      => w.h0 == 0 && w.h1 == 0 && w.w0 == 0 && w.d1 == 0
  | .s      => w.h0 == 0 && w.h1 == 0 && w.w0 == 0
  | .q      => w.h1 == 0
  | .f      => w.h1 == 0 && w.w0 == 0 && w.d0 == 0
  | .c      => w.h1 == 0 && w.w0 == 0 && w.d0 == 0 && w.d1 == 0
  | .x      => w.w0 == 0
  | .p      => w.h1 == 0 && w.w0 == 0 && w.d0 == 0 && w.d1 == 0

/-- Every sub-field the format marks "must be 0" is zero (R82). -/
def Format.mustBeZero (w : CmdWord) : Format → Bool
  | .rRead => w.d0 == 0
  | .q     => w.h0.extractLsb' 2 14 == 0
  | .f     => w.h0.extractLsb' 1 15 == 0
  | .c     => w.h0.extractLsb' 1 15 == 0
  | .x     => w.d1hi == 0
  | .z | .rWrite | .a | .s | .p => true

/-- Why a word is no legal encoding: R88 (a), (b), (c), (d) in this order. -/
inductive DecodeError where
  /-- R88 (a): `op` is not one of the 22 values of R85. -/
  | reservedOpcode
  /-- R88 (b): `rsv != 0`. -/
  | rsvNonzero
  /-- R88 (c): a field the format does not read is nonzero. -/
  | unusedFieldNonzero
  /-- R88 (d): a "must be 0" sub-field is nonzero. -/
  | mustBeZeroNonzero
  /-- A serialised command is not 24 bytes long (R63, R80); only `decodeBytes` answers this. -/
  | wrongLength
  deriving DecidableEq, Repr

/-- The checks of R88 (b), (c), (d) for a word whose opcode has this format. -/
def checkFormat (fmt : Format) (w : CmdWord) (i : Instr) : Except DecodeError Instr :=
  if w.rsv ≠ 0 then .error .rsvNonzero
  else if fmt.unusedZero w = false then .error .unusedFieldNonzero
  else if fmt.mustBeZero w = false then .error .mustBeZeroNonzero
  else .ok i

/-- The decoder (R85, R87): the opcode alone tells the format; every word is one legal command or illegal by name. -/
def decode (w : CmdWord) : Except DecodeError Instr :=
  match w.op with
  | 0x00#8 => checkFormat .z w .nop
  | 0x01#8 => checkFormat .rRead w (.csrr w.h0)
  | 0x02#8 => checkFormat .rWrite w (.csrw w.h0 w.d0)
  | 0x10#8 => checkFormat .z w .adConfigure
  | 0x11#8 => checkFormat .a w (.adDecode w.d0)
  | 0x12#8 => checkFormat .a w (.adPaddr w.d0)
  | 0x13#8 => checkFormat .s w (.adSweep w.d0 w.d1lo w.d1hi)
  | 0x20#8 => checkFormat .z w .ccConfigure
  | 0x21#8 => checkFormat .q w (.ccAccess (w.h0.getLsbD 0) (w.h0.getLsbD 1) w.w0 w.d0 w.d1lo w.d1hi)
  | 0x22#8 => checkFormat .f w (.ccFill (w.h0.getLsbD 0) w.d1lo w.d1hi)
  | 0x23#8 => checkFormat .c w (.ccCycle (w.h0.getLsbD 0))
  | 0x24#8 => checkFormat .z w .ccDpfree
  | 0x25#8 => checkFormat .z w .ccFpfree
  | 0x26#8 => checkFormat .z w .ccReady
  | 0x27#8 => checkFormat .z w .ccNext
  | 0x28#8 => checkFormat .z w .ccMqhead
  | 0x30#8 => checkFormat .z w .xbConfigure
  | 0x31#8 => checkFormat .x w (.xbHasbuf w.h0 w.h1 w.d0 w.d1lo)
  | 0x32#8 => checkFormat .x w (.xbPush w.h0 w.h1 w.d0 w.d1lo)
  | 0x33#8 => checkFormat .p w (.xbPop w.h0)
  | 0x34#8 => checkFormat .z w .xbAdvance
  | 0x35#8 => checkFormat .z w .xbBusy
  | _      => .error .reservedOpcode

/-! ## Encoder (R81, R82, R85) -/

/-- A command word from its fields, `rsv = 0` (R81). -/
def cmdWord (op : BitVec 8) (h0 h1 w0 : BitVec 16) (d0 d1 : BitVec 64) : CmdWord :=
  d1 ++ d0 ++ w0 ++ h1 ++ h0 ++ (0#8) ++ op

/-- The flag bits of `h0` in formats Q, F and C. -/
def flagBits (b0 b1 : Bool) : BitVec 16 := 0#14 ++ BitVec.ofBool b1 ++ BitVec.ofBool b0

/-- The word of each command. -/
def encode : Instr → CmdWord
  | .nop                              => cmdWord 0x00 0 0 0 0 0
  | .csrr csr                         => cmdWord 0x01 csr 0 0 0 0
  | .csrw csr value                   => cmdWord 0x02 csr 0 0 value 0
  | .adConfigure                      => cmdWord 0x10 0 0 0 0 0
  | .adDecode addr                    => cmdWord 0x11 0 0 0 addr 0
  | .adPaddr addr                     => cmdWord 0x12 0 0 0 addr 0
  | .adSweep base count stride        => cmdWord 0x13 0 0 0 base (stride ++ count)
  | .ccConfigure                      => cmdWord 0x20 0 0 0 0 0
  | .ccAccess wr atomic smask addr id size => cmdWord 0x21 (flagBits wr atomic) 0 smask addr (size ++ id)
  | .ccFill hasParent id parent       => cmdWord 0x22 (flagBits hasParent false) 0 0 0 (parent ++ id)
  | .ccCycle dsOk                     => cmdWord 0x23 (flagBits dsOk false) 0 0 0 0
  | .ccDpfree                         => cmdWord 0x24 0 0 0 0 0
  | .ccFpfree                         => cmdWord 0x25 0 0 0 0 0
  | .ccReady                          => cmdWord 0x26 0 0 0 0 0
  | .ccNext                           => cmdWord 0x27 0 0 0 0 0
  | .ccMqhead                         => cmdWord 0x28 0 0 0 0 0
  | .xbConfigure                      => cmdWord 0x30 0 0 0 0 0
  | .xbHasbuf src dst payload size    => cmdWord 0x31 src dst 0 payload (0#32 ++ size)
  | .xbPush src dst payload size      => cmdWord 0x32 src dst 0 payload (0#32 ++ size)
  | .xbPop dev                        => cmdWord 0x33 dev 0 0 0 0
  | .xbAdvance                        => cmdWord 0x34 0 0 0 0 0
  | .xbBusy                           => cmdWord 0x35 0 0 0 0 0

/-! ## Serialisation (R63: byte i holds bits 8i+7:8i) -/

/-- The first `n` bytes of a word, lowest address first: byte `i` holds bits `8i+7:8i`. -/
def wordBytes {k : Nat} (n : Nat) (w : BitVec k) : List Byte := (List.range n).map fun i => w.extractLsb' (8 * i) 8

/-- The 24 bytes of a command word. -/
def bytesOfCmd (w : CmdWord) : List Byte := wordBytes 24 w

/-- The number a little-endian byte list stands for. -/
def natOfBytes : List Byte → Nat
  | []      => 0
  | b :: bs => b.toNat + 256 * natOfBytes bs

/-- The decoder on a serialised command: exactly 24 bytes, in the order of R63. -/
def decodeBytes (bs : List Byte) : Except DecodeError Instr :=
  if bs.length = 24 then decode (BitVec.ofNat 192 (natOfBytes bs)) else .error .wrongLength

/-- The instruction the decoder reads from the low `nbits` bits `w` of a command, the bits above zero: laid out as bytes
and decoded. -/
def decodeTableWord (nbits w : Nat) : Option Instr :=
  if nbits ≤ 192 then
    match decodeBytes (bytesOfCmd (BitVec.ofNat 192 (w % 2 ^ nbits))) with
    | .ok i    => some i
    | .error _ => none
  else none

end Sys2Proof
end

