-- ==== Sys2Proof/Machine/FMap.lean ====
section
/-! DEFINITION. Finite maps as plain data: lists of (key, value) pairs with strictly rising natural keys, so that equal maps
are equal lists. Used for MSHR and META (10_state.md rules R34, R35) and, with a default for unlisted keys, for the tag
array, the crossbar cells and the turn pointers (rules R31, R37). -/

namespace Sys2Proof.Machine

/-- A finite map from natural keys. -/
abbrev FMap (α : Type) := List (Nat × α)

namespace FMap

variable {α : Type}

/-- The keys, in the order of the list. -/
def keys (m : FMap α) : List Nat := m.map Prod.fst

/-- The canonical form: keys strictly rising. -/
abbrev Sorted (m : FMap α) : Prop := m.Pairwise fun x y => x.1 < y.1

/-- The value at a key, if the key is listed. -/
def lookup (k : Nat) : FMap α → Option α
  | []           => none
  | (k', v) :: m => if k' = k then some v else lookup k m

/-- Whether the key is listed. -/
def has (k : Nat) (m : FMap α) : Bool := (m.lookup k).isSome

/-- Write the value at a key, keeping the order. -/
def insert (k : Nat) (v : α) : FMap α → FMap α
  | []            => [(k, v)]
  | (k', v') :: m => if k < k' then (k, v) :: (k', v') :: m else if k = k' then (k, v) :: m else (k', v') :: insert k v m

/-- Remove a key. -/
def erase (k : Nat) (m : FMap α) : FMap α := m.filter fun e => e.1 != k

/-- The value at a key of a total map whose unlisted keys hold `d`. -/
def getD (d : α) (k : Nat) (m : FMap α) : α := (m.lookup k).getD d

/-- Write a total map whose unlisted keys hold `d`: writing `d` removes the entry. -/
def put [DecidableEq α] (d : α) (k : Nat) (v : α) (m : FMap α) : FMap α := if v = d then m.erase k else m.insert k v

/-- The canonical form of a total map whose unlisted keys hold `d`: keys strictly rising and no entry equal to `d`. -/
abbrev Canonical [DecidableEq α] (d : α) (m : FMap α) : Prop := m.Sorted ∧ ∀ e ∈ m, e.2 ≠ d

end FMap

end Sys2Proof.Machine
end

