-- ==== Sys2Proof/Machine/State.lean ====
section
/-! DEFINITION. The state of the three blocks and of their command interface (10_state.md), the reasons a step can stop, and
the state after reset (70_reset_and_hazards.md rule R251). Plain data throughout. -/

namespace Sys2Proof.Machine

/-! ## Response port -/

/-- The status codes of 30_encoding.md rule R84; codes not listed are never produced. -/
inductive Status where
  | ok | fatalState | illegalOp | notConfigured | alreadyConfigured | configInvalid | badOperand | badCsr
  | refusedWrite | diagDisabled | fatalRaised
  | hit | mshrHit | miss | mshrMergeFail | mshrEntryFail | missQueueFull | lineAllocFail
  | fillDone | fillWait
  deriving DecidableEq, Repr

/-- The response word by its fields (R83): a field a rule does not write is 0. -/
structure Rsp where
  status : Status
  aux    : BitVec 8 := 0
  q0     : Reg64 := 0
  q1     : Reg64 := 0
  q2     : Reg64 := 0
  deriving DecidableEq, Repr

/-! ## System registers (R25, R221) -/

/-- The four fatal causes of 60_exceptions.md rule R221. -/
inductive FatalCause where
  | adOverlap | adSweepFail | ccFillNoMshr | xbPushNoBuffer
  deriving DecidableEq, Repr

/-- SYS_FATAL and SYS_FATAL_INFO. -/
structure SysState where
  fatal : Bool
  cause : BitVec 8
  info  : Reg64
  deriving DecidableEq, Repr

/-! ## Address decoder (R27, R30) -/

/-- The ten staged decoder registers of R30; the same record serves as staging and as active copy (R26). -/
structure AdRegs where
  maskChip  : Reg64
  maskBank  : Reg64
  maskRow   : Reg64
  maskCol   : Reg64
  maskBurst : Reg64
  chipStart : BitVec 6
  nchan     : BitVec 17
  nsub      : BitVec 9
  idxfn     : BitVec 3
  maskSel   : BitVec 2
  deriving DecidableEq, Repr

/-- The decoder: staging copy, AD_DIAG (not staged), AD_CTRL.CONFIGURED and the active copy. -/
structure AdState where
  stage      : AdRegs
  diag       : BitVec 1
  configured : Bool
  active     : AdRegs
  deriving DecidableEq, Repr

/-! ## Cache engine (R31 to R35) -/

/-- The eighteen staged cache registers of R33. -/
structure CcRegs where
  kind         : BitVec 1
  nsets        : BitVec 32
  lineSz       : BitVec 16
  assoc        : BitVec 16
  repl         : BitVec 1
  wpol         : BitVec 3
  apol         : BitVec 2
  walloc       : BitVec 2
  setIdx       : BitVec 2
  mshrType     : BitVec 2
  mshrEntries  : BitVec 32
  mshrMaxMerge : BitVec 32
  mqSize       : BitVec 32
  rfifo        : BitVec 32
  portW        : BitVec 32
  sectorIncl   : BitVec 1
  blkSrc       : BitVec 1
  sectorSz     : BitVec 16
  deriving DecidableEq, Repr

/-- The status of one sector (R32): 0 INVALID, 1 RESERVED, 2 VALID, 3 MODIFIED. -/
inductive SectorStatus where
  | invalid | reserved | valid | modified
  deriving DecidableEq, Repr

/-- One tag array entry (R32). A line has at most 16 tag sectors (R140) and 4096 bytes (R33): sectors and bytes beyond
the configured numbers stay INVALID and 0 (log 9). -/
structure Line where
  tag        : Addr
  st         : Vector SectorStatus 16
  dirty      : ByteMask
  lastAccess : BitVec 64
  allocTime  : BitVec 64
  deriving DecidableEq, Repr

/-- A line as CC.CONFIGURE makes it: every sector INVALID, other fields 0 (R31, R140). -/
def Line.empty : Line :=
  { tag := 0, st := Vector.replicate 16 .invalid, dirty := 0, lastAccess := 0, allocTime := 0 }

/-- One MSHR entry without its key (R34). -/
structure MshrEntry where
  list      : List ReqId
  hasAtomic : Bool
  ready     : Bool
  deriving DecidableEq, Repr

/-- One miss-queue record (R35). -/
structure MqRec where
  id      : ReqId
  addr    : Addr
  size    : ReqSize
  isWrite : Bool
  deriving DecidableEq, Repr

/-- One metadata record (R35). -/
structure MetaRec where
  mshrAddr  : Addr
  blockAddr : Addr
  origAddr  : Addr
  origSize  : ReqSize
  set       : Nat
  way       : Nat
  smask     : SectorMask
  pending   : Nat
  deriving DecidableEq, Repr

/-- The cache engine: registers (R33) and dynamic state (R31). `lines` lists the entries of the tag array that differ
from `Line.empty` under `lineKey set way`; `mshr` is keyed by the MSHR address, `metaTab` by the request id. -/
structure CcState where
  stage      : CcRegs
  configured : Bool
  active     : CcRegs
  lines      : FMap Line
  mshr       : FMap MshrEntry
  readyQ     : List Addr
  mq         : List MqRec
  metaTab    : FMap MetaRec
  dpBusy     : BitVec 64
  fpBusy     : BitVec 64
  now        : BitVec 64
  deriving DecidableEq, Repr

/-! ## Crossbar (R36, R37) -/

/-- The six staged crossbar registers of R36. -/
structure XbRegs where
  subnets : BitVec 8
  nshader : BitVec 16
  nmem    : BitVec 16
  vcs     : BitVec 8
  bufcap  : BitVec 32
  classes : BitVec 8
  deriving DecidableEq, Repr

/-- The crossbar. `cells` lists the nonempty queue cells under `cellKey s d c v`, `turns` the nonzero turn pointers under
`turnKey s d` (R37). -/
structure XbState where
  stage      : XbRegs
  configured : Bool
  active     : XbRegs
  cells      : FMap (List Payload)
  turns      : FMap Nat
  deriving DecidableEq, Repr

/-! ## The environment's side -/

/-- What the environment can present: a command on the command port, or a pulse on the reset pin (R2, R250). -/
inductive EnvInput where
  | cmd (w : CmdWord)
  | reset
  deriving DecidableEq, Repr

/-- The whole machine. `inputs` (what the environment will present, oldest first), `run` (reset pulses so far) and the
representation of the response port are the model's own (logs 1, 2, 6). -/
structure State where
  sys    : SysState
  ad     : AdState
  cc     : CcState
  xb     : XbState
  rsp    : Option Rsp
  inputs : List EnvInput
  run    : Nat
  deriving DecidableEq, Repr

/-! ## Reasons to stop -/

/-- The model's own faults. Each is raised only in a state that breaks an invariant the spec states of every state
(R31, R32, R34, R180) or that CONFIGURE established (R111), where the spec gives the operation no effect; no run from reset reaches one. All are safe (log 8). -/
inductive Fault where
  /-- AD.DECODE, AD.SWEEP: the active AD_IDXFN is a reserved code, which AD.CONFIGURE refuses (R111 check c). Safe. -/
  | reservedIndexing
  /-- CC.FILL: the metadata record names a line outside the configured tag array (R31). Safe. -/
  | lineOutOfRange
  /-- CC.FILL: the atomic marks a byte outside the line (R32). Safe. -/
  | byteOutOfRange
  /-- CC.NEXT: the head of READYQ is no MSHR key, or its list is empty (against R34). Safe. -/
  | readyEntryMissing
  deriving DecidableEq, Repr

/-- Why the model gives a command no meaning. -/
inductive Refusal where
  /-- Raised by an arm of `exec` that has no meaning yet; no arm does. Safe. -/
  | notModelled (mnemonic : String)
  deriving DecidableEq, Repr

/-- The three outcomes of a step of this machine. -/
abbrev Outcome := Host.Outcome State Fault Refusal

/-! ## Reset (R250, R251) -/

/-- Every decoder register 0. -/
def AdRegs.zero : AdRegs :=
  { maskChip := 0, maskBank := 0, maskRow := 0, maskCol := 0, maskBurst := 0, chipStart := 0, nchan := 0, nsub := 0,
    idxfn := 0, maskSel := 0 }

/-- Every cache register 0. -/
def CcRegs.zero : CcRegs :=
  { kind := 0, nsets := 0, lineSz := 0, assoc := 0, repl := 0, wpol := 0, apol := 0, walloc := 0, setIdx := 0,
    mshrType := 0, mshrEntries := 0, mshrMaxMerge := 0, mqSize := 0, rfifo := 0, portW := 0, sectorIncl := 0,
    blkSrc := 0, sectorSz := 0 }

/-- Every crossbar register 0. -/
def XbRegs.zero : XbRegs := { subnets := 0, nshader := 0, nmem := 0, vcs := 0, bufcap := 0, classes := 0 }

/-- The state after reset (R251). DESIGN CHOICE: the active copies, which R251 leaves unspecified and unreadable, hold 0
(log 4); no response has been given and no input is pending (logs 1, 2). -/
def State.reset : State where
  sys    := { fatal := false, cause := 0, info := 0 }
  ad     := { stage := .zero, diag := 0, configured := false, active := .zero }
  cc     := { stage := .zero, configured := false, active := .zero, lines := [], mshr := [], readyQ := [], mq := [],
              metaTab := [], dpBusy := 0, fpBusy := 0, now := 0 }
  xb     := { stage := .zero, configured := false, active := .zero, cells := [], turns := [] }
  rsp    := none
  inputs := []
  run    := 0

end Sys2Proof.Machine
end

