-- ==== Sys2Proof/Machine/Flags.lean ====
section
/-! DEFINITION. Codes and flags: status codes (30_encoding.md rule R84), the response word (R83) and its
serialisation (20_memory.md rule R63), fatal cause codes
(60_exceptions.md rule R221), the SYS_FATAL word (10_state.md rule R25) and the condition flags of R23. -/

namespace Sys2Proof.Machine

/-- The status codes of R84. -/
def Status.code : Status → BitVec 8
  | .ok                => 0x00
  | .fatalState        => 0x01
  | .illegalOp         => 0x02
  | .notConfigured     => 0x03
  | .alreadyConfigured => 0x04
  | .configInvalid     => 0x05
  | .badOperand        => 0x06
  | .badCsr            => 0x07
  | .refusedWrite      => 0x08
  | .diagDisabled      => 0x09
  | .fatalRaised       => 0x0A
  | .hit               => 0x10
  | .mshrHit           => 0x11
  | .miss              => 0x12
  | .mshrMergeFail     => 0x13
  | .mshrEntryFail     => 0x14
  | .missQueueFull     => 0x15
  | .lineAllocFail     => 0x16
  | .fillDone          => 0x18
  | .fillWait          => 0x19

/-- The 256-bit response word: status 7:0, aux 15:8, zero 63:16, q0 127:64, q1 191:128, q2 255:192 (R83). -/
def Rsp.word (r : Rsp) : RspWord := r.q2 ++ r.q1 ++ r.q0 ++ 0#48 ++ r.aux ++ r.status.code

/-- The 32 bytes of a response, lowest address first (R63). -/
def Rsp.bytes (r : Rsp) : List Byte := wordBytes 32 r.word

/-- The cause codes of R221. -/
def FatalCause.code : FatalCause → BitVec 8
  | .adOverlap      => 0x01
  | .adSweepFail    => 0x02
  | .ccFillNoMshr   => 0x03
  | .xbPushNoBuffer => 0x04

/-- SYS_FATAL: FATAL in bit 0, CAUSE in bits 15:8, others 0 (R25). -/
def SysState.fatalWord (y : SysState) : Reg64 := 0#48 ++ y.cause ++ 0#7 ++ BitVec.ofBool y.fatal

/-- A flag as a 64-bit register value: bit 0, others 0 (R30, R33, R36). -/
def flagReg (b : Bool) : Reg64 := 0#63 ++ BitVec.ofBool b

/-- A flag in `aux[0]`, others 0. -/
def auxBit0 (b : Bool) : BitVec 8 := 0#7 ++ BitVec.ofBool b

/-- "a port is 'free' exactly when its counter is zero": the data port (R23, R171). -/
def CcState.dpFree (cc : CcState) : Bool := cc.dpBusy == 0

/-- The fill port (R23, R171). -/
def CcState.fpFree (cc : CcState) : Bool := cc.fpBusy == 0

/-- MSHR access ready: READYQ is not empty (R23, R174). -/
def CcState.accessReady (cc : CcState) : Bool := !cc.readyQ.isEmpty

/-- The `aux` of CC.CYCLE: sent, data port busy, fill port busy in bits 0, 1, 2 (R170). -/
def cycleAux (sent dpBusy fpBusy : Bool) : BitVec 8 :=
  0#5 ++ BitVec.ofBool fpBusy ++ BitVec.ofBool dpBusy ++ BitVec.ofBool sent

end Sys2Proof.Machine
end

