-- ==== Sys2Proof/Machine/Ops.lean ====
section
/-! DEFINITION. The operations every command shares (00_scope.md rule R12): answering, rejecting, raising a fatal condition
(the trap entry of this hardware, 60_exceptions.md rule R222), and the checks that stand before a command's own rule
(R223). There is no return from the fatal state (R227); the reset pin is `State.resetPulse`. -/

namespace Sys2Proof.Machine

/-- Answer with a response and change nothing else. -/
def respond (r : Rsp) (s : State) : Outcome := .next { s with rsp := some r }

/-- `reject(status)`: end the operation with this status and no other state change (R12, R224). -/
def reject (st : Status) (s : State) : Outcome := respond { status := st } s

/-- `raise Fatal(cause, info)` (R222): SYS_FATAL and SYS_FATAL_INFO take the cause and the info, the response reports both,
nothing else changes. -/
def raiseFatal (c : FatalCause) (info : Reg64) (s : State) : Outcome :=
  .next { s with
    sys := { fatal := true, cause := c.code, info := info }
    rsp := some { status := .fatalRaised, q0 := c.code.setWidth 64, q1 := info } }

/-- R223 step 2: in the fatal state the command is rejected with FATAL_STATE; else it goes on. -/
def unlessFatal (s : State) (k : Outcome) : Outcome := if s.sys.fatal then reject .fatalState s else k

/-- The block-configured check that begins every operation of a block but its CONFIGURE (R116, R120, headers of
41_cache_engine.md and 42_crossbar.md). -/
def ifConfigured (configured : Bool) (s : State) (k : Outcome) : Outcome :=
  if configured then k else reject .notConfigured s

/-- The common beginning of every CC operation but CC.CONFIGURE. -/
def ccOp (s : State) (k : Outcome) : Outcome := unlessFatal s (ifConfigured s.cc.configured s k)

/-- The common beginning of every XB operation but XB.CONFIGURE. -/
def xbOp (s : State) (k : Outcome) : Outcome := unlessFatal s (ifConfigured s.xb.configured s k)

/-- End a cache operation: new cache state and response. -/
def finishCc (s : State) (cc : CcState) (r : Rsp) : Outcome := .next { s with cc := cc, rsp := some r }

/-- End a crossbar operation: new crossbar state and response. -/
def finishXb (s : State) (xb : XbState) (r : Rsp) : Outcome := .next { s with xb := xb, rsp := some r }

/-- R223 step 1, R88: an illegal command is answered ILLEGAL_OP, also in the fatal state; no state changes. -/
def rejectIllegal (s : State) : Outcome := reject .illegalOp s

/-- No input: the hardware performs an operation only when a command is presented (R2), so nothing happens (log 1). -/
def idle (s : State) : Outcome := .next s

/-- The state once the input at the head was presented and `rest` remains. -/
def State.withInputs (s : State) (rest : List EnvInput) : State := { s with inputs := rest }

/-- A pulse on the reset pin (R250): every piece of state takes its value of R251 and a new run begins, whose parameter
functions may differ (R9, W11). What the environment still has to present is not the hardware's to clear (log 5). -/
def State.resetPulse (s : State) : State := { State.reset with inputs := s.inputs, run := s.run + 1 }

end Sys2Proof.Machine
end

