-- ==== Sys2Proof/Config.lean ====
section
/-! DEFINITION. What the environment fixes for a whole run and the spec leaves open: the four parameter functions of
00_scope.md rule R9. Each is an opaque constant: a claim about the model holds whatever they are. -/

namespace Sys2Proof

/-- The parameter functions of one run, as plain total functions of naturals. The range `0..n-1` that R9 asks for is
imposed where they are applied (`ParamFns.ipoly` and its three companions), so every function into that range arises. -/
structure ParamFns where
  ipolyRaw  : Addr → Nat → Nat → Nat
  paeRaw    : Addr → Nat → Nat → Nat
  customRaw : Addr → Nat → Nat → Nat
  randRaw   : Addr → Nat → Nat

/-- `ipoly_fn(high, chip_raw, n) -> 0..n-1` (R9). -/
def ParamFns.ipoly (F : ParamFns) (high : Addr) (chipRaw n : Nat) : Nat := F.ipolyRaw high chipRaw n % n

/-- `pae_fn(high, chip_raw, n) -> 0..n-1` (R9). -/
def ParamFns.pae (F : ParamFns) (high : Addr) (chipRaw n : Nat) : Nat := F.paeRaw high chipRaw n % n

/-- `custom_fn(high, chip_raw, n) -> 0..n-1` (R9). -/
def ParamFns.custom (F : ParamFns) (high : Addr) (chipRaw n : Nat) : Nat := F.customRaw high chipRaw n % n

/-- `rand_fn(key, n) -> 0..n-1` (R9). -/
def ParamFns.rand (F : ParamFns) (key : Addr) (n : Nat) : Nat := F.randRaw key n % n

/-- The named property `IdxPerm(f)` of R9: for every `high` and `n` the map `chip_raw -> f(high, chip_raw, n)` permutes
`0..n-1` (stated as injectivity on that finite range, into itself). -/
def IdxPerm (f : Addr → Nat → Nat → Nat) : Prop :=
  ∀ (high : Addr) (n : Nat),
    (∀ c, c < n → f high c n < n) ∧ (∀ c d, c < n → d < n → f high c n = f high d n → c = d)

/-- `ipoly_fn` of the run with this number (R9, R251, W11: fixed within a run, may differ from run to run). Log 6. -/
opaque Config.ipolyRaw : Nat → Addr → Nat → Nat → Nat

/-- `pae_fn` of the run with this number (R9, R251, W11). Log 6. -/
opaque Config.paeRaw : Nat → Addr → Nat → Nat → Nat

/-- `custom_fn` of the run with this number (R9, R251, W11). Log 6. -/
opaque Config.customRaw : Nat → Addr → Nat → Nat → Nat

/-- `rand_fn` of the run with this number (R9, R251, W11). Log 6. -/
opaque Config.randRaw : Nat → Addr → Nat → Nat

/-- The parameter functions the environment chose for one run (R251). -/
def Config.params (run : Nat) : ParamFns where
  ipolyRaw  := Config.ipolyRaw run
  paeRaw    := Config.paeRaw run
  customRaw := Config.customRaw run
  randRaw   := Config.randRaw run

end Sys2Proof
end

