-- ==== Sys2Proof/Machine/Bits.lean ====
section
/-! DEFINITION. The integer primitives of 00_scope.md rule R11: ceil_div, popcount, is_pow2, next_pow2, log2c, pext, pdep,
and the saturating addition of 41_cache_engine.md rules R165, R166. -/

namespace Sys2Proof.Machine

/-- `ceil_div(a, b) = (a + b - 1) div b` (R11). -/
def ceilDiv (a b : Nat) : Nat := (a + b - 1) / b

/-- The number of 1 bits among the `w` low bits of `m`. -/
def popcountNat : Nat → Nat → Nat
  | 0, _     => 0
  | w + 1, m => if m = 0 then 0 else m % 2 + popcountNat w (m / 2)

/-- `popcount(m)`: the number of 1 bits of `m` (R11). -/
def popcount {w : Nat} (m : BitVec w) : Nat := popcountNat w m.toNat

/-- `is_pow2(n)`: `n >= 1` and `popcount(n) = 1` (R11). -/
def isPow2 (n : Nat) : Bool := 1 ≤ n && popcountNat (n.log2 + 1) n == 1

/-- `log2c(n)`: the `k` with `2^k = next_pow2(n)`, `log2c(1) = 0` (R11); for `n >= 1`. -/
def log2c (n : Nat) : Nat := if n ≤ 1 then 0 else (n - 1).log2 + 1

/-- `next_pow2(n)`: the least power of two `>= n`, for `n >= 1` (R11). -/
def nextPow2 (n : Nat) : Nat := 2 ^ log2c n

/-- `pext` on the `w` low bits of naturals: the bits of `v` at the 1 bits of `m`, closed up. -/
def pextNat : Nat → Nat → Nat → Nat
  | 0, _, _     => 0
  | w + 1, m, v => if m % 2 = 1 then v % 2 + 2 * pextNat w (m / 2) (v / 2) else pextNat w (m / 2) (v / 2)

/-- `pext(m, v)`: the bits of `v` at the 1 bits of the mask `m`, lowest first, as an unsigned number (R11). -/
def pext (m v : BitVec 64) : Nat := pextNat 64 m.toNat v.toNat

/-- `pdep` on the `w` low bits of naturals: bit `j` of `x` at the `j`-th 1 bit of `m`. -/
def pdepNat : Nat → Nat → Nat → Nat
  | 0, _, _     => 0
  | w + 1, m, x => if m % 2 = 1 then x % 2 + 2 * pdepNat w (m / 2) (x / 2) else 2 * pdepNat w (m / 2) x

/-- `pdep(m, x)`: the 64-bit value whose bit at the `j`-th 1 bit of `m` is bit `j` of `x`, other bits 0 (R11). -/
def pdep (m : BitVec 64) (x : Nat) : BitVec 64 := BitVec.ofNat 64 (pdepNat 64 m.toNat x)

/-- Add to a 64-bit counter, saturating at `2^64 - 1` (R165, R166, decision D37). -/
def satAdd (c : BitVec 64) (n : Nat) : BitVec 64 := BitVec.ofNat 64 (min (c.toNat + n) (2 ^ 64 - 1))

/-- Lower a counter by one, floored at zero (R167). -/
def decFloor (c : BitVec 64) : BitVec 64 := if c = 0 then c else c - 1

end Sys2Proof.Machine
end

