-- ==== Sys2Proof/Machine/AddressMap.lean ====
section
/-! DEFINITION. The pure functions of the Address Decoder: legality of a configuration (40_address_decoder.md rule R111),
derived constants (R112), channel split (R113), coordinate fields (R114), chip and sub-partition (R115), the partition
address (R120), and the sweep's predicates (R119, R122). Each takes the register copy it reads; the parameter functions of
00_scope.md rule R9 are an argument. -/

namespace Sys2Proof.Machine

/-! ## Checks of AD.CONFIGURE (R111) -/

/-- Step 2: the OR over all ten unordered pairs of the five masks of their intersections. -/
def AdRegs.overlap (c : AdRegs) : Reg64 :=
  (c.maskChip &&& c.maskBank) ||| (c.maskChip &&& c.maskRow) ||| (c.maskChip &&& c.maskCol) ||| (c.maskChip &&& c.maskBurst) |||
  (c.maskBank &&& c.maskRow) ||| (c.maskBank &&& c.maskCol) ||| (c.maskBank &&& c.maskBurst) |||
  (c.maskRow &&& c.maskCol) ||| (c.maskRow &&& c.maskBurst) ||| (c.maskCol &&& c.maskBurst)

/-- `n = AD_NCHAN` (R112). -/
def AdRegs.n (c : AdRegs) : Nat := c.nchan.toNat
/-- `s = AD_CHIP_START` (R112). -/
def AdRegs.s (c : AdRegs) : Nat := c.chipStart.toNat
/-- `m = AD_NSUB` (R112). -/
def AdRegs.m (c : AdRegs) : Nat := c.nsub.toNat
/-- `k = log2c(n)` (R112). -/
def AdRegs.k (c : AdRegs) : Nat := log2c c.n
/-- `j = log2c(m)` (R112). -/
def AdRegs.j (c : AdRegs) : Nat := log2c c.m
/-- `P = is_pow2(n)` (R112). -/
def AdRegs.p (c : AdRegs) : Bool := isPow2 c.n

/-- Step 3, checks a to g. -/
def AdRegs.legal (c : AdRegs) : Bool :=
  (1 ≤ c.n && c.n ≤ 65536) &&
  (isPow2 c.m && 1 ≤ c.m && c.m ≤ 256) &&
  c.idxfn.toNat ≤ 5 &&
  (popcount c.maskChip ≤ 32 && popcount c.maskBank ≤ 32 && popcount c.maskRow ≤ 32 && popcount c.maskCol ≤ 32 &&
    popcount c.maskBurst ≤ 32) &&
  c.s + c.k ≤ 64 &&
  (if c.p then c.maskChip == BitVec.ofNat 64 (c.n - 1) <<< c.s
   else c.maskChip == 0 && (c.idxfn == 0 || c.idxfn == 4 || c.idxfn == 5)) &&
  c.m ≤ 2 ^ popcount c.maskBank

/-! ## Derived constants (R112) -/

/-- `SUBMASK`: the `j` lowest 1 bits of the bank mask. -/
def AdRegs.subMask (c : AdRegs) : Reg64 := pdep c.maskBank (2 ^ c.j - 1)

/-- `U4`: the bits of the four fields other than the chip. -/
def AdRegs.u4 (c : AdRegs) : Reg64 := c.maskBank ||| c.maskRow ||| c.maskCol ||| c.maskBurst

/-- `U = U4 | MASK_CHIP`. -/
def AdRegs.u (c : AdRegs) : Reg64 := c.u4 ||| c.maskChip

/-! ## Channel split (R113) -/

/-- `chip_raw(a) = (a >> s) mod n`. -/
def AdRegs.chipRaw (c : AdRegs) (a : Addr) : Nat := (a >>> c.s).toNat % c.n

/-- `high(a) = (a >> s) div n`. -/
def AdRegs.high (c : AdRegs) (a : Addr) : Addr := BitVec.ofNat 64 ((a >>> c.s).toNat / c.n)

/-- `w(a)`: the address itself with `P`, else the compacted address `a'`. -/
def AdRegs.w (c : AdRegs) (a : Addr) : Addr :=
  if c.p then a else (c.high a <<< c.s) ||| (a &&& BitVec.ofNat 64 (2 ^ c.s - 1))

/-! ## Coordinates (R114, R115) -/

def AdRegs.bank  (c : AdRegs) (a : Addr) : Nat := pext c.maskBank (c.w a)
def AdRegs.row   (c : AdRegs) (a : Addr) : Nat := pext c.maskRow (c.w a)
def AdRegs.col   (c : AdRegs) (a : Addr) : Nat := pext c.maskCol (c.w a)
def AdRegs.burst (c : AdRegs) (a : Addr) : Nat := pext c.maskBurst (c.w a)

/-- The six indexing strategies of R30 and R115; codes 6 and 7 are reserved and refused by AD.CONFIGURE. -/
inductive Indexing where
  | consecutive | bitwisePermutation | ipoly | pae | random | custom | reserved
  deriving DecidableEq, Repr

/-- The strategy an AD_IDXFN value names (R30). -/
def AdRegs.indexing (c : AdRegs) : Indexing :=
  match c.idxfn with
  | 0#3 => .consecutive
  | 1#3 => .bitwisePermutation
  | 2#3 => .ipoly
  | 3#3 => .pae
  | 4#3 => .random
  | 5#3 => .custom
  | _   => .reserved

/-- `chip(a)` (R115). The value for the reserved codes is never used: AD.DECODE and AD.SWEEP stop before it (log 8). -/
def AdRegs.chip (F : ParamFns) (c : AdRegs) (a : Addr) : Nat :=
  match c.indexing with
  | .consecutive        => c.chipRaw a
  | .bitwisePermutation => c.chipRaw a ^^^ ((c.high a).toNat &&& (c.n - 1))
  | .ipoly              => F.ipoly (c.high a) (c.chipRaw a) c.n
  | .pae                => F.pae (c.high a) (c.chipRaw a) c.n
  | .random             => F.rand (a >>> c.s) c.n
  | .custom             => F.custom (c.high a) (c.chipRaw a) c.n
  | .reserved           => c.chipRaw a

/-- `sub(a) = chip(a) * m + (bank(a) & (m - 1))` (R115). -/
def AdRegs.sub (F : ParamFns) (c : AdRegs) (a : Addr) : Nat := c.chip F a * c.m + (c.bank a &&& (c.m - 1))

/-- The physical coordinate space: six naturals (20_memory.md rule R60). -/
structure Coord where
  chip  : Nat
  bank  : Nat
  row   : Nat
  col   : Nat
  burst : Nat
  sub   : Nat
  deriving DecidableEq, Repr

/-- `decode(address) -> DecodeResult` (R116). -/
def AdRegs.decode (F : ParamFns) (c : AdRegs) (a : Addr) : Coord :=
  { chip := c.chip F a, bank := c.bank a, row := c.row a, col := c.col a, burst := c.burst a, sub := c.sub F a }

/-- The response of AD.DECODE: chip, bank in q0, row, col in q1, burst, sub in q2, low half first (R116). -/
def Coord.rsp (d : Coord) : Rsp :=
  { status := .ok
    q0 := BitVec.ofNat 32 d.bank ++ BitVec.ofNat 32 d.chip
    q1 := BitVec.ofNat 32 d.col ++ BitVec.ofNat 32 d.row
    q2 := BitVec.ofNat 32 d.sub ++ BitVec.ofNat 32 d.burst }

/-! ## Partition address (R120) -/

/-- `partition_address(a)`: the chip and sub-partition bits removed and the rest closed up. -/
def AdRegs.partitionAddress (c : AdRegs) (a : Addr) : Addr :=
  BitVec.ofNat 64 (if c.p then pext (~~~(c.maskChip ||| c.subMask)) a else pext (~~~c.subMask) (c.w a))

/-! ## Sweep test (R119, R122) -/

/-- The bounds of R119 at one address. -/
def AdRegs.boundsOk (F : ParamFns) (c : AdRegs) (a : Addr) : Bool :=
  c.chip F a < c.n && c.sub F a < c.n * c.m && c.sub F a / c.m == c.chip F a && c.sub F a % c.m == c.bank a % c.m &&
  c.bank a < 2 ^ popcount c.maskBank && c.row a < 2 ^ popcount c.maskRow && c.col a < 2 ^ popcount c.maskCol &&
  c.burst a < 2 ^ popcount c.maskBurst

/-- `same_relevant(a, b)` (R122): the scheme-relevant bits of the two addresses agree. -/
def AdRegs.sameRelevant (c : AdRegs) (a b : Addr) : Bool :=
  if c.p then (a ^^^ b) &&& c.u == 0 else c.chipRaw a == c.chipRaw b && (c.w a ^^^ c.w b) &&& c.u4 == 0

/-- `a_i = base + i * stride` (R122). -/
def sweepAddr (base : Addr) (stride : BitVec 32) (i : Nat) : Addr := BitVec.ofNat 64 (base.toNat + i * stride.toNat)

/-- The sweep's assertion fails at index `t`: a bound, or an earlier address of the range with other relevant bits that
decodes alike (R122). -/
def AdRegs.sweepFailsAt (F : ParamFns) (c : AdRegs) (base : Addr) (stride : BitVec 32) (t : Nat) : Bool :=
  !c.boundsOk F (sweepAddr base stride t) ||
  (List.range t).any fun i =>
    c.decode F (sweepAddr base stride i) == c.decode F (sweepAddr base stride t) &&
    !c.sameRelevant (sweepAddr base stride i) (sweepAddr base stride t)

/-- The first index below `count` at which the sweep fails, if any (R122). -/
def AdRegs.sweepFailure (F : ParamFns) (c : AdRegs) (base : Addr) (stride : BitVec 32) (count : Nat) : Option Nat :=
  (List.range count).find? fun t => c.sweepFailsAt F base stride t

end Sys2Proof.Machine
end

