-- ==== Sys2Proof/Machine/TagArray.lean ====
section
/-! DEFINITION. The geometry of a configured cache (41_cache_engine.md rules R141 to R143), the tag array (10_state.md rules
R31, R32) and its procedures: probe (R144), tag_access (R145), tag_fill (R161), force_dirty (R162). -/

namespace Sys2Proof.Machine

/-! ## Geometry (R141) -/

/-- `L = CC_LINE_SZ`. -/
def CcRegs.lineBytes (c : CcRegs) : Nat := c.lineSz.toNat
/-- `S = CC_NSETS`. -/
def CcRegs.sets (c : CcRegs) : Nat := c.nsets.toNat
/-- `W = CC_ASSOC`. -/
def CcRegs.ways (c : CcRegs) : Nat := c.assoc.toNat
/-- `PW = CC_PORT_W`. -/
def CcRegs.portBytes (c : CcRegs) : Nat := c.portW.toNat
/-- `SS = CC_SECTOR_SZ`. -/
def CcRegs.sectorBytes (c : CcRegs) : Nat := c.sectorSz.toNat
/-- `T`: tag sectors per line. -/
def CcRegs.tagSectors (c : CcRegs) : Nat := if c.kind = 1 then c.lineBytes / c.sectorBytes else 1
/-- `TS = L div T`: the tag sector size, which is also the atom size (R143). -/
def CcRegs.tagSectorBytes (c : CcRegs) : Nat := c.lineBytes / c.tagSectors
/-- Allocation policy ON_MISS (R33). -/
def CcRegs.onMiss (c : CcRegs) : Bool := c.apol == 0
/-- Replacement policy LRU (R33); else FIFO. -/
def CcRegs.lru (c : CcRegs) : Bool := c.repl == 0

/-- `src(a)`: the request address, or the decoder's partition address of it (R141, R123). -/
def CcRegs.srcAddr (c : CcRegs) (ad : AdRegs) (a : Addr) : Addr := if c.blkSrc = 1 then ad.partitionAddress a else a

/-- `block_addr`, of an address already mapped by `src` (R141). -/
def CcRegs.blockAddr (c : CcRegs) (src : Addr) : Addr := src &&& ~~~(BitVec.ofNat 64 c.lineBytes - 1)

/-- `offset`, of an address already mapped by `src` (R141). -/
def CcRegs.offset (c : CcRegs) (src : Addr) : Nat := (src &&& (BitVec.ofNat 64 c.lineBytes - 1)).toNat

/-- The set a block address belongs to: `(block_addr div L) mod S` (R141, R161). -/
def CcRegs.setOf (c : CcRegs) (b : Addr) : Nat := b.toNat / c.lineBytes % c.sets

/-- `sm`: the tag sector mask of a request, of an address already mapped by `src` (R142). -/
def CcRegs.sectorMask (c : CcRegs) (src : Addr) : SectorMask :=
  if c.kind = 1 then 1#16 <<< (c.offset src / c.tagSectorBytes) else 1

/-- `mshr_addr`: the key of the MSHR entry, of an address already mapped by `src` (R143). -/
def CcRegs.mshrAddr (c : CcRegs) (src : Addr) : Addr := src &&& ~~~(BitVec.ofNat 64 c.tagSectorBytes - 1)

/-! ## Lines (R31, R32) -/

/-- The key of `LINE[set][way]`; a way index has 16 bits (R33). -/
def lineKey (set way : Nat) : Nat := set * 65536 + way

/-- `LINE[set][way]`. -/
def lineAt (lines : FMap Line) (set way : Nat) : Line := FMap.getD Line.empty (lineKey set way) lines

/-- `LINE[set][way] <- ln`. -/
def setLine (lines : FMap Line) (set way : Nat) (ln : Line) : FMap Line := FMap.put Line.empty (lineKey set way) ln lines

/-- Some sector has this status. -/
def Line.has (ln : Line) (v : SectorStatus) : Bool := (List.finRange 16).any fun k => ln.st[k] == v

/-- Some sector of the mask has this status. -/
def Line.hasIn (ln : Line) (sm : SectorMask) (v : SectorStatus) : Bool :=
  (List.finRange 16).any fun k => sm.getLsbD k && ln.st[k] == v

/-- Allocated: some `st[k] != INVALID` (R32). -/
def Line.allocated (ln : Line) : Bool := (List.finRange 16).any fun k => ln.st[k] != .invalid

/-- Reserved: some `st[k] = RESERVED` (R32). -/
def Line.isReserved (ln : Line) : Bool := ln.has .reserved

/-- Modified: some `st[k] = MODIFIED` (R32). -/
def Line.isModified (ln : Line) : Bool := ln.has .modified

/-- The sector statuses given by a function of the sector number. -/
@[irreducible] def sectorTable (f : Fin 16 → SectorStatus) : Vector SectorStatus 16 := Vector.ofFn f

/-- Change the status of the sectors of the mask, leave the others. -/
def Line.mapSectors (ln : Line) (sm : SectorMask) (f : SectorStatus → SectorStatus) : Line :=
  { ln with st := sectorTable fun k => if sm.getLsbD k then f ln.st[k] else ln.st[k] }

/-- `for k in sm: st[k] <- v`. -/
def Line.setSectors (ln : Line) (sm : SectorMask) (v : SectorStatus) : Line := ln.mapSectors sm fun _ => v

/-- The mask of the MODIFIED sectors (R145, R156). -/
def Line.modifiedSectors (ln : Line) : SectorMask :=
  BitVec.ofNat 16 (((List.finRange 16).map fun k => if ln.st[k] = .modified then 2 ^ k.val else 0).sum)

/-- A writeback report: block address, modified byte count, modified sectors (R145). -/
structure Writeback where
  addr    : Addr
  bytes   : Nat
  sectors : SectorMask
  deriving DecidableEq, Repr

/-- The writeback the eviction of this line reports: one exactly when the line is modified (R145, R161). -/
def Line.writeback (ln : Line) : Option Writeback :=
  if ln.isModified then some { addr := ln.tag, bytes := popcount ln.dirty, sectors := ln.modifiedSectors } else none

/-- `allocate(ln, b, sm)`: the sectors of `sm` RESERVED, the others INVALID, stamped with `now` (R145). -/
def Line.allocate (b : Addr) (sm : SectorMask) (now : BitVec 64) : Line :=
  { tag := b, st := sectorTable fun k => if sm.getLsbD k then .reserved else .invalid, dirty := 0, lastAccess := now,
    allocTime := now }

/-! ## Probe (R144) -/

/-- GCS's tag statuses, with the way each concerns; RESERVATION_FAIL names none. -/
inductive ProbeResult where
  | hit (way : Nat)
  | hitReserved (way : Nat)
  | miss (way : Nat)
  | sectorMiss (way : Nat)
  | reservationFail
  deriving DecidableEq, Repr

/-- The tag status code of `aux[2:0]` (R156). -/
def ProbeResult.code : ProbeResult → BitVec 3
  | .hit _           => 0
  | .hitReserved _   => 1
  | .miss _          => 2
  | .sectorMiss _    => 3
  | .reservationFail => 4

/-- The lowest way of the set whose line has the property. -/
def findWay (c : CcRegs) (lines : FMap Line) (set : Nat) (p : Line → Bool) : Option Nat :=
  (List.range c.ways).find? fun way => p (lineAt lines set way)

/-- The element with the least key; on equal keys the first of the list. -/
def leastBy (key : Nat → Nat) : List Nat → Option Nat
  | []      => none
  | x :: xs =>
    match leastBy key xs with
    | none   => some x
    | some y => if key x ≤ key y then some x else some y

/-- The replacement key of a way: `last_access` under LRU, `alloc_time` under FIFO (R144). -/
def replKey (c : CcRegs) (lines : FMap Line) (set way : Nat) : Nat :=
  if c.lru then (lineAt lines set way).lastAccess.toNat else (lineAt lines set way).allocTime.toNat

/-- The victim: among the ways whose line is not reserved the one with the least key, lowest way on ties (R144). -/
def victim (c : CcRegs) (lines : FMap Line) (set : Nat) : Option Nat :=
  leastBy (replKey c lines set) ((List.range c.ways).filter fun way => !(lineAt lines set way).isReserved)

/-- `probe(b, set, sm)`: reads the tag array and changes nothing (R144). -/
def probe (c : CcRegs) (lines : FMap Line) (b : Addr) (set : Nat) (sm : SectorMask) : ProbeResult :=
  match findWay c lines set fun ln => ln.allocated && ln.tag == b with
  | some way =>
    if (lineAt lines set way).hasIn sm .invalid then .sectorMiss way
    else if (lineAt lines set way).hasIn sm .reserved then .hitReserved way
    else .hit way
  | none =>
    match findWay c lines set fun ln => !ln.allocated with
    | some way => .miss way
    | none     =>
      match victim c lines set with
      | some way => .miss way
      | none     => .reservationFail

/-! ## tag_access (R145) -/

/-- `ln.last_access <- CC_NOW`. -/
def Line.touch (ln : Line) (now : BitVec 64) : Line := { ln with lastAccess := now }

/-- The writeback `tag_access` reports for a probe result: that of the line a MISS replaces under ON_MISS. -/
def accessWriteback (c : CcRegs) (lines : FMap Line) (set : Nat) : ProbeResult → Option Writeback
  | .miss way => if c.onMiss then (lineAt lines set way).writeback else none
  | .hit _ | .hitReserved _ | .sectorMiss _ | .reservationFail => none

/-- The tag array after `tag_access(b, set, sm)` with this probe result. -/
def accessLines (c : CcRegs) (now : BitVec 64) (lines : FMap Line) (b : Addr) (set : Nat) (sm : SectorMask) :
    ProbeResult → FMap Line
  | .hit way | .hitReserved way => setLine lines set way ((lineAt lines set way).touch now)
  | .miss way => if c.onMiss then setLine lines set way (Line.allocate b sm now) else lines
  | .sectorMiss way =>
    if c.onMiss then setLine lines set way (((lineAt lines set way).setSectors sm .reserved).touch now) else lines
  | .reservationFail => lines

/-! ## tag_fill (R161) and force_dirty (R162) -/

/-- What `tag_fill` answers: the line written, if any, the writeback, and the tag array. -/
structure FillResult where
  place : Option (Nat × Nat)
  wb    : Option Writeback
  lines : FMap Line
  deriving DecidableEq, Repr

/-- VALID unless MODIFIED (R161). -/
def validUnlessModified (v : SectorStatus) : SectorStatus := if v = .modified then .modified else .valid

/-- `tag_fill(e)`: by the reserved index under ON_MISS, by a new probe of the block address under ON_FILL (R161). -/
def tagFill (c : CcRegs) (now : BitVec 64) (lines : FMap Line) (e : MetaRec) : FillResult :=
  if c.onMiss then
    { place := some (e.set, e.way), wb := none
      lines := setLine lines e.set e.way ((lineAt lines e.set e.way).setSectors e.smask .valid) }
  else
    let set := c.setOf e.blockAddr
    match probe c lines e.blockAddr set e.smask with
    | .miss way =>
      { place := some (set, way), wb := (lineAt lines set way).writeback
        lines := setLine lines set way ((Line.allocate e.blockAddr e.smask now).setSectors e.smask .valid) }
    | .sectorMiss way | .hitReserved way =>
      { place := some (set, way), wb := none
        lines := setLine lines set way (((lineAt lines set way).mapSectors e.smask validUnlessModified).touch now) }
    | .hit way => { place := some (set, way), wb := none, lines := lines }
    | .reservationFail => { place := none, wb := none, lines := lines }

/-- The mask of the bytes `o .. o + n - 1` of a line. -/
@[irreducible] def byteRange (o n : Nat) : ByteMask := ((1#4096 <<< n) - 1#4096) <<< o

/-- A line whose sectors `sm` a satisfied atomic forces MODIFIED, bytes `o .. o + n - 1` marked dirty (R162). -/
def Line.markAtomic (ln : Line) (sm : SectorMask) (o n : Nat) : Line :=
  { ln.setSectors sm .modified with dirty := ln.dirty ||| byteRange o n }

/-- `force_dirty(e, way)`, `o` being the offset of the original address: nothing when no line was written (R162). -/
def forceDirty (lines : FMap Line) (e : MetaRec) (o : Nat) : Option (Nat × Nat) → FMap Line
  | some (set, way) => setLine lines set way ((lineAt lines set way).markAtomic e.smask o e.origSize.toNat)
  | none            => lines

end Sys2Proof.Machine
end

