-- ==== Sys2Proof/Machine/CacheEngine.lean ====
section
/-! DEFINITION. The Cache Tag/Bandwidth Engine operations of 41_cache_engine.md: CC.CONFIGURE (R140), CC.ACCESS (R150 to
R157), CC.FILL (R160), CC.CYCLE (R170), CC.DPFREE, CC.FPFREE, CC.READY, CC.NEXT, CC.MQHEAD (R172 to R176), and the bandwidth
procedures use_data_port, use_fill_port, replenish_port_bandwidth (R165 to R167). -/

namespace Sys2Proof.Machine

/-! ## CC.CONFIGURE (R140) -/

/-- Step 2: the legality checks, which need the decoder configured when CC_BLKSRC = 1. -/
def CcRegs.legal (c : CcRegs) (adConfigured : Bool) : Bool :=
  1 ≤ c.sets && (isPow2 c.lineBytes && c.lineBytes ≤ 4096) && 1 ≤ c.ways && c.wpol.toNat ≤ 4 && c.apol.toNat ≤ 1 &&
  c.setIdx == 0 && c.mshrType.toNat ≤ 1 && 1 ≤ c.mshrMaxMerge.toNat && 1 ≤ c.portBytes &&
  (isPow2 c.sectorBytes && c.sectorBytes ≤ c.lineBytes) &&
  (c.kind != 1 || c.lineBytes / c.sectorBytes ≤ 16) &&
  (c.blkSrc != 1 || adConfigured)

/-- Step 3: commit the staging copy; empty tag array, tables and queues; free ports. CC_NOW is not reset. -/
def CcState.commit (cc : CcState) : CcState :=
  { cc with
    active := cc.stage, configured := true, lines := [], mshr := [], readyQ := [], mq := [], metaTab := [], dpBusy := 0,
    fpBusy := 0 }

/-- CC.CONFIGURE (R140). -/
def execCcConfigure (s : State) : Outcome :=
  unlessFatal s <|
    if s.cc.configured then reject .alreadyConfigured s
    else if s.cc.stage.legal s.ad.configured then finishCc s s.cc.commit { status := .ok }
    else reject .configInvalid s

/-! ## Bandwidth procedures (R165 to R167) -/

/-- The cycles `use_data_port(size, ts, wb)` charges (R165). -/
def dataPortCharge (c : CcRegs) (size : ReqSize) (wb : Option Writeback) : ProbeResult → Nat
  | .hit _ => ceilDiv size.toNat c.portBytes
  | .miss _ | .hitReserved _ =>
    match wb with
    | some v => ceilDiv v.bytes c.portBytes
    | none   => 0
  | .sectorMiss _ | .reservationFail => 0

/-- `use_data_port`: the charge is added to the counter, saturating (R165). -/
def CcState.useDataPort (cc : CcState) (n : Nat) : CcState := { cc with dpBusy := satAdd cc.dpBusy n }

/-- `use_fill_port()`: `L div PW` cycles are added to the counter, saturating (R166). -/
def CcState.useFillPort (cc : CcState) : CcState :=
  { cc with fpBusy := satAdd cc.fpBusy (cc.active.lineBytes / cc.active.portBytes) }

/-- `replenish_port_bandwidth()` (R167). -/
def CcState.replenish (cc : CcState) : CcState := { cc with dpBusy := decFloor cc.dpBusy, fpBusy := decFloor cc.fpBusy }

/-! ## MSHR predicates (R146) -/

/-- `mshr_hit(key)`. -/
def CcState.mshrHit (cc : CcState) (key : Addr) : Bool := cc.mshr.has key.toNat

/-- `merge_room`, of the entry at the key. -/
def MshrEntry.mergeRoom (e : MshrEntry) (c : CcRegs) : Bool := !e.ready && e.list.length < c.mshrMaxMerge.toNat

/-- `table_room`. -/
def CcState.tableRoom (cc : CcState) : Bool := cc.mshr.length < cc.active.mshrEntries.toNat

/-- `mq_room`. -/
def CcState.mqRoom (cc : CcState) : Bool := cc.mq.length < cc.active.mqSize.toNat

/-! ## CC.ACCESS (R150 to R157) -/

/-- A read request that passed the checks of R150, `src` being its address mapped by `src(a)`. -/
structure ReadReq where
  src    : Addr
  addr   : Addr
  size   : ReqSize
  id     : ReqId
  atomic : Bool
  deriving DecidableEq, Repr

/-- `b`, `set`, `sm`, `key` of R150. -/
def ReadReq.block (r : ReadReq) (c : CcRegs) : Addr := c.blockAddr r.src
def ReadReq.set (r : ReadReq) (c : CcRegs) : Nat := c.setOf (r.block c)
def ReadReq.sm (r : ReadReq) (c : CcRegs) : SectorMask := c.sectorMask r.src
def ReadReq.key (r : ReadReq) (c : CcRegs) : Addr := c.mshrAddr r.src

/-- R150 step 2: size 0, a request that crosses its tag sector, a wrong sector mask when there are
several tag sectors (log 13), or an id in META. -/
def accessOperandBad (cc : CcState) (smask : SectorMask) (r : ReadReq) : Bool :=
  r.size == 0 || cc.active.offset r.src % cc.active.tagSectorBytes + r.size.toNat > cc.active.tagSectorBytes ||
  (decide (cc.active.tagSectors > 1) && smask != r.sm cc.active) || cc.metaTab.has r.id.toNat

/-- The probe that begins the classification (R150 step 3). -/
def CcState.probeFor (cc : CcState) (r : ReadReq) : ProbeResult :=
  probe cc.active cc.lines (r.block cc.active) (r.set cc.active) (r.sm cc.active)

/-- The response of CC.ACCESS: tag status in aux[2:0], writeback flag in aux[3], writeback in q0 and q1, the cycles added
to DP_BUSY in q2 (R156). -/
def accessRsp (st : Status) (ts : ProbeResult) (wb : Option Writeback) (added : BitVec 64) : Rsp :=
  match wb with
  | none   => { status := st, aux := 0#5 ++ ts.code, q2 := added }
  | some v => { status := st, aux := 0#4 ++ 1#1 ++ ts.code, q0 := v.addr, q1 := 0#16 ++ v.sectors ++ BitVec.ofNat 32 v.bytes,
                q2 := added }

/-- What an accepted request does to the tag array and the data port: `tag_access` and `use_data_port` (R151, R153, R154). -/
def CcState.recordAccess (cc : CcState) (r : ReadReq) : CcState :=
  { cc with
    lines  := accessLines cc.active cc.now cc.lines (r.block cc.active) (r.set cc.active) (r.sm cc.active) (cc.probeFor r)
    dpBusy := satAdd cc.dpBusy (dataPortCharge cc.active r.size
                (accessWriteback cc.active cc.lines (r.set cc.active) (cc.probeFor r)) (cc.probeFor r)) }

/-- The response of an accepted request; `q2` is by how much DP_BUSY grew (R156, log 7). -/
def CcState.acceptedRsp (cc : CcState) (st : Status) (r : ReadReq) : Rsp :=
  accessRsp st (cc.probeFor r) (accessWriteback cc.active cc.lines (r.set cc.active) (cc.probeFor r))
    ((cc.recordAccess r).dpBusy - cc.dpBusy)

/-- `pending_init(size)`: the CC.FILL responses owed for a miss (R157). -/
def CcRegs.pendingInit (c : CcRegs) (size : ReqSize) : Nat :=
  if c.mshrType = 0 then 1 else max 1 (ceilDiv size.toNat c.sectorBytes)

/-- The way a probe result names, 0 for RESERVATION_FAIL, which R154 never stores. -/
def ProbeResult.way : ProbeResult → Nat
  | .hit way | .hitReserved way | .miss way | .sectorMiss way => way
  | .reservationFail => 0

/-- `META[id]` of a miss (R154). -/
def CcState.newMeta (cc : CcState) (r : ReadReq) : MetaRec :=
  { mshrAddr := r.key cc.active, blockAddr := r.block cc.active, origAddr := r.addr, origSize := r.size,
    set := r.set cc.active, way := (cc.probeFor r).way, smask := r.sm cc.active, pending := cc.active.pendingInit r.size }

/-- GCS step 2: append the request to the entry at its key (R153). -/
def CcState.merge (cc : CcState) (r : ReadReq) (e : MshrEntry) : CcState :=
  { cc.recordAccess r with
    mshr := cc.mshr.insert (r.key cc.active).toNat
      { e with list := e.list ++ [r.id], hasAtomic := e.hasAtomic || r.atomic } }

/-- GCS step 3: new MSHR entry, new metadata record, new miss-queue record (R154). -/
def CcState.startMiss (cc : CcState) (r : ReadReq) : CcState :=
  { cc.recordAccess r with
    mshr    := cc.mshr.insert (r.key cc.active).toNat { list := [r.id], hasAtomic := r.atomic, ready := false }
    metaTab := cc.metaTab.insert r.id.toNat (cc.newMeta r)
    mq      := cc.mq ++ [{ id := r.id, addr := r.key cc.active, size := BitVec.ofNat 32 cc.active.tagSectorBytes,
                           isWrite := false }] }

/-- The classification of R150 step 3: HIT (R151), LINE_ALLOC_FAIL (R152), MSHR hit (R153), MSHR miss (R154). -/
def CcState.classify (cc : CcState) (r : ReadReq) : CcState × Rsp :=
  match cc.probeFor r with
  | .hit _ => (cc.recordAccess r, cc.acceptedRsp .hit r)
  | .reservationFail => (cc, accessRsp .lineAllocFail .reservationFail none 0)
  | ts =>
    match cc.mshr.lookup (r.key cc.active).toNat with
    | some e =>
      if e.mergeRoom cc.active then (cc.merge r e, cc.acceptedRsp .mshrHit r)
      else (cc, accessRsp .mshrMergeFail ts none 0)
    | none =>
      if cc.mqRoom = false then (cc, accessRsp .missQueueFull ts none 0)
      else if cc.tableRoom = false then (cc, accessRsp .mshrEntryFail ts none 0)
      else (cc.startMiss r, cc.acceptedRsp .miss r)

/-- CC.ACCESS (R150). With CC_BLKSRC = 1 `src(a)` reads the decoder's active copy (R141, R123), whatever it holds (log 4). -/
def execCcAccess (isWrite isAtomic : Bool) (smask : SectorMask) (addr : Addr) (id : ReqId) (size : ReqSize) (s : State) :
    Outcome :=
  ccOp s <|
    if isWrite then reject .refusedWrite s
    else
      let r : ReadReq := { src := s.cc.active.srcAddr s.ad.active addr, addr := addr, size := size, id := id, atomic := isAtomic }
      if accessOperandBad s.cc smask r then reject .badOperand s
      else finishCc s (s.cc.classify r).1 (s.cc.classify r).2

/-! ## CC.FILL (R160) -/

/-- The response of a completing fill: the logical request id and the writeback, if any (R160). -/
def fillRsp (r : ReqId) : Option Writeback → Rsp
  | none   => { status := .fillDone, q0 := r.setWidth 64 }
  | some v => { status := .fillDone, aux := 8#8, q0 := r.setWidth 64, q1 := 0#16 ++ v.sectors ++ BitVec.ofNat 32 v.bytes,
                q2 := v.addr }

/-- One more response of a split request arrived, others are still owed (R160). -/
def CcState.waitFill (cc : CcState) (r : ReqId) (e : MetaRec) : CcState :=
  { cc with metaTab := cc.metaTab.insert r.toNat { e with pending := e.pending - 1 } }

/-- The tag array after a completing fill: `tag_fill`, then `force_dirty` if the entry holds an atomic (R160 to R162). -/
def CcState.filledLines (cc : CcState) (e : MetaRec) (m : MshrEntry) (o : Nat) : FMap Line :=
  let f := tagFill cc.active cc.now cc.lines e
  if m.hasAtomic then forceDirty f.lines e o f.place else f.lines

/-- The completing fill: tag array, entry ready and queued, metadata record removed, fill port charged (R160). -/
def CcState.completeFill (cc : CcState) (r : ReqId) (e : MetaRec) (m : MshrEntry) (o : Nat) : CcState :=
  { cc with
    lines   := cc.filledLines e m o
    mshr    := cc.mshr.insert e.mshrAddr.toNat { m with ready := true }
    readyQ  := cc.readyQ ++ [e.mshrAddr]
    metaTab := cc.metaTab.erase r.toNat }.useFillPort

/-- The fill of a request whose metadata record and MSHR entry exist: it waits while more than one response is owed. The two faults are raised only in states no run
reaches: under ON_MISS the record names an existing line, and the request's bytes lie in its line (log 8). -/
def fillFound (s : State) (r : ReqId) (e : MetaRec) (m : MshrEntry) : Outcome :=
  let cc := s.cc
  if e.pending > 1 then
    finishCc s (cc.waitFill r e) { status := .fillWait, q0 := r.setWidth 64, q1 := BitVec.ofNat 64 (e.pending - 1) }
  else if cc.active.onMiss ∧ ¬(e.set < cc.active.sets ∧ e.way < cc.active.ways) then .fault .lineOutOfRange
  else
    let o := cc.active.offset (cc.active.srcAddr s.ad.active e.origAddr)
    if m.hasAtomic ∧ o + e.origSize.toNat > cc.active.lineBytes then .fault .byteOutOfRange
    else finishCc s (cc.completeFill r e m o) (fillRsp r (tagFill cc.active cc.now cc.lines e).wb)

/-- CC.FILL (R160): both existence checks come before any change; a missing record or entry is fatal. -/
def execCcFill (hasParent : Bool) (id parent : ReqId) (s : State) : Outcome :=
  ccOp s <|
    let r := if hasParent then parent else id
    match s.cc.metaTab.lookup r.toNat with
    | none   => raiseFatal .ccFillNoMshr (r.setWidth 64) s
    | some e =>
      match s.cc.mshr.lookup e.mshrAddr.toNat with
      | none   => raiseFatal .ccFillNoMshr (r.setWidth 64) s
      | some m => fillFound s r e m

/-! ## CC.CYCLE and the queries (R170 to R176) -/

/-- `{ r.size, r.id }`: id in the low half, size in the high half (R170, R176). -/
def MqRec.idSize (r : MqRec) : Reg64 := r.size ++ r.id

/-- CC_NOW advances, wrapping, and the ports are replenished (R170, R167). -/
def CcState.tick (cc : CcState) : CcState := { cc.replenish with now := cc.now + 1 }

/-- CC.CYCLE (R170): hand off the miss-queue head when the downstream has capacity, sample the ports, replenish. -/
def execCcCycle (dsOk : Bool) (s : State) : Outcome :=
  ccOp s <|
    let dp := !s.cc.dpFree
    let fp := !s.cc.fpFree
    match s.cc.mq, dsOk with
    | r :: rest, true =>
      finishCc s { s.cc with mq := rest }.tick { status := .ok, aux := cycleAux true dp fp, q0 := r.addr, q1 := r.idSize }
    | _, _ => finishCc s s.cc.tick { status := .ok, aux := cycleAux false dp fp }

/-- CC.DPFREE (R172). -/
def execCcDpfree (s : State) : Outcome := ccOp s <| respond { status := .ok, aux := auxBit0 s.cc.dpFree } s

/-- CC.FPFREE (R173). -/
def execCcFpfree (s : State) : Outcome := ccOp s <| respond { status := .ok, aux := auxBit0 s.cc.fpFree } s

/-- CC.READY (R174). -/
def execCcReady (s : State) : Outcome := ccOp s <| respond { status := .ok, aux := auxBit0 s.cc.accessReady } s

/-- The cache state after one request of the entry `m` at the head of READYQ was handed back (R175). -/
def CcState.handBack (cc : CcState) (key : Addr) (keys : List Addr) (m : MshrEntry) (rest : List ReqId) : CcState :=
  if rest = [] then { cc with mshr := cc.mshr.erase key.toNat, readyQ := keys }
  else { cc with mshr := cc.mshr.insert key.toNat { m with list := rest } }

/-- CC.NEXT (R175): one request id per command, in list order; the entry leaves when its list is empty. -/
def execCcNext (s : State) : Outcome :=
  ccOp s <|
    match s.cc.readyQ with
    | []          => respond { status := .ok, aux := 0 } s
    | key :: keys =>
      match s.cc.mshr.lookup key.toNat with
      | none   => .fault .readyEntryMissing
      | some m =>
        match m.list with
        | []         => .fault .readyEntryMissing
        | id :: rest =>
          finishCc s (s.cc.handBack key keys m rest) { status := .ok, aux := 1, q0 := id.setWidth 64, q1 := key }

/-- CC.MQHEAD (R176). -/
def execCcMqhead (s : State) : Outcome :=
  ccOp s <|
    match s.cc.mq with
    | []     => respond { status := .ok, aux := 0 } s
    | r :: _ =>
      respond { status := .ok, aux := 0#6 ++ BitVec.ofBool r.isWrite ++ 1#1, q0 := r.addr, q1 := r.idSize } s

end Sys2Proof.Machine
end

