-- ==== Sys2Proof/Machine/Crossbar.lean ====
section
/-! DEFINITION. The Interconnect Crossbar operations of 42_crossbar.md: XB.CONFIGURE (R190), XB.HASBUF (R194), XB.PUSH
(R195), XB.POP (R196), XB.ADVANCE (R198), XB.BUSY (R199), over the queue cells and turn pointers of 10_state.md rule
R37. -/

namespace Sys2Proof.Machine

/-! ## Topology (R190 to R193) -/

/-- `nodes = XB_NSHADER + XB_NMEM` (R36). -/
def XbRegs.nodes (c : XbRegs) : Nat := c.nshader.toNat + c.nmem.toNat
/-- `V = XB_VCS`. -/
def XbRegs.channels (c : XbRegs) : Nat := c.vcs.toNat
/-- `CAP = XB_BUFCAP`. -/
def XbRegs.capacity (c : XbRegs) : Nat := c.bufcap.toNat
/-- Device `d` is node `d`, valid when `d < nodes` (R191). -/
def XbRegs.validNode (c : XbRegs) (d : NodeId) : Bool := d.toNat < c.nodes

/-- The legality checks of XB.CONFIGURE step 2 (R190). -/
def XbRegs.legal (c : XbRegs) : Bool :=
  c.subnets != 0 && c.nodes != 0 && c.nodes ≤ 65535 && c.vcs != 0 && c.classes != 0

/-- The subnet a source sends on, used by XB.HASBUF and XB.PUSH (R192). -/
def XbRegs.injectSubnet (c : XbRegs) (src : NodeId) : Nat :=
  if c.subnets = 1 then 0 else if src.toNat < c.nshader.toNat then 0 else 1

/-- The subnet a device receives on, used by XB.POP: the inverted comparison (R192). -/
def XbRegs.ejectSubnet (c : XbRegs) (dev : NodeId) : Nat :=
  if c.subnets = 1 then 0 else if dev.toNat < c.nshader.toNat then 1 else 0

/-! ## Cells and turn pointers (R37) -/

/-- The key of `Q[s][d][c][v]`; a subnet, class and channel index have 8 bits, a node index 16 (R36). -/
def cellKey (s d c v : Nat) : Nat := ((s * 65536 + d) * 256 + c) * 256 + v

/-- The key of `TURN[s][d]`. -/
def turnKey (s d : Nat) : Nat := s * 65536 + d

/-- `Q[s][d][c][v]`. -/
def XbState.cell (xb : XbState) (s d c v : Nat) : List Payload := FMap.getD [] (cellKey s d c v) xb.cells

/-- `Q[s][d][c][v] <- q`. -/
def XbState.setCell (xb : XbState) (s d c v : Nat) (q : List Payload) : XbState :=
  { xb with cells := FMap.put [] (cellKey s d c v) q xb.cells }

/-- `TURN[s][d]`. -/
def XbState.turn (xb : XbState) (s d : Nat) : Nat := FMap.getD 0 (turnKey s d) xb.turns

/-- `TURN[s][d] <- t`. -/
def XbState.setTurn (xb : XbState) (s d t : Nat) : XbState := { xb with turns := FMap.put 0 (turnKey s d) t xb.turns }

/-- `depth(s, d, c)`: the payloads queued there, over all virtual channels (R37). -/
def XbState.depth (xb : XbState) (s d c : Nat) : Nat :=
  ((List.range xb.active.channels).map fun v => (xb.cell s d c v).length).sum

/-! ## Operations -/

/-- XB.CONFIGURE step 3: commit the staging copy, every cell empty, every turn pointer 0 (R190). -/
def XbState.commit (xb : XbState) : XbState := { xb with active := xb.stage, configured := true, cells := [], turns := [] }

/-- XB.CONFIGURE (R190). -/
def execXbConfigure (s : State) : Outcome :=
  unlessFatal s <|
    if s.xb.configured then reject .alreadyConfigured s
    else if s.xb.stage.legal then finishXb s s.xb.commit { status := .ok }
    else reject .configInvalid s

/-- R191: an operand device index that is no node is BAD_OPERAND. -/
def ifNodes (ds : List NodeId) (s : State) (k : Outcome) : Outcome :=
  if ds.all s.xb.active.validNode then k else reject .badOperand s

/-- XB.HASBUF (R194): is there room at the destination, on the subnet of the source, class 0 (R193). The payload and size
operands are read by no rule (W4). -/
def execXbHasbuf (src dst : NodeId) (_payload : Payload) (_size : ReqSize) (s : State) : Outcome :=
  xbOp s <| ifNodes [src, dst] s <|
    let depth := s.xb.depth (s.xb.active.injectSubnet src) dst.toNat 0
    respond { status := .ok, aux := auxBit0 (depth < s.xb.active.capacity), q0 := BitVec.ofNat 64 depth } s

/-- `push_back(Q[s][d][0][0], payload)`: new payloads enter class 0, virtual channel 0 (R195, R193). -/
def XbState.push (xb : XbState) (s d : Nat) (payload : Payload) : XbState :=
  xb.setCell s d 0 0 (xb.cell s d 0 0 ++ [payload])

/-- XB.PUSH (R195): a push to a destination at capacity is fatal. -/
def execXbPush (src dst : NodeId) (payload : Payload) (_size : ReqSize) (s : State) : Outcome :=
  xbOp s <| ifNodes [src, dst] s <|
    let sub := s.xb.active.injectSubnet src
    if s.xb.depth sub dst.toNat 0 ≥ s.xb.active.capacity then raiseFatal .xbPushNoBuffer (0#32 ++ src ++ dst) s
    else finishXb s (s.xb.push sub dst.toNat payload) { status := .ok }

/-- The virtual channel XB.POP serves: the first nonempty one from the turn pointer on, wrapping (R196). -/
def XbState.served (xb : XbState) (s d : Nat) : Option Nat :=
  ((List.range xb.active.channels).map fun i => (xb.turn s d + i) % xb.active.channels).find? fun v => xb.cell s d 0 v != []

/-- The crossbar after channel `v` of `(s, d)` was served, leaving `rest` in its cell (R196). -/
def XbState.popped (xb : XbState) (s d v : Nat) (rest : List Payload) : XbState :=
  (xb.setCell s d 0 v rest).setTurn s d ((v + 1) % xb.active.channels)

/-- XB.POP (R196). -/
def execXbPop (dev : NodeId) (s : State) : Outcome :=
  xbOp s <| ifNodes [dev] s <|
    let sub := s.xb.active.ejectSubnet dev
    match s.xb.served sub dev.toNat with
    | none   => respond { status := .ok, aux := 0 } s
    | some v =>
      match s.xb.cell sub dev.toNat 0 v with
      | []        => respond { status := .ok, aux := 0 } s
      | p :: rest =>
        finishXb s (s.xb.popped sub dev.toNat v rest) { status := .ok, aux := 1, q0 := p, q1 := BitVec.ofNat 64 v }

/-- XB.ADVANCE (R198): a no-op placeholder, behind the common checks (log 10). -/
def execXbAdvance (s : State) : Outcome := xbOp s <| respond { status := .ok } s

/-- XB.BUSY (R199): always not busy, behind the common checks (log 10). -/
def execXbBusy (s : State) : Outcome := xbOp s <| respond { status := .ok, aux := 0 } s

end Sys2Proof.Machine
end

