-- ==== Sys2Proof/Machine/Decoder.lean ====
section
/-! DEFINITION. The Address Decoder operations of 40_address_decoder.md: AD.CONFIGURE (R111), AD.DECODE (R116), AD.PADDR
(R120), AD.SWEEP (R122). -/

namespace Sys2Proof.Machine

/-- The active copy takes the staging values and the decoder becomes configured (R111 step 4). -/
def AdState.commit (ad : AdState) : AdState := { ad with active := ad.stage, configured := true }

/-- AD.CONFIGURE (R111): ALREADY_CONFIGURED, then the overlap of the masks (fatal), then the legality checks, then commit. -/
def execAdConfigure (s : State) : Outcome :=
  unlessFatal s <|
    if s.ad.configured then reject .alreadyConfigured s
    else if s.ad.stage.overlap ≠ 0 then raiseFatal .adOverlap s.ad.stage.overlap s
    else if s.ad.stage.legal then .next { s with ad := s.ad.commit, rsp := some { status := .ok } }
    else reject .configInvalid s

/-- The reserved indexing codes have no formula (R30, R115); AD.CONFIGURE refuses them (R111 check c), so the fault is
raised only in states no run reaches (log 8). -/
def withIndexing (s : State) (k : Outcome) : Outcome :=
  if s.ad.active.indexing = .reserved then .fault .reservedIndexing else k

/-- AD.DECODE (R116): total on every address, no state written. -/
def execAdDecode (addr : Addr) (s : State) : Outcome :=
  unlessFatal s <| ifConfigured s.ad.configured s <| withIndexing s <|
    respond (s.ad.active.decode (Config.params s.run) addr).rsp s

/-- AD.PADDR (R120): independent of the indexing strategy, no state written. -/
def execAdPaddr (addr : Addr) (s : State) : Outcome :=
  unlessFatal s <| ifConfigured s.ad.configured s <|
    respond { status := .ok, q0 := s.ad.active.partitionAddress addr } s

/-- AD.SWEEP (R122): DIAG_DISABLED, NOT_CONFIGURED, BAD_OPERAND in this order, then the first failing address is fatal. -/
def execAdSweep (base : Addr) (count stride : BitVec 32) (s : State) : Outcome :=
  unlessFatal s <|
    if s.ad.diag = 0 then reject .diagDisabled s
    else ifConfigured s.ad.configured s <|
      if count = 0 ∨ stride = 0 ∨ base.toNat + (count.toNat - 1) * stride.toNat ≥ 2 ^ 64 then reject .badOperand s
      else withIndexing s <|
        match s.ad.active.sweepFailure (Config.params s.run) base stride count.toNat with
        | some t => raiseFatal .adSweepFail (sweepAddr base stride t) s
        | none   => respond { status := .ok, q0 := count.setWidth 64 } s

end Sys2Proof.Machine
end

