-- ==== Sys2Proof/Machine/Operands.lean ====
section
/-! DEFINITION. The operands a command can name: the control and status registers (10_state.md rules R24, R25, R30, R33,
R36; 43_system_ops.md rules R211, R212) with their address map, access kinds, and the one read and the one write. -/

namespace Sys2Proof.Machine

/-- The implemented control and status registers, in ascending address order. -/
inductive Csr where
  | sysId | sysFatal | sysFatalInfo
  | adCtrl | adMaskChip | adMaskBank | adMaskRow | adMaskCol | adMaskBurst | adChipStart | adNchan | adNsub | adIdxfn | adMasksel | adDiag
  | ccCtrl | ccKind | ccNsets | ccLineSz | ccAssoc | ccRepl | ccWpol | ccApol | ccWalloc | ccSetidx | ccMshrType | ccMshrEntries | ccMshrMaxMerge | ccMqSize | ccRfifo | ccPortW | ccSectorIncl | ccBlksrc | ccSectorSz | ccDpBusy | ccFpBusy | ccMqLen | ccMshrLen | ccNowR | ccMetaLen
  | xbCtrl | xbSubnets | xbNshader | xbNmem | xbVcs | xbBufcap | xbClasses
  deriving DecidableEq, Repr

/-- The CSR map (R67): every address not listed is unimplemented. -/
def Csr.ofAddr : CsrAddr → Option Csr
  | 0x000#16 => some .sysId
  | 0x001#16 => some .sysFatal
  | 0x002#16 => some .sysFatalInfo
  | 0x100#16 => some .adCtrl
  | 0x101#16 => some .adMaskChip
  | 0x102#16 => some .adMaskBank
  | 0x103#16 => some .adMaskRow
  | 0x104#16 => some .adMaskCol
  | 0x105#16 => some .adMaskBurst
  | 0x106#16 => some .adChipStart
  | 0x107#16 => some .adNchan
  | 0x108#16 => some .adNsub
  | 0x109#16 => some .adIdxfn
  | 0x10A#16 => some .adMasksel
  | 0x10B#16 => some .adDiag
  | 0x200#16 => some .ccCtrl
  | 0x201#16 => some .ccKind
  | 0x202#16 => some .ccNsets
  | 0x203#16 => some .ccLineSz
  | 0x204#16 => some .ccAssoc
  | 0x205#16 => some .ccRepl
  | 0x206#16 => some .ccWpol
  | 0x207#16 => some .ccApol
  | 0x208#16 => some .ccWalloc
  | 0x209#16 => some .ccSetidx
  | 0x20A#16 => some .ccMshrType
  | 0x20B#16 => some .ccMshrEntries
  | 0x20C#16 => some .ccMshrMaxMerge
  | 0x20D#16 => some .ccMqSize
  | 0x20E#16 => some .ccRfifo
  | 0x20F#16 => some .ccPortW
  | 0x210#16 => some .ccSectorIncl
  | 0x211#16 => some .ccBlksrc
  | 0x212#16 => some .ccSectorSz
  | 0x220#16 => some .ccDpBusy
  | 0x221#16 => some .ccFpBusy
  | 0x222#16 => some .ccMqLen
  | 0x223#16 => some .ccMshrLen
  | 0x224#16 => some .ccNowR
  | 0x225#16 => some .ccMetaLen
  | 0x300#16 => some .xbCtrl
  | 0x301#16 => some .xbSubnets
  | 0x302#16 => some .xbNshader
  | 0x303#16 => some .xbNmem
  | 0x304#16 => some .xbVcs
  | 0x305#16 => some .xbBufcap
  | 0x306#16 => some .xbClasses
  | _ => none

/-- The address of each register (R25, R30, R33, R36). -/
def Csr.addr : Csr → CsrAddr
  | .sysId => 0x000
  | .sysFatal => 0x001
  | .sysFatalInfo => 0x002
  | .adCtrl => 0x100
  | .adMaskChip => 0x101
  | .adMaskBank => 0x102
  | .adMaskRow => 0x103
  | .adMaskCol => 0x104
  | .adMaskBurst => 0x105
  | .adChipStart => 0x106
  | .adNchan => 0x107
  | .adNsub => 0x108
  | .adIdxfn => 0x109
  | .adMasksel => 0x10A
  | .adDiag => 0x10B
  | .ccCtrl => 0x200
  | .ccKind => 0x201
  | .ccNsets => 0x202
  | .ccLineSz => 0x203
  | .ccAssoc => 0x204
  | .ccRepl => 0x205
  | .ccWpol => 0x206
  | .ccApol => 0x207
  | .ccWalloc => 0x208
  | .ccSetidx => 0x209
  | .ccMshrType => 0x20A
  | .ccMshrEntries => 0x20B
  | .ccMshrMaxMerge => 0x20C
  | .ccMqSize => 0x20D
  | .ccRfifo => 0x20E
  | .ccPortW => 0x20F
  | .ccSectorIncl => 0x210
  | .ccBlksrc => 0x211
  | .ccSectorSz => 0x212
  | .ccDpBusy => 0x220
  | .ccFpBusy => 0x221
  | .ccMqLen => 0x222
  | .ccMshrLen => 0x223
  | .ccNowR => 0x224
  | .ccMetaLen => 0x225
  | .xbCtrl => 0x300
  | .xbSubnets => 0x301
  | .xbNshader => 0x302
  | .xbNmem => 0x303
  | .xbVcs => 0x304
  | .xbBufcap => 0x305
  | .xbClasses => 0x306

/-- Access kind RO (R24). -/
def Csr.readOnly : Csr → Bool
  | .sysId | .sysFatal | .sysFatalInfo | .adCtrl | .ccCtrl | .ccDpBusy | .ccFpBusy | .ccMqLen | .ccMshrLen | .ccNowR | .ccMetaLen | .xbCtrl => true
  | .adMaskChip | .adMaskBank | .adMaskRow | .adMaskCol | .adMaskBurst | .adChipStart | .adNchan | .adNsub | .adIdxfn | .adMasksel | .adDiag => false
  | .ccKind | .ccNsets | .ccLineSz | .ccAssoc | .ccRepl | .ccWpol | .ccApol | .ccWalloc | .ccSetidx | .ccMshrType | .ccMshrEntries | .ccMshrMaxMerge | .ccMqSize | .ccRfifo | .ccPortW | .ccSectorIncl | .ccBlksrc | .ccSectorSz => false
  | .xbSubnets | .xbNshader | .xbNmem | .xbVcs | .xbBufcap | .xbClasses => false

/-- The width of the register's field; bits above it are write-ignored and read 0 (R24). -/
def Csr.width : Csr → Nat
  | .adDiag | .ccKind | .ccRepl | .ccSectorIncl | .ccBlksrc => 1
  | .adMasksel | .ccApol | .ccWalloc | .ccSetidx | .ccMshrType => 2
  | .adIdxfn | .ccWpol => 3
  | .adChipStart => 6
  | .xbSubnets | .xbVcs | .xbClasses => 8
  | .adNsub => 9
  | .ccLineSz | .ccAssoc | .ccSectorSz | .xbNshader | .xbNmem => 16
  | .adNchan => 17
  | .ccNsets | .ccMshrEntries | .ccMshrMaxMerge | .ccMqSize | .ccRfifo | .ccPortW | .xbBufcap => 32
  | .sysId | .sysFatal | .sysFatalInfo | .adCtrl | .adMaskChip | .adMaskBank | .adMaskRow | .adMaskCol | .adMaskBurst | .ccCtrl | .ccDpBusy | .ccFpBusy | .ccMqLen | .ccMshrLen | .ccNowR | .ccMetaLen | .xbCtrl => 64

/-- `CSR[name]`: the value CSRR returns (R211): the staging value with the bits above the field 0, or the state an RO
register shows. -/
def csrRead (s : State) : Csr → Reg64
  | .sysId => 0x0000000147435348
  | .sysFatal => s.sys.fatalWord
  | .sysFatalInfo => s.sys.info
  | .adCtrl => flagReg s.ad.configured
  | .adMaskChip => s.ad.stage.maskChip
  | .adMaskBank => s.ad.stage.maskBank
  | .adMaskRow => s.ad.stage.maskRow
  | .adMaskCol => s.ad.stage.maskCol
  | .adMaskBurst => s.ad.stage.maskBurst
  | .adChipStart => s.ad.stage.chipStart.setWidth 64
  | .adNchan => s.ad.stage.nchan.setWidth 64
  | .adNsub => s.ad.stage.nsub.setWidth 64
  | .adIdxfn => s.ad.stage.idxfn.setWidth 64
  | .adMasksel => s.ad.stage.maskSel.setWidth 64
  | .adDiag => s.ad.diag.setWidth 64
  | .ccCtrl => flagReg s.cc.configured
  | .ccKind => s.cc.stage.kind.setWidth 64
  | .ccNsets => s.cc.stage.nsets.setWidth 64
  | .ccLineSz => s.cc.stage.lineSz.setWidth 64
  | .ccAssoc => s.cc.stage.assoc.setWidth 64
  | .ccRepl => s.cc.stage.repl.setWidth 64
  | .ccWpol => s.cc.stage.wpol.setWidth 64
  | .ccApol => s.cc.stage.apol.setWidth 64
  | .ccWalloc => s.cc.stage.walloc.setWidth 64
  | .ccSetidx => s.cc.stage.setIdx.setWidth 64
  | .ccMshrType => s.cc.stage.mshrType.setWidth 64
  | .ccMshrEntries => s.cc.stage.mshrEntries.setWidth 64
  | .ccMshrMaxMerge => s.cc.stage.mshrMaxMerge.setWidth 64
  | .ccMqSize => s.cc.stage.mqSize.setWidth 64
  | .ccRfifo => s.cc.stage.rfifo.setWidth 64
  | .ccPortW => s.cc.stage.portW.setWidth 64
  | .ccSectorIncl => s.cc.stage.sectorIncl.setWidth 64
  | .ccBlksrc => s.cc.stage.blkSrc.setWidth 64
  | .ccSectorSz => s.cc.stage.sectorSz.setWidth 64
  | .ccDpBusy => s.cc.dpBusy
  | .ccFpBusy => s.cc.fpBusy
  | .ccMqLen => BitVec.ofNat 64 s.cc.mq.length
  | .ccMshrLen => BitVec.ofNat 64 s.cc.mshr.length
  | .ccNowR => s.cc.now
  | .ccMetaLen => BitVec.ofNat 64 s.cc.metaTab.length
  | .xbCtrl => flagReg s.xb.configured
  | .xbSubnets => s.xb.stage.subnets.setWidth 64
  | .xbNshader => s.xb.stage.nshader.setWidth 64
  | .xbNmem => s.xb.stage.nmem.setWidth 64
  | .xbVcs => s.xb.stage.vcs.setWidth 64
  | .xbBufcap => s.xb.stage.bufcap.setWidth 64
  | .xbClasses => s.xb.stage.classes.setWidth 64

/-- Replace the decoder's staging copy. -/
def State.withAdStage (s : State) (r : AdRegs) : State := { s with ad := { s.ad with stage := r } }

/-- Replace the cache engine's staging copy. -/
def State.withCcStage (s : State) (r : CcRegs) : State := { s with cc := { s.cc with stage := r } }

/-- Replace the crossbar's staging copy. -/
def State.withXbStage (s : State) (r : XbRegs) : State := { s with xb := { s.xb with stage := r } }

/-- `CSR[name] <- v`, masked to the register's field (R212); an RO register keeps its value. -/
def csrWrite (v : Reg64) (s : State) : Csr → State
  | .sysId | .sysFatal | .sysFatalInfo | .adCtrl | .ccCtrl | .ccDpBusy | .ccFpBusy | .ccMqLen | .ccMshrLen | .ccNowR | .ccMetaLen | .xbCtrl => s
  | .adMaskChip => s.withAdStage { s.ad.stage with maskChip := v }
  | .adMaskBank => s.withAdStage { s.ad.stage with maskBank := v }
  | .adMaskRow => s.withAdStage { s.ad.stage with maskRow := v }
  | .adMaskCol => s.withAdStage { s.ad.stage with maskCol := v }
  | .adMaskBurst => s.withAdStage { s.ad.stage with maskBurst := v }
  | .adChipStart => s.withAdStage { s.ad.stage with chipStart := v.setWidth 6 }
  | .adNchan => s.withAdStage { s.ad.stage with nchan := v.setWidth 17 }
  | .adNsub => s.withAdStage { s.ad.stage with nsub := v.setWidth 9 }
  | .adIdxfn => s.withAdStage { s.ad.stage with idxfn := v.setWidth 3 }
  | .adMasksel => s.withAdStage { s.ad.stage with maskSel := v.setWidth 2 }
  | .adDiag => { s with ad := { s.ad with diag := v.setWidth 1 } }
  | .ccKind => s.withCcStage { s.cc.stage with kind := v.setWidth 1 }
  | .ccNsets => s.withCcStage { s.cc.stage with nsets := v.setWidth 32 }
  | .ccLineSz => s.withCcStage { s.cc.stage with lineSz := v.setWidth 16 }
  | .ccAssoc => s.withCcStage { s.cc.stage with assoc := v.setWidth 16 }
  | .ccRepl => s.withCcStage { s.cc.stage with repl := v.setWidth 1 }
  | .ccWpol => s.withCcStage { s.cc.stage with wpol := v.setWidth 3 }
  | .ccApol => s.withCcStage { s.cc.stage with apol := v.setWidth 2 }
  | .ccWalloc => s.withCcStage { s.cc.stage with walloc := v.setWidth 2 }
  | .ccSetidx => s.withCcStage { s.cc.stage with setIdx := v.setWidth 2 }
  | .ccMshrType => s.withCcStage { s.cc.stage with mshrType := v.setWidth 2 }
  | .ccMshrEntries => s.withCcStage { s.cc.stage with mshrEntries := v.setWidth 32 }
  | .ccMshrMaxMerge => s.withCcStage { s.cc.stage with mshrMaxMerge := v.setWidth 32 }
  | .ccMqSize => s.withCcStage { s.cc.stage with mqSize := v.setWidth 32 }
  | .ccRfifo => s.withCcStage { s.cc.stage with rfifo := v.setWidth 32 }
  | .ccPortW => s.withCcStage { s.cc.stage with portW := v.setWidth 32 }
  | .ccSectorIncl => s.withCcStage { s.cc.stage with sectorIncl := v.setWidth 1 }
  | .ccBlksrc => s.withCcStage { s.cc.stage with blkSrc := v.setWidth 1 }
  | .ccSectorSz => s.withCcStage { s.cc.stage with sectorSz := v.setWidth 16 }
  | .xbSubnets => s.withXbStage { s.xb.stage with subnets := v.setWidth 8 }
  | .xbNshader => s.withXbStage { s.xb.stage with nshader := v.setWidth 16 }
  | .xbNmem => s.withXbStage { s.xb.stage with nmem := v.setWidth 16 }
  | .xbVcs => s.withXbStage { s.xb.stage with vcs := v.setWidth 8 }
  | .xbBufcap => s.withXbStage { s.xb.stage with bufcap := v.setWidth 32 }
  | .xbClasses => s.withXbStage { s.xb.stage with classes := v.setWidth 8 }

end Sys2Proof.Machine
end

