-- ==== Sys2Proof/Machine/System.lean ====
section
/-! DEFINITION. The system operations of 43_system_ops.md: NOP, CSRR, CSRW. -/

namespace Sys2Proof.Machine

/-- NOP (R210): answers OK, reads and writes no state; accepted in the fatal state. -/
def execNop (s : State) : Outcome := respond { status := .ok } s

/-- CSRR (R211): accepted in the fatal state. -/
def execCsrr (csr : CsrAddr) (s : State) : Outcome :=
  match Csr.ofAddr csr with
  | none   => reject .badCsr s
  | some r => respond { status := .ok, q0 := csrRead s r } s

/-- CSRW (R212): unimplemented and RO registers are rejected; no legality check of the value beyond the field width. -/
def execCsrw (csr : CsrAddr) (value : Reg64) (s : State) : Outcome :=
  unlessFatal s <|
    match Csr.ofAddr csr with
    | none   => reject .badCsr s
    | some r => if r.readOnly then reject .badCsr s else respond { status := .ok } (csrWrite value s r)

end Sys2Proof.Machine
end

