-- ==== Sys2Proof/Machine/Dispatch.lean ====
section
/-! DEFINITION. The meaning of every command: one arm per constructor of Instr, one meaning per arm. -/

namespace Sys2Proof.Machine

def exec (i : Instr) (s : State) : Host.Outcome State Fault Refusal :=
  match i with
  | .nop => Sys2Proof.Machine.execNop s
  | .csrr csr => Sys2Proof.Machine.execCsrr csr s
  | .csrw csr value => Sys2Proof.Machine.execCsrw csr value s
  | .adConfigure => Sys2Proof.Machine.execAdConfigure s
  | .adDecode addr => Sys2Proof.Machine.execAdDecode addr s
  | .adPaddr addr => Sys2Proof.Machine.execAdPaddr addr s
  | .adSweep base count stride => Sys2Proof.Machine.execAdSweep base count stride s
  | .ccConfigure => Sys2Proof.Machine.execCcConfigure s
  | .ccAccess isWrite isAtomic smask addr id size => Sys2Proof.Machine.execCcAccess isWrite isAtomic smask addr id size s
  | .ccFill hasParent id parent => Sys2Proof.Machine.execCcFill hasParent id parent s
  | .ccCycle dsOk => Sys2Proof.Machine.execCcCycle dsOk s
  | .ccDpfree => Sys2Proof.Machine.execCcDpfree s
  | .ccFpfree => Sys2Proof.Machine.execCcFpfree s
  | .ccReady => Sys2Proof.Machine.execCcReady s
  | .ccNext => Sys2Proof.Machine.execCcNext s
  | .ccMqhead => Sys2Proof.Machine.execCcMqhead s
  | .xbConfigure => Sys2Proof.Machine.execXbConfigure s
  | .xbHasbuf src dst payload size => Sys2Proof.Machine.execXbHasbuf src dst payload size s
  | .xbPush src dst payload size => Sys2Proof.Machine.execXbPush src dst payload size s
  | .xbPop dev => Sys2Proof.Machine.execXbPop dev s
  | .xbAdvance => Sys2Proof.Machine.execXbAdvance s
  | .xbBusy => Sys2Proof.Machine.execXbBusy s

end Sys2Proof.Machine
end

