-- ==== Sys2Proof/Machine/Step.lean ====
section
/-! DEFINITION. One step of the machine: the environment presents its next input, a command or a reset pulse, and the
hardware performs it whole (00_scope.md rules R2, R13). -/

namespace Sys2Proof.Machine

/-- One command word (R223): an illegal word is answered ILLEGAL_OP, a legal one is executed. -/
def runCmd (w : CmdWord) (s : State) : Host.Outcome State Fault Refusal :=
  match decode w with
  | .ok i    => exec i s
  | .error _ => rejectIllegal s

/-- One step: the oldest input of the environment is taken and performed; with no input nothing happens (log 1). -/
def step (s : State) : Host.Outcome State Fault Refusal :=
  match s.inputs with
  | []             => idle s
  | .cmd w :: rest => runCmd w (s.withInputs rest)
  | .reset :: rest => .next (s.withInputs rest).resetPulse

/-- The environment presents this command next: the word (bits above `nbits` zero) stands at the head of the inputs, where
`step` takes it from. -/
def State.withFetchWord (s : State) (nbits w : Nat) : State :=
  s.withInputs (.cmd (BitVec.ofNat 192 (w % 2 ^ nbits)) :: s.inputs)

end Sys2Proof.Machine
end

