-- ==== Sys2Proof/Machine/Assembler.lean ====
section
/-! DEFINITION. The toolchain's side of 30_encoding.md section 4: the textual command and response syntax (R89) and the
pseudo-instructions AD.LAYOUT (R90, R91) and CC.CONFIGSTR (R92, R93), each text assembled to a list of commands or refused
with a named assembly error (log 11). No operation of the hardware reads anything of this file. -/

namespace Sys2Proof.Machine

/-- Assembly errors, by name. -/
inductive AsmError where
  /-- The first word is no mnemonic of R85 and no pseudo-instruction of R90, R92. -/
  | unknownMnemonic
  /-- An operand is not of the form `name=value`, its name is none of the command's, or it stands twice. -/
  | badOperand
  /-- A value is neither decimal nor `0x` hexadecimal. -/
  | badNumber
  /-- A value does not fit its field. -/
  | outOfRange
  /-- A pseudo-instruction's string is missing or not closed. -/
  | badString
  /-- A layout character other than those of R90. -/
  | badLayoutChar
  /-- Not exactly 64 bit characters (R90). -/
  | layoutLength
  /-- The `D` bits are not contiguous (R91 (a)). -/
  | chipNotContiguous
  /-- `nchan` is not `2^(number of D bits)` (R91 (a)). -/
  | chipCount
  /-- A `D` in a body after `dramid@N;` (R91 (b)). -/
  | chipInDramid
  /-- `N` above 63 (R91 (b)). -/
  | dramidRange
  /-- A 1 bit of a mask would be shifted out past bit 63 (R91 (b)). -/
  | bitShiftedOut
  /-- The cache configuration string has not the groups and fields of R92. -/
  | badConfigString
  /-- A policy character R93 does not list or does not admit. -/
  | letterNotAdmitted
  deriving DecidableEq, Repr

/-! ## Characters and numbers -/

/-- The pieces between the separators. -/
def splitAt (sep : Char) : List Char → List (List Char)
  | []      => [[]]
  | c :: cs =>
    if c = sep then [] :: splitAt sep cs
    else
      match splitAt sep cs with
      | p :: ps => (c :: p) :: ps
      | []      => [[c]]

/-- Drop leading and trailing spaces. -/
def trimSpaces (cs : List Char) : List Char := ((cs.dropWhile (· == ' ')).reverse.dropWhile (· == ' ')).reverse

/-- The value of a digit in base 10 or 16. -/
def digitValue (hex : Bool) (c : Char) : Option Nat :=
  if '0' ≤ c ∧ c ≤ '9' then some (c.toNat - '0'.toNat)
  else if hex ∧ 'a' ≤ c ∧ c ≤ 'f' then some (c.toNat - 'a'.toNat + 10)
  else if hex ∧ 'A' ≤ c ∧ c ≤ 'F' then some (c.toNat - 'A'.toNat + 10)
  else none

/-- The value of a digit string, most significant digit first, continuing from `acc`. -/
def digitsValue (hex : Bool) (acc : Nat) : List Char → Option Nat
  | []      => some acc
  | c :: cs =>
    match digitValue hex c with
    | some d => digitsValue hex ((if hex then 16 else 10) * acc + d) cs
    | none   => none

/-- A decimal number: at least one digit. It reads the integers inside a pseudo-instruction's string, for which R90 says DECIMAL
and R92 leaves the base open (DESIGN CHOICE, log 11). -/
def parseDecimal (cs : List Char) : Except AsmError Nat :=
  if cs.isEmpty then .error .badNumber else (digitsValue false 0 cs).elim (.error .badNumber) .ok

/-- A value: decimal, or hexadecimal after `0x` (R89). -/
def parseValue : List Char → Except AsmError Nat
  | '0' :: 'x' :: ds => if ds.isEmpty then .error .badNumber else (digitsValue true 0 ds).elim (.error .badNumber) .ok
  | cs               => parseDecimal cs

/-! ## Operands (R89, R82) -/

/-- One operand `name=value`. -/
def parseOperand (cs : List Char) : Except AsmError (String × Nat) :=
  match splitAt '=' cs with
  | [name, value] => (parseValue (trimSpaces value)).map fun v => (String.ofList (trimSpaces name), v)
  | _             => .error .badOperand

/-- The operands of a command, separated by commas; none for blank text. -/
def parseOperands (cs : List Char) : Except AsmError (List (String × Nat)) :=
  if (trimSpaces cs).isEmpty then .ok [] else (splitAt ',' cs).mapM parseOperand

/-- Every operand is one of the named fields, stands once, and fits its field. -/
def checkOperands (fields : List (String × Nat)) : List (String × Nat) → Except AsmError Unit
  | []           => .ok ()
  | (n, v) :: os =>
    match fields.lookup n with
    | none   => .error .badOperand
    | some w =>
      if (os.lookup n).isSome then .error .badOperand
      else if v < 2 ^ w then checkOperands fields os
      else .error .outOfRange

/-- The value of an operand; an omitted operand is 0 (R89). -/
def operand (os : List (String × Nat)) (n : String) : Nat := (os.lookup n).getD 0

/-- The mnemonics that take no operand (format Z of R82, R85). -/
def plainMnemonics : List (String × Instr) :=
  [("NOP", .nop), ("AD.CONFIGURE", .adConfigure), ("CC.CONFIGURE", .ccConfigure), ("CC.DPFREE", .ccDpfree),
   ("CC.FPFREE", .ccFpfree), ("CC.READY", .ccReady), ("CC.NEXT", .ccNext), ("CC.MQHEAD", .ccMqhead),
   ("XB.CONFIGURE", .xbConfigure), ("XB.ADVANCE", .xbAdvance), ("XB.BUSY", .xbBusy)]

/-- The named operands of the other mnemonics with their widths (R82); CSRR's `value` must be 0. -/
def mnemonicFields : List (String × List (String × Nat)) :=
  [("CSRR", [("csr", 16), ("value", 0)]),
   ("CSRW", [("csr", 16), ("value", 64)]),
   ("AD.DECODE", [("addr", 64)]),
   ("AD.PADDR", [("addr", 64)]),
   ("AD.SWEEP", [("base", 64), ("count", 32), ("stride", 32)]),
   ("CC.ACCESS", [("is_write", 1), ("is_atomic", 1), ("smask", 16), ("addr", 64), ("id", 32), ("size", 32)]),
   ("CC.FILL", [("has_parent", 1), ("id", 32), ("parent", 32)]),
   ("CC.CYCLE", [("ds_ok", 1)]),
   ("XB.HASBUF", [("src", 16), ("dst", 16), ("payload", 64), ("size", 32)]),
   ("XB.PUSH", [("src", 16), ("dst", 16), ("payload", 64), ("size", 32)]),
   ("XB.POP", [("dev", 16)])]

/-- The command with these operand values. -/
def buildInstr (mnemonic : String) (v : String → Nat) : Option Instr :=
  let b (n : String) : Bool := v n == 1
  let w (k : Nat) (n : String) : BitVec k := BitVec.ofNat k (v n)
  match mnemonic with
  | "CSRR"      => some (.csrr (w 16 "csr"))
  | "CSRW"      => some (.csrw (w 16 "csr") (w 64 "value"))
  | "AD.DECODE" => some (.adDecode (w 64 "addr"))
  | "AD.PADDR"  => some (.adPaddr (w 64 "addr"))
  | "AD.SWEEP"  => some (.adSweep (w 64 "base") (w 32 "count") (w 32 "stride"))
  | "CC.ACCESS" =>
    some (.ccAccess (b "is_write") (b "is_atomic") (w 16 "smask") (w 64 "addr") (w 32 "id") (w 32 "size"))
  | "CC.FILL"   => some (.ccFill (b "has_parent") (w 32 "id") (w 32 "parent"))
  | "CC.CYCLE"  => some (.ccCycle (b "ds_ok"))
  | "XB.HASBUF" => some (.xbHasbuf (w 16 "src") (w 16 "dst") (w 64 "payload") (w 32 "size"))
  | "XB.PUSH"   => some (.xbPush (w 16 "src") (w 16 "dst") (w 64 "payload") (w 32 "size"))
  | "XB.POP"    => some (.xbPop (w 16 "dev"))
  | _           => none

/-- One command of R89 from its mnemonic and the text of its operands. -/
def assembleCommand (mnemonic : String) (rest : List Char) : Except AsmError Instr := do
  let os ← parseOperands rest
  match plainMnemonics.lookup mnemonic with
  | some i => if os.isEmpty then .ok i else .error .badOperand
  | none   =>
    match mnemonicFields.lookup mnemonic with
    | none        => .error .unknownMnemonic
    | some fields =>
      checkOperands fields os
      (buildInstr mnemonic (operand os)).elim (.error .unknownMnemonic) .ok

/-- A pseudo-instruction's quoted string and the operands after it (R90, R92). DESIGN CHOICE: a comma after the string with nothing
but spaces behind it is no operands, where a trailing comma after operands is an error; the spec is silent (log 11). -/
def splitQuoted (cs : List Char) : Except AsmError (List Char × List (String × Nat)) :=
  match trimSpaces cs with
  | q :: rest =>
    if q ≠ Char.ofNat 34 then .error .badString
    else
      match rest.dropWhile (· != Char.ofNat 34) with
      | _ :: tail =>
        match trimSpaces tail with
        | []        => .ok (rest.takeWhile (· != Char.ofNat 34), [])
        | ',' :: os => (parseOperands os).map fun l => (rest.takeWhile (· != Char.ofNat 34), l)
        | _         => .error .badString
      | [] => .error .badString
  | [] => .error .badString

/-- A CSRW command. -/
def csrwOf (c : Csr) (v : Nat) : Instr := .csrw c.addr (BitVec.ofNat 64 v)

/-! ## AD.LAYOUT (R90, R91) -/

/-- The five masks a layout body spells. -/
structure LayoutMasks where
  chip  : Nat
  bank  : Nat
  row   : Nat
  col   : Nat
  burst : Nat
  deriving DecidableEq, Repr

/-- The body scanned left to right, `left` bit characters remaining: the next one is bit `left - 1` (R90). -/
def scanLayout : List Char → Nat → LayoutMasks → Except AsmError LayoutMasks
  | [], left, m => if left = 0 then .ok m else .error .layoutLength
  | c :: cs, left, m =>
    if c = '.' ∨ c = '|' ∨ c = ' ' then scanLayout cs left m
    else
      let bit := 2 ^ (left - 1)
      let next : Except AsmError LayoutMasks :=
        if c = 'D' ∨ c = 'd' then .ok { m with chip := m.chip + bit }
        else if c = 'B' ∨ c = 'b' then .ok { m with bank := m.bank + bit }
        else if c = 'R' ∨ c = 'r' then .ok { m with row := m.row + bit }
        else if c = 'C' ∨ c = 'c' then .ok { m with col := m.col + bit }
        else if c = 'S' ∨ c = 's' then .ok { m with burst := m.burst + bit }
        else if c = '0' then .ok m
        else .error .badLayoutChar
      match next with
      | .error e => .error e
      | .ok m'   => if left = 0 then .error .layoutLength else scanLayout cs (left - 1) m'

/-- The position of the lowest 1 bit, 0 if there is none. -/
def lowestBit (m : Nat) : Nat := ((List.range 64).find? fun i => m.testBit i).getD 0

/-- A mask with the bits at or above `N` moved up by `k` (R91 (b)). -/
def widenMask (N k m : Nat) : Except AsmError Nat :=
  let m' := m % 2 ^ N + m / 2 ^ N * 2 ^ (N + k)
  if m' < 2 ^ 64 then .ok m' else .error .bitShiftedOut

/-- Chip placement without a `dramid@` part (R91 (a)): the masks and AD_CHIP_START. -/
def placeContiguous (n : Nat) (m : LayoutMasks) : Except AsmError (LayoutMasks × Nat) :=
  let s := lowestBit m.chip
  let d := popcountNat 64 m.chip
  if m.chip ≠ 0 ∧ m.chip ≠ (2 ^ d - 1) * 2 ^ s then .error .chipNotContiguous
  else if n ≠ 2 ^ d then .error .chipCount
  else .ok (m, s)

/-- Chip placement with `dramid@N;` (R91 (b)). -/
def placeDramid (n N : Nat) (m : LayoutMasks) : Except AsmError (LayoutMasks × Nat) :=
  if m.chip ≠ 0 then .error .chipInDramid
  else if N > 63 then .error .dramidRange
  else if isPow2 n = false then .ok (m, N)
  else do
    let bank ← widenMask N (log2c n) m.bank
    let row ← widenMask N (log2c n) m.row
    let col ← widenMask N (log2c n) m.col
    let burst ← widenMask N (log2c n) m.burst
    .ok ({ chip := (n - 1) * 2 ^ N, bank := bank, row := row, col := col, burst := burst }, N)

/-- The whole layout string with the channel count. -/
def parseLayout (text : List Char) (n : Nat) : Except AsmError (LayoutMasks × Nat) :=
  let zero : LayoutMasks := { chip := 0, bank := 0, row := 0, col := 0, burst := 0 }
  if text.take 7 = "dramid@".toList then do
    let N ← parseDecimal ((text.drop 7).takeWhile (· != ';'))
    match (text.drop 7).dropWhile (· != ';') with
    | []        => .error .badLayoutChar
    | _ :: body => (scanLayout body 64 zero).bind (placeDramid n N)
  else (scanLayout text 64 zero).bind (placeContiguous n)

/-- AD.LAYOUT: ten CSRW commands in the order of R90, then AD.CONFIGURE. -/
def assembleLayout (rest : List Char) : Except AsmError (List Instr) := do
  let (text, os) ← splitQuoted rest
  checkOperands [("nchan", 64), ("nsub", 64), ("idxfn", 64), ("mask", 64)] os
  let (m, s) ← parseLayout text (operand os "nchan")
  .ok [csrwOf .adMaskChip m.chip, csrwOf .adMaskBank m.bank, csrwOf .adMaskRow m.row, csrwOf .adMaskCol m.col,
       csrwOf .adMaskBurst m.burst, csrwOf .adChipStart s, csrwOf .adNchan (operand os "nchan"),
       csrwOf .adNsub (operand os "nsub"), csrwOf .adIdxfn (operand os "idxfn"), csrwOf .adMasksel (operand os "mask"),
       .adConfigure]

/-! ## CC.CONFIGSTR (R92, R93) -/

/-- A single policy character by its table of R93; a letter not in the table is not admitted. -/
def policyLetter (table : List (Char × Nat)) : List Char → Except AsmError Nat
  | [c] => (table.lookup c).elim (.error .letterNotAdmitted) .ok
  | _   => .error .badConfigString

def typeLetters : List (Char × Nat) := [('N', 0), ('S', 1)]
def replLetters : List (Char × Nat) := [('L', 0), ('F', 1)]
def wpolLetters : List (Char × Nat) := [('R', 0), ('B', 1), ('T', 2), ('E', 3), ('L', 4)]
def apolLetters : List (Char × Nat) := [('m', 0), ('f', 1)]
def wallocLetters : List (Char × Nat) := [('N', 0), ('W', 1), ('F', 2), ('L', 3)]
def setIdxLetters : List (Char × Nat) := [('L', 0)]
def mshrLetters : List (Char × Nat) := [('A', 0), ('S', 1)]

/-- CC.CONFIGSTR: eighteen CSRW commands in ascending address order, then CC.CONFIGURE. CC_SECTOR_SZ defaults to the line
size for type N with MSHR kind A, else to 32 (R92). DESIGN CHOICE: the string's "unsigned integers" are decimal only, below
`2^64`; R92 leaves the base open (log 11). -/
def assembleConfigString (rest : List Char) : Except AsmError (List Instr) := do
  let (text, os) ← splitQuoted rest
  checkOperands [("sector_incl", 64), ("blksrc", 64), ("sector_sz", 64)] os
  match (splitAt ',' text).map (splitAt ':') with
  | [[ty, nsets, lineSz, assoc], [repl, wpol, apol, walloc, setIdx], [mtype, mentries, mmerge], [mq, rfifo], [port]] => do
    let ty ← policyLetter typeLetters ty
    let nsets ← parseDecimal nsets
    let lineSz ← parseDecimal lineSz
    let assoc ← parseDecimal assoc
    let repl ← policyLetter replLetters repl
    let wpol ← policyLetter wpolLetters wpol
    let apol ← policyLetter apolLetters apol
    let walloc ← policyLetter wallocLetters walloc
    let setIdx ← policyLetter setIdxLetters setIdx
    let mtype ← policyLetter mshrLetters mtype
    let mentries ← parseDecimal mentries
    let mmerge ← parseDecimal mmerge
    let mq ← parseDecimal mq
    let rfifo ← parseDecimal rfifo
    let port ← parseDecimal port
    let sectorSz := (os.lookup "sector_sz").getD (if ty = 0 ∧ mtype = 0 then lineSz else 32)
    if [nsets, lineSz, assoc, mentries, mmerge, mq, rfifo, port].any (fun v => decide (2 ^ 64 ≤ v)) then .error .outOfRange
    else
      .ok [csrwOf .ccKind ty, csrwOf .ccNsets nsets, csrwOf .ccLineSz lineSz, csrwOf .ccAssoc assoc, csrwOf .ccRepl repl,
           csrwOf .ccWpol wpol, csrwOf .ccApol apol, csrwOf .ccWalloc walloc, csrwOf .ccSetidx setIdx,
           csrwOf .ccMshrType mtype, csrwOf .ccMshrEntries mentries, csrwOf .ccMshrMaxMerge mmerge, csrwOf .ccMqSize mq,
           csrwOf .ccRfifo rfifo, csrwOf .ccPortW port, csrwOf .ccSectorIncl (operand os "sector_incl"),
           csrwOf .ccBlksrc (operand os "blksrc"), csrwOf .ccSectorSz sectorSz, .ccConfigure]
  | _ => .error .badConfigString

/-! ## The assembler -/

/-- One line of text: a command (R89) or a pseudo-instruction (R90, R92), assembled to commands. -/
def assemble (text : String) : Except AsmError (List Instr) :=
  let cs := trimSpaces text.toList
  let mnemonic := String.ofList (cs.takeWhile (· != ' '))
  let rest := cs.dropWhile (· != ' ')
  if mnemonic = "AD.LAYOUT" then assembleLayout rest
  else if mnemonic = "CC.CONFIGSTR" then assembleConfigString rest
  else (assembleCommand mnemonic rest).map fun i => [i]

/-- The name of a status code (R84). -/
def Status.text : Status → String
  | .ok => "OK"
  | .fatalState => "FATAL_STATE"
  | .illegalOp => "ILLEGAL_OP"
  | .notConfigured => "NOT_CONFIGURED"
  | .alreadyConfigured => "ALREADY_CONFIGURED"
  | .configInvalid => "CONFIG_INVALID"
  | .badOperand => "BAD_OPERAND"
  | .badCsr => "BAD_CSR"
  | .refusedWrite => "REFUSED_WRITE"
  | .diagDisabled => "DIAG_DISABLED"
  | .fatalRaised => "FATAL_RAISED"
  | .hit => "HIT"
  | .mshrHit => "MSHR_HIT"
  | .miss => "MISS"
  | .mshrMergeFail => "MSHR_MERGE_FAIL"
  | .mshrEntryFail => "MSHR_ENTRY_FAIL"
  | .missQueueFull => "MISS_QUEUE_FULL"
  | .lineAllocFail => "LINE_ALLOC_FAIL"
  | .fillDone => "FILL_DONE"
  | .fillWait => "FILL_WAIT"

/-- A response as text, its values in decimal (R89). -/
def Rsp.text (r : Rsp) : String :=
  r.status.text ++ " aux=" ++ toString r.aux.toNat ++ ", q0=" ++ toString r.q0.toNat ++ ", q1=" ++ toString r.q1.toNat ++
    ", q2=" ++ toString r.q2.toNat

end Sys2Proof.Machine
end

