-- ==== Sys2Proof/Safety.lean ====
section
/-! DEFINITION. What counts as a sound state: the invariants the spec states of every state after every operation
(10_state.md rules R32, R34, R35, R37; 41_cache_engine.md rules R161, R180; 42_crossbar.md rule R197; 93 W5), together with
the facts that make them inductive. `State.Inv` collects them. -/

namespace Sys2Proof.Machine

/-! ## System registers and decoder -/

/-- SYS_FATAL holds no cause and no info until a fatal condition is raised, and one of the four causes of R221 after. -/
structure SysState.Inv (y : SysState) : Prop where
  noCause : y.fatal = false → y.cause = 0 ∧ y.info = 0
  aCause  : y.fatal = true → ∃ c : FatalCause, y.cause = c.code

/-- A configured decoder's active copy passed the checks of AD.CONFIGURE (R111). -/
structure AdState.Inv (ad : AdState) : Prop where
  disjoint : ad.configured = true → ad.active.overlap = 0
  legal    : ad.configured = true → ad.active.legal = true

/-! ## Cache engine -/

/-- The request address `src` of some request that an MSHR entry waiting for its fill covers: block `b`, tag sector `k`. -/
def Covered (c : CcRegs) (mshr : FMap MshrEntry) (b : Addr) (k : Fin 16) : Prop :=
  ∃ (src : Addr) (m : MshrEntry), c.blockAddr src = b ∧ (c.sectorMask src).getLsbD k = true ∧
    mshr.lookup (c.mshrAddr src).toNat = some m ∧ m.ready = false

/-- The tag array (R31, R32) and its tie to the MSHR table (R180 (e), R161). -/
structure TagInv (c : CcRegs) (mshr : FMap MshrEntry) (lines : FMap Line) : Prop where
  /-- The list is in canonical form. -/
  canonical : FMap.Canonical Line.empty lines
  /-- Only lines of the configured array are listed (R31). -/
  inRange : ∀ e ∈ lines, ∃ set way, set < c.sets ∧ way < c.ways ∧ e.1 = lineKey set way
  /-- An allocated line holds an aligned block address of its own set (R141). -/
  home : ∀ set way, set < c.sets → way < c.ways → (lineAt lines set way).allocated = true →
    c.blockAddr (lineAt lines set way).tag = (lineAt lines set way).tag ∧ c.setOf (lineAt lines set way).tag = set
  /-- "at most one such way" (R144): no two allocated lines of a set hold one block. -/
  unique : ∀ set w₁ w₂, set < c.sets → w₁ < c.ways → w₂ < c.ways → (lineAt lines set w₁).allocated = true →
    (lineAt lines set w₂).allocated = true → (lineAt lines set w₁).tag = (lineAt lines set w₂).tag → w₁ = w₂
  /-- "`dirty` is nonzero only in a modified line" (R32). -/
  dirty : ∀ set way, (lineAt lines set way).dirty ≠ 0 → (lineAt lines set way).isModified = true
  /-- No byte beyond the line is marked (R32: `dirty` has `L` bits). -/
  dirtyBits : ∀ set way b, c.lineBytes ≤ b → (lineAt lines set way).dirty.getLsbD b = false
  /-- No sector beyond the line's tag sectors has a status (R32: `k` in `0..T-1`). -/
  sectors : ∀ set way (k : Fin 16), c.tagSectors ≤ k.val → (lineAt lines set way).st[k] = .invalid
  /-- A sector is RESERVED only under ON_MISS, and only if an MSHR entry with `ready = 0` covers it (R180 (e), R161). -/
  reserved : ∀ set way (k : Fin 16), set < c.sets → way < c.ways → (lineAt lines set way).st[k] = .reserved →
    c.onMiss = true ∧ Covered c mshr (lineAt lines set way).tag k

/-- One metadata record belongs to a request that was classified MISS and whose fill is still owed (R35, R154, R180 (d)). -/
structure MetaRec.Inv (c : CcRegs) (ad : AdRegs) (mshr : FMap MshrEntry) (lines : FMap Line) (e : MetaRec) : Prop where
  /-- `pending >= 1` (R180 (d)). -/
  pending : 1 ≤ e.pending
  /-- Its key is an MSHR key with `ready = 0` (R180 (d)). -/
  waiting : ∃ m, mshr.lookup e.mshrAddr.toNat = some m ∧ m.ready = false
  block   : e.blockAddr = c.blockAddr (c.srcAddr ad e.origAddr)
  key     : e.mshrAddr = c.mshrAddr (c.srcAddr ad e.origAddr)
  set     : e.set = c.setOf e.blockAddr
  smask   : e.smask = c.sectorMask (c.srcAddr ad e.origAddr)
  /-- The request lies in its tag sector (R150). -/
  inside  : c.offset (c.srcAddr ad e.origAddr) % c.tagSectorBytes + e.origSize.toNat ≤ c.tagSectorBytes
  /-- Under ON_MISS its line still holds its block with its sector RESERVED (R161). -/
  line    : c.onMiss = true → e.way < c.ways ∧ (lineAt lines e.set e.way).tag = e.blockAddr ∧
    ∀ k : Fin 16, e.smask.getLsbD k = true → (lineAt lines e.set e.way).st[k] = .reserved

/-- The miss-side tables: MSHR, READYQ, MQ, META (R34, R35, R180). -/
structure MissInv (c : CcRegs) (ad : AdRegs) (cc : CcState) : Prop where
  /-- "MSHR keys are distinct" (R180 (a)): the map is in canonical form. -/
  mshrSorted : cc.mshr.Sorted
  metaSorted : cc.metaTab.Sorted
  /-- `len(MQ) <= cfg.CC_MQ_SIZE` (R180 (b)). -/
  mqBound : cc.mq.length ≤ c.mqSize.toNat
  /-- The number of MSHR keys is at most `cfg.CC_MSHR_ENTRIES` (R180 (c)). -/
  mshrBound : cc.mshr.length ≤ c.mshrEntries.toNat
  /-- A key is a 64-bit address (R34). -/
  keyRange : ∀ e ∈ cc.mshr, e.1 < 2 ^ 64
  /-- `1 <= len(list) <= cfg.CC_MSHR_MAX_MERGE` (R34). -/
  listBound : ∀ e ∈ cc.mshr, 1 ≤ e.2.list.length ∧ e.2.list.length ≤ c.mshrMaxMerge.toNat
  /-- "`READYQ` lists exactly the ready keys, each once" (R180 (f)). -/
  readyOnce : cc.readyQ.Nodup
  readyKeys : ∀ a : Addr, a ∈ cc.readyQ ↔ ∃ m, cc.mshr.lookup a.toNat = some m ∧ m.ready = true
  /-- Every record of the miss queue is a read (R35). -/
  reads : ∀ r ∈ cc.mq, r.isWrite = false
  metaOk : ∀ id e, cc.metaTab.lookup id = some e → MetaRec.Inv c ad cc.mshr cc.lines e
  /-- No two records wait for one key. -/
  metaKeys : ∀ i j e f, cc.metaTab.lookup i = some e → cc.metaTab.lookup j = some f → e.mshrAddr = f.mshrAddr → i = j

/-- The cache engine beside this decoder. -/
structure CcState.Inv (ad : AdState) (cc : CcState) : Prop where
  /-- Before CC.CONFIGURE no dynamic state exists (R251). -/
  unborn : cc.configured = false → cc.lines = [] ∧ cc.mshr = [] ∧ cc.readyQ = [] ∧ cc.mq = [] ∧ cc.metaTab = []
  /-- A configured cache's active copy passed the checks of CC.CONFIGURE (R140). -/
  legal  : cc.configured = true → cc.active.legal ad.configured = true
  tags   : TagInv cc.active cc.mshr cc.lines
  misses : MissInv cc.active ad.active cc

/-! ## Crossbar -/

/-- The crossbar (R37, R197, W5). -/
structure XbState.Inv (xb : XbState) : Prop where
  unborn : xb.configured = false → xb.cells = [] ∧ xb.turns = []
  /-- A configured crossbar's active copy passed the checks of XB.CONFIGURE (R190). -/
  legal  : xb.configured = true → xb.active.legal = true
  cellsCanonical : FMap.Canonical [] xb.cells
  turnsCanonical : FMap.Canonical 0 xb.turns
  /-- Only cells of class 0, virtual channel 0, subnets 0 and 1 and existing nodes hold payloads (R197 (e), W5). -/
  places : ∀ e ∈ xb.cells, ∃ s d, s < 2 ∧ d < xb.active.nodes ∧ e.1 = cellKey s d 0 0
  /-- `depth(s, d, c) <= cfg.XB_BUFCAP` (R37, R197 (c)). -/
  depthBound : ∀ s d, xb.depth s d 0 ≤ xb.active.capacity
  /-- A turn pointer is a virtual channel index (R37). -/
  turnBound : ∀ e ∈ xb.turns, e.2 < xb.active.channels

/-! ## The whole machine -/

/-- The invariant of the machine. -/
structure State.Inv (s : State) : Prop where
  sys : s.sys.Inv
  ad  : s.ad.Inv
  cc  : s.cc.Inv s.ad
  xb  : s.xb.Inv

/-! ## Terms of the claims -/

/-- The state with this response given and nothing else changed. -/
def State.answering (s : State) (r : Rsp) : State := { s with rsp := some r }

/-- A state in which the decoder accepts work: not fatal (R223) and configured (R252). -/
structure State.AdLive (s : State) : Prop where
  notFatal   : s.sys.fatal = false
  configured : s.ad.configured = true

/-- A state in which the cache engine accepts work. -/
structure State.CcLive (s : State) : Prop where
  notFatal   : s.sys.fatal = false
  configured : s.cc.configured = true

/-- A state in which the crossbar accepts work. -/
structure State.XbLive (s : State) : Prop where
  notFatal   : s.sys.fatal = false
  configured : s.xb.configured = true

/-- The state with other staging registers (R26). -/
def State.withStages (s : State) (a : AdRegs) (c : CcRegs) (x : XbRegs) : State :=
  ((s.withAdStage a).withCcStage c).withXbStage x

/-- Every implemented register's address and the value CSRR shows, as the tables of R25, R30, R33, R36 list them. -/
def State.csrView (s : State) : List (Nat × Nat) :=
  [(0x000, 0x0000000147435348), (0x001, (if s.sys.fatal then 1 else 0) + 256 * s.sys.cause.toNat), (0x002, s.sys.info.toNat),
   (0x100, if s.ad.configured then 1 else 0), (0x101, s.ad.stage.maskChip.toNat), (0x102, s.ad.stage.maskBank.toNat),
   (0x103, s.ad.stage.maskRow.toNat), (0x104, s.ad.stage.maskCol.toNat), (0x105, s.ad.stage.maskBurst.toNat),
   (0x106, s.ad.stage.chipStart.toNat), (0x107, s.ad.stage.nchan.toNat), (0x108, s.ad.stage.nsub.toNat),
   (0x109, s.ad.stage.idxfn.toNat), (0x10A, s.ad.stage.maskSel.toNat), (0x10B, s.ad.diag.toNat)] ++
  [(0x200, if s.cc.configured then 1 else 0), (0x201, s.cc.stage.kind.toNat), (0x202, s.cc.stage.nsets.toNat),
   (0x203, s.cc.stage.lineSz.toNat), (0x204, s.cc.stage.assoc.toNat), (0x205, s.cc.stage.repl.toNat),
   (0x206, s.cc.stage.wpol.toNat), (0x207, s.cc.stage.apol.toNat), (0x208, s.cc.stage.walloc.toNat),
   (0x209, s.cc.stage.setIdx.toNat), (0x20A, s.cc.stage.mshrType.toNat), (0x20B, s.cc.stage.mshrEntries.toNat),
   (0x20C, s.cc.stage.mshrMaxMerge.toNat), (0x20D, s.cc.stage.mqSize.toNat), (0x20E, s.cc.stage.rfifo.toNat),
   (0x20F, s.cc.stage.portW.toNat), (0x210, s.cc.stage.sectorIncl.toNat), (0x211, s.cc.stage.blkSrc.toNat),
   (0x212, s.cc.stage.sectorSz.toNat)] ++
  [(0x220, s.cc.dpBusy.toNat), (0x221, s.cc.fpBusy.toNat), (0x222, s.cc.mq.length), (0x223, s.cc.mshr.length),
   (0x224, s.cc.now.toNat), (0x225, s.cc.metaTab.length), (0x300, if s.xb.configured then 1 else 0),
   (0x301, s.xb.stage.subnets.toNat), (0x302, s.xb.stage.nshader.toNat), (0x303, s.xb.stage.nmem.toNat),
   (0x304, s.xb.stage.vcs.toNat), (0x305, s.xb.stage.bufcap.toNat), (0x306, s.xb.stage.classes.toNat)]

/-- The `RW` registers and the widths of their fields (R30, R33, R36). -/
def rwWidths : List (Nat × Nat) :=
  [(0x101, 64), (0x102, 64), (0x103, 64), (0x104, 64), (0x105, 64), (0x106, 6), (0x107, 17), (0x108, 9), (0x109, 3),
   (0x10A, 2), (0x10B, 1)] ++
  [(0x201, 1), (0x202, 32), (0x203, 16), (0x204, 16), (0x205, 1), (0x206, 3), (0x207, 2), (0x208, 2), (0x209, 2),
   (0x20A, 2), (0x20B, 32), (0x20C, 32), (0x20D, 32), (0x20E, 32), (0x20F, 32), (0x210, 1), (0x211, 1), (0x212, 16)] ++
  [(0x301, 8), (0x302, 16), (0x303, 16), (0x304, 8), (0x305, 32), (0x306, 8)]

/-- The five field masks, in the order of R30. -/
def AdRegs.masks (c : AdRegs) : List Reg64 := [c.maskChip, c.maskBank, c.maskRow, c.maskCol, c.maskBurst]

/-- Some two of the five masks both have bit `i` (R111 step 2). -/
def AdRegs.shared (c : AdRegs) (i : Nat) : Prop :=
  ∃ (p q : Nat) (X Y : Reg64), p < q ∧ c.masks[p]? = some X ∧ c.masks[q]? = some Y ∧ X.getLsbD i = true ∧ Y.getLsbD i = true

/-- The legality of a decoder configuration, checks a to g of R111 step 3, in the spec's words. -/
structure AdRegs.Legal (c : AdRegs) : Prop where
  channels : 1 ≤ c.nchan.toNat ∧ c.nchan.toNat ≤ 65536
  subs     : ∃ j, j ≤ 8 ∧ c.nsub.toNat = 2 ^ j
  strategy : c.idxfn.toNat ≤ 5
  widths   : ∀ X ∈ c.masks, popcount X ≤ 32
  room     : c.chipStart.toNat + log2c c.nchan.toNat ≤ 64
  chipPow2 : (∃ k, c.nchan.toNat = 2 ^ k) →
    c.maskChip.toNat = (c.nchan.toNat - 1) * 2 ^ c.chipStart.toNat
  chipElse : (¬∃ k, c.nchan.toNat = 2 ^ k) → c.maskChip = 0 ∧ (c.idxfn = 0 ∨ c.idxfn = 4 ∨ c.idxfn = 5)
  bankBits : c.nsub.toNat ≤ 2 ^ popcount c.maskBank

/-- Every address bit at positions `lo .. hi - 1` is covered by the four fields other than the chip (R118). -/
def AdRegs.Covers (c : AdRegs) (lo hi : Nat) : Prop := ∀ i, lo ≤ i → i < hi → i < 64 → c.u4.getLsbD i = true

/-- The legality of a cache configuration (R140 step 2), in the spec's words. -/
structure CcRegs.Legal (c : CcRegs) (adConfigured : Bool) : Prop where
  sets      : 1 ≤ c.nsets.toNat
  line      : ∃ l, l ≤ 12 ∧ c.lineSz.toNat = 2 ^ l
  ways      : 1 ≤ c.assoc.toNat
  policies  : c.wpol.toNat ≤ 4 ∧ c.apol.toNat ≤ 1 ∧ c.setIdx = 0 ∧ c.mshrType.toNat ≤ 1
  merge     : 1 ≤ c.mshrMaxMerge.toNat
  port      : 1 ≤ c.portW.toNat
  sector    : (∃ q, c.sectorSz.toNat = 2 ^ q) ∧ c.sectorSz.toNat ≤ c.lineSz.toNat
  sectors   : c.kind = 1 → c.lineSz.toNat / c.sectorSz.toNat ≤ 16
  decoder   : c.blkSrc = 1 → adConfigured = true

/-- `src(a)`, `block_addr(a)`, `set_index(a)`, `sm` and `mshr_addr(a)` of R141 to R143 in this state. -/
def State.src (s : State) (a : Addr) : Addr := s.cc.active.srcAddr s.ad.active a
def State.block (s : State) (a : Addr) : Addr := s.cc.active.blockAddr (s.src a)
def State.set (s : State) (a : Addr) : Nat := s.cc.active.setOf (s.block a)
def State.sm (s : State) (a : Addr) : SectorMask := s.cc.active.sectorMask (s.src a)
def State.key (s : State) (a : Addr) : Addr := s.cc.active.mshrAddr (s.src a)

/-- `LINE[set][way]` in this state. -/
def State.line (s : State) (set way : Nat) : Line := lineAt s.cc.lines set way

/-! ### The tag probe (R144) as a relation -/

/-- No way of the set holds block `b`. -/
def Absent (c : CcRegs) (lines : FMap Line) (b : Addr) (set : Nat) : Prop :=
  ∀ w, w < c.ways → (lineAt lines set w).allocated = true → (lineAt lines set w).tag ≠ b

/-- What a probe result says of the tag array. -/
def ProbeFact (c : CcRegs) (lines : FMap Line) (b : Addr) (set : Nat) (sm : SectorMask) : ProbeResult → Prop
  | .hit way => way < c.ways ∧ (lineAt lines set way).allocated = true ∧ (lineAt lines set way).tag = b ∧
      ∀ k : Fin 16, sm.getLsbD k = true → (lineAt lines set way).st[k] ≠ .invalid ∧ (lineAt lines set way).st[k] ≠ .reserved
  | .hitReserved way => way < c.ways ∧ (lineAt lines set way).allocated = true ∧ (lineAt lines set way).tag = b ∧
      (∀ k : Fin 16, sm.getLsbD k = true → (lineAt lines set way).st[k] ≠ .invalid) ∧
      ∃ k : Fin 16, sm.getLsbD k = true ∧ (lineAt lines set way).st[k] = .reserved
  | .sectorMiss way => way < c.ways ∧ (lineAt lines set way).allocated = true ∧ (lineAt lines set way).tag = b ∧
      ∃ k : Fin 16, sm.getLsbD k = true ∧ (lineAt lines set way).st[k] = .invalid
  | .miss way => way < c.ways ∧ Absent c lines b set ∧ (lineAt lines set way).isReserved = false ∧
      (((lineAt lines set way).allocated = false ∧ ∀ w, w < way → (lineAt lines set w).allocated = true) ∨
       ((∀ w, w < c.ways → (lineAt lines set w).allocated = true) ∧
        ∀ w, w < c.ways → (lineAt lines set w).isReserved = false →
          replKey c lines set way < replKey c lines set w ∨ (replKey c lines set way = replKey c lines set w ∧ way ≤ w)))
  | .reservationFail => Absent c lines b set ∧ ∀ w, w < c.ways → (lineAt lines set w).isReserved = true

/-- The probe for the address `a` answers `p` (R144). -/
def State.Probed (s : State) (a : Addr) (p : ProbeResult) : Prop :=
  ProbeFact s.cc.active s.cc.lines (s.block a) (s.set a) (s.sm a) p

/-- A read request that passes every check of R150 in a sound state. -/
structure State.Accepts (s : State) (smask : SectorMask) (addr : Addr) (id : ReqId) (size : ReqSize) : Prop where
  live   : s.CcLive
  sound  : s.Inv
  sizePos : size ≠ 0
  inside : s.cc.active.offset (s.src addr) % s.cc.active.tagSectorBytes + size.toNat ≤ s.cc.active.tagSectorBytes
  mask   : 1 < s.cc.active.tagSectors → smask = s.sm addr
  fresh  : s.cc.metaTab.lookup id.toNat = none

/-- The line a MISS replaces under ON_MISS, or a fill replaces under ON_FILL, is written back exactly when it is modified
(R145, R161): its report. -/
def Line.report (ln : Line) : Option Writeback → Prop
  | none   => ¬∃ k : Fin 16, ln.st[k] = .modified
  | some v => (∃ k : Fin 16, ln.st[k] = .modified) ∧ v.addr = ln.tag ∧ v.bytes = popcount ln.dirty ∧
      ∀ k : Fin 16, v.sectors.getLsbD k = true ↔ ln.st[k] = .modified

/-! ### Commands -/

/-- `raise Fatal(cause, info)` as R222 writes it: the state at entry to the fatal state. -/
def State.fatalEntry (s : State) (cause : BitVec 8) (info : Reg64) : State :=
  { s with
    sys := { fatal := true, cause := cause, info := info }
    rsp := some { status := .fatalRaised, q0 := cause.setWidth 64, q1 := info } }

/-- The state with another AD_DIAG (R30). -/
def State.withDiag (s : State) (d : BitVec 1) : State := { s with ad := { s.ad with diag := d } }

/-- Change the state an outcome answers; a fault or a refusal stays. -/
def mapNext (f : State → State) : Outcome → Outcome
  | .next t    => .next (f t)
  | .fault r   => .fault r
  | .refused r => .refused r

/-- None of the next `n` inputs is a reset pulse. -/
def State.NoReset (s : State) (n : Nat) : Prop := ∀ x ∈ s.inputs.take n, x ≠ .reset

/-- The unit of a command, `op[7:4]` (R81): 0 system, 1 decoder, 2 cache, 3 crossbar. -/
def unitOf (i : Instr) : Nat := (encode i).op.toNat / 16

/-- The 22 opcodes of R85. -/
def opcodes : List Nat :=
  [0x00, 0x01, 0x02, 0x10, 0x11, 0x12, 0x13, 0x20, 0x21, 0x22, 0x23, 0x24, 0x25, 0x26, 0x27, 0x28, 0x30, 0x31, 0x32, 0x33,
   0x34, 0x35]

/-- The opcodes of format Z (R85). -/
def plainOpcodes : List Nat := [0x00, 0x10, 0x20, 0x24, 0x25, 0x26, 0x27, 0x28, 0x30, 0x34, 0x35]

/-- R88 (c): a field the opcode's format does not read is nonzero (R82, R85). -/
def UnreadNonzero (w : CmdWord) : Prop :=
  (w.op.toNat ∈ plainOpcodes ∧ (w.h0 ≠ 0 ∨ w.h1 ≠ 0 ∨ w.w0 ≠ 0 ∨ w.d0 ≠ 0 ∨ w.d1 ≠ 0)) ∨
  ((w.op = 0x01 ∨ w.op = 0x02) ∧ (w.h1 ≠ 0 ∨ w.w0 ≠ 0 ∨ w.d1 ≠ 0)) ∨
  ((w.op = 0x11 ∨ w.op = 0x12) ∧ (w.h0 ≠ 0 ∨ w.h1 ≠ 0 ∨ w.w0 ≠ 0 ∨ w.d1 ≠ 0)) ∨
  (w.op = 0x13 ∧ (w.h0 ≠ 0 ∨ w.h1 ≠ 0 ∨ w.w0 ≠ 0)) ∨
  (w.op = 0x21 ∧ w.h1 ≠ 0) ∨
  (w.op = 0x22 ∧ (w.h1 ≠ 0 ∨ w.w0 ≠ 0 ∨ w.d0 ≠ 0)) ∨
  ((w.op = 0x23 ∨ w.op = 0x33) ∧ (w.h1 ≠ 0 ∨ w.w0 ≠ 0 ∨ w.d0 ≠ 0 ∨ w.d1 ≠ 0)) ∨
  ((w.op = 0x31 ∨ w.op = 0x32) ∧ w.w0 ≠ 0)

/-- R88 (d): a "must be 0" sub-field of the opcode's format is nonzero (R82, R85). -/
def MustBeZeroNonzero (w : CmdWord) : Prop :=
  (w.op = 0x01 ∧ w.d0 ≠ 0) ∨ (w.op = 0x21 ∧ w.h0.toNat / 4 ≠ 0) ∨
  ((w.op = 0x22 ∨ w.op = 0x23) ∧ w.h0.toNat / 2 ≠ 0) ∨
  ((w.op = 0x31 ∨ w.op = 0x32) ∧ w.d1.toNat / 2 ^ 32 ≠ 0)

/-- An illegal command: R88 (a), (b), (c), (d). -/
def Illegal (w : CmdWord) : Prop :=
  w.op.toNat ∉ opcodes ∨ w.rsv ≠ 0 ∨ UnreadNonzero w ∨ MustBeZeroNonzero w

/-! ### The decoder -/

/-- How many 1 bits the mask has below position `p`: bit `p` of a mask is its `j`-th 1 bit for this `j` (R11). -/
def rankBelow (m : Reg64) (p : Nat) : Nat := ((List.range p).filter fun i => m.getLsbD i).length

/-- The bounds of R119 at one address. -/
structure AdRegs.BoundsHold (F : ParamFns) (c : AdRegs) (a : Addr) : Prop where
  chip   : c.chip F a < c.nchan.toNat
  sub    : c.sub F a < c.nchan.toNat * c.nsub.toNat
  subDiv : c.sub F a / c.nsub.toNat = c.chip F a
  subMod : c.sub F a % c.nsub.toNat = c.bank a % c.nsub.toNat
  bank   : c.bank a < 2 ^ popcount c.maskBank
  row    : c.row a < 2 ^ popcount c.maskRow
  col    : c.col a < 2 ^ popcount c.maskCol
  burst  : c.burst a < 2 ^ popcount c.maskBurst

/-- `same_relevant(a, b)` of R122. -/
def AdRegs.SameRelevant (c : AdRegs) (a b : Addr) : Prop :=
  ((∃ k, c.nchan.toNat = 2 ^ k) → (a ^^^ b) &&& c.u = 0) ∧
  ((¬∃ k, c.nchan.toNat = 2 ^ k) → c.chipRaw a = c.chipRaw b ∧ (c.w a ^^^ c.w b) &&& c.u4 = 0)

/-- The sweep's assertion fails at index `t` (R122). -/
def AdRegs.SweepFails (F : ParamFns) (c : AdRegs) (base : Addr) (stride : BitVec 32) (t : Nat) : Prop :=
  ¬c.BoundsHold F (sweepAddr base stride t) ∨
  ∃ i, i < t ∧ c.decode F (sweepAddr base stride i) = c.decode F (sweepAddr base stride t) ∧
    ¬c.SameRelevant (sweepAddr base stride i) (sweepAddr base stride t)

/-- The operands AD.SWEEP step 3 accepts (R122). -/
def SweepRange (base : Addr) (count stride : BitVec 32) : Prop :=
  count ≠ 0 ∧ stride ≠ 0 ∧ base.toNat + (count.toNat - 1) * stride.toNat < 2 ^ 64

/-! ### The cache engine -/

/-- The tag status numbers of R156. -/
def tagStatus : ProbeResult → Nat
  | .hit _           => 0
  | .hitReserved _   => 1
  | .miss _          => 2
  | .sectorMiss _    => 3
  | .reservationFail => 4

/-- Line `(set, way)` of `lines` is `ln` and every other line is that of `s`. -/
def State.LineBecomes (s : State) (lines : FMap Line) (set way : Nat) (ln : Line) : Prop :=
  lineAt lines set way = ln ∧
  ∀ set' way', way' < s.cc.active.ways → (set' = set → way' ≠ way) → lineAt lines set' way' = s.line set' way'

/-- A line as `allocate(ln, b, sm)` leaves it (R145). -/
structure Line.AllocatedFor (ln : Line) (b : Addr) (sm : SectorMask) (now : BitVec 64) : Prop where
  tag   : ln.tag = b
  st    : ∀ k : Fin 16, ln.st[k] = if sm.getLsbD k then .reserved else .invalid
  dirty : ln.dirty = 0
  last  : ln.lastAccess = now
  alloc : ln.allocTime = now

/-- A line whose sectors `sm` became RESERVED at `now` and that is `old` otherwise (R145, SECTOR_MISS). -/
structure Line.SectorReserved (ln old : Line) (sm : SectorMask) (now : BitVec 64) : Prop where
  tag   : ln.tag = old.tag
  st    : ∀ k : Fin 16, ln.st[k] = if sm.getLsbD k then .reserved else old.st[k]
  dirty : ln.dirty = old.dirty
  last  : ln.lastAccess = now
  alloc : ln.allocTime = old.allocTime

/-- `tag_access` for the address `a` leaves the tag array `lines` and reports `wb`, the probe having answered `p` (R145). -/
def State.TagAccessed (s : State) (a : Addr) (lines : FMap Line) (wb : Option Writeback) : ProbeResult → Prop
  | .hit way | .hitReserved way =>
    wb = none ∧ s.LineBecomes lines (s.set a) way { s.line (s.set a) way with lastAccess := s.cc.now }
  | .miss way =>
    (s.cc.active.apol = 0 → (s.line (s.set a) way).report wb ∧
      ∃ ln, s.LineBecomes lines (s.set a) way ln ∧ ln.AllocatedFor (s.block a) (s.sm a) s.cc.now) ∧
    (s.cc.active.apol ≠ 0 → wb = none ∧ lines = s.cc.lines)
  | .sectorMiss way =>
    wb = none ∧
    (s.cc.active.apol = 0 → ∃ ln, s.LineBecomes lines (s.set a) way ln ∧
      ln.SectorReserved (s.line (s.set a) way) (s.sm a) s.cc.now) ∧
    (s.cc.active.apol ≠ 0 → lines = s.cc.lines)
  | .reservationFail => wb = none ∧ lines = s.cc.lines

/-- The cycles `use_data_port(size, ts, wb)` charges, by R165. -/
def State.charge (s : State) (size : ReqSize) (wb : Option Writeback) : ProbeResult → Nat
  | .hit _ => (size.toNat + s.cc.active.portW.toNat - 1) / s.cc.active.portW.toNat
  | .miss _ | .hitReserved _ =>
    wb.elim 0 fun v => (v.bytes + s.cc.active.portW.toNat - 1) / s.cc.active.portW.toNat
  | .sectorMiss _ | .reservationFail => 0

/-- DP_BUSY after that charge, saturating (R165). -/
def State.dpAfter (s : State) (size : ReqSize) (wb : Option Writeback) (p : ProbeResult) : Nat :=
  min (s.cc.dpBusy.toNat + s.charge size wb p) (2 ^ 64 - 1)

/-- FP_BUSY after `use_fill_port()`, saturating (R166). -/
def State.fpAfter (s : State) : Nat :=
  min (s.cc.fpBusy.toNat + s.cc.active.lineSz.toNat / s.cc.active.portW.toNat) (2 ^ 64 - 1)

/-- The response of CC.ACCESS, field by field (R156). -/
structure Rsp.Reports (r : Rsp) (st : Status) (p : ProbeResult) (wb : Option Writeback) (added : Nat) : Prop where
  status : r.status = st
  aux    : r.aux.toNat = tagStatus p + if wb.isSome then 8 else 0
  q0     : r.q0 = wb.elim 0 Writeback.addr
  q1     : r.q1.toNat = wb.elim 0 fun v => v.bytes + 2 ^ 32 * v.sectors.toNat
  q2     : r.q2.toNat = added

/-- `pending_init(size)` (R157). -/
def State.owedFills (s : State) (size : ReqSize) : Nat :=
  if s.cc.active.mshrType = 0 then 1
  else max 1 ((size.toNat + s.cc.active.sectorSz.toNat - 1) / s.cc.active.sectorSz.toNat)

/-- A filled line: `base`, its sectors `e.smask` changed by `f`, or MODIFIED with the request's bytes marked dirty when the
entry holds an atomic; `o` is the offset of the original address (R161, R162). -/
structure Line.FilledFrom (ln base : Line) (e : MetaRec) (f : SectorStatus → SectorStatus) (atomic : Bool) (o : Nat) :
    Prop where
  tag   : ln.tag = base.tag
  last  : ln.lastAccess = base.lastAccess
  alloc : ln.allocTime = base.allocTime
  st    : ∀ k : Fin 16, ln.st[k] = if e.smask.getLsbD k then (if atomic then .modified else f base.st[k]) else base.st[k]
  dirty : ∀ b, b < 4096 →
    (ln.dirty.getLsbD b = true ↔ base.dirty.getLsbD b = true ∨ (atomic = true ∧ o ≤ b ∧ b < o + e.origSize.toNat))

/-- The set `tag_fill` derives from the record's block address under ON_FILL (R161). -/
def State.fillSet (s : State) (e : MetaRec) : Nat := e.blockAddr.toNat / s.cc.active.lineSz.toNat % s.cc.active.nsets.toNat

/-- Where and how `tag_fill` writes under ON_FILL, the probe having answered `p`: the way, the line it starts from, the change
of the sectors, the writeback (R161). -/
def State.FillPlan (s : State) (e : MetaRec) (way : Nat) (base : Line) (f : SectorStatus → SectorStatus)
    (wb : Option Writeback) : ProbeResult → Prop
  | .miss w =>
    way = w ∧ base = { Line.empty with tag := e.blockAddr, lastAccess := s.cc.now, allocTime := s.cc.now } ∧
    f = (fun _ => .valid) ∧ (s.line (s.fillSet e) w).report wb
  | .sectorMiss w | .hitReserved w =>
    way = w ∧ base = { s.line (s.fillSet e) w with lastAccess := s.cc.now } ∧
    f = (fun v => if v = .modified then .modified else .valid) ∧ wb = none
  | .hit w => way = w ∧ base = s.line (s.fillSet e) w ∧ f = id ∧ wb = none
  | .reservationFail => False

/-- The response of a completing CC.FILL (R160). -/
structure Rsp.ReportsFill (p : Rsp) (r : ReqId) (wb : Option Writeback) : Prop where
  status : p.status = .fillDone
  aux    : p.aux.toNat = if wb.isSome then 8 else 0
  q0     : p.q0.toNat = r.toNat
  q1     : p.q1.toNat = wb.elim 0 fun v => v.bytes + 2 ^ 32 * v.sectors.toNat
  q2     : p.q2 = wb.elim 0 Writeback.addr

/-- What a completing fill of request `r` leaves beside the tag array `lines` (R160): the entry ready and queued, the record
removed, the fill port charged. -/
def State.FillDone (s t : State) (r : ReqId) (e : MetaRec) (m : MshrEntry) (lines : FMap Line) (wb : Option Writeback) :
    Prop :=
  ∃ mshr metaTab rsp,
    t = { s with
          cc  := { s.cc with
                   lines := lines, mshr := mshr, readyQ := s.cc.readyQ ++ [e.mshrAddr], metaTab := metaTab
                   fpBusy := BitVec.ofNat 64 s.fpAfter }
          rsp := some rsp } ∧
    (∀ k, mshr.lookup k = if k = e.mshrAddr.toNat then some { m with ready := true } else s.cc.mshr.lookup k) ∧
    (∀ k, metaTab.lookup k = if k = r.toNat then none else s.cc.metaTab.lookup k) ∧
    rsp.ReportsFill r wb

/-! ### The crossbar -/

/-- The subnet a source sends on (R192). -/
def State.sendsOn (s : State) (src : NodeId) : Nat :=
  if s.xb.active.subnets = 1 then 0 else if src.toNat < s.xb.active.nshader.toNat then 0 else 1

/-- The subnet a device receives on (R192). -/
def State.receivesOn (s : State) (dev : NodeId) : Nat :=
  if s.xb.active.subnets = 1 then 0 else if dev.toNat < s.xb.active.nshader.toNat then 1 else 0

/-- The queue cells of `xb` are those of `s` but for `Q[sub][dev][0][v]`, which is `q`; over every index of R36's widths. -/
def State.CellBecomes (s : State) (xb : XbState) (sub dev v : Nat) (q : List Payload) : Prop :=
  ∀ s' d' c' v', s' < 256 → d' < 65536 → c' < 256 → v' < 256 →
    xb.cell s' d' c' v' = if s' = sub ∧ d' = dev ∧ c' = 0 ∧ v' = v then q else s.xb.cell s' d' c' v'

end Sys2Proof.Machine
end

