-- ==== Sys2Proof/Certificates/Slice0/Obligations.lean ====
section
/-! DEFINITION. The statements for the provers, each naming the rule of spec/ it formalises. Terms used here and not of the
model itself (`State.Inv`, `AdRegs.Legal`, `State.Accepts`, `Line.report`, ...) stand in Safety.lean. -/

section Statements

open Sys2Proof Sys2Proof.Machine

/-! ## Encoding (30_encoding.md) -/

/-- Every command, with every operand at every value, is a legal encoding and decodes to itself (R81, R82, R85, R86). -/
def Obligations.EncodedCommandsDecodeToThemselves : Prop :=
  ∀ i : Instr, decode (encode i) = .ok i ∧ (encode i).wellFormed = true

/-- A legal word carries nothing but its command: encoding what it decodes to gives the word back (R85, R88). -/
def Obligations.LegalWordsEncodeBack : Prop :=
  ∀ (w : CmdWord) (i : Instr), decode w = .ok i → encode i = w

/-- R87: a word decodes exactly when a row of the opcode table matches it; then it is one row, the command's own, and the
opcode alone tells which command it is. -/
def Obligations.EveryWordMatchesOneRowOrIsIllegal : Prop :=
  (∀ w : CmdWord, (∃ i, decode w = .ok i) ↔ ∃ r ∈ opcodeRows, w &&& r.mask = r.bits) ∧
  (∀ (w : CmdWord) (i : Instr), decode w = .ok i →
    ∃ r ∈ opcodeRows, w &&& r.mask = r.bits ∧ r.mnemonic = i.mnemonic ∧
      ∀ q ∈ opcodeRows, w &&& q.mask = q.bits → q = r) ∧
  (∀ (v w : CmdWord) (i j : Instr), decode v = .ok i → decode w = .ok j → v.op = w.op → i.mnemonic = j.mnemonic)

/-- Words of 95_test_vectors.md, and texts of 30_encoding.md section 4, against the commands they stand for. -/
def Obligations.SpecExamplesDecodeAndAssemble : Prop :=
  decode 0x000000000000000000000000000000000000000000000000#192 = .ok .nop ∧
  decode 0x0000000000000000FFFFFFFFFFFFFFFF0000000001060002#192 = .ok (.csrw 0x106 0xFFFFFFFFFFFFFFFF) ∧
  decode 0x000000010000200000000000000000000000000000000013#192 = .ok (.adSweep 0 8192 1) ∧
  decode 0x000000100000000100000000000010200002000000000021#192 = .ok (.ccAccess false false 2 0x1020 1 16) ∧
  decode 0x000000010000000A00000000000000000000000000010022#192 = .ok (.ccFill true 10 1) ∧
  decode 0x000000000000000800000000000000A20000000200010032#192 = .ok (.xbPush 1 2 0xA2 8) ∧
  assemble "CC.ACCESS addr=0x1000, size=32, id=7, smask=1" = .ok [.ccAccess false false 1 0x1000 7 32] ∧
  assemble ("AD.LAYOUT " ++ "\"00000000.00000000.00000000.00000000.RRRRRRRR.RRRRRRRR.RRRBBBDD.CCCSSSSS\"" ++
      ", nchan=4, nsub=2, idxfn=0") =
    .ok [.csrw 0x101 0x300, .csrw 0x102 0x1C00, .csrw 0x103 0xFFFFE000, .csrw 0x104 0xE0, .csrw 0x105 0x1F, .csrw 0x106 8,
         .csrw 0x107 4, .csrw 0x108 2, .csrw 0x109 0, .csrw 0x10A 0, .adConfigure]

/-- R88: a word is illegal in exactly the cases (a) to (d), and an illegal command answers ILLEGAL_OP and changes nothing,
in every state, the fatal state included. -/
def Obligations.IllegalCommandsChangeNothing : Prop :=
  (∀ w : CmdWord, Illegal w ↔ ¬∃ i, decode w = .ok i) ∧
  (∀ (w : CmdWord) (s : State), Illegal w → runCmd w s = .next (s.answering { status := .illegalOp })) ∧
  (∀ w : CmdWord, (0x03 ≤ w.op.toNat ∧ w.op.toNat ≤ 0x0F) ∨ (0x14 ≤ w.op.toNat ∧ w.op.toNat ≤ 0x1F) ∨
    (0x29 ≤ w.op.toNat ∧ w.op.toNat ≤ 0x2F) ∨ 0x36 ≤ w.op.toNat → Illegal w)

/-- One step presents the oldest input: a legal command is executed, an illegal one rejected, a reset pulse resets, and with
no input nothing happens. That inputs stand in a list is the model's choice (log 1). -/
def Obligations.AStepRunsTheNextInput : Prop :=
  (∀ s : State, s.inputs = [] → step s = .next s) ∧
  (∀ (s : State) (w : CmdWord) (rest : List EnvInput) (i : Instr), s.inputs = .cmd w :: rest → decode w = .ok i →
    step s = exec i (s.withInputs rest)) ∧
  (∀ (s : State) (w : CmdWord) (rest : List EnvInput), s.inputs = .cmd w :: rest → (¬∃ i, decode w = .ok i) →
    step s = .next ((s.withInputs rest).answering { status := .illegalOp })) ∧
  (∀ (s : State) (rest : List EnvInput), s.inputs = .reset :: rest → step s = .next (s.withInputs rest).resetPulse) ∧
  (∀ (s : State) (i : Instr), step (s.withFetchWord 192 (encode i).toNat) = exec i s)

/-- R63 for command words: byte `i` of the serialised word holds bits `8i+7:8i`; 24 bytes decode as the word they stand for and
no other number of bytes is a command. -/
def Obligations.SerialisedCommandsDecodeAlike : Prop :=
  (∀ (w : CmdWord) (i : Nat), i < 24 → (bytesOfCmd w)[i]? = some (w.extractLsb' (8 * i) 8)) ∧
  (∀ w : CmdWord, decodeBytes (bytesOfCmd w) = decode w) ∧
  (∀ bs : List Byte, bs.length ≠ 24 → decodeBytes bs = .error .wrongLength) ∧
  (∀ i : Instr, decodeTableWord 192 (encode i).toNat = some i)

/-- The response word by its fields (R83), its 32 bytes, byte `i` holding bits `8i+7:8i`, from which it is read back (R63), and
the status codes (R84). -/
def Obligations.ResponseWordHasItsFields : Prop :=
  (∀ r : Rsp, r.word.toNat = r.status.code.toNat + 2 ^ 8 * r.aux.toNat + 2 ^ 64 * r.q0.toNat + 2 ^ 128 * r.q1.toNat +
    2 ^ 192 * r.q2.toNat) ∧
  (∀ r : Rsp, r.bytes.length = 32 ∧ (∀ i : Nat, i < 32 → r.bytes[i]? = some (r.word.extractLsb' (8 * i) 8)) ∧
    BitVec.ofNat 256 (natOfBytes r.bytes) = r.word) ∧
  ∀ x ∈ [(Status.ok, 0x00), (.fatalState, 0x01), (.illegalOp, 0x02), (.notConfigured, 0x03), (.alreadyConfigured, 0x04),
         (.configInvalid, 0x05), (.badOperand, 0x06), (.badCsr, 0x07), (.refusedWrite, 0x08), (.diagDisabled, 0x09),
         (.fatalRaised, 0x0A), (.hit, 0x10), (.mshrHit, 0x11), (.miss, 0x12), (.mshrMergeFail, 0x13), (.mshrEntryFail, 0x14),
         (.missQueueFull, 0x15), (.lineAllocFail, 0x16), (.fillDone, 0x18), (.fillWait, 0x19)], (x.1.code).toNat = x.2

/-! ## System operations (43_system_ops.md, 60_exceptions.md, 70_reset_and_hazards.md) -/

/-- NOP answers OK and changes nothing, in every state (R210); so do XB.ADVANCE and XB.BUSY on a crossbar that accepts work,
whatever its queues hold (R198, R199). -/
def Obligations.NopAdvanceAndBusyAnswerOk : Prop :=
  (∀ s : State, exec .nop s = .next (s.answering { status := .ok })) ∧
  (∀ s : State, s.XbLive → exec .xbAdvance s = .next (s.answering { status := .ok }) ∧
    exec .xbBusy s = .next (s.answering { status := .ok, aux := 0 }))

/-- R211: CSRR answers the value the tables of 10_state.md give the register and changes nothing; every other address is
BAD_CSR. It does so in the fatal state too. -/
def Obligations.CsrReadsAnswerTheRegister : Prop :=
  ∀ (s : State) (csr : CsrAddr),
    (∀ v : Nat, (csr.toNat, v) ∈ s.csrView →
      exec (.csrr csr) s = .next (s.answering { status := .ok, q0 := BitVec.ofNat 64 v })) ∧
    ((∀ v : Nat, (csr.toNat, v) ∉ s.csrView) → exec (.csrr csr) s = .next (s.answering { status := .badCsr }))

/-- R212: CSRW to an RW register stores the value cut to the register's field, so that CSRR shows it; every other register reads
as before and nothing but the staging copies and AD_DIAG can change. Any other address is BAD_CSR. -/
def Obligations.CsrWritesStoreTheMaskedValue : Prop :=
  ∀ (s : State) (csr : CsrAddr) (value : Reg64), s.sys.fatal = false →
    (∀ n : Nat, (csr.toNat, n) ∈ rwWidths →
      ∃ a c x d, exec (.csrw csr value) s = .next (((s.withStages a c x).withDiag d).answering { status := .ok }) ∧
        ((s.withStages a c x).withDiag d).csrView =
          s.csrView.map fun r => if r.1 = csr.toNat then (r.1, value.toNat % 2 ^ n) else r) ∧
    ((∀ n : Nat, (csr.toNat, n) ∉ rwWidths) → exec (.csrw csr value) s = .next (s.answering { status := .badCsr }))

/-- R26, R74: what stands in the staging registers changes nothing any operation does but CSRR, CSRW and the three
CONFIGURE. -/
def Obligations.StagingRegistersHaveNoOtherEffect : Prop :=
  ∀ (i : Instr) (s : State) (a : AdRegs) (c : CcRegs) (x : XbRegs),
    (∀ r, i ≠ .csrr r) → (∀ r v, i ≠ .csrw r v) → i ≠ .adConfigure → i ≠ .ccConfigure → i ≠ .xbConfigure →
    exec i (s.withStages a c x) = mapNext (fun t => t.withStages a c x) (exec i s)

/-- R223: the three common checks in their order; in the fatal state only NOP and CSRR are performed, nothing but the response
changes, no second fatal condition is raised, and no step leaves it but the reset pulse. -/
def Obligations.CommonChecksAndTheFatalState : Prop :=
  (∀ (w : CmdWord) (s : State), Illegal w → runCmd w s = .next (s.answering { status := .illegalOp })) ∧
  (∀ (w : CmdWord) (s : State), ¬Illegal w → s.sys.fatal = true → w.op ≠ 0x00 → w.op ≠ 0x01 →
    runCmd w s = .next (s.answering { status := .fatalState })) ∧
  (∀ (w : CmdWord) (s : State), ¬Illegal w → s.sys.fatal = true → w.op = 0x00 ∨ w.op = 0x01 →
    ∃ r, runCmd w s = .next (s.answering r) ∧ (r.status = .ok ∨ r.status = .badCsr)) ∧
  (∀ (w : CmdWord) (s : State) (i : Instr), decode w = .ok i → runCmd w s = exec i s) ∧
  (∀ (s t : State), s.sys.fatal = true → step s = .next t → t.sys.fatal = false → ∃ rest, s.inputs = .reset :: rest)

/-- W3, R223, R227: from a fatal state, however many steps the environment drives, nothing but the response moves until a reset
pulse. -/
def Obligations.FatalStateIsFrozenAlongRuns : Prop :=
  ∀ (n : Nat) (s : State), s.sys.fatal = true → s.NoReset n →
    ∃ r, core.run n s = .next { s with rsp := r, inputs := s.inputs.drop n }

/-- R222, with the causes of R221: whenever an operation makes the machine fatal it is one of the four, SYS_FATAL and
SYS_FATAL_INFO hold its cause and info, the response reports both, and nothing else changed. -/
def Obligations.FatalEntryIsPrecise : Prop :=
  ∀ (i : Instr) (s t : State), s.sys.fatal = false → exec i s = .next t → t.sys.fatal = true →
    t = s.fatalEntry t.sys.cause t.sys.info ∧
    ((i = .adConfigure ∧ t.sys.cause = 1 ∧ t.sys.info ≠ 0) ∨
     (∃ base count stride k, i = .adSweep base count stride ∧ t.sys.cause = 2 ∧ k < count.toNat ∧
       t.sys.info.toNat = base.toNat + k * stride.toNat) ∨
     (∃ hasParent id parent, i = .ccFill hasParent id parent ∧ t.sys.cause = 3 ∧
       t.sys.info.toNat = if hasParent then parent.toNat else id.toNat) ∨
     (∃ src dst payload size, i = .xbPush src dst payload size ∧ t.sys.cause = 4 ∧
       t.sys.info.toNat = dst.toNat + 2 ^ 16 * src.toNat))

/-- R250, R251: what a reset pulse leaves. The active copies at 0, no response, the inputs kept and the run counted on are the
model's choices (logs 2, 4, 5, 6). -/
def Obligations.ResetLeavesTheStatedValues : Prop :=
  ∀ (s : State) (rest : List EnvInput), s.inputs = .reset :: rest →
    ∃ t, step s = .next t ∧ t = { State.reset with inputs := rest, run := s.run + 1 } ∧
      (∀ x ∈ t.csrView, x.2 = if x.1 = 0 then 0x0000000147435348 else 0) ∧
      t.cc.lines = [] ∧ t.cc.mshr = [] ∧ t.cc.readyQ = [] ∧ t.cc.mq = [] ∧ t.cc.metaTab = [] ∧ t.xb.cells = [] ∧ t.xb.turns = []

/-- R66: the commands that change no state, repeated at once, answer the same and change nothing. -/
def Obligations.ReadOnlyCommandsAreIdempotent : Prop :=
  ∀ (i : Instr) (s t : State),
    (i = .nop ∨ (∃ r, i = .csrr r) ∨ (∃ a, i = .adDecode a) ∨ (∃ a, i = .adPaddr a) ∨ i = .ccDpfree ∨ i = .ccFpfree ∨
      i = .ccReady ∨ i = .ccMqhead ∨ (∃ a b p z, i = .xbHasbuf a b p z) ∨ i = .xbAdvance ∨ i = .xbBusy) →
    exec i s = .next t → (∃ r, t = s.answering r) ∧ exec i t = .next t

/-- R71: a decoder operation changes no cache or crossbar state and reads none, a cache operation changes no decoder or crossbar
state, never reads the crossbar, the decoder's staging copy or AD_DIAG, and reads of the decoder only the active copy, with
CC_BLKSRC = 1, or in CC.CONFIGURE only AD_CTRL.CONFIGURED (R140); a crossbar operation changes and reads crossbar state only; no
command changes the environment's pending inputs or the run. -/
def Obligations.BlocksAreSeparate : Prop :=
  (∀ (i : Instr) (s t : State), exec i s = .next t →
    t.inputs = s.inputs ∧ t.run = s.run ∧
    (unitOf i = 1 → t.cc = s.cc ∧ t.xb = s.xb) ∧ (unitOf i = 2 → t.ad = s.ad ∧ t.xb = s.xb) ∧
    (unitOf i = 3 → t.ad = s.ad ∧ t.cc = s.cc)) ∧
  (∀ (i : Instr) (s : State) (cc : CcState) (xb : XbState), unitOf i = 1 →
    exec i { s with cc := cc, xb := xb } = mapNext (fun t => { t with cc := cc, xb := xb }) (exec i s)) ∧
  (∀ (i : Instr) (s : State) (ad : AdState) (xb : XbState), unitOf i = 2 → i ≠ .ccConfigure → s.cc.active.blkSrc = 0 →
    exec i { s with ad := ad, xb := xb } = mapNext (fun t => { t with ad := ad, xb := xb }) (exec i s)) ∧
  (∀ (i : Instr) (s : State) (xb : XbState), unitOf i = 2 →
    exec i { s with xb := xb } = mapNext (fun t => { t with xb := xb }) (exec i s)) ∧
  (∀ (i : Instr) (s : State) (r : AdRegs) (d : BitVec 1), unitOf i = 2 →
    exec i ((s.withAdStage r).withDiag d) = mapNext (fun t => (t.withAdStage r).withDiag d) (exec i s)) ∧
  (∀ (s : State) (active : AdRegs),
    exec .ccConfigure { s with ad := { s.ad with active := active } } =
      mapNext (fun t => { t with ad := { t.ad with active := active } }) (exec .ccConfigure s)) ∧
  (∀ (i : Instr) (s : State) (b : Bool), unitOf i = 2 → i ≠ .ccConfigure →
    exec i { s with ad := { s.ad with configured := b } } =
      mapNext (fun t => { t with ad := { t.ad with configured := b } }) (exec i s)) ∧
  (∀ (i : Instr) (s : State) (ad : AdState) (cc : CcState), unitOf i = 3 →
    exec i { s with ad := ad, cc := cc } = mapNext (fun t => { t with ad := ad, cc := cc }) (exec i s))

/-- R252: before a block's CONFIGURE every other operation of the block answers NOT_CONFIGURED and changes nothing. (AD.SWEEP
looks at AD_DIAG first, R122; the XB placeholders and the CC queries are among them, log 10.) -/
def Obligations.UnconfiguredBlocksRefuseWork : Prop :=
  ∀ (i : Instr) (s : State), s.sys.fatal = false →
    ((∃ a, i = .adDecode a) ∨ (∃ a, i = .adPaddr a) ∨ (s.ad.diag ≠ 0 ∧ ∃ b n d, i = .adSweep b n d)) ∧
        s.ad.configured = false ∨
      unitOf i = 2 ∧ i ≠ .ccConfigure ∧ s.cc.configured = false ∨
      unitOf i = 3 ∧ i ≠ .xbConfigure ∧ s.xb.configured = false →
    exec i s = .next (s.answering { status := .notConfigured })

/-! ## Address decoder (40_address_decoder.md) -/

/-- R11: `pext` puts the bit at the mask's `j`-th 1 bit at place `j` and fits in `popcount` bits; `pdep` scatters back; together
they keep the masked bits. -/
def Obligations.PackedBitsKeepTheirOrder : Prop :=
  ∀ m v : Reg64,
    pext m v < 2 ^ popcount m ∧
    (∀ p, p < 64 → m.getLsbD p = true → (pext m v).testBit (rankBelow m p) = v.getLsbD p) ∧
    (∀ (x p : Nat), p < 64 → (pdep m x).getLsbD p = (m.getLsbD p && x.testBit (rankBelow m p))) ∧
    pdep m (pext m v) = v &&& m

/-- R111: AD.CONFIGURE reports ALREADY_CONFIGURED, then raises AD_OVERLAP with the shared mask bits, then reports
CONFIG_INVALID, else commits the ten staging registers and configures the decoder. -/
def Obligations.AdConfigureChecksThenCommits : Prop :=
  ∀ s : State, s.sys.fatal = false →
    (s.ad.configured = true → exec .adConfigure s = .next (s.answering { status := .alreadyConfigured })) ∧
    (s.ad.configured = false → (∃ b, s.ad.stage.shared b) →
      ∃ ov : Reg64, (∀ b, ov.getLsbD b = true ↔ s.ad.stage.shared b) ∧ exec .adConfigure s = .next (s.fatalEntry 0x01 ov)) ∧
    (s.ad.configured = false → (¬∃ b, s.ad.stage.shared b) → ¬s.ad.stage.Legal →
      exec .adConfigure s = .next (s.answering { status := .configInvalid })) ∧
    (s.ad.configured = false → (¬∃ b, s.ad.stage.shared b) → s.ad.stage.Legal →
      exec .adConfigure s =
        .next { s with ad := { s.ad with active := s.ad.stage, configured := true }, rsp := some { status := .ok } })

/-- R113: the channel split in naturals, the masked form with `P`, and that `(chip_raw, w)` determines the address (the spec's own
inference). -/
def Obligations.ChannelSplitIsInjective : Prop :=
  ∀ (c : AdRegs) (a b : Addr), c.Legal →
    c.chipRaw a = a.toNat / 2 ^ c.chipStart.toNat % c.nchan.toNat ∧
    (c.high a).toNat = a.toNat / 2 ^ c.chipStart.toNat / c.nchan.toNat ∧
    ((∃ k, c.nchan.toNat = 2 ^ k) → c.w a = a ∧ c.chipRaw a = pext c.maskChip a ∧
      c.high a = a >>> (c.chipStart.toNat + log2c c.nchan.toNat)) ∧
    ((¬∃ k, c.nchan.toNat = 2 ^ k) →
      (c.w a).toNat = (c.high a).toNat * 2 ^ c.chipStart.toNat + a.toNat % 2 ^ c.chipStart.toNat) ∧
    (c.chipRaw a = c.chipRaw b → c.w a = c.w b → a = b)

/-- R114, R115, R116: AD.DECODE answers the six coordinates, each below `2^32`, by the formulas of the active configuration, and
changes nothing else. -/
def Obligations.DecodeAnswersTheCoordinates : Prop :=
  ∀ (s : State) (a : Addr), s.AdLive → s.Inv →
    ∃ chip bank row col burst sub : Nat,
      (chip < 2 ^ 32 ∧ bank < 2 ^ 32 ∧ row < 2 ^ 32 ∧ col < 2 ^ 32 ∧ burst < 2 ^ 32 ∧ sub < 2 ^ 32) ∧
      bank = pext s.ad.active.maskBank (s.ad.active.w a) ∧ row = pext s.ad.active.maskRow (s.ad.active.w a) ∧
      col = pext s.ad.active.maskCol (s.ad.active.w a) ∧ burst = pext s.ad.active.maskBurst (s.ad.active.w a) ∧
      (s.ad.active.idxfn = 0 → chip = s.ad.active.chipRaw a) ∧
      (s.ad.active.idxfn = 1 → chip = s.ad.active.chipRaw a ^^^ ((s.ad.active.high a).toNat &&& (s.ad.active.nchan.toNat - 1))) ∧
      (s.ad.active.idxfn = 2 →
        chip = (Config.params s.run).ipoly (s.ad.active.high a) (s.ad.active.chipRaw a) s.ad.active.nchan.toNat) ∧
      (s.ad.active.idxfn = 3 →
        chip = (Config.params s.run).pae (s.ad.active.high a) (s.ad.active.chipRaw a) s.ad.active.nchan.toNat) ∧
      (s.ad.active.idxfn = 4 → chip = (Config.params s.run).rand (a >>> s.ad.active.chipStart.toNat) s.ad.active.nchan.toNat) ∧
      (s.ad.active.idxfn = 5 →
        chip = (Config.params s.run).custom (s.ad.active.high a) (s.ad.active.chipRaw a) s.ad.active.nchan.toNat) ∧
      sub = chip * s.ad.active.nsub.toNat + (bank &&& (s.ad.active.nsub.toNat - 1)) ∧
      exec (.adDecode a) s =
        .next (s.answering { status := .ok, q0 := BitVec.ofNat 64 (chip + 2 ^ 32 * bank),
                             q1 := BitVec.ofNat 64 (row + 2 ^ 32 * col), q2 := BitVec.ofNat 64 (burst + 2 ^ 32 * sub) })

/-- R119 (the spec's own inference from R114, R115, R9): every address decodes within the bounds, whatever the parameter functions are. -/
def Obligations.DecodedCoordinatesAreInBounds : Prop :=
  ∀ (F : ParamFns) (c : AdRegs) (a : Addr), c.Legal → c.BoundsHold F a

/-- R118 (a) to (d): addresses that decode alike agree on the scheme-relevant bits. Clause (d) is stated for power-of-two channel
counts only: for CUSTOM without `P` the sentence of R118 (d) fails (log 12). -/
def Obligations.DecodingIsInjectiveOnRelevantBits : Prop :=
  ∀ (F : ParamFns) (c : AdRegs) (a b : Addr), c.Legal → (¬∃ i, c.shared i) → c.decode F a = c.decode F b →
    (c.idxfn = 0 → (∃ k, c.nchan.toNat = 2 ^ k) → (a ^^^ b) &&& c.u = 0) ∧
    (c.idxfn = 0 → (¬∃ k, c.nchan.toNat = 2 ^ k) → c.chipRaw a = c.chipRaw b ∧ (c.w a ^^^ c.w b) &&& c.u4 = 0) ∧
    (c.idxfn = 1 → c.Covers (c.chipStart.toNat + log2c c.nchan.toNat) (c.chipStart.toNat + 2 * log2c c.nchan.toNat) →
      (a ^^^ b) &&& c.u = 0) ∧
    ((c.idxfn = 2 ∧ IdxPerm F.ipoly ∨ c.idxfn = 3 ∧ IdxPerm F.pae ∨
        c.idxfn = 5 ∧ IdxPerm F.custom ∧ ∃ k, c.nchan.toNat = 2 ^ k) →
      c.Covers (c.chipStart.toNat + log2c c.nchan.toNat) 64 → (a ^^^ b) &&& c.u = 0)

/-- R121 (the spec's own inference from R113, R114, R120): with `P` the address is put together again from the raw channel, the
sub-partition bits and the partition address; under CONSECUTIVE the sub-partition and the partition address determine it. -/
def Obligations.AddressesAreReconstructed : Prop :=
  ∀ (F : ParamFns) (c : AdRegs) (a b : Addr), c.Legal → (¬∃ i, c.shared i) → (∃ k, c.nchan.toNat = 2 ^ k) →
    a = pdep c.maskChip (c.chipRaw a) ||| pdep c.subMask (c.bank a &&& (c.nsub.toNat - 1)) |||
      pdep (~~~(c.maskChip ||| c.subMask)) (c.partitionAddress a).toNat ∧
    (c.idxfn = 0 → c.sub F a = c.sub F b → c.partitionAddress a = c.partitionAddress b → a = b)

/-- R120: AD.PADDR closes up the address bits other than the channel's and the `j` lowest bank bits, answers `64 - k - j`
significant bits with `P`, is the same for every indexing strategy, and changes nothing else. -/
def Obligations.PartitionAddressDropsTheSelectingBits : Prop :=
  ∀ (s : State) (a : Addr), s.AdLive → s.Inv →
    ∃ (j : Nat) (subMask q : Reg64), s.ad.active.nsub.toNat = 2 ^ j ∧
      (∀ p, subMask.getLsbD p = true ↔ s.ad.active.maskBank.getLsbD p = true ∧ rankBelow s.ad.active.maskBank p < j) ∧
      ((∃ k, s.ad.active.nchan.toNat = 2 ^ k) → q.toNat = pext (~~~(s.ad.active.maskChip ||| subMask)) a ∧
        q.toNat < 2 ^ (64 - log2c s.ad.active.nchan.toNat - j)) ∧
      ((¬∃ k, s.ad.active.nchan.toNat = 2 ^ k) → q.toNat = pext (~~~subMask) (s.ad.active.w a)) ∧
      (∀ f : BitVec 3, ({ s.ad.active with idxfn := f } : AdRegs).partitionAddress a = q) ∧
      exec (.adPaddr a) s = .next (s.answering { status := .ok, q0 := q })

/-- R122: AD.SWEEP's checks in their order; then the first address at which the assertion fails is fatal, and if none fails the
answer is the count. -/
def Obligations.SweepReportsTheFirstFailure : Prop :=
  ∀ (s : State) (base : Addr) (count stride : BitVec 32), s.sys.fatal = false →
    (s.ad.diag = 0 → exec (.adSweep base count stride) s = .next (s.answering { status := .diagDisabled })) ∧
    (s.ad.diag = 1 → s.ad.configured = false →
      exec (.adSweep base count stride) s = .next (s.answering { status := .notConfigured })) ∧
    (s.ad.diag = 1 → s.ad.configured = true → ¬SweepRange base count stride →
      exec (.adSweep base count stride) s = .next (s.answering { status := .badOperand })) ∧
    (s.ad.diag = 1 → s.ad.configured = true → s.Inv → SweepRange base count stride →
      (∀ t, t < count.toNat → s.ad.active.SweepFails (Config.params s.run) base stride t →
        (∀ i, i < t → ¬s.ad.active.SweepFails (Config.params s.run) base stride i) →
        exec (.adSweep base count stride) s =
          .next (s.fatalEntry 0x02 (BitVec.ofNat 64 (base.toNat + t * stride.toNat)))) ∧
      ((∀ t, t < count.toNat → ¬s.ad.active.SweepFails (Config.params s.run) base stride t) →
        exec (.adSweep base count stride) s = .next (s.answering { status := .ok, q0 := BitVec.ofNat 64 count.toNat })))

/-- R118 (a), (b), R119, R122 together: under CONSECUTIVE every sweep over a legal range passes. -/
def Obligations.ConsecutiveSweepsPass : Prop :=
  ∀ (s : State) (base : Addr) (count stride : BitVec 32), s.AdLive → s.Inv → s.ad.diag = 1 → s.ad.active.idxfn = 0 →
    SweepRange base count stride →
    exec (.adSweep base count stride) s = .next (s.answering { status := .ok, q0 := BitVec.ofNat 64 count.toNat })

/-- R117: AD.DECODE answers the same for an address whatever commands came in between, as long as no reset and no fatal condition
did (in the fatal state it is refused, R223). -/
def Obligations.DecodingIsPureAlongRuns : Prop :=
  ∀ (n : Nat) (s t : State) (a : Addr), s.AdLive → s.Inv → s.NoReset n → core.run n s = .next t → t.sys.fatal = false →
    ∃ r, exec (.adDecode a) s = .next (s.answering r) ∧ exec (.adDecode a) t = .next (t.answering r)

/-! ## Cache engine (41_cache_engine.md) -/

/-- R140: CC.CONFIGURE reports ALREADY_CONFIGURED, then CONFIG_INVALID, else commits the staging copy with an all-invalid tag
array, empty tables and queues and free ports; CC_NOW is kept. -/
def Obligations.CcConfigureChecksThenCommits : Prop :=
  ∀ s : State, s.sys.fatal = false →
    (s.cc.configured = true → exec .ccConfigure s = .next (s.answering { status := .alreadyConfigured })) ∧
    (s.cc.configured = false → ¬s.cc.stage.Legal s.ad.configured →
      exec .ccConfigure s = .next (s.answering { status := .configInvalid })) ∧
    (s.cc.configured = false → s.cc.stage.Legal s.ad.configured →
      ∃ t, exec .ccConfigure s = .next t ∧
        t = { s with
              cc  := { s.cc with
                       active := s.cc.stage, configured := true, lines := [], mshr := [], readyQ := [], mq := [], metaTab := []
                       dpBusy := 0, fpBusy := 0 }
              rsp := some { status := .ok } } ∧
        ∀ set way, t.line set way = Line.empty ∧ ∀ k : Fin 16, (t.line set way).st[k] = .invalid)

/-- R141, R142, R143: block address, set, tag sector mask and MSHR address of a request, in naturals. -/
def Obligations.RequestAddressesFollowTheGeometry : Prop :=
  ∀ (s : State) (a : Addr), s.cc.configured = true → s.Inv →
    ∃ L T TS : Nat, L = s.cc.active.lineSz.toNat ∧
      T = (if s.cc.active.kind = 1 then L / s.cc.active.sectorSz.toNat else 1) ∧ TS = L / T ∧
      (TS = if s.cc.active.kind = 1 then s.cc.active.sectorSz.toNat else L) ∧
      (s.cc.active.blkSrc = 0 → s.src a = a) ∧ (s.cc.active.blkSrc = 1 → s.src a = s.ad.active.partitionAddress a) ∧
      (s.block a).toNat = (s.src a).toNat / L * L ∧ s.cc.active.offset (s.src a) = (s.src a).toNat % L ∧
      s.set a = (s.src a).toNat / L % s.cc.active.nsets.toNat ∧
      (s.key a).toNat = (s.src a).toNat / TS * TS ∧
      (s.sm a).toNat = (if s.cc.active.kind = 1 then 2 ^ ((s.src a).toNat % L / TS) else 1) ∧
      (s.src a).toNat % L / TS < T

/-- R150 steps 1 and 2: a write is REFUSED_WRITE, then a bad size, a sector crossing, a wrong sector mask of a sector cache or an
id in META is BAD_OPERAND; both change nothing. With one tag sector the mask is not checked (log 13, DEDUCED). -/
def Obligations.AccessChecksComeFirst : Prop :=
  ∀ (s : State) (isAtomic : Bool) (smask : SectorMask) (addr : Addr) (id : ReqId) (size : ReqSize), s.CcLive →
    exec (.ccAccess true isAtomic smask addr id size) s = .next (s.answering { status := .refusedWrite }) ∧
    (s.Inv →
      size = 0 ∨ s.cc.active.offset (s.src addr) % s.cc.active.tagSectorBytes + size.toNat > s.cc.active.tagSectorBytes ∨
        (1 < s.cc.active.tagSectors ∧ smask ≠ s.sm addr) ∨ (∃ e, s.cc.metaTab.lookup id.toNat = some e) →
      exec (.ccAccess false isAtomic smask addr id size) s = .next (s.answering { status := .badOperand }))

/-- R144: the probe answers exactly what the rule says of the tag array, and the rule leaves it one answer. -/
def Obligations.ProbeAnswersTheRule : Prop :=
  ∀ (s : State) (a : Addr), s.cc.configured = true → s.Inv →
    (∀ p, s.Probed a p ↔ probe s.cc.active s.cc.lines (s.block a) (s.set a) (s.sm a) = p) ∧ ∃! p, s.Probed a p

/-- R145, R151, R156, R165: a request whose sector is VALID or MODIFIED is a HIT: the line's `last_access` is stamped, the data
port charged, and nothing else changes. That `q2` is the counter's real growth where it saturates is the model's reading
(log 7, DEDUCED). -/
def Obligations.HitStampsTheLineAndChargesThePort : Prop :=
  ∀ (s : State) (isAtomic : Bool) (smask : SectorMask) (addr : Addr) (id : ReqId) (size : ReqSize) (way : Nat),
    s.Accepts smask addr id size → s.Probed addr (.hit way) →
    ∃ lines r, s.TagAccessed addr lines none (.hit way) ∧
      r.Reports .hit (.hit way) none (s.dpAfter size none (.hit way) - s.cc.dpBusy.toNat) ∧
      exec (.ccAccess false isAtomic smask addr id size) s =
        .next { s with
                cc  := { s.cc with lines := lines, dpBusy := BitVec.ofNat 64 (s.dpAfter size none (.hit way)) }
                rsp := some r }

/-- R152: when no line can be reserved the answer is LINE_ALLOC_FAIL with tag status 4 and nothing changes; this happens only under
ON_MISS. -/
def Obligations.NoReservableLineIsRejected : Prop :=
  ∀ (s : State) (isAtomic : Bool) (smask : SectorMask) (addr : Addr) (id : ReqId) (size : ReqSize),
    s.Accepts smask addr id size → s.Probed addr .reservationFail →
    exec (.ccAccess false isAtomic smask addr id size) s = .next (s.answering { status := .lineAllocFail, aux := 4 }) ∧
    s.cc.active.apol = 0

/-- R153, R146, R156: a request whose key is in the MSHR table joins the entry when that has room and is not ready, and is
MSHR_MERGE_FAIL without a change when not. That `q2` is DP_BUSY's real growth where it saturates is the model's reading (log 7,
DEDUCED). -/
def Obligations.MshrHitMergesOrIsRejected : Prop :=
  ∀ (s : State) (isAtomic : Bool) (smask : SectorMask) (addr : Addr) (id : ReqId) (size : ReqSize) (p : ProbeResult)
    (e : MshrEntry),
    s.Accepts smask addr id size → s.Probed addr p → (∀ way, p ≠ .hit way) → p ≠ .reservationFail →
    s.cc.mshr.lookup (s.key addr).toNat = some e →
    (e.ready = false ∧ e.list.length < s.cc.active.mshrMaxMerge.toNat →
      ∃ lines wb mshr r, s.TagAccessed addr lines wb p ∧
        r.Reports .mshrHit p wb (s.dpAfter size wb p - s.cc.dpBusy.toNat) ∧
        (∀ k, mshr.lookup k = if k = (s.key addr).toNat
          then some { list := e.list ++ [id], hasAtomic := e.hasAtomic || isAtomic, ready := e.ready } else s.cc.mshr.lookup k) ∧
        exec (.ccAccess false isAtomic smask addr id size) s =
          .next { s with
                  cc  := { s.cc with lines := lines, mshr := mshr, dpBusy := BitVec.ofNat 64 (s.dpAfter size wb p) }
                  rsp := some r }) ∧
    (e.ready = true ∨ s.cc.active.mshrMaxMerge.toNat ≤ e.list.length →
      ∃ r, r.Reports .mshrMergeFail p none 0 ∧ exec (.ccAccess false isAtomic smask addr id size) s = .next (s.answering r))

/-- R154, R157, R156: a request with no MSHR entry is MISS_QUEUE_FULL, then MSHR_ENTRY_FAIL, both without a change; else it gets an
entry, a metadata record and a place in the miss queue, its tag access is recorded and it is a MISS. That `q2` is DP_BUSY's real
growth where it saturates is the model's reading (log 7, DEDUCED). -/
def Obligations.MshrMissStartsARequestOrIsRejected : Prop :=
  ∀ (s : State) (isAtomic : Bool) (smask : SectorMask) (addr : Addr) (id : ReqId) (size : ReqSize) (p : ProbeResult),
    s.Accepts smask addr id size → s.Probed addr p → (∀ way, p ≠ .hit way) → p ≠ .reservationFail →
    s.cc.mshr.lookup (s.key addr).toNat = none →
    (s.cc.active.mqSize.toNat ≤ s.cc.mq.length →
      ∃ r, r.Reports .missQueueFull p none 0 ∧ exec (.ccAccess false isAtomic smask addr id size) s = .next (s.answering r)) ∧
    (s.cc.mq.length < s.cc.active.mqSize.toNat → s.cc.active.mshrEntries.toNat ≤ s.cc.mshr.length →
      ∃ r, r.Reports .mshrEntryFail p none 0 ∧ exec (.ccAccess false isAtomic smask addr id size) s = .next (s.answering r)) ∧
    (s.cc.mq.length < s.cc.active.mqSize.toNat → s.cc.mshr.length < s.cc.active.mshrEntries.toNat →
      ∃ lines wb mshr metaTab r e, s.TagAccessed addr lines wb p ∧
        r.Reports .miss p wb (s.dpAfter size wb p - s.cc.dpBusy.toNat) ∧
        (∀ k, mshr.lookup k = if k = (s.key addr).toNat
          then some { list := [id], hasAtomic := isAtomic, ready := false } else s.cc.mshr.lookup k) ∧
        (p = .miss e.way ∨ p = .sectorMiss e.way ∨ p = .hitReserved e.way) ∧
        e = { mshrAddr := s.key addr, blockAddr := s.block addr, origAddr := addr, origSize := size, set := s.set addr
              way := e.way, smask := s.sm addr, pending := s.owedFills size } ∧
        (∀ k, metaTab.lookup k = if k = id.toNat then some e else s.cc.metaTab.lookup k) ∧
        exec (.ccAccess false isAtomic smask addr id size) s =
          .next { s with
                  cc  := { s.cc with
                           lines := lines, mshr := mshr, metaTab := metaTab
                           mq := s.cc.mq ++ [{ id := id, addr := s.key addr
                                               size := BitVec.ofNat 32 s.cc.active.tagSectorBytes, isWrite := false }]
                           dpBusy := BitVec.ofNat 64 (s.dpAfter size wb p) }
                  rsp := some r })

/-- R155 (the spec's own inference from R150 to R154): every request that passes the checks of R150 gets one of the seven
classifications; a MISS leaves the id in META and in the entry at its key, an MSHR_HIT leaves it in the entry's list, a HIT leaves
both tables as they were, and the four rejections change nothing. -/
def Obligations.ClassificationIsTotal : Prop :=
  ∀ (s : State) (isAtomic : Bool) (smask : SectorMask) (addr : Addr) (id : ReqId) (size : ReqSize),
    s.Accepts smask addr id size →
    ∃ t r, exec (.ccAccess false isAtomic smask addr id size) s = .next t ∧ t.rsp = some r ∧
      r.status ∈ [Status.hit, .lineAllocFail, .mshrHit, .mshrMergeFail, .miss, .missQueueFull, .mshrEntryFail] ∧
      (r.status = .miss → (∃ e, t.cc.metaTab.lookup id.toNat = some e) ∧
        ∃ m, t.cc.mshr.lookup (s.key addr).toNat = some m ∧ m.list = [id]) ∧
      (r.status = .mshrHit → ∃ m, t.cc.mshr.lookup (s.key addr).toNat = some m ∧ id ∈ m.list) ∧
      (r.status = .hit → t.cc.metaTab = s.cc.metaTab ∧ t.cc.mshr = s.cc.mshr) ∧
      (r.status ∈ [Status.lineAllocFail, .mshrMergeFail, .missQueueFull, .mshrEntryFail] → t = s.answering r)

/-- R158: (a) with a miss queue of size 0 every acceptable request is MISS_QUEUE_FULL, at any time after configuration; (b) two
reads of one block of an empty one-line cache are MISS then MSHR_HIT. (b) is stated for a normal cache (`CC_KIND = 0`): two sectors of
a sector cache's block have two MSHR keys (R143). -/
def Obligations.SourceScenariosHold : Prop :=
  (∀ (n : Nat) (s t : State) (isAtomic : Bool) (smask : SectorMask) (addr : Addr) (id : ReqId) (size : ReqSize),
    s.CcLive → s.Inv → s.cc.active.mqSize = 0 → s.cc.lines = [] → s.cc.mshr = [] → s.NoReset n → core.run n s = .next t →
    t.Accepts smask addr id size →
    exec (.ccAccess false isAtomic smask addr id size) t = .next (t.answering { status := .missQueueFull, aux := 2 })) ∧
  (∀ (s : State) (at₁ at₂ : Bool) (sm₁ sm₂ : SectorMask) (a₁ a₂ : Addr) (id₁ id₂ : ReqId) (z₁ z₂ : ReqSize),
    s.cc.active.kind = 0 → s.cc.active.nsets = 1 → s.cc.active.assoc = 1 → s.cc.active.lineSz = 32 →
    s.cc.active.mshrEntries = 1 → 2 ≤ s.cc.active.mshrMaxMerge.toNat → 1 ≤ s.cc.active.mqSize.toNat →
    s.cc.lines = [] → s.cc.mshr = [] → s.cc.mq = [] → s.block a₁ = s.block a₂ → id₁ ≠ id₂ →
    s.Accepts sm₁ a₁ id₁ z₁ → s.Accepts sm₂ a₂ id₂ z₂ →
    ∃ t u r₁ r₂, exec (.ccAccess false at₁ sm₁ a₁ id₁ z₁) s = .next t ∧ t.rsp = some r₁ ∧ r₁.status = .miss ∧
      exec (.ccAccess false at₂ sm₂ a₂ id₂ z₂) t = .next u ∧ u.rsp = some r₂ ∧ r₂.status = .mshrHit)

/-- R160: CC.FILL of a request with no metadata record or no MSHR entry is fatal; one more response of a request that still owes
several is FILL_WAIT and only lowers the count. -/
def Obligations.FillChecksAndWaits : Prop :=
  ∀ (s : State) (hasParent : Bool) (id parent r : ReqId), s.CcLive → r = (if hasParent then parent else id) →
    (s.cc.metaTab.lookup r.toNat = none →
      exec (.ccFill hasParent id parent) s = .next (s.fatalEntry 0x03 (BitVec.ofNat 64 r.toNat))) ∧
    (∀ e, s.cc.metaTab.lookup r.toNat = some e → s.cc.mshr.lookup e.mshrAddr.toNat = none →
      exec (.ccFill hasParent id parent) s = .next (s.fatalEntry 0x03 (BitVec.ofNat 64 r.toNat))) ∧
    (∀ e m, s.cc.metaTab.lookup r.toNat = some e → s.cc.mshr.lookup e.mshrAddr.toNat = some m → 1 < e.pending →
      ∃ metaTab, (∀ k, metaTab.lookup k = if k = r.toNat then some { e with pending := e.pending - 1 }
          else s.cc.metaTab.lookup k) ∧
        exec (.ccFill hasParent id parent) s =
          .next { s with
                  cc  := { s.cc with metaTab := metaTab }
                  rsp := some { status := .fillWait, q0 := BitVec.ofNat 64 r.toNat, q1 := BitVec.ofNat 64 (e.pending - 1) } })

/-- R160, R161, R162, R166 under ON_MISS: the last response of a request turns its RESERVED sectors VALID, or MODIFIED with its bytes
dirty when the entry holds an atomic, in the line that still holds its block. -/
def Obligations.FillCompletesUnderOnMiss : Prop :=
  ∀ (s : State) (hasParent : Bool) (id parent r : ReqId) (e : MetaRec), s.CcLive → s.Inv →
    r = (if hasParent then parent else id) → s.cc.metaTab.lookup r.toNat = some e → e.pending = 1 → s.cc.active.apol = 0 →
    (s.line e.set e.way).tag = e.blockAddr ∧
    (∀ k : Fin 16, e.smask.getLsbD k = true → (s.line e.set e.way).st[k] = .reserved) ∧
    ∃ m t lines ln, s.cc.mshr.lookup e.mshrAddr.toNat = some m ∧ exec (.ccFill hasParent id parent) s = .next t ∧
      s.LineBecomes lines e.set e.way ln ∧
      ln.FilledFrom (s.line e.set e.way) e (fun _ => .valid) m.hasAtomic (s.cc.active.offset (s.src e.origAddr)) ∧
      s.FillDone t r e m lines none

/-- R160, R161, R162, R166 under ON_FILL: the last response probes for the block again and fills the line it finds, allocating the
victim and reporting its writeback on a MISS; RESERVATION_FAIL is not reached. -/
def Obligations.FillCompletesUnderOnFill : Prop :=
  ∀ (s : State) (hasParent : Bool) (id parent r : ReqId) (e : MetaRec), s.CcLive → s.Inv →
    r = (if hasParent then parent else id) → s.cc.metaTab.lookup r.toNat = some e → e.pending = 1 → s.cc.active.apol = 1 →
    ∃ p way base f wb m t lines ln, ProbeFact s.cc.active s.cc.lines e.blockAddr (s.fillSet e) e.smask p ∧
      s.FillPlan e way base f wb p ∧ s.cc.mshr.lookup e.mshrAddr.toNat = some m ∧
      exec (.ccFill hasParent id parent) s = .next t ∧ s.LineBecomes lines (s.fillSet e) way ln ∧
      ln.FilledFrom base e f m.hasAtomic (s.cc.active.offset (s.src e.origAddr)) ∧ s.FillDone t r e m lines wb

/-- R257: one fill too many is fatal: after a fill completed a request, the same CC.FILL raises CC_FILL_NO_MSHR. -/
def Obligations.ASecondCompletingFillIsFatal : Prop :=
  ∀ (s t : State) (hasParent : Bool) (id parent : ReqId) (r : Rsp), exec (.ccFill hasParent id parent) s = .next t →
    t.rsp = some r → r.status = .fillDone →
    exec (.ccFill hasParent id parent) t =
      .next (t.fatalEntry 0x03 (BitVec.ofNat 64 (if hasParent then parent else id).toNat))

/-- R167, R170: CC.CYCLE hands off the head of the miss queue when the downstream has room, samples both ports, lowers both
counters by one, floored at zero, and advances CC_NOW, wrapping. -/
def Obligations.CycleDrainsSamplesAndReplenishes : Prop :=
  ∀ (s : State) (dsOk : Bool), s.CcLive →
    (s.cc.mq = [] ∨ dsOk = false →
      exec (.ccCycle dsOk) s =
        .next { s with
                cc  := { s.cc with
                         dpBusy := BitVec.ofNat 64 (s.cc.dpBusy.toNat - 1), fpBusy := BitVec.ofNat 64 (s.cc.fpBusy.toNat - 1)
                         now := BitVec.ofNat 64 (s.cc.now.toNat + 1) }
                rsp := some { status := .ok
                              aux := BitVec.ofNat 8 ((if s.cc.dpBusy = 0 then 0 else 2) + if s.cc.fpBusy = 0 then 0 else 4) } }) ∧
    (∀ q rest, s.cc.mq = q :: rest → dsOk = true →
      exec (.ccCycle dsOk) s =
        .next { s with
                cc  := { s.cc with
                         mq := rest, dpBusy := BitVec.ofNat 64 (s.cc.dpBusy.toNat - 1)
                         fpBusy := BitVec.ofNat 64 (s.cc.fpBusy.toNat - 1), now := BitVec.ofNat 64 (s.cc.now.toNat + 1) }
                rsp := some { status := .ok
                              aux := BitVec.ofNat 8 (1 + (if s.cc.dpBusy = 0 then 0 else 2) + if s.cc.fpBusy = 0 then 0 else 4)
                              q0 := q.addr, q1 := BitVec.ofNat 64 (q.id.toNat + 2 ^ 32 * q.size.toNat) } })

/-- R171: over any number of CC.CYCLE commands each counter falls by one per command until it is 0, at most one miss-queue record
leaves per command (R70 (a)), in order, and CC_NOW counts them. -/
def Obligations.CountersFallOnePerCycle : Prop :=
  ∀ (ds : List Bool) (s : State) (rest : List EnvInput), s.CcLive →
    s.inputs = ds.map (fun d => .cmd (encode (.ccCycle d))) ++ rest →
    ∃ t, core.run ds.length s = .next t ∧ t.inputs = rest ∧ t.cc.dpBusy.toNat = s.cc.dpBusy.toNat - ds.length ∧
      t.cc.fpBusy.toNat = s.cc.fpBusy.toNat - ds.length ∧ t.cc.now = s.cc.now + BitVec.ofNat 64 ds.length ∧
      t.cc.mq = s.cc.mq.drop (ds.count true) ∧ t.cc.lines = s.cc.lines ∧ t.cc.mshr = s.cc.mshr ∧
      t.cc.readyQ = s.cc.readyQ ∧ t.cc.metaTab = s.cc.metaTab ∧ t.ad = s.ad ∧ t.xb = s.xb

/-- R172, R173, R174, R176: the four queries answer the ports, the ready queue and the miss-queue head and change nothing. -/
def Obligations.CacheQueriesAnswerTheState : Prop :=
  ∀ s : State, s.CcLive →
    exec .ccDpfree s = .next (s.answering { status := .ok, aux := if s.cc.dpBusy = 0 then 1 else 0 }) ∧
    exec .ccFpfree s = .next (s.answering { status := .ok, aux := if s.cc.fpBusy = 0 then 1 else 0 }) ∧
    exec .ccReady s = .next (s.answering { status := .ok, aux := if s.cc.readyQ = [] then 0 else 1 }) ∧
    (s.cc.mq = [] → exec .ccMqhead s = .next (s.answering { status := .ok, aux := 0 })) ∧
    (∀ q rest, s.cc.mq = q :: rest →
      exec .ccMqhead s =
        .next (s.answering { status := .ok, aux := if q.isWrite then 3 else 1, q0 := q.addr,
                             q1 := BitVec.ofNat 64 (q.id.toNat + 2 ^ 32 * q.size.toNat) }))

/-- R175: CC.NEXT hands back the first request of the oldest ready entry, and the entry leaves with its last one. -/
def Obligations.NextHandsBackOneRequest : Prop :=
  ∀ s : State, s.CcLive →
    (s.cc.readyQ = [] → exec .ccNext s = .next (s.answering { status := .ok, aux := 0 })) ∧
    (∀ key keys, s.Inv → s.cc.readyQ = key :: keys →
      ∃ m id rest mshr, s.cc.mshr.lookup key.toNat = some m ∧ m.list = id :: rest ∧
        (∀ k, mshr.lookup k = if k = key.toNat then (if rest = [] then none else some { m with list := rest })
          else s.cc.mshr.lookup k) ∧
        exec .ccNext s =
          .next { s with
                  cc  := { s.cc with mshr := mshr, readyQ := if rest = [] then keys else s.cc.readyQ }
                  rsp := some { status := .ok, aux := 1, q0 := BitVec.ofNat 64 id.toNat, q1 := key } })

/-- R180 (a) to (f) (the spec's own inference from R153, R154, R160, R175), after every operation of a sound machine. -/
def Obligations.CacheInvariantsHoldAfterEveryOperation : Prop :=
  ∀ (i : Instr) (s t : State), s.Inv → exec i s = .next t →
    (t.cc.mshr.map Prod.fst).Nodup ∧
    t.cc.mq.length ≤ t.cc.active.mqSize.toNat ∧
    t.cc.mshr.length ≤ t.cc.active.mshrEntries.toNat ∧
    (∀ id e, t.cc.metaTab.lookup id = some e →
      1 ≤ e.pending ∧ ∃ m, t.cc.mshr.lookup e.mshrAddr.toNat = some m ∧ m.ready = false) ∧
    (t.cc.active.apol = 0 → ∀ set way (k : Fin 16), set < t.cc.active.nsets.toNat → way < t.cc.active.assoc.toNat →
      (t.line set way).st[k] = .reserved → Covered t.cc.active t.cc.mshr (t.line set way).tag k) ∧
    t.cc.readyQ.Nodup ∧
    (∀ a : Addr, a ∈ t.cc.readyQ ↔ ∃ m, t.cc.mshr.lookup a.toNat = some m ∧ m.ready = true)

/-! ## Crossbar (42_crossbar.md) -/

/-- R190: XB.CONFIGURE reports ALREADY_CONFIGURED, then CONFIG_INVALID, else commits the staging copy with every cell empty and
every turn pointer 0. -/
def Obligations.XbConfigureChecksThenCommits : Prop :=
  ∀ s : State, s.sys.fatal = false →
    (s.xb.configured = true → exec .xbConfigure s = .next (s.answering { status := .alreadyConfigured })) ∧
    (s.xb.configured = false →
      s.xb.stage.subnets = 0 ∨ s.xb.stage.nshader.toNat + s.xb.stage.nmem.toNat = 0 ∨
        s.xb.stage.nshader.toNat + s.xb.stage.nmem.toNat > 65535 ∨ s.xb.stage.vcs = 0 ∨ s.xb.stage.classes = 0 →
      exec .xbConfigure s = .next (s.answering { status := .configInvalid })) ∧
    (s.xb.configured = false → s.xb.stage.subnets ≠ 0 → s.xb.stage.nshader.toNat + s.xb.stage.nmem.toNat ≠ 0 →
      s.xb.stage.nshader.toNat + s.xb.stage.nmem.toNat ≤ 65535 → s.xb.stage.vcs ≠ 0 → s.xb.stage.classes ≠ 0 →
      ∃ t, exec .xbConfigure s = .next t ∧
        t = { s with
              xb  := { s.xb with active := s.xb.stage, configured := true, cells := [], turns := [] }
              rsp := some { status := .ok } } ∧
        ∀ s' d c v, t.xb.cell s' d c v = [] ∧ t.xb.turn s' d = 0)

/-- R191: an operand device index that is no node is BAD_OPERAND, and nothing changes. -/
def Obligations.DevicesBeyondTheNodesAreRejected : Prop :=
  ∀ (s : State) (d : NodeId), s.XbLive → s.xb.active.nshader.toNat + s.xb.active.nmem.toNat ≤ d.toNat →
    exec (.xbPop d) s = .next (s.answering { status := .badOperand }) ∧
    ∀ (x : NodeId) (payload : Payload) (size : ReqSize),
      exec (.xbHasbuf d x payload size) s = .next (s.answering { status := .badOperand }) ∧
      exec (.xbHasbuf x d payload size) s = .next (s.answering { status := .badOperand }) ∧
      exec (.xbPush d x payload size) s = .next (s.answering { status := .badOperand }) ∧
      exec (.xbPush x d payload size) s = .next (s.answering { status := .badOperand })

/-- R194: XB.HASBUF answers the depth of the destination's queue, of class 0 on the source's subnet and over all virtual channels,
and whether it is below the capacity; it changes nothing. -/
def Obligations.HasbufAnswersTheDepth : Prop :=
  ∀ (s : State) (src dst : NodeId) (payload : Payload) (size : ReqSize) (n : Nat), s.XbLive →
    src.toNat < s.xb.active.nodes → dst.toNat < s.xb.active.nodes →
    n = ((List.range s.xb.active.vcs.toNat).map fun v => (s.xb.cell (s.sendsOn src) dst.toNat 0 v).length).sum →
    exec (.xbHasbuf src dst payload size) s =
      .next (s.answering { status := .ok, aux := if n < s.xb.active.bufcap.toNat then 1 else 0, q0 := BitVec.ofNat 64 n })

/-- R195: XB.PUSH appends the payload to the destination's cell of class 0, channel 0, on the source's subnet, and no other cell or
turn pointer changes; at capacity it is fatal with the two nodes as info. -/
def Obligations.PushAppendsOrIsFatal : Prop :=
  ∀ (s : State) (src dst : NodeId) (payload : Payload) (size : ReqSize), s.XbLive →
    src.toNat < s.xb.active.nodes → dst.toNat < s.xb.active.nodes →
    (s.xb.depth (s.sendsOn src) dst.toNat 0 < s.xb.active.bufcap.toNat →
      ∃ cells, s.CellBecomes { s.xb with cells := cells } (s.sendsOn src) dst.toNat 0
          (s.xb.cell (s.sendsOn src) dst.toNat 0 0 ++ [payload]) ∧
        exec (.xbPush src dst payload size) s =
          .next { s with xb := { s.xb with cells := cells }, rsp := some { status := .ok } }) ∧
    (s.xb.active.bufcap.toNat ≤ s.xb.depth (s.sendsOn src) dst.toNat 0 →
      exec (.xbPush src dst payload size) s = .next (s.fatalEntry 0x04 (BitVec.ofNat 64 (dst.toNat + 2 ^ 16 * src.toNat))))

/-- R196: XB.POP takes the head of the first nonempty channel from the turn pointer on, wrapping, and moves the turn pointer behind
it; with every channel empty it answers null and moves nothing. -/
def Obligations.PopServesTheNextChannel : Prop :=
  ∀ (s : State) (dev : NodeId), s.XbLive → dev.toNat < s.xb.active.nodes →
    ((∀ v, v < s.xb.active.vcs.toNat → s.xb.cell (s.receivesOn dev) dev.toNat 0 v = []) →
      exec (.xbPop dev) s = .next (s.answering { status := .ok, aux := 0 })) ∧
    (∀ (i v : Nat) (p : Payload) (rest : List Payload), i < s.xb.active.vcs.toNat →
      v = (s.xb.turn (s.receivesOn dev) dev.toNat + i) % s.xb.active.vcs.toNat →
      s.xb.cell (s.receivesOn dev) dev.toNat 0 v = p :: rest →
      (∀ j, j < i → s.xb.cell (s.receivesOn dev) dev.toNat 0
        ((s.xb.turn (s.receivesOn dev) dev.toNat + j) % s.xb.active.vcs.toNat) = []) →
      ∃ cells turns, s.CellBecomes { s.xb with cells := cells } (s.receivesOn dev) dev.toNat v rest ∧
        (∀ s' d', s' < 256 → d' < 65536 → ({ s.xb with turns := turns } : XbState).turn s' d' =
          if s' = s.receivesOn dev ∧ d' = dev.toNat then (v + 1) % s.xb.active.vcs.toNat else s.xb.turn s' d') ∧
        exec (.xbPop dev) s =
          .next { s with
                  xb  := { s.xb with cells := cells, turns := turns }
                  rsp := some { status := .ok, aux := 1, q0 := p, q1 := BitVec.ofNat 64 v } })

/-- R197 (a), (b), R193: whatever command runs, a cell of any class stays as it is, or it is of class 0 and a push appends to it or
a pop takes its head and answers it, or XB.CONFIGURE empties it. -/
def Obligations.CellsAreQueues : Prop :=
  ∀ (i : Instr) (s t : State) (sub d c v : Nat), exec i s = .next t → sub < 256 → d < 65536 → c < 256 → v < 256 →
    t.xb.cell sub d c v = s.xb.cell sub d c v ∨
    (∃ src dst payload size, i = .xbPush src dst payload size ∧ s.sendsOn src = sub ∧ dst.toNat = d ∧ c = 0 ∧ v = 0 ∧
      t.xb.cell sub d c v = s.xb.cell sub d c v ++ [payload]) ∨
    (∃ dev p, i = .xbPop dev ∧ s.receivesOn dev = sub ∧ dev.toNat = d ∧ c = 0 ∧
      s.xb.cell sub d c v = p :: t.xb.cell sub d c v ∧
      t.rsp = some { status := .ok, aux := 1, q0 := p, q1 := BitVec.ofNat 64 v }) ∨
    (i = .xbConfigure ∧ s.xb.configured = false ∧ t.xb.cell sub d c v = [])

/-- R197 (d): with exactly two nonempty channels, two successive pops serve both. -/
def Obligations.TwoChannelsAreServedInTurn : Prop :=
  ∀ (s : State) (dev : NodeId) (v₁ v₂ : Nat), s.XbLive → dev.toNat < s.xb.active.nodes →
    v₁ < s.xb.active.vcs.toNat → v₂ < s.xb.active.vcs.toNat → v₁ ≠ v₂ →
    (∀ v, v < s.xb.active.vcs.toNat → (s.xb.cell (s.receivesOn dev) dev.toNat 0 v ≠ [] ↔ v = v₁ ∨ v = v₂)) →
    ∃ t u r₁ r₂, exec (.xbPop dev) s = .next t ∧ t.rsp = some r₁ ∧ exec (.xbPop dev) t = .next u ∧ u.rsp = some r₂ ∧
      r₁.aux = 1 ∧ r₂.aux = 1 ∧ (r₁.q1.toNat = v₁ ∧ r₂.q1.toNat = v₂ ∨ r₁.q1.toNat = v₂ ∧ r₂.q1.toNat = v₁)

/-- R192, R197 (f): a payload sent between a shader node and a memory node, or with one subnet, is what the destination's next pop
answers if nothing else was queued there; one sent between two nodes of a kind over two subnets is moved by no pop. -/
def Obligations.PayloadsReachTheOtherKind : Prop :=
  (∀ (s : State) (src dst : NodeId) (payload : Payload) (size : ReqSize), s.XbLive → s.Inv →
    src.toNat < s.xb.active.nodes → dst.toNat < s.xb.active.nodes → s.xb.active.bufcap ≠ 0 →
    (s.xb.active.subnets = 1 ∨ (src.toNat < s.xb.active.nshader.toNat ↔ s.xb.active.nshader.toNat ≤ dst.toNat)) →
    s.xb.cell (s.sendsOn src) dst.toNat 0 0 = [] →
    ∃ t u r, exec (.xbPush src dst payload size) s = .next t ∧ exec (.xbPop dst) t = .next u ∧ u.rsp = some r ∧
      r.aux = 1 ∧ r.q0 = payload ∧
      ∀ sub d c v, sub < 256 → d < 65536 → c < 256 → v < 256 → u.xb.cell sub d c v = s.xb.cell sub d c v) ∧
  (∀ (s t : State) (src dst dev : NodeId) (v : Nat), s.xb.active.subnets ≠ 1 →
    (src.toNat < s.xb.active.nshader.toNat ↔ dst.toNat < s.xb.active.nshader.toNat) → v < 256 →
    exec (.xbPop dev) s = .next t → t.xb.cell (s.sendsOn src) dst.toNat 0 v = s.xb.cell (s.sendsOn src) dst.toNat 0 v)

/-- R254: a positive XB.HASBUF answer makes the push to that place safe, and stays true through every command but a push to that
place: the active configuration and so the subnets and the capacity stay, the depth stays below the capacity, a pop never raises it
and no other command changes it. -/
def Obligations.HasbufAnswersStayTrue : Prop :=
  (∀ (s : State) (src dst : NodeId) (p₁ p₂ : Payload) (z₁ z₂ : ReqSize) (t : State) (r : Rsp), s.XbLive →
    exec (.xbHasbuf src dst p₁ z₁) s = .next t → t.rsp = some r → r.status = .ok → r.aux = 1 →
    ∃ u, exec (.xbPush src dst p₂ z₂) t = .next u ∧ u.sys.fatal = false ∧ u.rsp = some { status := .ok }) ∧
  (∀ (i : Instr) (s t : State) (sub d : Nat), s.XbLive → s.Inv → sub < 256 → d < 65536 → exec i s = .next t →
    (∀ src dst payload size, i = .xbPush src dst payload size → s.sendsOn src = sub → dst.toNat ≠ d) →
    t.xb.active = s.xb.active ∧ t.xb.configured = true ∧
    (s.xb.depth sub d 0 < s.xb.active.bufcap.toNat → t.xb.depth sub d 0 < t.xb.active.bufcap.toNat) ∧
    t.xb.depth sub d 0 ≤ s.xb.depth sub d 0 ∧ ((∀ dev, i ≠ .xbPop dev) → t.xb.depth sub d 0 = s.xb.depth sub d 0))

/-! ## The machine's invariant -/

/-- The invariant of Safety.lean holds right after reset. -/
def Obligations.ResetIsSound : Prop := State.reset.Inv

/-- From every sound state a step answers a next state, never a fault or a refusal, and that state is sound: R32, R34, R35, R37, R180,
R197 (c), (e), W5 after every operation. -/
def Obligations.EveryStepGoesOnAndKeepsTheInvariant : Prop :=
  ∀ s : State, s.Inv → ∃ t, step s = .next t ∧ t.Inv

end Statements
end

