-- ==== Sys2Proof/Laws/Bits.lean ====
section
/-! SUPPORT. Laws of the integer primitives of 00_scope.md rule R11: powers of two, log2c, popcount, pext and pdep. -/

namespace Sys2Proof.Machine

set_option Elab.async false

/-! ## popcount, is_pow2, log2c -/

@[simp] theorem popcountNat_zero_right (w : Nat) : popcountNat w 0 = 0 := by cases w <;> simp [popcountNat]

/-- The recursion of popcount without its shortcut for 0. -/
theorem popcountNat_succ (w m : Nat) : popcountNat (w + 1) m = m % 2 + popcountNat w (m / 2) := by
  have h0 : popcountNat (w + 1) m = if m = 0 then 0 else m % 2 + popcountNat w (m / 2) := rfl
  rw [h0]
  split_ifs with h
  · simp [h]
  · rfl

theorem popcountNat_eq_zero {w m : Nat} (hm : m < 2 ^ w) : popcountNat w m = 0 ↔ m = 0 := by
  induction w generalizing m with
  | zero => simp [popcountNat]; omega
  | succ w ih =>
    rw [popcountNat_succ, Nat.add_eq_zero_iff, ih (by rw [pow_succ] at hm; omega)]
    omega

theorem popcountNat_eq_one {w m : Nat} (hm : m < 2 ^ w) : popcountNat w m = 1 ↔ ∃ k, m = 2 ^ k := by
  induction w generalizing m with
  | zero =>
    have : m = 0 := by simpa using hm
    subst this
    simp [popcountNat]
    intro k hk
    exact absurd hk.symm (by positivity)
  | succ w ih =>
    have hm2 : m / 2 < 2 ^ w := by rw [pow_succ] at hm; omega
    rw [popcountNat_succ]
    rcases Nat.mod_two_eq_zero_or_one m with h | h
    · rw [h, Nat.zero_add, ih hm2]
      constructor
      · rintro ⟨k, hk⟩; exact ⟨k + 1, by rw [pow_succ]; omega⟩
      · rintro ⟨k, hk⟩
        cases k with
        | zero => simp at hk; omega
        | succ k => exact ⟨k, by rw [pow_succ] at hk; omega⟩
    · have : 1 + popcountNat w (m / 2) = 1 ↔ popcountNat w (m / 2) = 0 := by omega
      rw [h, this, popcountNat_eq_zero hm2]
      constructor
      · intro h0; exact ⟨0, by simp; omega⟩
      · rintro ⟨k, hk⟩
        cases k with
        | zero => simp at hk; omega
        | succ k => rw [pow_succ] at hk; omega

/-- `is_pow2(n)` says that n is a power of two. -/
theorem isPow2_iff (n : Nat) : isPow2 n = true ↔ ∃ k, n = 2 ^ k := by
  unfold isPow2
  rw [Bool.and_eq_true, decide_eq_true_eq, beq_iff_eq, popcountNat_eq_one Nat.lt_log2_self]
  constructor
  · exact fun h => h.2
  · rintro ⟨k, rfl⟩; exact ⟨Nat.one_le_two_pow, k, rfl⟩

@[simp] theorem isPow2_two_pow (k : Nat) : isPow2 (2 ^ k) = true := (isPow2_iff _).2 ⟨k, rfl⟩

@[simp] theorem log2c_two_pow (k : Nat) : log2c (2 ^ k) = k := by
  unfold log2c
  cases k with
  | zero => simp
  | succ k =>
    have h1 : ¬ 2 ^ (k + 1) ≤ 1 := by have := Nat.one_lt_two_pow (n := k + 1) (by omega); omega
    rw [if_neg h1]
    have : (2 ^ (k + 1) - 1).log2 = k := by
      rw [Nat.log2_eq_iff (by omega)]
      have := Nat.one_le_two_pow (n := k)
      rw [pow_succ] at *
      omega
    omega

/-- `2 ^ log2c n` is at least n, and below 2n: it is the least power of two not below n. -/
theorem le_nextPow2 (n : Nat) : n ≤ nextPow2 n := by
  unfold nextPow2 log2c
  split_ifs with h
  · simpa using h
  · have := Nat.lt_log2_self (n := n - 1); omega

theorem nextPow2_lt {n : Nat} (h : 1 ≤ n) : nextPow2 n < 2 * n := by
  unfold nextPow2 log2c
  split_ifs with h1
  · simp; omega
  · have := Nat.log2_self_le (n := n - 1) (by omega)
    rw [pow_succ]; omega

theorem popcountNat_le (w m : Nat) : popcountNat w m ≤ w := by
  induction w generalizing m with
  | zero => simp [popcountNat]
  | succ w ih => rw [popcountNat_succ]; have := ih (m / 2); omega

/-! ## pext and pdep -/

theorem pextNat_succ (w m v : Nat) :
    pextNat (w + 1) m v = if m % 2 = 1 then v % 2 + 2 * pextNat w (m / 2) (v / 2) else pextNat w (m / 2) (v / 2) := rfl

theorem pdepNat_succ (w m x : Nat) :
    pdepNat (w + 1) m x = if m % 2 = 1 then x % 2 + 2 * pdepNat w (m / 2) (x / 2) else 2 * pdepNat w (m / 2) x := rfl

/-- `pext(m, v)` has `popcount(m)` bits. -/
theorem pextNat_lt (w m v : Nat) : pextNat w m v < 2 ^ popcountNat w m := by
  induction w generalizing m v with
  | zero => simp [pextNat, popcountNat]
  | succ w ih =>
    rw [pextNat_succ, popcountNat_succ]
    have := ih (m / 2) (v / 2)
    split_ifs with h
    · rw [h, Nat.add_comm 1, pow_succ]; omega
    · have : m % 2 = 0 := by omega
      rw [this, Nat.zero_add]; exact ih _ _

theorem pdepNat_lt (w m x : Nat) : pdepNat w m x < 2 ^ w := by
  induction w generalizing m x with
  | zero => simp [pdepNat]
  | succ w ih =>
    rw [pdepNat_succ, pow_succ]
    split_ifs
    · have := ih (m / 2) (x / 2); omega
    · have := ih (m / 2) x; omega

/-- The parity and the half of a bitwise and. -/
theorem and_mod_two (a b : Nat) : (a &&& b) % 2 = (a % 2) * (b % 2) := by
  rw [Nat.and_mod_two_pow (n := 1) |>.trans rfl] 
  rcases Nat.mod_two_eq_zero_or_one a with ha | ha <;> rcases Nat.mod_two_eq_zero_or_one b with hb | hb <;> simp [ha, hb]

theorem and_eq_double (a b : Nat) : a &&& b = (a % 2) * (b % 2) + 2 * (a / 2 &&& b / 2) := by
  have h1 := Nat.mod_add_div (a &&& b) 2
  rw [Nat.and_div_two, and_mod_two] at h1
  omega

/-- `pdep(m, pext(m, v)) = v & m` (R11). -/
theorem pdepNat_pextNat (w m v : Nat) (hm : m < 2 ^ w) : pdepNat w m (pextNat w m v) = v &&& m := by
  induction w generalizing m v with
  | zero =>
    have : m = 0 := by simpa using hm
    simp [pdepNat, this]
  | succ w ih =>
    have hm2 : m / 2 < 2 ^ w := by rw [pow_succ] at hm; omega
    rw [pdepNat_succ, pextNat_succ, and_eq_double]
    split_ifs with h
    · have e1 : (v % 2 + 2 * pextNat w (m / 2) (v / 2)) % 2 = v % 2 := by omega
      have e2 : (v % 2 + 2 * pextNat w (m / 2) (v / 2)) / 2 = pextNat w (m / 2) (v / 2) := by omega
      rw [e1, e2, ih _ _ hm2, h, Nat.mul_one]
    · have : m % 2 = 0 := by omega
      rw [this, ih _ _ hm2]; omega

/-- `pext` forgets what lies outside the mask. -/
theorem pextNat_and (w m v : Nat) : pextNat w m (v &&& m) = pextNat w m v := by
  induction w generalizing m v with
  | zero => rfl
  | succ w ih =>
    rw [pextNat_succ, pextNat_succ, Nat.and_div_two, ih]
    split_ifs with h
    · rw [and_mod_two, h, Nat.mul_one]
    · rfl

theorem pext_lt (m v : BitVec 64) : pext m v < 2 ^ popcount m := pextNat_lt _ _ _

theorem pext_lt_two_pow_64 (m v : BitVec 64) : pext m v < 2 ^ 64 :=
  Nat.lt_of_lt_of_le (pext_lt m v) (Nat.pow_le_pow_right (by omega) (popcountNat_le _ _))

/-- `pdep(m, pext(m, v)) = v & m` (R11). -/
theorem pdep_pext (m v : BitVec 64) : pdep m (pext m v) = v &&& m := by
  unfold pdep pext
  rw [pdepNat_pextNat 64 m.toNat v.toNat m.isLt]
  apply BitVec.eq_of_toNat_eq
  rw [BitVec.toNat_ofNat, BitVec.toNat_and, Nat.mod_eq_of_lt]
  exact Nat.lt_of_le_of_lt Nat.and_le_left v.isLt

theorem pext_and (m v : BitVec 64) : pext m (v &&& m) = pext m v := by
  unfold pext; rw [BitVec.toNat_and, pextNat_and]

/-- Two values have the same packed bits exactly when they agree under the mask. -/
theorem pext_eq_iff (m v w : BitVec 64) : pext m v = pext m w ↔ v &&& m = w &&& m := by
  constructor
  · intro h; rw [← pdep_pext, h, pdep_pext]
  · intro h; rw [← pext_and m v, h, pext_and]

/-! ## Counters -/

theorem satAdd_toNat (c : BitVec 64) (n : Nat) : (satAdd c n).toNat = min (c.toNat + n) (2 ^ 64 - 1) := by
  unfold satAdd
  rw [BitVec.toNat_ofNat, Nat.mod_eq_of_lt (by omega)]

theorem decFloor_toNat (c : BitVec 64) : (decFloor c).toNat = c.toNat - 1 := by
  unfold decFloor
  split_ifs with h
  · simp [h]
  · have : c.toNat ≠ 0 := fun e => h (BitVec.eq_of_toNat_eq (by simpa using e))
    bv_omega

end Sys2Proof.Machine
end

