-- ==== Sys2Proof/Laws/FMap.lean ====
section
/-! SUPPORT. Laws of finite maps: read after write, other keys untouched, membership, and that every operation keeps the
canonical form. -/

namespace Sys2Proof.Machine.FMap

set_option Elab.async false

variable {α : Type}

@[simp] theorem lookup_nil (k : Nat) : lookup k ([] : FMap α) = none := rfl

theorem lookup_cons (k k' : Nat) (v : α) (m : FMap α) :
    lookup k ((k', v) :: m) = if k' = k then some v else lookup k m := rfl

@[simp] theorem lookup_insert_self (k : Nat) (v : α) (m : FMap α) : lookup k (insert k v m) = some v := by
  induction m with
  | nil => simp [insert, lookup]
  | cons e m ih =>
    obtain ⟨k', v'⟩ := e
    unfold insert
    split_ifs with h1 h2
    · simp [lookup]
    · simp [lookup]
    · rw [lookup_cons, if_neg (fun h => h2 h.symm)]; exact ih

theorem lookup_insert_ne {k j : Nat} (h : k ≠ j) (v : α) (m : FMap α) : lookup j (insert k v m) = lookup j m := by
  induction m with
  | nil => simp [insert, lookup, h]
  | cons e m ih =>
    obtain ⟨k', v'⟩ := e
    unfold insert
    split_ifs with h1 h2
    · rw [lookup_cons, if_neg h]
    · subst h2; rw [lookup_cons, lookup_cons, if_neg h, if_neg h]
    · rw [lookup_cons, lookup_cons, ih]

theorem lookup_insert (k j : Nat) (v : α) (m : FMap α) :
    lookup j (insert k v m) = if j = k then some v else lookup j m := by
  split_ifs with h
  · subst h; exact lookup_insert_self j v m
  · exact lookup_insert_ne (fun e => h e.symm) v m

theorem erase_cons (k k' : Nat) (v : α) (m : FMap α) :
    erase k ((k', v) :: m) = if k' = k then erase k m else (k', v) :: erase k m := by
  by_cases h : k' = k <;> simp [erase, h]

@[simp] theorem lookup_erase_self (k : Nat) (m : FMap α) : lookup k (erase k m) = none := by
  induction m with
  | nil => rfl
  | cons e m ih =>
    obtain ⟨k', v'⟩ := e
    rw [erase_cons]
    split_ifs with h
    · exact ih
    · rw [lookup_cons, if_neg h, ih]

theorem lookup_erase_ne {k j : Nat} (h : k ≠ j) (m : FMap α) : lookup j (erase k m) = lookup j m := by
  induction m with
  | nil => rfl
  | cons e m ih =>
    obtain ⟨k', v'⟩ := e
    rw [erase_cons, lookup_cons]
    split_ifs with h1 h2 h2
    · exact absurd (h1.symm.trans h2) h
    · exact ih
    · rw [lookup_cons, if_pos h2]
    · rw [lookup_cons, if_neg h2, ih]

theorem lookup_erase (k j : Nat) (m : FMap α) : lookup j (erase k m) = if j = k then none else lookup j m := by
  split_ifs with h
  · subst h; exact lookup_erase_self j m
  · exact lookup_erase_ne (fun e => h e.symm) m

/-- A found value is a listed entry. -/
theorem mem_of_lookup {k : Nat} {v : α} {m : FMap α} (h : lookup k m = some v) : (k, v) ∈ m := by
  induction m with
  | nil => simp at h
  | cons e m ih =>
    obtain ⟨k', v'⟩ := e
    rw [lookup_cons] at h
    split_ifs at h with hk
    · subst hk; cases h; exact List.mem_cons_self
    · exact List.mem_cons_of_mem _ (ih h)

/-- In a sorted map a listed entry is the value found. -/
theorem lookup_of_mem {k : Nat} {v : α} {m : FMap α} (hs : m.Sorted) (h : (k, v) ∈ m) : lookup k m = some v := by
  induction m with
  | nil => cases h
  | cons e m ih =>
    obtain ⟨k', v'⟩ := e
    rw [lookup_cons]
    rcases List.mem_cons.1 h with h | h
    · cases h; simp
    · have hlt := List.rel_of_pairwise_cons hs h
      rw [if_neg (Nat.ne_of_lt hlt)]
      exact ih (List.Pairwise.of_cons hs) h

theorem lookup_iff_mem {k : Nat} {v : α} {m : FMap α} (hs : m.Sorted) : lookup k m = some v ↔ (k, v) ∈ m :=
  ⟨mem_of_lookup, lookup_of_mem hs⟩

/-- What `insert` lists: the new entry and old entries of other keys. -/
theorem mem_insert {k : Nat} {v : α} {m : FMap α} {e : Nat × α} (h : e ∈ insert k v m) : e = (k, v) ∨ e ∈ m := by
  induction m with
  | nil => simpa [insert] using h
  | cons e' m ih =>
    obtain ⟨k', v'⟩ := e'
    unfold insert at h
    split_ifs at h with h1 h2
    · exact List.mem_cons.1 h
    · rcases List.mem_cons.1 h with h | h
      · exact .inl h
      · exact .inr (List.mem_cons_of_mem _ h)
    · rcases List.mem_cons.1 h with h | h
      · exact .inr (h ▸ List.mem_cons_self)
      · exact (ih h).imp_right (List.mem_cons_of_mem _)

theorem mem_erase {k : Nat} {m : FMap α} {e : Nat × α} : e ∈ erase k m ↔ e ∈ m ∧ e.1 ≠ k := by
  simp [erase]

/-- `insert` keeps the order. -/
theorem sorted_insert (k : Nat) (v : α) {m : FMap α} (hs : m.Sorted) : (insert k v m).Sorted := by
  induction m with
  | nil => simp [insert, Sorted]
  | cons e m ih =>
    obtain ⟨k', v'⟩ := e
    unfold insert
    have htail := List.Pairwise.of_cons hs
    have hhead : ∀ e ∈ m, k' < e.1 := fun e he => List.rel_of_pairwise_cons hs he
    split_ifs with h1 h2
    · refine List.pairwise_cons.2 ⟨fun e he => ?_, hs⟩
      rcases List.mem_cons.1 he with he | he
      · subst he; exact h1
      · exact Nat.lt_trans h1 (hhead e he)
    · subst h2; exact List.pairwise_cons.2 ⟨hhead, htail⟩
    · refine List.pairwise_cons.2 ⟨fun e he => ?_, ih htail⟩
      rcases mem_insert he with he | he
      · subst he; simp only; omega
      · exact hhead e he

/-- `erase` keeps the order. -/
theorem sorted_erase (k : Nat) {m : FMap α} (hs : m.Sorted) : (erase k m).Sorted := hs.filter _

/-- Writing a listed key changes no length. -/
theorem length_insert_of_lookup {k : Nat} {v w : α} {m : FMap α} (hs : m.Sorted) (h : lookup k m = some w) :
    (insert k v m).length = m.length := by
  induction m with
  | nil => simp at h
  | cons e m ih =>
    obtain ⟨k', v'⟩ := e
    rw [lookup_cons] at h
    unfold insert
    split_ifs at h with hk
    · subst hk; simp
    · have hlt : k' < k := List.rel_of_pairwise_cons hs (mem_of_lookup h)
      have h1 : ¬ k < k' := by omega
      have h2 : ¬ k = k' := by omega
      simp [h1, h2, ih (List.Pairwise.of_cons hs) h]

/-- Writing a key lists at most one entry more. -/
theorem length_insert_le (k : Nat) (v : α) (m : FMap α) : (insert k v m).length ≤ m.length + 1 := by
  induction m with
  | nil => simp [insert]
  | cons e m ih =>
    obtain ⟨k', v'⟩ := e
    unfold insert
    split_ifs <;> simp; omega

theorem length_erase_le (k : Nat) (m : FMap α) : (erase k m).length ≤ m.length := List.length_filter_le _ _

/-! ## Total maps with a default -/

@[simp] theorem getD_nil (d : α) (k : Nat) : getD d k ([] : FMap α) = d := rfl

/-- A key that does not read as the default is listed. -/
theorem mem_of_getD_ne {d : α} {k : Nat} {m : FMap α} (h : getD d k m ≠ d) : (k, getD d k m) ∈ m := by
  unfold getD at h ⊢
  cases hl : lookup k m with
  | none => simp [hl] at h
  | some v => simpa using mem_of_lookup hl

/-- In canonical form a listed entry reads as its value. -/
theorem getD_of_mem {d : α} {k : Nat} {v : α} {m : FMap α} (hs : m.Sorted) (h : (k, v) ∈ m) : getD d k m = v := by
  unfold getD; rw [lookup_of_mem hs h]; rfl

variable [DecidableEq α]

/-- Read after write, of a total map. -/
theorem getD_put (d : α) (k j : Nat) (v : α) (m : FMap α) :
    getD d j (put d k v m) = if j = k then v else getD d j m := by
  unfold getD put
  by_cases hv : v = d
  · rw [if_pos hv, lookup_erase]
    split_ifs with h
    · simp [hv]
    · rfl
  · rw [if_neg hv, lookup_insert]
    split_ifs <;> rfl

@[simp] theorem getD_put_self (d : α) (k : Nat) (v : α) (m : FMap α) : getD d k (put d k v m) = v := by
  rw [getD_put, if_pos rfl]

theorem getD_put_ne {d : α} {k j : Nat} (h : j ≠ k) (v : α) (m : FMap α) : getD d j (put d k v m) = getD d j m := by
  rw [getD_put, if_neg h]

/-- `put` keeps the canonical form. -/
theorem canonical_put (d : α) (k : Nat) (v : α) {m : FMap α} (h : Canonical d m) : Canonical d (put d k v m) := by
  unfold put
  by_cases hv : v = d
  · rw [if_pos hv]
    exact ⟨sorted_erase k h.1, fun e he => h.2 e (mem_erase.1 he).1⟩
  · rw [if_neg hv]
    refine ⟨sorted_insert k v h.1, fun e he => ?_⟩
    rcases mem_insert he with he | he
    · subst he; exact hv
    · exact h.2 e he

/-- What `put` lists: the key written, or an entry listed before. -/
theorem mem_put {d : α} {k : Nat} {v : α} {m : FMap α} {e : Nat × α} (h : e ∈ put d k v m) : e = (k, v) ∨ e ∈ m := by
  unfold put at h
  split_ifs at h
  · exact .inr (mem_erase.1 h).1
  · exact mem_insert h

end Sys2Proof.Machine.FMap
end

