-- ==== Sys2Proof/Laws/Crossbar.lean ====
section
/-! SUPPORT. Laws of the crossbar: its cells read after write, the depth of a queue after a push and a pop, what XB.POP
serves (42_crossbar.md rule R196), and that push, pop and commit keep `XbState.Inv` (R197, W5). -/

namespace Sys2Proof.Machine

set_option Elab.async false

variable {xb : XbState}

/-! ## Keys -/

/-- Keys of channels below 256 differ when the queue or the channel differs. -/
theorem cellKey_inj {s d v s' d' v' : Nat} (hv : v < 256) (hv' : v' < 256) :
    cellKey s d 0 v = cellKey s' d' 0 v' ↔ turnKey s d = turnKey s' d' ∧ v = v' := by
  unfold cellKey turnKey; omega

theorem XbRegs.channels_lt (c : XbRegs) : c.channels < 256 := c.vcs.isLt

theorem XbRegs.injectSubnet_lt (c : XbRegs) (d : NodeId) : c.injectSubnet d < 2 := by
  unfold XbRegs.injectSubnet; split_ifs <;> omega

theorem XbRegs.ejectSubnet_lt (c : XbRegs) (d : NodeId) : c.ejectSubnet d < 2 := by
  unfold XbRegs.ejectSubnet; split_ifs <;> omega

/-! ## Cells and turns -/

@[simp] theorem setCell_active (xb : XbState) (s d c v : Nat) (q : List Payload) : (xb.setCell s d c v q).active = xb.active := rfl
@[simp] theorem setCell_stage (xb : XbState) (s d c v : Nat) (q : List Payload) : (xb.setCell s d c v q).stage = xb.stage := rfl
@[simp] theorem setCell_configured (xb : XbState) (s d c v : Nat) (q : List Payload) :
    (xb.setCell s d c v q).configured = xb.configured := rfl
@[simp] theorem setCell_turns (xb : XbState) (s d c v : Nat) (q : List Payload) : (xb.setCell s d c v q).turns = xb.turns := rfl
@[simp] theorem setTurn_active (xb : XbState) (s d t : Nat) : (xb.setTurn s d t).active = xb.active := rfl
@[simp] theorem setTurn_stage (xb : XbState) (s d t : Nat) : (xb.setTurn s d t).stage = xb.stage := rfl
@[simp] theorem setTurn_configured (xb : XbState) (s d t : Nat) : (xb.setTurn s d t).configured = xb.configured := rfl
@[simp] theorem setTurn_cells (xb : XbState) (s d t : Nat) : (xb.setTurn s d t).cells = xb.cells := rfl
@[simp] theorem setTurn_cell (xb : XbState) (s d t s' d' c v : Nat) : (xb.setTurn s d t).cell s' d' c v = xb.cell s' d' c v := rfl
@[simp] theorem setCell_turn (xb : XbState) (s d c v s' d' : Nat) (q : List Payload) :
    (xb.setCell s d c v q).turn s' d' = xb.turn s' d' := rfl

theorem cell_setCell (xb : XbState) (s d c v s' d' c' v' : Nat) (q : List Payload) :
    (xb.setCell s d c v q).cell s' d' c' v' = if cellKey s' d' c' v' = cellKey s d c v then q else xb.cell s' d' c' v' := by
  unfold XbState.cell XbState.setCell
  exact FMap.getD_put _ _ _ _ _

theorem turn_setTurn (xb : XbState) (s d s' d' t : Nat) :
    (xb.setTurn s d t).turn s' d' = if turnKey s' d' = turnKey s d then t else xb.turn s' d' := by
  unfold XbState.turn XbState.setTurn
  exact FMap.getD_put _ _ _ _ _

/-- A nonempty cell is listed. -/
theorem cell_mem {s d c v : Nat} (h : xb.cell s d c v ≠ []) : (cellKey s d c v, xb.cell s d c v) ∈ xb.cells :=
  FMap.mem_of_getD_ne h

/-! ## Depth -/

/-- Two sums over a range whose terms differ at one place only. -/
theorem sum_range_update {f g : Nat → Nat} {n v : Nat} (hv : v < n) (h : ∀ i, i < n → i ≠ v → f i = g i) :
    ((List.range n).map f).sum + g v = ((List.range n).map g).sum + f v := by
  induction n with
  | zero => omega
  | succ n ih =>
    simp only [List.range_succ, List.map_append, List.map_cons, List.map_nil, List.sum_append, List.sum_cons, List.sum_nil]
    by_cases hn : v = n
    · subst hn
      have : (List.range v).map f = (List.range v).map g :=
        List.map_congr_left fun i hi => h i (by have := List.mem_range.1 hi; omega) (by have := List.mem_range.1 hi; omega)
      rw [this]; omega
    · have := ih (by omega) fun i hi hne => h i (by omega) hne
      have := h n (by omega) (by omega)
      omega

/-- The depth of the queues of other destinations does not change when a cell is written. -/
theorem depth_setCell_ne {s d v s' d' : Nat} (hv : v < 256) (q : List Payload) (hne : turnKey s' d' ≠ turnKey s d) :
    (xb.setCell s d 0 v q).depth s' d' 0 = xb.depth s' d' 0 := by
  unfold XbState.depth
  congr 1
  refine List.map_congr_left fun i hi => ?_
  have hi := List.mem_range.1 hi
  have := xb.active.channels_lt
  rw [cell_setCell, if_neg]
  intro hk
  exact hne ((cellKey_inj (by simp at hi; omega) hv).1 hk).1

/-- The depth of the queue a cell of which is written. -/
theorem depth_setCell_self {s d v s' d' : Nat} (hv : v < xb.active.channels) (q : List Payload)
    (hk : turnKey s' d' = turnKey s d) :
    (xb.setCell s d 0 v q).depth s' d' 0 + (xb.cell s d 0 v).length = xb.depth s' d' 0 + q.length := by
  have hlt := xb.active.channels_lt
  have hsame : ∀ i, i < 256 → xb.cell s' d' 0 i = xb.cell s d 0 i := fun i hi => by
    unfold XbState.cell; rw [(cellKey_inj hi hi).2 ⟨hk, rfl⟩]
  have h := sum_range_update (f := fun i => ((xb.setCell s d 0 v q).cell s' d' 0 i).length)
    (g := fun i => (xb.cell s' d' 0 i).length) hv fun i hi hne => by
      rw [cell_setCell, if_neg]
      exact fun hx => hne ((cellKey_inj (by omega) (by omega)).1 hx).2
  simp only [cell_setCell, (cellKey_inj (show v < 256 by omega) (show v < 256 by omega)).2 ⟨hk, rfl⟩, if_true] at h
  rw [hsame v (by omega)] at h
  unfold XbState.depth
  simp only [setCell_active, cell_setCell]
  exact h

/-- A queue's depth depends on its subnet and node through their key only. -/
theorem depth_congr {s d s' d' : Nat} (hk : turnKey s' d' = turnKey s d) : xb.depth s' d' 0 = xb.depth s d 0 := by
  have hc : ∀ v, xb.cell s' d' 0 v = xb.cell s d 0 v := fun v => by
    have : cellKey s' d' 0 v = cellKey s d 0 v := by unfold turnKey at hk; unfold cellKey; rw [hk]
    unfold XbState.cell; rw [this]
  unfold XbState.depth
  simp only [hc]

/-- A push makes its queue one deeper (R195). -/
theorem depth_push_self (hch : 0 < xb.active.channels) (s d : Nat) (p : Payload) {s' d' : Nat} (hk : turnKey s' d' = turnKey s d) :
    (xb.push s d p).depth s' d' 0 = xb.depth s' d' 0 + 1 := by
  have h := depth_setCell_self (xb := xb) hch (xb.cell s d 0 0 ++ [p]) hk
  simp only [List.length_append, List.length_singleton] at h
  unfold XbState.push
  omega

/-- A push leaves the other queues as deep as they were. -/
theorem depth_push_ne (s d : Nat) (p : Payload) {s' d' : Nat} (hk : turnKey s' d' ≠ turnKey s d) :
    (xb.push s d p).depth s' d' 0 = xb.depth s' d' 0 := depth_setCell_ne (by omega) _ hk

theorem depth_setTurn (xb : XbState) (s d t s' d' c : Nat) : (xb.setTurn s d t).depth s' d' c = xb.depth s' d' c := rfl

/-- A pop makes no queue deeper (R196). -/
theorem depth_popped_le {s d v : Nat} {p : Payload} {rest : List Payload} (hv : v < xb.active.channels)
    (hc : xb.cell s d 0 v = p :: rest) (s' d' : Nat) : (xb.popped s d v rest).depth s' d' 0 ≤ xb.depth s' d' 0 := by
  unfold XbState.popped
  rw [depth_setTurn]
  by_cases hk : turnKey s' d' = turnKey s d
  · have h := depth_setCell_self (xb := xb) hv rest hk
    rw [hc, List.length_cons] at h
    omega
  · rw [depth_setCell_ne (by have := xb.active.channels_lt; omega) _ hk]

/-! ## What XB.POP serves (R196) -/

/-- The first element of a list with a property. -/
theorem find?_range {n : Nat} {f : Nat → Nat} {p : Nat → Bool} {v : Nat} (h : ((List.range n).map f).find? p = some v) :
    ∃ i, i < n ∧ v = f i ∧ p (f i) = true ∧ ∀ j, j < i → p (f j) = false := by
  rw [List.find?_map, Option.map_eq_some_iff] at h
  obtain ⟨i, hi, rfl⟩ := h
  rw [List.find?_range_eq_some] at hi
  obtain ⟨h1, h2, h3⟩ := hi
  exact ⟨i, List.mem_range.1 h2, rfl, h1, fun j hj => by simpa using h3 j hj⟩

/-- The served channel is the first nonempty one in turn order from the turn pointer on. -/
theorem served_some {s d v : Nat} (h : xb.served s d = some v) :
    ∃ i, i < xb.active.channels ∧ v = (xb.turn s d + i) % xb.active.channels ∧ xb.cell s d 0 v ≠ [] ∧
      ∀ j, j < i → xb.cell s d 0 ((xb.turn s d + j) % xb.active.channels) = [] := by
  obtain ⟨i, h1, h2, h3, h4⟩ := find?_range h
  exact ⟨i, h1, h2, by rw [h2]; simpa using h3, fun j hj => by simpa using h4 j hj⟩

theorem served_lt {s d v : Nat} (h : xb.served s d = some v) : v < xb.active.channels := by
  obtain ⟨i, h1, rfl, -⟩ := served_some h
  exact Nat.mod_lt _ (by omega)

/-- From any turn pointer every channel is reached. -/
theorem turn_reaches (t : Nat) {v n : Nat} (hv : v < n) : (t + (v + n - t % n) % n) % n = v := by
  have h1 := Nat.mod_lt t (show 0 < n by omega)
  have h2 := Nat.div_add_mod t n
  rw [Nat.add_mod_mod, show t + (v + n - t % n) = v + n + n * (t / n) by omega, Nat.add_mul_mod_self_left, Nat.add_mod_right,
    Nat.mod_eq_of_lt hv]

/-- No channel is served exactly when every channel is empty. -/
theorem served_none {s d : Nat} : xb.served s d = none ↔ ∀ v, v < xb.active.channels → xb.cell s d 0 v = [] := by
  unfold XbState.served
  rw [List.find?_eq_none]
  constructor
  · intro h v hv
    have h' := h v (List.mem_map.2 ⟨(v + xb.active.channels - xb.turn s d % xb.active.channels) % xb.active.channels,
      List.mem_range.2 (Nat.mod_lt _ (by omega)), ?_⟩)
    · simpa using h'
    · exact turn_reaches _ hv
  · intro h x hx
    obtain ⟨i, hi, rfl⟩ := List.mem_map.1 hx
    have := List.mem_range.1 hi
    simp [h _ (Nat.mod_lt _ (by omega))]

/-! ## The invariant -/

/-- The empty queues of XB.CONFIGURE (R190). -/
theorem XbState.Inv.empty (xb : XbState) (hc : xb.cells = []) (ht : xb.turns = [])
    (hl : xb.configured = true → xb.active.legal = true) : xb.Inv := by
  refine ⟨fun _ => ⟨hc, ht⟩, hl, ?_, ?_, ?_, ?_, ?_⟩
  · rw [hc]; exact ⟨List.Pairwise.nil, fun _ h => nomatch h⟩
  · rw [ht]; exact ⟨List.Pairwise.nil, fun _ h => nomatch h⟩
  · rw [hc]; exact fun _ h => nomatch h
  · intro s d
    have : xb.depth s d 0 = 0 := by
      unfold XbState.depth XbState.cell
      rw [hc]
      induction xb.active.channels with
      | zero => rfl
      | succ n ih => simp [List.range_succ, FMap.getD_nil] at ih ⊢
    omega
  · rw [ht]; exact fun _ h => nomatch h

theorem XbRegs.legal_channels {c : XbRegs} (h : c.legal = true) : 0 < c.channels := by
  simp only [XbRegs.legal, Bool.and_eq_true, bne_iff_ne] at h
  have h1 := h.1.2
  unfold XbRegs.channels
  refine Nat.pos_of_ne_zero fun h0 => h1 (BitVec.eq_of_toNat_eq ?_)
  rw [h0]; rfl

/-- A push below capacity keeps the invariant (R195, R197 (c)). -/
theorem XbState.Inv.push (h : xb.Inv) (hcf : xb.configured = true) {s d : Nat} (hs : s < 2) (hd : d < xb.active.nodes)
    (hroom : xb.depth s d 0 < xb.active.capacity) (p : Payload) : (xb.push s d p).Inv := by
  refine ⟨fun hx => ?_, h.legal, FMap.canonical_put _ _ _ h.cellsCanonical, h.turnsCanonical, ?_, ?_, h.turnBound⟩
  · have hx' : xb.configured = false := hx
    rw [hcf] at hx'; exact absurd hx' (by decide)
  · intro e he
    rcases FMap.mem_put he with rfl | he
    · exact ⟨s, d, hs, hd, rfl⟩
    · exact h.places e he
  · intro s' d'
    by_cases hk : turnKey s' d' = turnKey s d
    · rw [depth_push_self (XbRegs.legal_channels (h.legal hcf)) s d p hk]
      have hsame := depth_congr (xb := xb) hk
      show xb.depth s' d' 0 + 1 ≤ xb.active.capacity
      omega
    · rw [depth_push_ne s d p hk]; exact h.depthBound s' d'

/-- A pop keeps the invariant (R196). -/
theorem XbState.Inv.popped (h : xb.Inv) (hcf : xb.configured = true) {s d v : Nat} {p : Payload} {rest : List Payload}
    (hv : v < xb.active.channels) (hc : xb.cell s d 0 v = p :: rest) : (xb.popped s d v rest).Inv := by
  refine ⟨fun hx => ?_, h.legal, FMap.canonical_put _ _ _ h.cellsCanonical, FMap.canonical_put _ _ _ h.turnsCanonical, ?_, ?_, ?_⟩
  · have hx' : xb.configured = false := hx
    rw [hcf] at hx'; exact absurd hx' (by decide)
  · intro e he
    rcases FMap.mem_put he with rfl | he
    · have hm := cell_mem (xb := xb) (s := s) (d := d) (c := 0) (v := v) (by rw [hc]; exact List.cons_ne_nil _ _)
      obtain ⟨s', d', h1, h2, h3⟩ := h.places _ hm
      exact ⟨s', d', h1, h2, h3⟩
    · exact h.places e he
  · intro s' d'
    exact (depth_popped_le hv hc s' d').trans (h.depthBound s' d')
  · intro e he
    rcases FMap.mem_put he with rfl | he
    · exact Nat.mod_lt _ (by omega)
    · exact h.turnBound e he

/-- In a sound crossbar only virtual channel 0 holds payloads (R197 (e), W5). -/
theorem XbState.Inv.only_zero (h : xb.Inv) {s d v : Nat} (hv : v < 256) (hne : xb.cell s d 0 v ≠ []) : v = 0 := by
  obtain ⟨s', d', -, -, hk⟩ := h.places _ (cell_mem hne)
  exact ((cellKey_inj hv (by omega)).1 hk).2

end Sys2Proof.Machine
end

