-- ==== Sys2Proof/Laws/Geometry.lean ====
section
/-! SUPPORT. Arithmetic of a legal cache geometry (41_cache_engine.md rules R140 to R143): line and tag sector sizes are
powers of two, so block address, sector and MSHR address are quotients of the source address. -/

namespace Sys2Proof.Machine

set_option Elab.async false

/-- The sizes of a legal configuration: `L = 2^l`, `TS = 2^t`, at most 16 tag sectors. -/
structure Geometry (c : CcRegs) (l t : Nat) : Prop where
  line    : c.lineBytes = 2 ^ l
  sector  : c.tagSectorBytes = 2 ^ t
  le      : t ≤ l
  lineLe  : l ≤ 12
  sectors : c.tagSectors = 2 ^ (l - t)
  few     : c.tagSectors ≤ 16
  normal  : c.kind ≠ 1 → t = l
  sets    : 1 ≤ c.sets

/-- What CC.CONFIGURE checks gives the sizes (R140). -/
theorem CcRegs.geometry {c : CcRegs} {b : Bool} (h : c.legal b = true) : ∃ l t, Geometry c l t := by
  simp only [CcRegs.legal, Bool.and_eq_true, decide_eq_true_eq, Bool.or_eq_true, bne_iff_ne, isPow2_iff] at h
  obtain ⟨⟨⟨⟨⟨⟨⟨⟨⟨⟨⟨hS, ⟨l, hl⟩, hL⟩, _⟩, _⟩, _⟩, _⟩, _⟩, _⟩, _⟩, ⟨q, hq⟩, hqL⟩, hk⟩, _⟩ := h
  have hql : q ≤ l := by
    rw [hq, hl] at hqL; exact (Nat.pow_le_pow_iff_right (by omega)).1 hqL
  have hl12 : l ≤ 12 := by
    rw [hl] at hL; exact (Nat.pow_le_pow_iff_right (a := 2) (by omega)).1 (by simpa using hL)
  by_cases kind : c.kind = 1
  · have hT : c.tagSectors = 2 ^ (l - q) := by
      rw [CcRegs.tagSectors, if_pos kind, hl, hq, Nat.pow_div hql (by omega)]
    refine ⟨l, q, ⟨hl, ?_, hql, hl12, hT, ?_, fun h => absurd kind h, hS⟩⟩
    · rw [CcRegs.tagSectorBytes, hT, hl, Nat.pow_div (by omega) (by omega)]; congr 1; omega
    · rw [CcRegs.tagSectors, if_pos kind]
      rcases hk with hk | hk
      · exact absurd kind hk
      · exact hk
  · have hT : c.tagSectors = 1 := by rw [CcRegs.tagSectors, if_neg kind]
    exact ⟨l, l, ⟨hl, by rw [CcRegs.tagSectorBytes, hT, hl, Nat.div_one], Nat.le_refl l, hl12, by simp [hT], by omega,
      fun _ => rfl, hS⟩⟩

/-- The mask of the `e` low bits. -/
theorem lowMask_toNat {e : Nat} (he : e < 64) : (BitVec.ofNat 64 (2 ^ e) - 1).toNat = 2 ^ e - 1 := by
  have h1 := Nat.pow_lt_pow_right (a := 2) (by omega) he
  have h2 := Nat.one_le_two_pow (n := e)
  have h3 : (1 : BitVec 64).toNat = 1 := rfl
  rw [BitVec.toNat_sub, BitVec.toNat_ofNat, Nat.mod_eq_of_lt h1, h3]
  omega

/-- Masking off the low bits rounds down to a multiple. -/
theorem roundDown_toNat (a : Addr) {e : Nat} (he : e < 64) :
    (a &&& ~~~(BitVec.ofNat 64 (2 ^ e) - 1)).toNat = a.toNat / 2 ^ e * 2 ^ e := by
  have hm := lowMask_toNat he
  have hsplit : (a &&& ~~~(BitVec.ofNat 64 (2 ^ e) - 1)) + (a &&& (BitVec.ofNat 64 (2 ^ e) - 1)) = a := by
    rw [BitVec.add_eq_or_of_and_eq_zero]
    · ext i; simp; cases a[i] <;> simp
    · ext i; simp; cases a[i] <;> simp
  have hlow : (a &&& (BitVec.ofNat 64 (2 ^ e) - 1)).toNat = a.toNat % 2 ^ e := by
    rw [BitVec.toNat_and, hm, Nat.and_two_pow_sub_one_eq_mod]
  have hle : (a &&& ~~~(BitVec.ofNat 64 (2 ^ e) - 1)).toNat ≤ a.toNat := by
    rw [BitVec.toNat_and]; exact Nat.and_le_left
  have hsum := congrArg BitVec.toNat hsplit
  rw [BitVec.toNat_add, hlow] at hsum
  have hdiv := Nat.div_add_mod a.toNat (2 ^ e)
  have hlt := a.isLt
  have hmodle := Nat.mod_le a.toNat (2 ^ e)
  rw [Nat.mul_comm] at hdiv
  have hle2 : (a &&& ~~~(BitVec.ofNat 64 (2 ^ e) - 1)).toNat + a.toNat % 2 ^ e < 2 ^ 64 ∨
      2 ^ 64 ≤ (a &&& ~~~(BitVec.ofNat 64 (2 ^ e) - 1)).toNat + a.toNat % 2 ^ e := Nat.lt_or_ge _ _
  rcases hle2 with h | h
  · rw [Nat.mod_eq_of_lt h] at hsum; omega
  · omega

/-- Masking keeps the remainder. -/
theorem lowBits_toNat (a : Addr) {e : Nat} (he : e < 64) :
    (a &&& (BitVec.ofNat 64 (2 ^ e) - 1)).toNat = a.toNat % 2 ^ e := by
  have hm := lowMask_toNat he
  rw [BitVec.toNat_and, hm, Nat.and_two_pow_sub_one_eq_mod]

namespace Geometry

variable {c : CcRegs} {l t : Nat}

theorem blockAddr_toNat (g : Geometry c l t) (a : Addr) : (c.blockAddr a).toNat = a.toNat / 2 ^ l * 2 ^ l := by
  rw [CcRegs.blockAddr, g.line]; exact roundDown_toNat a (by have := g.lineLe; omega)

theorem offset_eq (g : Geometry c l t) (a : Addr) : c.offset a = a.toNat % 2 ^ l := by
  rw [CcRegs.offset, g.line]; exact lowBits_toNat a (by have := g.lineLe; omega)

theorem mshrAddr_toNat (g : Geometry c l t) (a : Addr) : (c.mshrAddr a).toNat = a.toNat / 2 ^ t * 2 ^ t := by
  rw [CcRegs.mshrAddr, g.sector]; exact roundDown_toNat a (by have := g.lineLe; have := g.le; omega)

/-- The number of the tag sector an address lies in. -/
theorem sector_lt (g : Geometry c l t) (a : Addr) : a.toNat % 2 ^ l / 2 ^ t < c.tagSectors := by
  rw [g.sectors, Nat.div_lt_iff_lt_mul (by positivity), ← pow_add, Nat.sub_add_cancel g.le]
  exact Nat.mod_lt _ (by positivity)

/-- The sector mask of an address is the bit of its tag sector. -/
theorem sectorMask_bit (g : Geometry c l t) (a : Addr) (k : Fin 16) :
    (c.sectorMask a).getLsbD k = true ↔ k.val = a.toNat % 2 ^ l / 2 ^ t := by
  have hk := k.isLt
  unfold CcRegs.sectorMask
  split_ifs with h
  · rw [g.offset_eq, g.sector, BitVec.getLsbD_shiftLeft]
    simp only [BitVec.getLsbD_one]
    simp only [hk, decide_true, Bool.true_and, Bool.and_eq_true, Bool.not_eq_true', decide_eq_false_iff_not,
      decide_eq_true_eq]
    omega
  · have := g.normal h
    subst this
    have h0 : a.toNat % 2 ^ t / 2 ^ t = 0 := Nat.div_eq_of_lt (Nat.mod_lt _ (by positivity))
    rw [h0]
    simp

theorem sectorMask_ext (g : Geometry c l t) {a b : Addr} (k : Fin 16) (ha : (c.sectorMask a).getLsbD k = true)
    (hb : (c.sectorMask b).getLsbD k = true) : c.sectorMask a = c.sectorMask b := by
  apply BitVec.eq_of_getLsbD_eq
  intro i hi
  have e : a.toNat % 2 ^ l / 2 ^ t = b.toNat % 2 ^ l / 2 ^ t :=
    ((g.sectorMask_bit a k).1 ha).symm.trans ((g.sectorMask_bit b k).1 hb)
  rw [Bool.eq_iff_iff, g.sectorMask_bit a ⟨i, hi⟩, g.sectorMask_bit b ⟨i, hi⟩, e]

/-- Every request touches a tag sector. -/
theorem sectorMask_some (g : Geometry c l t) (a : Addr) : ∃ k : Fin 16, (c.sectorMask a).getLsbD k = true := by
  have h := g.sector_lt a
  have := g.few
  exact ⟨⟨a.toNat % 2 ^ l / 2 ^ t, by omega⟩, (g.sectorMask_bit a _).2 rfl⟩

theorem quot_split (g : Geometry c l t) (n : Nat) : n / 2 ^ t = n / 2 ^ l * 2 ^ (l - t) + n % 2 ^ l / 2 ^ t := by
  have hl : 2 ^ l = 2 ^ (l - t) * 2 ^ t := by rw [← pow_add, Nat.sub_add_cancel g.le]
  conv_lhs => rw [← Nat.div_add_mod n (2 ^ l)]
  have e : 2 ^ l * (n / 2 ^ l) = (n / 2 ^ l * 2 ^ (l - t)) * 2 ^ t := by rw [hl]; ring
  rw [e, Nat.add_comm, Nat.add_mul_div_right _ _ (by positivity), Nat.add_comm]

/-- Two requests have one MSHR address exactly when they agree in block and tag sector (R143). -/
theorem mshrAddr_eq_iff (g : Geometry c l t) (a b : Addr) :
    c.mshrAddr a = c.mshrAddr b ↔ c.blockAddr a = c.blockAddr b ∧ c.sectorMask a = c.sectorMask b := by
  have key : ∀ x y : Addr, c.mshrAddr x = c.mshrAddr y ↔ x.toNat / 2 ^ t = y.toNat / 2 ^ t := by
    intro x y
    rw [← BitVec.toNat_inj, g.mshrAddr_toNat, g.mshrAddr_toNat]
    exact Nat.mul_left_inj (by positivity)
  have blk : ∀ x y : Addr, c.blockAddr x = c.blockAddr y ↔ x.toNat / 2 ^ l = y.toNat / 2 ^ l := by
    intro x y
    rw [← BitVec.toNat_inj, g.blockAddr_toNat, g.blockAddr_toNat]
    exact Nat.mul_left_inj (by positivity)
  rw [key, blk]
  constructor
  · intro h
    have h1 : a.toNat / 2 ^ l = b.toNat / 2 ^ l := by
      have e : ∀ n : Nat, n / 2 ^ l = n / 2 ^ t / 2 ^ (l - t) := by
        intro n; rw [Nat.div_div_eq_div_mul, ← pow_add, Nat.add_sub_cancel' g.le]
      rw [e, e, h]
    refine ⟨h1, ?_⟩
    obtain ⟨k, hk⟩ := g.sectorMask_some a
    refine g.sectorMask_ext k hk ((g.sectorMask_bit b k).2 ?_)
    rw [(g.sectorMask_bit a k).1 hk]
    have ha := g.quot_split a.toNat
    have hb := g.quot_split b.toNat
    rw [h, h1] at ha
    omega
  · rintro ⟨h1, h2⟩
    obtain ⟨k, hk⟩ := g.sectorMask_some a
    have e1 := (g.sectorMask_bit a k).1 hk
    have e2 := (g.sectorMask_bit b k).1 (h2 ▸ hk)
    rw [g.quot_split a.toNat, g.quot_split b.toNat, h1, ← e1, ← e2]

/-- A block address is its own block address. -/
theorem blockAddr_blockAddr (g : Geometry c l t) (a : Addr) : c.blockAddr (c.blockAddr a) = c.blockAddr a := by
  apply BitVec.eq_of_toNat_eq
  rw [g.blockAddr_toNat, g.blockAddr_toNat, Nat.mul_div_cancel _ (by positivity)]

theorem setOf_lt (g : Geometry c l t) (b : Addr) : c.setOf b < c.sets := Nat.mod_lt _ g.sets

/-- A request inside its tag sector lies inside its line. -/
theorem inside_line (g : Geometry c l t) {o n : Nat} (ho : o < 2 ^ l) (h : o % 2 ^ t + n ≤ 2 ^ t) : o + n ≤ c.lineBytes := by
  rw [g.line]
  have hl : 2 ^ l = 2 ^ (l - t) * 2 ^ t := by rw [← pow_add, Nat.sub_add_cancel g.le]
  have hq : o / 2 ^ t < 2 ^ (l - t) := by
    rw [Nat.div_lt_iff_lt_mul (by positivity), ← hl]; exact ho
  have hd := Nat.div_add_mod o (2 ^ t)
  have : (o / 2 ^ t + 1) * 2 ^ t ≤ 2 ^ (l - t) * 2 ^ t := Nat.mul_le_mul_right _ hq
  rw [hl]
  have e : (o / 2 ^ t + 1) * 2 ^ t = 2 ^ t * (o / 2 ^ t) + 2 ^ t := by ring
  omega

end Geometry

end Sys2Proof.Machine
end

