-- ==== Sys2Proof/Laws/TagArray.lean ====
section
/-! SUPPORT. Laws of the tag array (41_cache_engine.md rules R144, R145, R161, R162): reading a line after writing one, the
status of a sector after each update, and what each probe result says. -/

namespace Sys2Proof.Machine

set_option Elab.async false

/-! ## Lines -/

/-- Way indices have 16 bits, so a line's key tells its set and way. -/
theorem lineKey_inj {s w s' w' : Nat} (hw : w < 65536) (hw' : w' < 65536) :
    lineKey s w = lineKey s' w' ↔ s = s' ∧ w = w' := by
  unfold lineKey; omega

theorem CcRegs.ways_lt (c : CcRegs) : c.ways < 65536 := c.assoc.isLt

theorem lineAt_setLine (lines : FMap Line) (s w s' w' : Nat) (ln : Line) :
    lineAt (setLine lines s w ln) s' w' = if lineKey s' w' = lineKey s w then ln else lineAt lines s' w' :=
  FMap.getD_put ..

@[simp] theorem lineAt_setLine_self (lines : FMap Line) (s w : Nat) (ln : Line) : lineAt (setLine lines s w ln) s w = ln := by
  rw [lineAt_setLine, if_pos rfl]

theorem lineAt_setLine_ne {lines : FMap Line} {s w s' w' : Nat} {ln : Line} (hw : w < 65536) (hw' : w' < 65536)
    (h : ¬(s' = s ∧ w' = w)) : lineAt (setLine lines s w ln) s' w' = lineAt lines s' w' := by
  rw [lineAt_setLine, if_neg fun e => h ((lineKey_inj hw' hw).1 e)]

/-! ## Sector statuses -/

theorem sectorTable_st (f : Fin 16 → SectorStatus) (k : Fin 16) : (sectorTable f)[k] = f k := by
  unfold sectorTable; simp

theorem mapSectors_st (ln : Line) (sm : SectorMask) (f : SectorStatus → SectorStatus) (k : Fin 16) :
    (ln.mapSectors sm f).st[k] = if sm.getLsbD k then f ln.st[k] else ln.st[k] := by
  exact sectorTable_st _ k

@[simp] theorem mapSectors_tag (ln : Line) (sm : SectorMask) (f : SectorStatus → SectorStatus) :
    (ln.mapSectors sm f).tag = ln.tag := rfl
@[simp] theorem mapSectors_dirty (ln : Line) (sm : SectorMask) (f : SectorStatus → SectorStatus) :
    (ln.mapSectors sm f).dirty = ln.dirty := rfl
@[simp] theorem mapSectors_lastAccess (ln : Line) (sm : SectorMask) (f : SectorStatus → SectorStatus) :
    (ln.mapSectors sm f).lastAccess = ln.lastAccess := rfl
@[simp] theorem mapSectors_allocTime (ln : Line) (sm : SectorMask) (f : SectorStatus → SectorStatus) :
    (ln.mapSectors sm f).allocTime = ln.allocTime := rfl

theorem setSectors_st (ln : Line) (sm : SectorMask) (v : SectorStatus) (k : Fin 16) :
    (ln.setSectors sm v).st[k] = if sm.getLsbD k then v else ln.st[k] := mapSectors_st ..
@[simp] theorem setSectors_tag (ln : Line) (sm : SectorMask) (v : SectorStatus) : (ln.setSectors sm v).tag = ln.tag := rfl
@[simp] theorem setSectors_dirty (ln : Line) (sm : SectorMask) (v : SectorStatus) :
    (ln.setSectors sm v).dirty = ln.dirty := rfl
@[simp] theorem setSectors_lastAccess (ln : Line) (sm : SectorMask) (v : SectorStatus) :
    (ln.setSectors sm v).lastAccess = ln.lastAccess := rfl
@[simp] theorem setSectors_allocTime (ln : Line) (sm : SectorMask) (v : SectorStatus) :
    (ln.setSectors sm v).allocTime = ln.allocTime := rfl

@[simp] theorem touch_st (ln : Line) (now : BitVec 64) : (ln.touch now).st = ln.st := rfl
@[simp] theorem touch_tag (ln : Line) (now : BitVec 64) : (ln.touch now).tag = ln.tag := rfl
@[simp] theorem touch_dirty (ln : Line) (now : BitVec 64) : (ln.touch now).dirty = ln.dirty := rfl
@[simp] theorem touch_allocTime (ln : Line) (now : BitVec 64) : (ln.touch now).allocTime = ln.allocTime := rfl
@[simp] theorem touch_lastAccess (ln : Line) (now : BitVec 64) : (ln.touch now).lastAccess = now := rfl

theorem allocate_st (b : Addr) (sm : SectorMask) (now : BitVec 64) (k : Fin 16) :
    (Line.allocate b sm now).st[k] = if sm.getLsbD k then .reserved else .invalid := by
  exact sectorTable_st _ k
@[simp] theorem allocate_tag (b : Addr) (sm : SectorMask) (now : BitVec 64) : (Line.allocate b sm now).tag = b := rfl
theorem allocate_dirty (b : Addr) (sm : SectorMask) (now : BitVec 64) : (Line.allocate b sm now).dirty = 0#4096 := by
  unfold Line.allocate; rfl

theorem markAtomic_vec (ln : Line) (sm : SectorMask) (o n : Nat) :
    (ln.markAtomic sm o n).st = (ln.setSectors sm .modified).st := by unfold Line.markAtomic; rfl
theorem markAtomic_st (ln : Line) (sm : SectorMask) (o n : Nat) (k : Fin 16) :
    (ln.markAtomic sm o n).st[k] = if sm.getLsbD k then .modified else ln.st[k] := by
  rw [markAtomic_vec]; exact setSectors_st ..
@[simp] theorem markAtomic_tag (ln : Line) (sm : SectorMask) (o n : Nat) : (ln.markAtomic sm o n).tag = ln.tag := rfl
@[simp] theorem markAtomic_dirty (ln : Line) (sm : SectorMask) (o n : Nat) :
    (ln.markAtomic sm o n).dirty = ln.dirty ||| byteRange o n := rfl

theorem empty_st (k : Fin 16) : Line.empty.st[k] = .invalid := by simp [Line.empty]

/-- The `n` low bits of a `w`-bit mask. -/
theorem lowOnes_bit {w n : Nat} (hw : 1 < w) (hn : n ≤ w) (i : Nat) :
    ((1#w <<< n) - 1#w).getLsbD i = decide (i < n) := by
  have hone : (1#w).toNat = 1 := by rw [BitVec.toNat_ofNat, Nat.mod_eq_of_lt (Nat.one_lt_two_pow (by omega))]
  have h1 := Nat.one_le_two_pow (n := w)
  rcases Nat.lt_or_eq_of_le hn with h | h
  · have h2 := Nat.pow_lt_pow_right (a := 2) (by omega) h
    have h3 := Nat.one_le_two_pow (n := n)
    have e : ((1#w <<< n) - 1#w) = BitVec.ofNat w (2 ^ n - 1) := by
      apply BitVec.eq_of_toNat_eq
      rw [BitVec.toNat_sub, BitVec.toNat_shiftLeft, hone, Nat.one_shiftLeft, Nat.mod_eq_of_lt h2, BitVec.toNat_ofNat,
        Nat.mod_eq_of_lt (a := 2 ^ n - 1) (by omega)]
      have e : 2 ^ w - 1 + 2 ^ n = (2 ^ n - 1) + 2 ^ w := by omega
      rw [e, Nat.add_mod_right, Nat.mod_eq_of_lt (by omega)]
    rw [e, BitVec.getLsbD_ofNat, Nat.testBit_two_pow_sub_one]
    by_cases hi : i < n <;> simp [hi]
    omega
  · subst h
    rw [BitVec.shiftLeft_eq_zero (Nat.le_refl _), BitVec.zero_sub, BitVec.neg_one_eq_allOnes, BitVec.getLsbD_allOnes]

/-- The bytes of the range, and no others. -/
theorem byteRange_bit (o n b : Nat) (hn : o + n ≤ 4096) : (byteRange o n).getLsbD b = decide (o ≤ b ∧ b < o + n) := by
  unfold byteRange
  rw [BitVec.getLsbD_shiftLeft, lowOnes_bit (by omega) (by omega)]
  by_cases hb : o ≤ b <;> by_cases hb2 : b < o + n <;> simp [hb, hb2] <;> omega

/-! ## Line predicates -/

theorem allocated_iff (ln : Line) : ln.allocated = true ↔ ∃ k : Fin 16, ln.st[k] ≠ .invalid := by
  simp [Line.allocated, List.any_eq_true]

theorem isReserved_iff (ln : Line) : ln.isReserved = true ↔ ∃ k : Fin 16, ln.st[k] = .reserved := by
  simp [Line.isReserved, Line.has, List.any_eq_true]

theorem isModified_iff (ln : Line) : ln.isModified = true ↔ ∃ k : Fin 16, ln.st[k] = .modified := by
  simp [Line.isModified, Line.has, List.any_eq_true]

theorem hasIn_iff (ln : Line) (sm : SectorMask) (v : SectorStatus) :
    ln.hasIn sm v = true ↔ ∃ k : Fin 16, sm.getLsbD k = true ∧ ln.st[k] = v := by
  simp [Line.hasIn, List.any_eq_true]

/-- A line some sector of which is not INVALID is allocated. -/
theorem allocated_of_st {ln : Line} {k : Fin 16} {v : SectorStatus} (h : ln.st[k] = v) (hv : v ≠ .invalid) :
    ln.allocated = true := (allocated_iff ln).2 ⟨k, by rw [h]; exact hv⟩

/-- A line that is not allocated has no RESERVED and no MODIFIED sector. -/
theorem not_reserved_of_not_allocated {ln : Line} (h : ln.allocated = false) : ln.isReserved = false := by
  rw [Bool.eq_false_iff] at h ⊢
  exact fun hr => by
    obtain ⟨k, hk⟩ := (isReserved_iff ln).1 hr
    exact h (allocated_of_st hk (by decide))

/-! ## Searches -/

theorem findWay_some {c : CcRegs} {lines : FMap Line} {set way : Nat} {p : Line → Bool}
    (h : findWay c lines set p = some way) :
    way < c.ways ∧ p (lineAt lines set way) = true ∧ ∀ w, w < way → p (lineAt lines set w) = false := by
  unfold findWay at h
  rw [List.find?_range_eq_some] at h
  obtain ⟨h1, h2, h3⟩ := h
  exact ⟨List.mem_range.1 h2, h1, fun w hw => by simpa using h3 w hw⟩

theorem findWay_none {c : CcRegs} {lines : FMap Line} {set : Nat} {p : Line → Bool} :
    findWay c lines set p = none ↔ ∀ w, w < c.ways → p (lineAt lines set w) = false := by
  unfold findWay
  rw [List.find?_range_eq_none]
  simp

theorem leastBy_eq_none {key : Nat → Nat} {l : List Nat} : leastBy key l = none ↔ l = [] := by
  cases l with
  | nil => simp [leastBy]
  | cons x xs =>
    simp only [leastBy, reduceCtorEq, iff_false]
    cases leastBy key xs with
    | none => simp
    | some y => simp only; split_ifs <;> simp

/-- On a list in rising order `leastBy` finds the least key, on equal keys the lowest element. -/
theorem leastBy_spec {key : Nat → Nat} {l : List Nat} (hs : l.Pairwise (· < ·)) {x : Nat} (h : leastBy key l = some x) :
    x ∈ l ∧ ∀ y ∈ l, key x < key y ∨ (key x = key y ∧ x ≤ y) := by
  induction l generalizing x with
  | nil => simp [leastBy] at h
  | cons a l ih =>
    have htail := List.Pairwise.of_cons hs
    have hhead : ∀ y ∈ l, a < y := fun y hy => List.rel_of_pairwise_cons hs hy
    simp only [leastBy] at h
    cases hl : leastBy key l with
    | none =>
      rw [hl] at h
      have : l = [] := leastBy_eq_none.1 hl
      subst this
      cases h
      simp
    | some y =>
      rw [hl] at h
      simp only at h
      obtain ⟨hy1, hy2⟩ := ih htail hl
      split_ifs at h with hk
      · cases h
        refine ⟨List.mem_cons_self, fun z hz => ?_⟩
        rcases List.mem_cons.1 hz with hz | hz
        · subst hz; exact .inr ⟨rfl, Nat.le_refl _⟩
        · have := hy2 z hz; have := hhead z hz; omega
      · cases h
        refine ⟨List.mem_cons_of_mem _ hy1, fun z hz => ?_⟩
        rcases List.mem_cons.1 hz with hz | hz
        · subst hz; omega
        · exact hy2 z hz

/-- The victim is not reserved, and among the ways not reserved it has the least key, lowest on ties (R144). -/
theorem victim_some {c : CcRegs} {lines : FMap Line} {set way : Nat} (h : victim c lines set = some way) :
    way < c.ways ∧ (lineAt lines set way).isReserved = false ∧
    ∀ w, w < c.ways → (lineAt lines set w).isReserved = false →
      replKey c lines set way < replKey c lines set w ∨ (replKey c lines set way = replKey c lines set w ∧ way ≤ w) := by
  have hs : ((List.range c.ways).filter fun way => !(lineAt lines set way).isReserved).Pairwise (· < ·) :=
    List.Pairwise.filter _ List.pairwise_lt_range
  obtain ⟨h1, h2⟩ := leastBy_spec hs h
  simp only [List.mem_filter, List.mem_range, Bool.not_eq_true'] at h1 h2
  exact ⟨h1.1, h1.2, fun w hw hr => h2 w ⟨hw, hr⟩⟩

theorem victim_none {c : CcRegs} {lines : FMap Line} {set : Nat} :
    victim c lines set = none ↔ ∀ w, w < c.ways → (lineAt lines set w).isReserved = true := by
  unfold victim
  rw [leastBy_eq_none, List.filter_eq_nil_iff]
  simp

/-! ## Probe (R144) -/

/-- Everything a probe can answer (R144). -/
theorem probe_fact (c : CcRegs) (lines : FMap Line) (b : Addr) (set : Nat) (sm : SectorMask) :
    ProbeFact c lines b set sm (probe c lines b set sm) := by
  unfold probe
  split
  · rename_i way h
    obtain ⟨h1, h2, -⟩ := findWay_some h
    rw [Bool.and_eq_true, beq_iff_eq] at h2
    split_ifs with hi hr
    · exact ⟨h1, h2.1, h2.2, (hasIn_iff _ _ _).1 hi⟩
    · refine ⟨h1, h2.1, h2.2, fun k hk e => hi ((hasIn_iff _ _ _).2 ⟨k, hk, e⟩), (hasIn_iff _ _ _).1 hr⟩
    · exact ⟨h1, h2.1, h2.2, fun k hk => ⟨fun e => hi ((hasIn_iff _ _ _).2 ⟨k, hk, e⟩),
        fun e => hr ((hasIn_iff _ _ _).2 ⟨k, hk, e⟩)⟩⟩
  · rename_i h
    have habs : Absent c lines b set := by
      intro w hw ha e
      have := findWay_none.1 h w hw
      simp [ha, e] at this
    split
    · rename_i way h2
      obtain ⟨h3, h4, h5⟩ := findWay_some h2
      have hna : (lineAt lines set way).allocated = false := by simpa using h4
      exact ⟨h3, habs, not_reserved_of_not_allocated hna, .inl ⟨hna, fun w hw => by simpa using h5 w hw⟩⟩
    · rename_i h2
      have hall : ∀ w, w < c.ways → (lineAt lines set w).allocated = true := fun w hw => by
        simpa using findWay_none.1 h2 w hw
      split
      · rename_i way h3
        obtain ⟨h4, h5, h6⟩ := victim_some h3
        exact ⟨h4, habs, h5, .inr ⟨hall, h6⟩⟩
      · rename_i h3
        exact ⟨habs, victim_none.1 h3⟩

end Sys2Proof.Machine
end

