-- ==== Sys2Proof/Laws/TagInv.lean ====
section
/-! SUPPORT. The tag array procedures keep the tag array's invariant: one lemma for writing one line, then tag_access (R145),
tag_fill (R161) and force_dirty (R162) from it. -/

namespace Sys2Proof.Machine

set_option Elab.async false

variable {c : CcRegs} {mshr mshr' : FMap MshrEntry} {lines : FMap Line}

/-- The tag array after CC.CONFIGURE, or before it, holds no line (R140, R251). -/
theorem TagInv.nil (c : CcRegs) (mshr : FMap MshrEntry) : TagInv c mshr [] where
  canonical := ⟨List.Pairwise.nil, fun _ h => nomatch h⟩
  inRange := fun _ h => nomatch h
  home := fun set way _ _ h => by
    obtain ⟨k, hk⟩ := (allocated_iff _).1 h
    exact absurd (empty_st k) hk
  unique := fun set w₁ w₂ _ _ _ h => by
    obtain ⟨k, hk⟩ := (allocated_iff _).1 h
    exact absurd (empty_st k) hk
  dirty := fun set way h => absurd rfl h
  dirtyBits := fun set way b _ => BitVec.getLsbD_zero
  sectors := fun set way k _ => empty_st k
  reserved := fun set way k _ _ h => by
    have := (empty_st k).symm.trans h
    exact absurd this (by decide)

/-- A table in which every covered sector stays covered keeps the invariant. -/
theorem TagInv.mono (h : TagInv c mshr lines) (hc : ∀ b k, Covered c mshr b k → Covered c mshr' b k) :
    TagInv c mshr' lines :=
  { h with reserved := fun set way k hs hw hr =>
      ⟨(h.reserved set way k hs hw hr).1, hc _ _ (h.reserved set way k hs hw hr).2⟩ }

/-- What a line must satisfy to stand at `(set, way)`. -/
structure LineOk (c : CcRegs) (mshr : FMap MshrEntry) (lines : FMap Line) (set way : Nat) (ln : Line) : Prop where
  home : ln.allocated = true → c.blockAddr ln.tag = ln.tag ∧ c.setOf ln.tag = set
  unique : ln.allocated = true → ∀ w, w < c.ways → w ≠ way → (lineAt lines set w).allocated = true →
    (lineAt lines set w).tag ≠ ln.tag
  dirty : ln.dirty ≠ 0 → ln.isModified = true
  dirtyBits : ∀ b, c.lineBytes ≤ b → ln.dirty.getLsbD b = false
  sectors : ∀ k : Fin 16, c.tagSectors ≤ k.val → ln.st[k] = .invalid
  reserved : ∀ k : Fin 16, ln.st[k] = .reserved → c.onMiss = true ∧ Covered c mshr ln.tag k

/-- Writing one fit line keeps the invariant; the other lines' reserved sectors must stay covered. -/
theorem TagInv.setLine (h : TagInv c mshr lines) {set way : Nat} (hset : set < c.sets) (hway : way < c.ways) {ln : Line}
    (ok : LineOk c mshr' lines set way ln)
    (hc : ∀ s w k, s < c.sets → w < c.ways → ¬(s = set ∧ w = way) → (lineAt lines s w).st[k] = .reserved →
      Covered c mshr' (lineAt lines s w).tag k) :
    TagInv c mshr' (Machine.setLine lines set way ln) := by
  have hlt := c.ways_lt
  have self := lineAt_setLine_self lines set way ln
  have other : ∀ {s w}, w < c.ways → ¬(s = set ∧ w = way) →
      lineAt (Machine.setLine lines set way ln) s w = lineAt lines s w := fun hw hne =>
    lineAt_setLine_ne (by omega) (by omega) hne
  refine ⟨FMap.canonical_put _ _ _ h.canonical, ?_, ?_, ?_, ?_, ?_, ?_, ?_⟩
  · intro e he
    rcases FMap.mem_put he with he | he
    · subst he; exact ⟨set, way, hset, hway, rfl⟩
    · exact h.inRange e he
  · intro s w hs hw ha
    by_cases hne : s = set ∧ w = way
    · obtain ⟨rfl, rfl⟩ := hne
      rw [self] at ha ⊢; exact ok.home ha
    · rw [other hw hne] at ha ⊢; exact h.home s w hs hw ha
  · intro s w₁ w₂ hs h1 h2 a1 a2 e
    by_cases n1 : s = set ∧ w₁ = way <;> by_cases n2 : s = set ∧ w₂ = way
    · omega
    · obtain ⟨rfl, rfl⟩ := n1
      rw [self] at a1 e; rw [other h2 n2] at a2 e
      exact absurd e.symm (ok.unique a1 w₂ h2 (fun hw => n2 ⟨rfl, hw⟩) a2)
    · obtain ⟨rfl, rfl⟩ := n2
      rw [self] at a2 e; rw [other h1 n1] at a1 e
      exact absurd e (ok.unique a2 w₁ h1 (fun hw => n1 ⟨rfl, hw⟩) a1)
    · rw [other h1 n1] at a1 e; rw [other h2 n2] at a2 e
      exact h.unique s w₁ w₂ hs h1 h2 a1 a2 e
  · intro s w hd
    rw [lineAt_setLine] at hd ⊢
    split_ifs at hd ⊢ with hk
    · exact ok.dirty hd
    · exact h.dirty s w hd
  · intro s w b hb
    rw [lineAt_setLine]
    split_ifs with hk
    · exact ok.dirtyBits b hb
    · exact h.dirtyBits s w b hb
  · intro s w k hk
    rw [lineAt_setLine]
    split_ifs with hk
    · exact ok.sectors k (by assumption)
    · exact h.sectors s w k (by assumption)
  · intro s w k hs hw hr
    by_cases hne : s = set ∧ w = way
    · obtain ⟨rfl, rfl⟩ := hne
      rw [self] at hr ⊢; exact ok.reserved k hr
    · rw [other hw hne] at hr ⊢
      exact ⟨(h.reserved s w k hs hw hr).1, hc s w k hs hw hne hr⟩

/-- The line that stands at `(set, way)` is fit, in a table that keeps its reserved sectors covered. -/
theorem TagInv.lineOk (h : TagInv c mshr lines) {set way : Nat} (hset : set < c.sets) (hway : way < c.ways)
    (hc : ∀ k, (lineAt lines set way).st[k] = .reserved → Covered c mshr' (lineAt lines set way).tag k) :
    LineOk c mshr' lines set way (lineAt lines set way) where
  home := h.home set way hset hway
  unique := fun ha w hw hne haw e => hne (h.unique set w way hset hw hway haw ha e)
  dirty := h.dirty set way
  dirtyBits := h.dirtyBits set way
  sectors := h.sectors set way
  reserved := fun k hr => ⟨(h.reserved set way k hset hway hr).1, hc k hr⟩

/-- Changing the time stamp keeps a line fit. -/
theorem LineOk.touch {set way : Nat} {ln : Line} (h : LineOk c mshr lines set way ln) (now : BitVec 64) :
    LineOk c mshr lines set way (ln.touch now) := ⟨h.home, h.unique, h.dirty, h.dirtyBits, h.sectors, h.reserved⟩

/-- A line at which nothing but statuses changed, none of them to INVALID or away from MODIFIED, is fit. -/
theorem LineOk.mapSectors {set way : Nat} {ln : Line} {sm : SectorMask} {f : SectorStatus → SectorStatus}
    (h : LineOk c mshr lines set way ln) (ha : ln.allocated = true)
    (hmod : ∀ k : Fin 16, sm.getLsbD k = true → ln.st[k] = .modified → f ln.st[k] = .modified)
    (hsec : ∀ k : Fin 16, sm.getLsbD k = true → k.val < c.tagSectors)
    (hres : ∀ k : Fin 16, sm.getLsbD k = true → f ln.st[k] = .reserved → c.onMiss = true ∧ Covered c mshr ln.tag k) :
    LineOk c mshr lines set way (ln.mapSectors sm f) := by
  have hd := h.dirty
  have hb := h.dirtyBits
  have hs := h.sectors
  have hr := h.reserved
  refine ⟨fun _ => h.home ha, fun _ => h.unique ha, ?_, ?_, ?_, ?_⟩
  · rw [mapSectors_dirty]
    intro hne
    obtain ⟨k, hk⟩ := (isModified_iff ln).1 (hd hne)
    refine (isModified_iff _).2 ⟨k, ?_⟩
    rw [mapSectors_st]
    split_ifs with hs
    · exact hmod k hs hk
    · exact hk
  · rw [mapSectors_dirty]; exact hb
  · intro k hk
    rw [mapSectors_st, if_neg fun hs => absurd (hsec k hs) (by omega)]
    exact hs k hk
  · intro k hk
    rw [mapSectors_st] at hk
    rw [mapSectors_tag]
    split_ifs at hk with hm
    · exact hres k hm hk
    · exact hr k hk

/-- A freshly allocated line is fit where no way holds its block. -/
theorem LineOk.allocate {l t : Nat} (g : Geometry c l t) {src : Addr} {way : Nat} (now : BitVec 64)
    (habs : Absent c lines (c.blockAddr src) (c.setOf (c.blockAddr src)))
    (hcov : c.onMiss = true ∧ ∀ k : Fin 16, (c.sectorMask src).getLsbD k = true → Covered c mshr (c.blockAddr src) k) :
    LineOk c mshr lines (c.setOf (c.blockAddr src)) way (Line.allocate (c.blockAddr src) (c.sectorMask src) now) where
  home := fun _ => ⟨g.blockAddr_blockAddr src, rfl⟩
  unique := fun _ w hw _ haw => habs w hw haw
  dirty := fun hd => absurd (allocate_dirty _ _ _) hd
  dirtyBits := fun b _ => by rw [allocate_dirty]; exact BitVec.getLsbD_zero
  sectors := fun k hk => by
    rw [allocate_st, if_neg]
    intro hs
    have := (g.sectorMask_bit src k).1 hs
    have := g.sector_lt src
    omega
  reserved := fun k hr => by
    rw [allocate_st] at hr
    split_ifs at hr with hs
    exact ⟨hcov.1, hcov.2 k hs⟩

/-- `tag_access` keeps the invariant (R145), in a table that covers what was covered and, where a sector is newly reserved,
the sectors of the request. -/
theorem TagInv.access {l t : Nat} (g : Geometry c l t) (h : TagInv c mshr lines) (now : BitVec 64) (src : Addr)
    (hmono : ∀ b k, Covered c mshr b k → Covered c mshr' b k)
    (hcov : ∀ k : Fin 16, (c.sectorMask src).getLsbD k = true → Covered c mshr' (c.blockAddr src) k) :
    TagInv c mshr' (accessLines c now lines (c.blockAddr src) (c.setOf (c.blockAddr src)) (c.sectorMask src)
      (probe c lines (c.blockAddr src) (c.setOf (c.blockAddr src)) (c.sectorMask src))) := by
  have hset := g.setOf_lt (c.blockAddr src)
  have hother : ∀ s w k, s < c.sets → w < c.ways → ∀ _ : (lineAt lines s w).st[k] = .reserved,
      Covered c mshr' (lineAt lines s w).tag k := fun s w k hs hw hr => hmono _ _ (h.reserved s w k hs hw hr).2
  have hfact := probe_fact c lines (c.blockAddr src) (c.setOf (c.blockAddr src)) (c.sectorMask src)
  revert hfact
  generalize probe c lines (c.blockAddr src) (c.setOf (c.blockAddr src)) (c.sectorMask src) = p
  intro hfact
  cases p with
  | hit way =>
    exact h.setLine hset hfact.1 ((h.lineOk hset hfact.1 fun k hr => hother _ _ k hset hfact.1 hr).touch now)
      fun s w k hs hw _ hr => hother s w k hs hw hr
  | hitReserved way =>
    exact h.setLine hset hfact.1 ((h.lineOk hset hfact.1 fun k hr => hother _ _ k hset hfact.1 hr).touch now)
      fun s w k hs hw _ hr => hother s w k hs hw hr
  | miss way =>
    unfold accessLines
    dsimp only
    split_ifs with hon
    · exact h.setLine hset hfact.1 (LineOk.allocate g now hfact.2.1 ⟨hon, hcov⟩)
        fun s w k hs hw _ hr => hother s w k hs hw hr
    · exact h.mono hmono
  | sectorMiss way =>
    unfold accessLines
    dsimp only
    split_ifs with hon
    · obtain ⟨hway, ha, htag, hex⟩ := hfact
      refine h.setLine hset hway (LineOk.touch ?_ now) fun s w k hs hw _ hr => hother s w k hs hw hr
      refine (h.lineOk hset hway fun k hr => hother _ _ k hset hway hr).mapSectors ha ?_ ?_ ?_
      · intro k hk hm
        obtain ⟨k', hk', hinv⟩ := hex
        have e : k = k' := Fin.ext (((g.sectorMask_bit src k).1 hk).trans ((g.sectorMask_bit src k').1 hk').symm)
        subst e
        rw [hm] at hinv; exact absurd hinv (by decide)
      · intro k hk
        have := (g.sectorMask_bit src k).1 hk
        have := g.sector_lt src
        omega
      · intro k hk _
        rw [htag]; exact ⟨hon, hcov k hk⟩
    · exact h.mono hmono
  | reservationFail => exact h.mono hmono

/-- A line has at most 4096 bytes (R33). -/
theorem line_le {l t : Nat} (g : Geometry c l t) : 2 ^ l ≤ 4096 := by
  have h := Nat.pow_le_pow_right (n := 2) (by omega) g.lineLe
  norm_num at h
  exact h

/-- `force_dirty` keeps the invariant (R162): the sectors of the request become MODIFIED and bytes of the line dirty. -/
theorem TagInv.markAtomic {l t : Nat} (g : Geometry c l t) (h : TagInv c mshr lines) {set way : Nat} (hset : set < c.sets)
    (hway : way < c.ways) (ha : (lineAt lines set way).allocated = true) (src : Addr) {o n : Nat}
    (hon : o + n ≤ c.lineBytes) :
    TagInv c mshr (Machine.setLine lines set way ((lineAt lines set way).markAtomic (c.sectorMask src) o n)) := by
  have hsec : ∀ k : Fin 16, (c.sectorMask src).getLsbD k = true → k.val < c.tagSectors := by
    intro k hk
    have := (g.sectorMask_bit src k).1 hk
    have := g.sector_lt src
    omega
  have hbase := (h.lineOk hset hway fun k hr => (h.reserved _ _ k hset hway hr).2).mapSectors
    (sm := c.sectorMask src) (f := fun _ => .modified) ha (fun _ _ _ => rfl) hsec (fun _ _ hr => absurd hr (by decide))
  refine h.setLine hset hway ?_ fun s w k hs hw _ hr => (h.reserved s w k hs hw hr).2
  refine ⟨fun _ => h.home set way hset hway ha, fun _ => hbase.unique ?_, fun _ => ?_, fun b hb => ?_, fun k hk => ?_,
    fun k hr => ?_⟩
  · obtain ⟨k, hk⟩ := g.sectorMask_some src
    exact (allocated_iff _).2 ⟨k, by rw [mapSectors_st, if_pos hk]; decide⟩
  · obtain ⟨k, hk⟩ := g.sectorMask_some src
    exact (isModified_iff _).2 ⟨k, by rw [markAtomic_st, if_pos hk]⟩
  · have hl : c.lineBytes ≤ 4096 := by
      rw [g.line]; exact line_le g
    rw [markAtomic_dirty, BitVec.getLsbD_or, h.dirtyBits set way b hb, byteRange_bit o n b (by omega)]
    simp; omega
  · rw [markAtomic_st, if_neg fun hs => absurd (hsec k hs) (by omega)]
    exact h.sectors set way k hk
  · rw [markAtomic_st] at hr
    split_ifs at hr with hs
    exact h.reserved set way k hset hway hr

end Sys2Proof.Machine
end

