-- ==== Sys2Proof/Laws/CacheInv.lean ====
section
/-! SUPPORT. What each cache operation keeps of `CcState.Inv`: the classification of a request (41_cache_engine.md rules
R151, R153, R154), a fill that waits or completes (R160), the hand-off and the hand-back (R170, R175). -/

namespace Sys2Proof.Machine

set_option Elab.async false

variable {c : CcRegs} {ad : AdRegs} {cc : CcState} {l t : Nat}

/-! ## Covered sectors -/

/-- A waiting entry written at any key uncovers nothing. -/
theorem Covered.insert {mshr : FMap MshrEntry} {b : Addr} {k : Fin 16} (h : Covered c mshr b k) (key : Nat) {m : MshrEntry}
    (hm : m.ready = false) : Covered c (mshr.insert key m) b k := by
  obtain ⟨src, m', h1, h2, h3, h4⟩ := h
  by_cases hk : (c.mshrAddr src).toNat = key
  · exact ⟨src, m, h1, h2, by rw [FMap.lookup_insert, if_pos hk], hm⟩
  · exact ⟨src, m', h1, h2, by rw [FMap.lookup_insert, if_neg hk, h3], h4⟩

/-- The sector of a request is covered by a waiting entry at its key. -/
theorem covered_insert_self (mshr : FMap MshrEntry) (src : Addr) {m : MshrEntry} (hm : m.ready = false) {k : Fin 16}
    (hk : (c.sectorMask src).getLsbD k = true) :
    Covered c (mshr.insert (c.mshrAddr src).toNat m) (c.blockAddr src) k :=
  ⟨src, m, rfl, hk, by rw [FMap.lookup_insert, if_pos rfl], hm⟩

/-- Changing or removing an entry that is ready uncovers nothing. -/
theorem Covered.of_lookup {mshr mshr' : FMap MshrEntry} {b : Addr} {k : Fin 16} (h : Covered c mshr b k)
    (hl : ∀ j m, mshr.lookup j = some m → m.ready = false → mshr'.lookup j = some m) : Covered c mshr' b k := by
  obtain ⟨src, m, h1, h2, h3, h4⟩ := h
  exact ⟨src, m, h1, h2, hl _ _ h3 h4, h4⟩

/-- Two requests for one sector of one block have one MSHR address. -/
theorem key_of_sector (g : Geometry c l t) {a b : Addr} {k : Fin 16} (hb : c.blockAddr a = c.blockAddr b)
    (ha : (c.sectorMask a).getLsbD k = true) (hb' : (c.sectorMask b).getLsbD k = true) : c.mshrAddr a = c.mshrAddr b :=
  (g.mshrAddr_eq_iff a b).2 ⟨hb, g.sectorMask_ext k ha hb'⟩

/-! ## The lines of the requests in flight -/

/-- `tag_access` leaves every RESERVED sector RESERVED and its line's tag as it was (R144: "A reserved line is never chosen
as victim"). -/
theorem accessLines_reserved {lines : FMap Line} (now : BitVec 64) {b : Addr} {set : Nat} {sm : SectorMask} {p : ProbeResult}
    (hf : ProbeFact c lines b set sm p) {s w : Nat} (hw : w < c.ways) {k : Fin 16}
    (hr : (lineAt lines s w).st[k] = .reserved) :
    (lineAt (accessLines c now lines b set sm p) s w).st[k] = .reserved ∧
      (lineAt (accessLines c now lines b set sm p) s w).tag = (lineAt lines s w).tag := by
  have hlt := c.ways_lt
  have other : ∀ {way ln}, way < c.ways → ¬(s = set ∧ w = way) → lineAt (setLine lines set way ln) s w = lineAt lines s w :=
    fun h hne => lineAt_setLine_ne (by omega) (by omega) hne
  cases p with
  | reservationFail => exact ⟨hr, rfl⟩
  | hit way =>
    by_cases hne : s = set ∧ w = way
    · obtain ⟨rfl, rfl⟩ := hne
      have e : lineAt (accessLines c now lines b s sm (.hit w)) s w = (lineAt lines s w).touch now :=
        lineAt_setLine_self _ _ _ _
      rw [e]; exact ⟨hr, rfl⟩
    · have e : lineAt (accessLines c now lines b set sm (.hit way)) s w = lineAt lines s w := other hf.1 hne
      rw [e]; exact ⟨hr, rfl⟩
  | hitReserved way =>
    by_cases hne : s = set ∧ w = way
    · obtain ⟨rfl, rfl⟩ := hne
      have e : lineAt (accessLines c now lines b s sm (.hitReserved w)) s w = (lineAt lines s w).touch now :=
        lineAt_setLine_self _ _ _ _
      rw [e]; exact ⟨hr, rfl⟩
    · have e : lineAt (accessLines c now lines b set sm (.hitReserved way)) s w = lineAt lines s w := other hf.1 hne
      rw [e]; exact ⟨hr, rfl⟩
  | miss way =>
    have e : lineAt (accessLines c now lines b set sm (.miss way)) s w = lineAt lines s w := by
      unfold accessLines
      dsimp only
      split_ifs
      · refine other hf.1 fun hne => ?_
        obtain ⟨rfl, rfl⟩ := hne
        have := (isReserved_iff _).2 ⟨k, hr⟩
        rw [hf.2.2.1] at this
        exact absurd this (by decide)
      · rfl
    rw [e]; exact ⟨hr, rfl⟩
  | sectorMiss way =>
    by_cases hon : c.onMiss = true
    · by_cases hne : s = set ∧ w = way
      · obtain ⟨rfl, rfl⟩ := hne
        have e : lineAt (accessLines c now lines b s sm (.sectorMiss w)) s w =
            ((lineAt lines s w).setSectors sm .reserved).touch now := by
          unfold accessLines
          dsimp only
          rw [if_pos hon, lineAt_setLine_self]
        rw [e, touch_tag, setSectors_tag, touch_st, setSectors_st]
        refine ⟨?_, rfl⟩
        split_ifs
        · rfl
        · exact hr
      · have e : lineAt (accessLines c now lines b set sm (.sectorMiss way)) s w = lineAt lines s w := by
          unfold accessLines
          dsimp only
          rw [if_pos hon, other hf.1 hne]
        rw [e]; exact ⟨hr, rfl⟩
    · have e : accessLines c now lines b set sm (.sectorMiss way) = lines := by
        unfold accessLines
        dsimp only
        rw [if_neg hon]
      rw [e]; exact ⟨hr, rfl⟩

/-- After `tag_access` under ON_MISS the sector of a MISS or SECTOR_MISS is RESERVED in the line that holds its block. -/
theorem accessLines_new {lines : FMap Line} (now : BitVec 64) {b : Addr} {set : Nat} {sm : SectorMask} {p : ProbeResult}
    (hf : ProbeFact c lines b set sm p) (hon : c.onMiss = true) (hp : ∃ way, p = .miss way ∨ p = .sectorMiss way) :
    p.way < c.ways ∧ (lineAt (accessLines c now lines b set sm p) set p.way).tag = b ∧
      ∀ k : Fin 16, sm.getLsbD k = true → (lineAt (accessLines c now lines b set sm p) set p.way).st[k] = .reserved := by
  obtain ⟨way, rfl | rfl⟩ := hp
  · unfold accessLines ProbeResult.way
    dsimp only
    rw [if_pos hon, lineAt_setLine_self, allocate_tag]
    exact ⟨hf.1, rfl, fun k hk => by rw [allocate_st, if_pos hk]⟩
  · unfold accessLines ProbeResult.way
    dsimp only
    rw [if_pos hon, lineAt_setLine_self, touch_tag, setSectors_tag, touch_st]
    exact ⟨hf.1, hf.2.2.1, fun k hk => by rw [setSectors_st, if_pos hk]⟩

/-- A metadata record stays sound when its key still waits and its reserved sectors stay. -/
theorem MetaRec.Inv.mono {mshr mshr' : FMap MshrEntry} {lines lines' : FMap Line} {e : MetaRec}
    (h : e.Inv c ad mshr lines) (hw : ∃ m, mshr'.lookup e.mshrAddr.toNat = some m ∧ m.ready = false)
    (hl : c.onMiss = true → ∀ k : Fin 16, e.smask.getLsbD k = true → (lineAt lines e.set e.way).st[k] = .reserved →
      (lineAt lines' e.set e.way).st[k] = .reserved ∧ (lineAt lines' e.set e.way).tag = (lineAt lines e.set e.way).tag)
    (g : Geometry c l t) : e.Inv c ad mshr' lines' := by
  refine { h with waiting := hw, line := fun hon => ?_ }
  obtain ⟨h1, h2, h3⟩ := h.line hon
  obtain ⟨k, hk⟩ := g.sectorMask_some (c.srcAddr ad e.origAddr)
  rw [← h.smask] at hk
  exact ⟨h1, (hl hon k hk (h3 k hk)).2.trans h2, fun k hk => (hl hon k hk (h3 k hk)).1⟩

/-! ## CC.ACCESS -/

/-- The request's address was mapped by `src`, and it passed the checks of R150. -/
structure ReadReq.Ok (c : CcRegs) (ad : AdRegs) (cc : CcState) (r : ReadReq) : Prop where
  src    : r.src = c.srcAddr ad r.addr
  inside : c.offset r.src % c.tagSectorBytes + r.size.toNat ≤ c.tagSectorBytes
  fresh  : cc.metaTab.lookup r.id.toNat = none

/-- The tag array after an accepted request, in a table that covers what was covered and the request's own sector. -/
theorem TagInv.recordAccess (g : Geometry c l t) (hc : cc.active = c) (h : TagInv c cc.mshr cc.lines) (r : ReadReq)
    {mshr' : FMap MshrEntry} (hmono : ∀ b k, Covered c cc.mshr b k → Covered c mshr' b k)
    (hcov : ∀ k : Fin 16, (c.sectorMask r.src).getLsbD k = true → Covered c mshr' (c.blockAddr r.src) k) :
    TagInv c mshr' (cc.recordAccess r).lines := by
  subst hc
  exact h.access g cc.now r.src hmono hcov

theorem probeFor_fact (cc : CcState) (r : ReadReq) :
    ProbeFact cc.active cc.lines (cc.active.blockAddr r.src) (cc.active.setOf (cc.active.blockAddr r.src))
      (cc.active.sectorMask r.src) (cc.probeFor r) := probe_fact _ _ _ _ _

theorem recordAccess_reserved (cc : CcState) (r : ReadReq) {s w : Nat} (hw : w < cc.active.ways) {k : Fin 16}
    (hr : (lineAt cc.lines s w).st[k] = .reserved) :
    (lineAt (cc.recordAccess r).lines s w).st[k] = .reserved ∧
      (lineAt (cc.recordAccess r).lines s w).tag = (lineAt cc.lines s w).tag :=
  accessLines_reserved cc.now (probeFor_fact cc r) hw hr

/-- Records of a table whose keys still wait stay sound over an accepted request. -/
theorem MissInv.metaOk_access (g : Geometry cc.active l t) (h : MissInv cc.active ad cc) (r : ReadReq)
    {mshr' : FMap MshrEntry} {id : Nat} {e : MetaRec} (he : cc.metaTab.lookup id = some e)
    (hw : ∀ j m, cc.mshr.lookup j = some m → m.ready = false → ∃ m', mshr'.lookup j = some m' ∧ m'.ready = false) :
    e.Inv cc.active ad mshr' (cc.recordAccess r).lines := by
  have hi := h.metaOk id e he
  obtain ⟨m, hm, hr⟩ := hi.waiting
  exact hi.mono (hw _ _ hm hr) (fun hon k _ hk => recordAccess_reserved cc r (hi.line hon).1 hk) g

/-- A tag HIT (R151) keeps the miss side. -/
theorem MissInv.hit (g : Geometry cc.active l t) (h : MissInv cc.active ad cc) (r : ReadReq) :
    MissInv cc.active ad (cc.recordAccess r) :=
  { h with metaOk := fun _ _ he => h.metaOk_access g r he fun _ m hm hr => ⟨m, hm, hr⟩ }

/-- GCS step 2, MSHR_HIT (R153), keeps the miss side. -/
theorem MissInv.merge (g : Geometry cc.active l t) (h : MissInv cc.active ad cc) (r : ReadReq) {e : MshrEntry}
    (he : cc.mshr.lookup (r.key cc.active).toNat = some e) (hroom : e.mergeRoom cc.active = true) :
    MissInv cc.active ad (cc.merge r e) := by
  simp only [MshrEntry.mergeRoom, Bool.and_eq_true, Bool.not_eq_true', decide_eq_true_eq] at hroom
  have hone := h.listBound _ (FMap.mem_of_lookup he)
  have hrange := h.keyRange _ (FMap.mem_of_lookup he)
  refine ⟨FMap.sorted_insert _ _ h.mshrSorted, h.metaSorted, h.mqBound, ?_, ?_, ?_, h.readyOnce, ?_, h.reads, ?_, h.metaKeys⟩
  · show (FMap.insert _ _ _).length ≤ _
    rw [FMap.length_insert_of_lookup h.mshrSorted he]; exact h.mshrBound
  · intro x hx
    rcases FMap.mem_insert hx with rfl | hx
    · exact hrange
    · exact h.keyRange x hx
  · intro x hx
    rcases FMap.mem_insert hx with rfl | hx
    · simp only [List.length_append, List.length_singleton]; omega
    · exact h.listBound x hx
  · intro a
    refine (h.readyKeys a).trans ?_
    show _ ↔ ∃ m, FMap.lookup _ (FMap.insert _ _ _) = some m ∧ _
    rw [FMap.lookup_insert]
    split_ifs with hk
    · rw [hk, he]; simp
    · rfl
  · intro id f hf
    refine h.metaOk_access g r hf fun j m hm hr => ?_
    show ∃ m', FMap.lookup _ (FMap.insert _ _ _) = some m' ∧ _
    rw [FMap.lookup_insert]
    split_ifs
    · exact ⟨_, rfl, hroom.1⟩
    · exact ⟨m, hm, hr⟩

/-- Under ON_MISS a request without MSHR entry at its key meets no RESERVED sector (R180 (e)). -/
theorem not_hitReserved (g : Geometry cc.active l t) (ht : TagInv cc.active cc.mshr cc.lines) (r : ReadReq)
    (hnone : cc.mshr.lookup (r.key cc.active).toNat = none) (w : Nat) : cc.probeFor r ≠ .hitReserved w := by
  intro hp
  have hf := probeFor_fact cc r
  rw [hp] at hf
  obtain ⟨hw, -, htag, -, k, hk, hr⟩ := hf
  obtain ⟨-, src, m, hb, hs, hm, -⟩ := ht.reserved _ w k (g.setOf_lt _) hw hr
  rw [htag] at hb
  rw [key_of_sector g hb hs hk] at hm
  rw [show cc.mshr.lookup (cc.active.mshrAddr r.src).toNat = none from hnone] at hm
  cases hm

/-- `pending_init >= 1` (R157). -/
theorem one_le_pendingInit (c : CcRegs) (size : ReqSize) : 1 ≤ c.pendingInit size := by
  unfold CcRegs.pendingInit; split_ifs <;> omega

/-- GCS step 3, MISS (R154), keeps the miss side. -/
theorem MissInv.startMiss (g : Geometry cc.active l t) (ht : TagInv cc.active cc.mshr cc.lines)
    (h : MissInv cc.active ad cc) (hmerge : 1 ≤ cc.active.mshrMaxMerge.toNat) (r : ReadReq) (hr : r.Ok cc.active ad cc)
    (hnone : cc.mshr.lookup (r.key cc.active).toNat = none) (hmq : cc.mqRoom = true) (htab : cc.tableRoom = true)
    (hhit : ∀ w, cc.probeFor r ≠ .hit w) (hres : cc.probeFor r ≠ .reservationFail) :
    MissInv cc.active ad (cc.startMiss r) := by
  simp only [CcState.mqRoom, decide_eq_true_eq] at hmq
  simp only [CcState.tableRoom, decide_eq_true_eq] at htab
  have hkept : ∀ j m, cc.mshr.lookup j = some m → m.ready = false → ∃ m', (cc.startMiss r).mshr.lookup j = some m' ∧
      m'.ready = false := by
    intro j m hm hr
    show ∃ m', FMap.lookup _ (FMap.insert _ _ _) = some m' ∧ _
    rw [FMap.lookup_insert]
    split_ifs with hk
    · exact ⟨_, rfl, rfl⟩
    · exact ⟨m, hm, hr⟩
  refine ⟨FMap.sorted_insert _ _ h.mshrSorted, FMap.sorted_insert _ _ h.metaSorted, ?_, ?_, ?_, ?_, h.readyOnce, ?_, ?_, ?_, ?_⟩
  · show (cc.mq ++ [_]).length ≤ _
    simp; omega
  · exact (FMap.length_insert_le _ _ _).trans (by omega)
  · intro x hx
    rcases FMap.mem_insert hx with rfl | hx
    · exact (r.key cc.active).isLt
    · exact h.keyRange x hx
  · intro x hx
    rcases FMap.mem_insert hx with rfl | hx
    · simpa using hmerge
    · exact h.listBound x hx
  · intro a
    refine (h.readyKeys a).trans ?_
    show _ ↔ ∃ m, FMap.lookup _ (FMap.insert _ _ _) = some m ∧ _
    rw [FMap.lookup_insert]
    split_ifs with hk
    · rw [hk, hnone]; simp
    · rfl
  · intro x hx
    rcases List.mem_append.1 hx with hx | hx
    · exact h.reads x hx
    · rw [List.mem_singleton.1 hx]
  · intro id e he
    have he' : FMap.lookup id (FMap.insert _ _ _) = some e := he
    rw [FMap.lookup_insert] at he'
    split_ifs at he' with hid
    · cases he'
      refine ⟨one_le_pendingInit _ _, ⟨_, FMap.lookup_insert_self _ _ _, rfl⟩, ?_, ?_, rfl, ?_, ?_, fun hon => ?_⟩
      · show cc.active.blockAddr r.src = _
        rw [hr.src]; rfl
      · show cc.active.mshrAddr r.src = _
        rw [hr.src]; rfl
      · show cc.active.sectorMask r.src = _
        rw [hr.src]; rfl
      · show cc.active.offset (cc.active.srcAddr ad r.addr) % _ + r.size.toNat ≤ _
        rw [← hr.src]; exact hr.inside
      · refine accessLines_new cc.now (probeFor_fact cc r) hon ?_
        cases hp : cc.probeFor r with
        | hit w => exact absurd hp (hhit w)
        | hitReserved w => exact absurd hp (not_hitReserved g ht r hnone w)
        | miss w => exact ⟨w, .inl rfl⟩
        | sectorMiss w => exact ⟨w, .inr rfl⟩
        | reservationFail => exact absurd hp hres
    · exact h.metaOk_access g r he' hkept
  · intro i j e f he hf hk
    have he' : FMap.lookup i (FMap.insert _ _ _) = some e := he
    have hf' : FMap.lookup j (FMap.insert _ _ _) = some f := hf
    have old : ∀ {i e}, cc.metaTab.lookup i = some e → e.mshrAddr ≠ r.key cc.active := by
      intro i e hi heq
      obtain ⟨m, hm, -⟩ := (h.metaOk i e hi).waiting
      rw [heq, hnone] at hm; cases hm
    rw [FMap.lookup_insert] at he' hf'
    split_ifs at he' hf' with h1 h2 h2
    · rw [h1, h2]
    · cases he'; exact absurd hk.symm (old hf')
    · cases hf'; exact absurd hk (old he')
    · exact h.metaKeys i j e f he' hf' hk

end Sys2Proof.Machine
end

