-- ==== Sys2Proof/Laws/FillInv.lean ====
section
/-! SUPPORT. A fill keeps `CcState.Inv` (41_cache_engine.md rules R160 to R162): tag_fill and force_dirty on the tag array,
then the miss side, for a fill that waits and a fill that completes; and that neither can stop. -/

namespace Sys2Proof.Machine

set_option Elab.async false

variable {c : CcRegs} {ad : AdRegs} {cc : CcState} {l t : Nat} {mshr mshr' : FMap MshrEntry} {lines : FMap Line} {e : MetaRec}
  {m : MshrEntry}

/-! ## The tag array -/

/-- Under ON_FILL no sector is RESERVED (R161), so the tag array does not depend on the MSHR table. -/
theorem TagInv.onFill (h : TagInv c mshr lines) (hf : c.onMiss = false) (mshr' : FMap MshrEntry) : TagInv c mshr' lines :=
  { h with reserved := fun s w k hs hw hr => absurd (h.reserved s w k hs hw hr).1 (by simp [hf]) }

/-- The tag sectors of a record are sectors of the line. -/
theorem MetaRec.Inv.sector_lt (g : Geometry c l t) (h : e.Inv c ad mshr lines) {k : Fin 16} (hk : e.smask.getLsbD k = true) :
    k.val < c.tagSectors := by
  rw [h.smask] at hk
  have := (g.sectorMask_bit _ k).1 hk
  have := g.sector_lt (c.srcAddr ad e.origAddr)
  omega

/-- Marking a record's entry ready uncovers only the record's own sector. -/
theorem covered_of_ready (g : Geometry c l t) (h : e.Inv c ad mshr lines) {b : Addr} {k : Fin 16} (hc : Covered c mshr b k)
    (hne : ¬(b = e.blockAddr ∧ e.smask.getLsbD k = true)) (m : MshrEntry) :
    Covered c (mshr.insert e.mshrAddr.toNat m) b k := by
  obtain ⟨src, m', h1, h2, h3, h4⟩ := hc
  refine ⟨src, m', h1, h2, ?_, h4⟩
  rw [FMap.lookup_insert_ne]
  · exact h3
  · intro heq
    have hk := BitVec.eq_of_toNat_eq heq
    rw [h.key, g.mshrAddr_eq_iff] at hk
    exact hne ⟨by rw [← h1, h.block, hk.1], by rw [h.smask, hk.2]; exact h2⟩

/-- The tag array after a fill under ON_MISS (R161). -/
theorem tagFill_onMiss (hon : c.onMiss = true) (now : BitVec 64) (lines : FMap Line) (e : MetaRec) :
    tagFill c now lines e =
      { place := some (e.set, e.way), wb := none
        lines := setLine lines e.set e.way ((lineAt lines e.set e.way).setSectors e.smask .valid) } := by
  unfold tagFill; rw [if_pos hon]

/-- The line a fill under ON_MISS completes stands in the array and is allocated. -/
theorem MetaRec.Inv.place (g : Geometry c l t) (h : e.Inv c ad mshr lines) (hon : c.onMiss = true) :
    e.set < c.sets ∧ e.way < c.ways ∧ (lineAt lines e.set e.way).allocated = true := by
  obtain ⟨hw, -, hr⟩ := h.line hon
  obtain ⟨k, hk⟩ := g.sectorMask_some (c.srcAddr ad e.origAddr)
  rw [← h.smask] at hk
  exact ⟨h.set ▸ g.setOf_lt _, hw, allocated_of_st (hr k hk) (by decide)⟩

/-- `tag_fill` under ON_MISS keeps the tag array's invariant. -/
theorem TagInv.fill_onMiss (g : Geometry c l t) (ht : TagInv c mshr lines) (h : e.Inv c ad mshr lines) (hon : c.onMiss = true)
    (m : MshrEntry) :
    TagInv c (mshr.insert e.mshrAddr.toNat m)
      (Machine.setLine lines e.set e.way ((lineAt lines e.set e.way).setSectors e.smask .valid)) := by
  obtain ⟨hset, hway, ha⟩ := h.place g hon
  obtain ⟨-, htag, hres⟩ := h.line hon
  have base := (ht.lineOk hset hway fun k hr => (ht.reserved _ _ k hset hway hr).2).mapSectors (sm := e.smask)
    (f := fun _ => .valid) ha (fun k hk hm => by have := (hres k hk).symm.trans hm; exact absurd this (by decide))
    (fun k hk => h.sector_lt g hk) (fun _ _ hr => absurd hr (by decide))
  refine ht.setLine hset hway { base with reserved := fun k hr => ⟨hon, ?_⟩ } fun s w k hs hw hne hr => ?_
  · have hr' := hr
    rw [setSectors_st] at hr'
    split_ifs at hr' with hk
    exact covered_of_ready g h (base.reserved k hr).2 (fun hx => hk hx.2) m
  · refine covered_of_ready g h (ht.reserved s w k hs hw hr).2 (fun hx => hne ?_) m
    have hhome := (ht.home s w hs hw (allocated_of_st hr (by decide))).2
    have hs' : s = e.set := by rw [h.set, ← hx.1, hhome]
    subst hs'
    exact ⟨rfl, ht.unique _ w e.way hs hw hway (allocated_of_st hr (by decide)) ha (by rw [htag, hx.1])⟩

/-- A line allocated and made VALID at once is fit where no way holds its block. -/
theorem LineOk.allocateValid (g : Geometry c l t) {src : Addr} {way : Nat} (now : BitVec 64)
    (habs : Absent c lines (c.blockAddr src) (c.setOf (c.blockAddr src))) :
    LineOk c mshr lines (c.setOf (c.blockAddr src)) way
      ((Line.allocate (c.blockAddr src) (c.sectorMask src) now).setSectors (c.sectorMask src) .valid) where
  home := fun _ => by rw [setSectors_tag, allocate_tag]; exact ⟨g.blockAddr_blockAddr src, rfl⟩
  unique := fun _ w hw _ haw => by rw [setSectors_tag, allocate_tag]; exact habs w hw haw
  dirty := fun hd => absurd ((setSectors_dirty _ _ _).trans (allocate_dirty _ _ _)) hd
  dirtyBits := fun b _ => by rw [setSectors_dirty, allocate_dirty]; exact BitVec.getLsbD_zero
  sectors := fun k hk => by
    have hn : ¬ (c.sectorMask src).getLsbD k = true := fun hs => by
      have := (g.sectorMask_bit src k).1 hs
      have := g.sector_lt src
      omega
    rw [setSectors_st, if_neg hn, allocate_st, if_neg hn]
  reserved := fun k hr => by
    rw [setSectors_st] at hr
    split_ifs at hr with hs
    rw [allocate_st, if_neg hs] at hr
    exact absurd hr (by decide)

/-- `tag_fill` under ON_FILL keeps the tag array's invariant and writes, if any, an allocated line of the array. -/
theorem TagInv.fill_onFill (g : Geometry c l t) (ht : TagInv c mshr lines) (h : e.Inv c ad mshr lines) (hoff : c.onMiss = false)
    (now : BitVec 64) :
    TagInv c mshr (tagFill c now lines e).lines ∧
      ∀ s w, (tagFill c now lines e).place = some (s, w) →
        s < c.sets ∧ w < c.ways ∧ (lineAt (tagFill c now lines e).lines s w).allocated = true := by
  have hoff' : ¬ c.onMiss = true := by simp [hoff]
  have hset := g.setOf_lt e.blockAddr
  obtain ⟨k0, hk0⟩ := g.sectorMask_some (c.srcAddr ad e.origAddr)
  rw [← h.smask] at hk0
  have noRes : ∀ s w (k : Fin 16), s < c.sets → w < c.ways → (lineAt lines s w).st[k] ≠ .reserved := fun s w k hs hw hr =>
    hoff' (ht.reserved s w k hs hw hr).1
  have other : ∀ s w (k : Fin 16), s < c.sets → w < c.ways → ∀ _ : (lineAt lines s w).st[k] = .reserved,
      Covered c mshr (lineAt lines s w).tag k := fun s w k hs hw hr => absurd hr (noRes s w k hs hw)
  have valid : ∀ w, w < c.ways → (lineAt lines (c.setOf e.blockAddr) w).allocated = true →
      TagInv c mshr (Machine.setLine lines (c.setOf e.blockAddr) w
        (((lineAt lines (c.setOf e.blockAddr) w).mapSectors e.smask validUnlessModified).touch now)) ∧
      ∀ s v, some (c.setOf e.blockAddr, w) = some (s, v) → s < c.sets ∧ v < c.ways ∧
        (lineAt (Machine.setLine lines (c.setOf e.blockAddr) w
          (((lineAt lines (c.setOf e.blockAddr) w).mapSectors e.smask validUnlessModified).touch now)) s v).allocated = true := by
    intro w hw ha
    refine ⟨ht.setLine hset hw (LineOk.touch ?_ now) fun s w k hs hw _ hr => other s w k hs hw hr, ?_⟩
    · refine (ht.lineOk hset hw fun k hr => other _ _ k hset hw hr).mapSectors ha ?_ (fun k hk => h.sector_lt g hk) ?_
      · intro k _ hm; rw [hm]; rfl
      · intro k _ hr
        unfold validUnlessModified at hr
        split_ifs at hr
    · rintro s v ⟨rfl, rfl⟩
      refine ⟨hset, hw, ?_⟩
      rw [lineAt_setLine_self]
      have hst : (((lineAt lines (c.setOf e.blockAddr) w).mapSectors e.smask validUnlessModified).touch now).st[k0] ≠
          .invalid := by
        rw [touch_st, mapSectors_st, if_pos hk0]
        unfold validUnlessModified
        split_ifs <;> decide
      exact (allocated_iff _).2 ⟨k0, hst⟩
  have hfact := probe_fact c lines e.blockAddr (c.setOf e.blockAddr) e.smask
  unfold tagFill
  rw [if_neg hoff']
  dsimp only
  revert hfact
  cases probe c lines e.blockAddr (c.setOf e.blockAddr) e.smask with
  | hit w =>
    intro hf
    refine ⟨ht, ?_⟩
    rintro s v ⟨rfl, rfl⟩
    exact ⟨hset, hf.1, hf.2.1⟩
  | hitReserved w => intro hf; exact valid w hf.1 hf.2.1
  | sectorMiss w => intro hf; exact valid w hf.1 hf.2.1
  | reservationFail => intro hf; exact ⟨ht, fun s w hx => nomatch hx⟩
  | miss w =>
    intro hf
    refine ⟨ht.setLine hset hf.1 ?_ fun s w k hs hw _ hr => other s w k hs hw hr, ?_⟩
    · have habs := hf.2.1
      rw [h.block] at habs ⊢
      rw [h.smask]
      exact LineOk.allocateValid g now habs
    · rintro s v ⟨rfl, rfl⟩
      refine ⟨hset, hf.1, ?_⟩
      dsimp only
      rw [lineAt_setLine_self]
      exact (allocated_iff _).2 ⟨k0, by rw [setSectors_st, if_pos hk0]; decide⟩

/-- The bytes of a record's request lie in its line (R150, R162). -/
theorem MetaRec.Inv.bytes (g : Geometry c l t) (h : e.Inv c ad mshr lines) :
    c.offset (c.srcAddr ad e.origAddr) + e.origSize.toNat ≤ c.lineBytes := by
  refine g.inside_line ?_ (by rw [← g.sector]; exact h.inside)
  rw [g.offset_eq]
  exact Nat.mod_lt _ (by positivity)

/-- The tag array after a completing fill (R160). -/
theorem TagInv.filled (g : Geometry cc.active l t) (ht : TagInv cc.active cc.mshr cc.lines)
    (h : e.Inv cc.active ad cc.mshr cc.lines) (m m' : MshrEntry) :
    TagInv cc.active (cc.mshr.insert e.mshrAddr.toNat m')
      (cc.filledLines e m (cc.active.offset (cc.active.srcAddr ad e.origAddr))) := by
  have key : TagInv cc.active (cc.mshr.insert e.mshrAddr.toNat m') (tagFill cc.active cc.now cc.lines e).lines ∧
      ∀ s w, (tagFill cc.active cc.now cc.lines e).place = some (s, w) → s < cc.active.sets ∧ w < cc.active.ways ∧
        (lineAt (tagFill cc.active cc.now cc.lines e).lines s w).allocated = true := by
    by_cases hon : cc.active.onMiss = true
    · rw [tagFill_onMiss hon]
      refine ⟨ht.fill_onMiss g h hon m', ?_⟩
      rintro s w ⟨rfl, rfl⟩
      obtain ⟨hs, hw, -⟩ := h.place g hon
      obtain ⟨k, hk⟩ := g.sectorMask_some (cc.active.srcAddr ad e.origAddr)
      rw [← h.smask] at hk
      refine ⟨hs, hw, ?_⟩
      dsimp only
      rw [lineAt_setLine_self]
      exact (allocated_iff _).2 ⟨k, by rw [setSectors_st, if_pos hk]; decide⟩
    · have hoff : cc.active.onMiss = false := by simpa using hon
      have := ht.fill_onFill g h hoff cc.now
      exact ⟨this.1.onFill hoff _, this.2⟩
  unfold CcState.filledLines
  dsimp only
  split_ifs
  · cases hp : (tagFill cc.active cc.now cc.lines e).place with
    | none => exact key.1
    | some sw =>
      obtain ⟨s, w⟩ := sw
      obtain ⟨hs, hw, ha⟩ := key.2 s w hp
      unfold forceDirty
      dsimp only
      have := key.1.markAtomic g hs hw ha (cc.active.srcAddr ad e.origAddr) (h.bytes g)
      rw [← h.smask] at this
      exact this
  · exact key.1

/-! ## The miss side -/

/-- Under ON_MISS a completing fill leaves the RESERVED sectors of every other record RESERVED and their tags as they were. -/
theorem filledLines_reserved (hon : cc.active.onMiss = true) (e : MetaRec) (m : MshrEntry) (o : Nat) {s w : Nat}
    (hw : w < cc.active.ways) (hew : e.way < cc.active.ways) {k : Fin 16} (hk : ¬(s = e.set ∧ w = e.way) ∨ ¬ e.smask.getLsbD k = true)
    (hr : (lineAt cc.lines s w).st[k] = .reserved) :
    (lineAt (cc.filledLines e m o) s w).st[k] = .reserved ∧
      (lineAt (cc.filledLines e m o) s w).tag = (lineAt cc.lines s w).tag := by
  have hlt := cc.active.ways_lt
  have other : ∀ {lines ln}, ¬(s = e.set ∧ w = e.way) →
      lineAt (Machine.setLine lines e.set e.way ln) s w = lineAt lines s w := fun hne =>
    lineAt_setLine_ne (by omega) (by omega) hne
  have hfl : cc.filledLines e m o = if m.hasAtomic then
      Machine.setLine (Machine.setLine cc.lines e.set e.way ((lineAt cc.lines e.set e.way).setSectors e.smask .valid)) e.set e.way
        (((lineAt cc.lines e.set e.way).setSectors e.smask .valid).markAtomic e.smask o e.origSize.toNat)
      else Machine.setLine cc.lines e.set e.way ((lineAt cc.lines e.set e.way).setSectors e.smask .valid) := by
    unfold CcState.filledLines
    dsimp only
    rw [tagFill_onMiss hon]
    unfold forceDirty
    dsimp only
    rw [lineAt_setLine_self]
  by_cases hne : s = e.set ∧ w = e.way
  · obtain ⟨rfl, rfl⟩ := hne
    have hk' : ¬ e.smask.getLsbD k = true := hk.elim (fun h => absurd ⟨rfl, rfl⟩ h) id
    by_cases ha : m.hasAtomic = true
    · have hx : lineAt (cc.filledLines e m o) e.set e.way =
          ((lineAt cc.lines e.set e.way).setSectors e.smask .valid).markAtomic e.smask o e.origSize.toNat := by
        rw [hfl, if_pos ha, lineAt_setLine_self]
      rw [hx, markAtomic_tag, setSectors_tag, markAtomic_st, if_neg hk', setSectors_st, if_neg hk']
      exact ⟨hr, rfl⟩
    · have hx : lineAt (cc.filledLines e m o) e.set e.way = (lineAt cc.lines e.set e.way).setSectors e.smask .valid := by
        rw [hfl, if_neg ha, lineAt_setLine_self]
      rw [hx, setSectors_tag, setSectors_st, if_neg hk']
      exact ⟨hr, rfl⟩
  · have hx : lineAt (cc.filledLines e m o) s w = lineAt cc.lines s w := by
      rw [hfl]
      split_ifs
      · rw [other hne, other hne]
      · rw [other hne]
    rw [hx]; exact ⟨hr, rfl⟩

/-- A fill whose siblings are still owed keeps the miss side (R160). -/
theorem MissInv.waitFill (h : MissInv c ad cc) {r : ReqId} (he : cc.metaTab.lookup r.toNat = some e) (hp : 1 < e.pending) :
    MissInv c ad (cc.waitFill r e) := by
  have hi := h.metaOk _ _ he
  refine { h with metaSorted := FMap.sorted_insert _ _ h.metaSorted, metaOk := ?_, metaKeys := ?_ }
  · intro id f hf
    have hf' : FMap.lookup id (FMap.insert _ _ _) = some f := hf
    rw [FMap.lookup_insert] at hf'
    split_ifs at hf'
    · cases hf'
      exact { hi with pending := by dsimp only; omega }
    · exact h.metaOk id f hf'
  · have lift : ∀ {id f}, (cc.waitFill r e).metaTab.lookup id = some f →
        ∃ f', cc.metaTab.lookup id = some f' ∧ f'.mshrAddr = f.mshrAddr := by
      intro id f hf
      have hf' : FMap.lookup id (FMap.insert _ _ _) = some f := hf
      rw [FMap.lookup_insert] at hf'
      split_ifs at hf' with hid
      · cases hf'; exact ⟨e, hid ▸ he, rfl⟩
      · exact ⟨f, hf', rfl⟩
    intro i j f f' hf hf' hk
    obtain ⟨g1, h1, e1⟩ := lift hf
    obtain ⟨g2, h2, e2⟩ := lift hf'
    exact h.metaKeys i j g1 g2 h1 h2 (by rw [e1, e2, hk])

/-- A completing fill keeps the miss side (R160). -/
theorem MissInv.completeFill (g : Geometry cc.active l t) (h : MissInv cc.active ad cc) {r : ReqId}
    (he : cc.metaTab.lookup r.toNat = some e) (hm : cc.mshr.lookup e.mshrAddr.toNat = some m) (o : Nat) :
    MissInv cc.active ad (cc.completeFill r e m o) := by
  have hi := h.metaOk _ _ he
  have hready : m.ready = false := by
    obtain ⟨m', hm', hr⟩ := hi.waiting
    rw [hm] at hm'; cases hm'; exact hr
  have hnotq : e.mshrAddr ∉ cc.readyQ := by
    intro hq
    obtain ⟨m', hm', hr⟩ := (h.readyKeys _).1 hq
    rw [hm] at hm'; cases hm'; rw [hready] at hr; exact absurd hr (by decide)
  have old : ∀ {id f}, (cc.completeFill r e m o).metaTab.lookup id = some f → cc.metaTab.lookup id = some f ∧ id ≠ r.toNat := by
    intro id f hf
    have hf' : FMap.lookup id (FMap.erase _ _) = some f := hf
    rw [FMap.lookup_erase] at hf'
    split_ifs at hf' with hid
    exact ⟨hf', hid⟩
  refine ⟨FMap.sorted_insert _ _ h.mshrSorted, FMap.sorted_erase _ h.metaSorted, h.mqBound, ?_, ?_, ?_, ?_, ?_, h.reads, ?_,
    fun i j a b ha hb hk => h.metaKeys i j a b (old ha).1 (old hb).1 hk⟩
  · show (FMap.insert _ _ _).length ≤ _
    rw [FMap.length_insert_of_lookup h.mshrSorted hm]; exact h.mshrBound
  · intro x hx
    rcases FMap.mem_insert hx with rfl | hx
    · exact e.mshrAddr.isLt
    · exact h.keyRange x hx
  · intro x hx
    rcases FMap.mem_insert hx with rfl | hx
    · have := h.listBound _ (FMap.mem_of_lookup hm)
      exact this
    · exact h.listBound x hx
  · exact List.nodup_append.2 ⟨h.readyOnce, List.nodup_singleton _, fun a ha b hb hab =>
      hnotq (by rw [List.mem_singleton.1 hb] at hab; exact hab ▸ ha)⟩
  · intro a
    show a ∈ cc.readyQ ++ [_] ↔ ∃ m', FMap.lookup _ (FMap.insert _ _ _) = some m' ∧ _
    rw [List.mem_append, List.mem_singleton, FMap.lookup_insert]
    by_cases ha : a = e.mshrAddr
    · subst ha; simp
    · have ha' : ¬ a.toNat = e.mshrAddr.toNat := fun hx => ha (BitVec.eq_of_toNat_eq hx)
      rw [if_neg ha', ← h.readyKeys a]
      simp [ha]
  · intro id f hf
    obtain ⟨hf, hid⟩ := old hf
    have hfi := h.metaOk id f hf
    have hkey : f.mshrAddr ≠ e.mshrAddr := fun hx => hid (h.metaKeys id _ f e hf he hx)
    refine hfi.mono ?_ (fun hon k hk hr => ?_) g
    · obtain ⟨m', hm', hr⟩ := hfi.waiting
      refine ⟨m', ?_, hr⟩
      show FMap.lookup _ (FMap.insert _ _ _) = _
      rw [FMap.lookup_insert_ne, hm']
      exact fun hx => hkey (BitVec.eq_of_toNat_eq hx).symm
    · refine filledLines_reserved hon e m o (hfi.line hon).1 (hi.line hon).1 ?_ hr
      by_cases hsame : f.set = e.set ∧ f.way = e.way
      · refine .inr fun hke => hkey ?_
        have hb : e.blockAddr = f.blockAddr := by
          rw [← (hi.line hon).2.1, ← (hfi.line hon).2.1, hsame.1, hsame.2]
        rw [hfi.key, hi.key]
        rw [hfi.block, hi.block] at hb
        rw [hi.smask] at hke
        rw [hfi.smask] at hk
        exact key_of_sector g hb.symm hk hke
      · exact .inl hsame

/-! ## Hand-off and hand-back -/

/-- Handing back one request keeps the tag array's tie to the table (R175). -/
theorem TagInv.handBack (ht : TagInv c cc.mshr lines) (h : MissInv c ad cc) {key : Addr} {keys : List Addr}
    (hq : cc.readyQ = key :: keys) (hm : cc.mshr.lookup key.toNat = some m) (rest : List ReqId) :
    TagInv c (cc.handBack key keys m rest).mshr lines := by
  have hready : m.ready = true := by
    obtain ⟨m', hm', hr⟩ := (h.readyKeys key).1 (by simp [hq])
    rw [hm] at hm'; cases hm'; exact hr
  refine ht.mono fun b k hc => hc.of_lookup fun j m' hj hr => ?_
  have hne : ¬ j = key.toNat := by
    rintro rfl
    rw [hm] at hj; cases hj; rw [hready] at hr; exact absurd hr (by decide)
  unfold CcState.handBack
  split_ifs
  · exact (FMap.lookup_erase_ne (fun hx => hne hx.symm) _).trans hj
  · exact (FMap.lookup_insert_ne (fun hx => hne hx.symm) _ _).trans hj

/-- Handing back one request keeps the miss side (R175). -/
theorem MissInv.handBack (g : Geometry c l t) (h : MissInv c ad cc) {key : Addr} {keys : List Addr}
    (hq : cc.readyQ = key :: keys) (hm : cc.mshr.lookup key.toNat = some m) {id : ReqId} {rest : List ReqId}
    (hl : m.list = id :: rest) : MissInv c ad (cc.handBack key keys m rest) := by
  have hready : m.ready = true := by
    obtain ⟨m', hm', hr⟩ := (h.readyKeys key).1 (by simp [hq])
    rw [hm] at hm'; cases hm'; exact hr
  have honce : key ∉ keys ∧ keys.Nodup := by
    have := h.readyOnce; rw [hq] at this; exact List.nodup_cons.1 this
  have hlist := h.listBound _ (FMap.mem_of_lookup hm)
  have waits : ∀ {f : MetaRec}, f.Inv c ad cc.mshr cc.lines → ¬ f.mshrAddr.toNat = key.toNat := by
    intro f hf hx
    obtain ⟨m', hm', hr⟩ := hf.waiting
    rw [hx, hm] at hm'; cases hm'; rw [hready] at hr; exact absurd hr (by decide)
  unfold CcState.handBack
  split_ifs with hrest
  · refine ⟨FMap.sorted_erase _ h.mshrSorted, h.metaSorted, h.mqBound, (FMap.length_erase_le _ _).trans h.mshrBound,
      fun x hx => h.keyRange x (FMap.mem_erase.1 hx).1, fun x hx => h.listBound x (FMap.mem_erase.1 hx).1, honce.2, ?_,
      h.reads, ?_, h.metaKeys⟩
    · intro a
      have hk := h.readyKeys a
      rw [hq, List.mem_cons] at hk
      dsimp only
      rw [FMap.lookup_erase]
      by_cases ha : a = key
      · subst ha; simp [honce.1]
      · have ha' : ¬ a.toNat = key.toNat := fun hx => ha (BitVec.eq_of_toNat_eq hx)
        rw [if_neg ha', ← hk]; simp [ha]
    · intro i f hf
      have hfi := h.metaOk i f hf
      obtain ⟨m', hm', hr⟩ := hfi.waiting
      exact hfi.mono ⟨m', (FMap.lookup_erase_ne (fun hx => waits hfi hx.symm) _).trans hm', hr⟩
        (fun _ _ _ hx => ⟨hx, rfl⟩) g
  · refine ⟨FMap.sorted_insert _ _ h.mshrSorted, h.metaSorted, h.mqBound, ?_, ?_, ?_, h.readyOnce, ?_, h.reads, ?_, h.metaKeys⟩
    · show (FMap.insert _ _ _).length ≤ _
      rw [FMap.length_insert_of_lookup h.mshrSorted hm]; exact h.mshrBound
    · intro x hx
      rcases FMap.mem_insert hx with rfl | hx
      · exact key.isLt
      · exact h.keyRange x hx
    · intro x hx
      rcases FMap.mem_insert hx with rfl | hx
      · rw [hl] at hlist
        have : rest.length ≠ 0 := by simpa using hrest
        simp only [List.length_cons] at hlist
        dsimp only
        omega
      · exact h.listBound x hx
    · intro a
      refine (h.readyKeys a).trans ?_
      show _ ↔ ∃ m', FMap.lookup _ (FMap.insert _ _ _) = some m' ∧ _
      rw [FMap.lookup_insert]
      split_ifs with hk
      · rw [hk, hm]; simp
      · rfl
    · intro i f hf
      have hfi := h.metaOk i f hf
      obtain ⟨m', hm', hr⟩ := hfi.waiting
      exact hfi.mono ⟨m', (FMap.lookup_insert_ne (fun hx => waits hfi hx.symm) _ _).trans hm', hr⟩
        (fun _ _ _ hx => ⟨hx, rfl⟩) g

/-- Handing the queue's head downstream keeps the miss side (R170). -/
theorem MissInv.drain (h : MissInv c ad cc) {q : MqRec} {rest : List MqRec} (hq : cc.mq = q :: rest) :
    MissInv c ad { cc with mq := rest } := by
  have hb := h.mqBound
  have hr := h.reads
  rw [hq] at hb hr
  simp only [List.length_cons] at hb
  exact { h with mqBound := by show rest.length ≤ _; omega, reads := fun x hx => hr x (List.mem_cons_of_mem _ hx) }

/-- Counters are no part of the miss side (R167, R170). -/
theorem MissInv.tick (h : MissInv c ad cc) : MissInv c ad cc.tick := { h with }

/-- The empty tables of CC.CONFIGURE (R140). -/
theorem MissInv.empty (c : CcRegs) (ad : AdRegs) (cc : CcState) (h1 : cc.mshr = []) (h2 : cc.readyQ = []) (h3 : cc.mq = [])
    (h4 : cc.metaTab = []) : MissInv c ad cc := by
  constructor <;> simp [h1, h2, h3, h4]

end Sys2Proof.Machine
end

