-- ==== Sys2Proof/Laws/Ops.lean ====
section
/-! SUPPORT. Laws of the shared operations: one lemma per shared check, saying when the command goes on and what it answers
otherwise (00_scope.md rule R12; 60_exceptions.md rules R222, R223). -/

namespace Sys2Proof.Machine

set_option Elab.async false

variable {s t : State} {k : Outcome}

@[simp] theorem respond_eq (r : Rsp) (s : State) : respond r s = .next { s with rsp := some r } := rfl
@[simp] theorem reject_eq (st : Status) (s : State) : reject st s = .next { s with rsp := some { status := st } } := rfl

theorem unlessFatal_ok (h : s.sys.fatal = false) : unlessFatal s k = k := by simp [unlessFatal, h]
theorem unlessFatal_fatal (h : s.sys.fatal = true) :
    unlessFatal s k = .next { s with rsp := some { status := .fatalState } } := by simp [unlessFatal, h]

/-- Everything `unlessFatal` can answer. -/
theorem unlessFatal_next (h : unlessFatal s k = .next t) :
    (s.sys.fatal = true ∧ t = { s with rsp := some { status := .fatalState } }) ∨ (s.sys.fatal = false ∧ k = .next t) := by
  cases hf : s.sys.fatal with
  | false => rw [unlessFatal_ok hf] at h; exact .inr ⟨rfl, h⟩
  | true => rw [unlessFatal_fatal hf] at h; cases h; exact .inl ⟨rfl, rfl⟩

@[simp] theorem ifConfigured_true (s : State) (k : Outcome) : ifConfigured true s k = k := rfl
@[simp] theorem ifConfigured_false (s : State) (k : Outcome) :
    ifConfigured false s k = .next { s with rsp := some { status := .notConfigured } } := rfl

/-- Everything `ifConfigured` can answer. -/
theorem ifConfigured_next {b : Bool} (h : ifConfigured b s k = .next t) :
    (b = false ∧ t = { s with rsp := some { status := .notConfigured } }) ∨ (b = true ∧ k = .next t) := by
  cases b with
  | false => rw [ifConfigured_false] at h; cases h; exact .inl ⟨rfl, rfl⟩
  | true => exact .inr ⟨rfl, h⟩

theorem ccOp_ready (hf : s.sys.fatal = false) (hc : s.cc.configured = true) : ccOp s k = k := by
  simp [ccOp, unlessFatal_ok hf, hc]
theorem ccOp_unconfigured (hf : s.sys.fatal = false) (hc : s.cc.configured = false) :
    ccOp s k = .next { s with rsp := some { status := .notConfigured } } := by simp [ccOp, unlessFatal_ok hf, hc]
theorem ccOp_fatal (hf : s.sys.fatal = true) : ccOp s k = .next { s with rsp := some { status := .fatalState } } :=
  unlessFatal_fatal hf
theorem xbOp_ready (hf : s.sys.fatal = false) (hc : s.xb.configured = true) : xbOp s k = k := by
  simp [xbOp, unlessFatal_ok hf, hc]
theorem xbOp_unconfigured (hf : s.sys.fatal = false) (hc : s.xb.configured = false) :
    xbOp s k = .next { s with rsp := some { status := .notConfigured } } := by simp [xbOp, unlessFatal_ok hf, hc]
theorem xbOp_fatal (hf : s.sys.fatal = true) : xbOp s k = .next { s with rsp := some { status := .fatalState } } :=
  unlessFatal_fatal hf

/-- Everything the common beginning of a cache operation can answer. -/
theorem ccOp_next (h : ccOp s k = .next t) :
    (∃ st, t = { s with rsp := some { status := st } }) ∨ (s.sys.fatal = false ∧ s.cc.configured = true ∧ k = .next t) := by
  rcases unlessFatal_next h with ⟨-, rfl⟩ | ⟨hf, h⟩
  · exact .inl ⟨_, rfl⟩
  · rcases ifConfigured_next h with ⟨-, rfl⟩ | ⟨hc, h⟩
    · exact .inl ⟨_, rfl⟩
    · exact .inr ⟨hf, hc, h⟩

/-- Everything the common beginning of a crossbar operation can answer. -/
theorem xbOp_next (h : xbOp s k = .next t) :
    (∃ st, t = { s with rsp := some { status := st } }) ∨ (s.sys.fatal = false ∧ s.xb.configured = true ∧ k = .next t) := by
  rcases unlessFatal_next h with ⟨-, rfl⟩ | ⟨hf, h⟩
  · exact .inl ⟨_, rfl⟩
  · rcases ifConfigured_next h with ⟨-, rfl⟩ | ⟨hc, h⟩
    · exact .inl ⟨_, rfl⟩
    · exact .inr ⟨hf, hc, h⟩

theorem ifNodes_ok {ds : List NodeId} (h : ∀ d ∈ ds, d.toNat < s.xb.active.nodes) : ifNodes ds s k = k := by
  unfold ifNodes
  rw [if_pos]
  rw [List.all_eq_true]
  intro d hd
  simp [XbRegs.validNode, h d hd]

/-- Everything `ifNodes` can answer. -/
theorem ifNodes_next {ds : List NodeId} (h : ifNodes ds s k = .next t) :
    t = { s with rsp := some { status := .badOperand } } ∨ ((∀ d ∈ ds, d.toNat < s.xb.active.nodes) ∧ k = .next t) := by
  unfold ifNodes at h
  split_ifs at h with hv
  · refine .inr ⟨fun d hd => ?_, h⟩
    simpa [XbRegs.validNode] using List.all_eq_true.1 hv d hd
  · cases h; exact .inl rfl

theorem withIndexing_ok (h : s.ad.active.indexing ≠ .reserved) : withIndexing s k = k := by simp [withIndexing, h]

theorem withIndexing_next (h : withIndexing s k = .next t) : s.ad.active.indexing ≠ .reserved ∧ k = .next t := by
  unfold withIndexing at h
  split_ifs at h with hr
  exact ⟨hr, h⟩

end Sys2Proof.Machine
end

