-- ==== Sys2Proof/Laws/State.lean ====
section
/-! SUPPORT. What each named update of the state changes and what it leaves, field by field, so that no later proof unfolds
a record update. -/

namespace Sys2Proof.Machine

set_option Elab.async false

/-! ## The environment's inputs and the reset pin -/

@[simp] theorem withInputs_sys (s : State) (l : List EnvInput) : (s.withInputs l).sys = s.sys := rfl
@[simp] theorem withInputs_ad (s : State) (l : List EnvInput) : (s.withInputs l).ad = s.ad := rfl
@[simp] theorem withInputs_cc (s : State) (l : List EnvInput) : (s.withInputs l).cc = s.cc := rfl
@[simp] theorem withInputs_xb (s : State) (l : List EnvInput) : (s.withInputs l).xb = s.xb := rfl
@[simp] theorem withInputs_rsp (s : State) (l : List EnvInput) : (s.withInputs l).rsp = s.rsp := rfl
@[simp] theorem withInputs_run (s : State) (l : List EnvInput) : (s.withInputs l).run = s.run := rfl
@[simp] theorem withInputs_inputs (s : State) (l : List EnvInput) : (s.withInputs l).inputs = l := rfl

@[simp] theorem resetPulse_sys (s : State) : s.resetPulse.sys = State.reset.sys := rfl
@[simp] theorem resetPulse_ad (s : State) : s.resetPulse.ad = State.reset.ad := rfl
@[simp] theorem resetPulse_cc (s : State) : s.resetPulse.cc = State.reset.cc := rfl
@[simp] theorem resetPulse_xb (s : State) : s.resetPulse.xb = State.reset.xb := rfl
@[simp] theorem resetPulse_rsp (s : State) : s.resetPulse.rsp = none := rfl
@[simp] theorem resetPulse_inputs (s : State) : s.resetPulse.inputs = s.inputs := rfl
@[simp] theorem resetPulse_run (s : State) : s.resetPulse.run = s.run + 1 := rfl

@[simp] theorem withFetchWord_inputs (s : State) (n w : Nat) :
    (s.withFetchWord n w).inputs = .cmd (BitVec.ofNat 192 (w % 2 ^ n)) :: s.inputs := rfl

/-! ## Staging registers -/

@[simp] theorem withAdStage_stage (s : State) (r : AdRegs) : (s.withAdStage r).ad.stage = r := rfl
@[simp] theorem withAdStage_active (s : State) (r : AdRegs) : (s.withAdStage r).ad.active = s.ad.active := rfl
@[simp] theorem withAdStage_configured (s : State) (r : AdRegs) : (s.withAdStage r).ad.configured = s.ad.configured := rfl
@[simp] theorem withAdStage_diag (s : State) (r : AdRegs) : (s.withAdStage r).ad.diag = s.ad.diag := rfl
@[simp] theorem withAdStage_sys (s : State) (r : AdRegs) : (s.withAdStage r).sys = s.sys := rfl
@[simp] theorem withAdStage_cc (s : State) (r : AdRegs) : (s.withAdStage r).cc = s.cc := rfl
@[simp] theorem withAdStage_xb (s : State) (r : AdRegs) : (s.withAdStage r).xb = s.xb := rfl
@[simp] theorem withAdStage_inputs (s : State) (r : AdRegs) : (s.withAdStage r).inputs = s.inputs := rfl
@[simp] theorem withAdStage_run (s : State) (r : AdRegs) : (s.withAdStage r).run = s.run := rfl

@[simp] theorem withCcStage_stage (s : State) (r : CcRegs) : (s.withCcStage r).cc.stage = r := rfl
@[simp] theorem withCcStage_active (s : State) (r : CcRegs) : (s.withCcStage r).cc.active = s.cc.active := rfl
@[simp] theorem withCcStage_configured (s : State) (r : CcRegs) : (s.withCcStage r).cc.configured = s.cc.configured := rfl
@[simp] theorem withCcStage_lines (s : State) (r : CcRegs) : (s.withCcStage r).cc.lines = s.cc.lines := rfl
@[simp] theorem withCcStage_mshr (s : State) (r : CcRegs) : (s.withCcStage r).cc.mshr = s.cc.mshr := rfl
@[simp] theorem withCcStage_readyQ (s : State) (r : CcRegs) : (s.withCcStage r).cc.readyQ = s.cc.readyQ := rfl
@[simp] theorem withCcStage_mq (s : State) (r : CcRegs) : (s.withCcStage r).cc.mq = s.cc.mq := rfl
@[simp] theorem withCcStage_metaTab (s : State) (r : CcRegs) : (s.withCcStage r).cc.metaTab = s.cc.metaTab := rfl
@[simp] theorem withCcStage_dpBusy (s : State) (r : CcRegs) : (s.withCcStage r).cc.dpBusy = s.cc.dpBusy := rfl
@[simp] theorem withCcStage_fpBusy (s : State) (r : CcRegs) : (s.withCcStage r).cc.fpBusy = s.cc.fpBusy := rfl
@[simp] theorem withCcStage_now (s : State) (r : CcRegs) : (s.withCcStage r).cc.now = s.cc.now := rfl
@[simp] theorem withCcStage_sys (s : State) (r : CcRegs) : (s.withCcStage r).sys = s.sys := rfl
@[simp] theorem withCcStage_ad (s : State) (r : CcRegs) : (s.withCcStage r).ad = s.ad := rfl
@[simp] theorem withCcStage_xb (s : State) (r : CcRegs) : (s.withCcStage r).xb = s.xb := rfl
@[simp] theorem withCcStage_inputs (s : State) (r : CcRegs) : (s.withCcStage r).inputs = s.inputs := rfl
@[simp] theorem withCcStage_run (s : State) (r : CcRegs) : (s.withCcStage r).run = s.run := rfl

@[simp] theorem withXbStage_stage (s : State) (r : XbRegs) : (s.withXbStage r).xb.stage = r := rfl
@[simp] theorem withXbStage_active (s : State) (r : XbRegs) : (s.withXbStage r).xb.active = s.xb.active := rfl
@[simp] theorem withXbStage_configured (s : State) (r : XbRegs) : (s.withXbStage r).xb.configured = s.xb.configured := rfl
@[simp] theorem withXbStage_cells (s : State) (r : XbRegs) : (s.withXbStage r).xb.cells = s.xb.cells := rfl
@[simp] theorem withXbStage_turns (s : State) (r : XbRegs) : (s.withXbStage r).xb.turns = s.xb.turns := rfl
@[simp] theorem withXbStage_sys (s : State) (r : XbRegs) : (s.withXbStage r).sys = s.sys := rfl
@[simp] theorem withXbStage_ad (s : State) (r : XbRegs) : (s.withXbStage r).ad = s.ad := rfl
@[simp] theorem withXbStage_cc (s : State) (r : XbRegs) : (s.withXbStage r).cc = s.cc := rfl
@[simp] theorem withXbStage_inputs (s : State) (r : XbRegs) : (s.withXbStage r).inputs = s.inputs := rfl
@[simp] theorem withXbStage_run (s : State) (r : XbRegs) : (s.withXbStage r).run = s.run := rfl

/-- A CSRW changes staging registers and AD_DIAG only (R26, R212). -/
theorem csrWrite_frame (v : Reg64) (s : State) (r : Csr) :
    (csrWrite v s r).sys = s.sys ∧ (csrWrite v s r).ad.active = s.ad.active ∧
      (csrWrite v s r).ad.configured = s.ad.configured ∧
      (csrWrite v s r).cc = { s.cc with stage := (csrWrite v s r).cc.stage } ∧
      (csrWrite v s r).xb = { s.xb with stage := (csrWrite v s r).xb.stage } ∧
      (csrWrite v s r).rsp = s.rsp ∧ (csrWrite v s r).inputs = s.inputs ∧ (csrWrite v s r).run = s.run := by
  cases r <;> exact ⟨rfl, rfl, rfl, rfl, rfl, rfl, rfl, rfl⟩

/-! ## Blocks -/

@[simp] theorem adCommit_active (ad : AdState) : ad.commit.active = ad.stage := rfl
@[simp] theorem adCommit_stage (ad : AdState) : ad.commit.stage = ad.stage := rfl
@[simp] theorem adCommit_configured (ad : AdState) : ad.commit.configured = true := rfl
@[simp] theorem adCommit_diag (ad : AdState) : ad.commit.diag = ad.diag := rfl

@[simp] theorem ccCommit_active (cc : CcState) : cc.commit.active = cc.stage := rfl
@[simp] theorem ccCommit_stage (cc : CcState) : cc.commit.stage = cc.stage := rfl
@[simp] theorem ccCommit_configured (cc : CcState) : cc.commit.configured = true := rfl
@[simp] theorem ccCommit_lines (cc : CcState) : cc.commit.lines = [] := rfl
@[simp] theorem ccCommit_mshr (cc : CcState) : cc.commit.mshr = [] := rfl
@[simp] theorem ccCommit_readyQ (cc : CcState) : cc.commit.readyQ = [] := rfl
@[simp] theorem ccCommit_mq (cc : CcState) : cc.commit.mq = [] := rfl
@[simp] theorem ccCommit_metaTab (cc : CcState) : cc.commit.metaTab = [] := rfl
@[simp] theorem ccCommit_dpBusy (cc : CcState) : cc.commit.dpBusy = 0 := rfl
@[simp] theorem ccCommit_fpBusy (cc : CcState) : cc.commit.fpBusy = 0 := rfl
@[simp] theorem ccCommit_now (cc : CcState) : cc.commit.now = cc.now := rfl

@[simp] theorem recordAccess_stage (cc : CcState) (r : ReadReq) : (cc.recordAccess r).stage = cc.stage := rfl
@[simp] theorem recordAccess_active (cc : CcState) (r : ReadReq) : (cc.recordAccess r).active = cc.active := rfl
@[simp] theorem recordAccess_configured (cc : CcState) (r : ReadReq) : (cc.recordAccess r).configured = cc.configured := rfl
@[simp] theorem recordAccess_mshr (cc : CcState) (r : ReadReq) : (cc.recordAccess r).mshr = cc.mshr := rfl
@[simp] theorem recordAccess_readyQ (cc : CcState) (r : ReadReq) : (cc.recordAccess r).readyQ = cc.readyQ := rfl
@[simp] theorem recordAccess_mq (cc : CcState) (r : ReadReq) : (cc.recordAccess r).mq = cc.mq := rfl
@[simp] theorem recordAccess_metaTab (cc : CcState) (r : ReadReq) : (cc.recordAccess r).metaTab = cc.metaTab := rfl
@[simp] theorem recordAccess_fpBusy (cc : CcState) (r : ReadReq) : (cc.recordAccess r).fpBusy = cc.fpBusy := rfl
@[simp] theorem recordAccess_now (cc : CcState) (r : ReadReq) : (cc.recordAccess r).now = cc.now := rfl

@[simp] theorem tick_stage (cc : CcState) : cc.tick.stage = cc.stage := rfl
@[simp] theorem tick_active (cc : CcState) : cc.tick.active = cc.active := rfl
@[simp] theorem tick_configured (cc : CcState) : cc.tick.configured = cc.configured := rfl
@[simp] theorem tick_lines (cc : CcState) : cc.tick.lines = cc.lines := rfl
@[simp] theorem tick_mshr (cc : CcState) : cc.tick.mshr = cc.mshr := rfl
@[simp] theorem tick_readyQ (cc : CcState) : cc.tick.readyQ = cc.readyQ := rfl
@[simp] theorem tick_mq (cc : CcState) : cc.tick.mq = cc.mq := rfl
@[simp] theorem tick_metaTab (cc : CcState) : cc.tick.metaTab = cc.metaTab := rfl
@[simp] theorem tick_dpBusy (cc : CcState) : cc.tick.dpBusy = decFloor cc.dpBusy := rfl
@[simp] theorem tick_fpBusy (cc : CcState) : cc.tick.fpBusy = decFloor cc.fpBusy := rfl
@[simp] theorem tick_now (cc : CcState) : cc.tick.now = cc.now + 1 := rfl

@[simp] theorem xbCommit_active (xb : XbState) : xb.commit.active = xb.stage := rfl
@[simp] theorem xbCommit_stage (xb : XbState) : xb.commit.stage = xb.stage := rfl
@[simp] theorem xbCommit_configured (xb : XbState) : xb.commit.configured = true := rfl
@[simp] theorem xbCommit_cells (xb : XbState) : xb.commit.cells = [] := rfl
@[simp] theorem xbCommit_turns (xb : XbState) : xb.commit.turns = [] := rfl

end Sys2Proof.Machine
end

