-- ==== Sys2Proof/Laws/BlockInv.lean ====
section
/-! SUPPORT. Each block's state updates keep the block's invariant: the decoder's commit, every cache update, every crossbar
update, a staging write, and the reset pin. -/

namespace Sys2Proof.Machine

set_option Elab.async false

variable {s : State} {ad : AdState} {cc : CcState}

/-! ## Reset -/

theorem CcState.Inv.of_unborn (hc : cc.configured = false)
    (h : cc.lines = [] ∧ cc.mshr = [] ∧ cc.readyQ = [] ∧ cc.mq = [] ∧ cc.metaTab = []) : cc.Inv ad where
  unborn := fun _ => h
  legal := fun hx => by rw [hc] at hx; cases hx
  tags := by rw [h.1]; exact TagInv.nil _ _
  misses := MissInv.empty _ _ _ h.2.1 h.2.2.1 h.2.2.2.1 h.2.2.2.2

/-! ## Decoder -/

/-- A passed AD.CONFIGURE (R111) keeps the decoder's invariant. -/
theorem AdState.Inv.commit (h1 : ad.stage.overlap = 0) (h2 : ad.stage.legal = true) : ad.commit.Inv := ⟨fun _ => h1, fun _ => h2⟩

/-- A configured decoder names an indexing strategy (R111 check c). -/
theorem AdState.Inv.indexing (h : ad.Inv) (hc : ad.configured = true) : ad.active.indexing ≠ .reserved := by
  have hl := h.legal hc
  simp only [AdRegs.legal, Bool.and_eq_true, decide_eq_true_eq] at hl
  have hi := hl.1.1.1.1.2
  unfold AdRegs.indexing
  generalize ad.active.idxfn = x at hi
  revert hi
  revert x
  decide

/-- A cache that does not read the decoder, or reads a configured one, keeps its invariant when the decoder is configured. -/
theorem CcState.Inv.adCommit (h : cc.Inv ad) (hc : ad.configured = false) : cc.Inv ad.commit := by
  cases hcc : cc.configured with
  | false => exact .of_unborn hcc (h.unborn hcc)
  | true =>
    have hl := h.legal hcc
    have hb : cc.active.blkSrc ≠ 1 := by
      intro hb
      rw [hc] at hl
      simp only [CcRegs.legal, Bool.and_eq_true] at hl
      simp [hb] at hl
    have hsrc : ∀ a, cc.active.srcAddr ad.commit.active a = cc.active.srcAddr ad.active a := fun a => by
      unfold CcRegs.srcAddr; rw [if_neg hb, if_neg hb]
    refine ⟨h.unborn, fun _ => ?_, h.tags, { h.misses with metaOk := fun id e he => ?_ }⟩
    · rw [adCommit_configured]
      simp only [CcRegs.legal, Bool.and_eq_true, hc, Bool.or_true, and_true] at hl ⊢
      exact hl.1
    · have hi := h.misses.metaOk id e he
      refine { hi with block := ?_, key := ?_, smask := ?_, inside := ?_ }
      · rw [hsrc]; exact hi.block
      · rw [hsrc]; exact hi.key
      · rw [hsrc]; exact hi.smask
      · rw [hsrc]; exact hi.inside

/-! ## Cache -/

/-- A passed CC.CONFIGURE (R140). -/
theorem CcState.Inv.commit (h : cc.stage.legal ad.configured = true) : cc.commit.Inv ad where
  unborn := fun hx => by cases hx
  legal := fun _ => h
  tags := TagInv.nil _ _
  misses := MissInv.empty _ _ _ rfl rfl rfl rfl

theorem CcRegs.legal_merge {c : CcRegs} {b : Bool} (h : c.legal b = true) : 1 ≤ c.mshrMaxMerge.toNat := by
  simp only [CcRegs.legal, Bool.and_eq_true, decide_eq_true_eq] at h
  exact h.1.1.1.1.2

/-- Build the invariant of a configured cache whose registers did not change. -/
theorem CcState.Inv.next {cc' : CcState} (h : cc.Inv ad) (hc : cc.configured = true) (ha : cc'.active = cc.active)
    (hc' : cc'.configured = true) (ht : TagInv cc.active cc'.mshr cc'.lines) (hm : MissInv cc.active ad.active cc') :
    cc'.Inv ad where
  unborn := fun hx => by rw [hc'] at hx; cases hx
  legal := fun _ => by rw [ha]; exact h.legal hc
  tags := by rw [ha]; exact ht
  misses := by rw [ha]; exact hm

/-- An accepted request's address facts, from the checks of R150 step 2. -/
theorem ReadReq.ok_of_check {smask : SectorMask} {r : ReadReq} (hs : r.src = cc.active.srcAddr ad.active r.addr)
    (h : accessOperandBad cc smask r = false) : r.Ok cc.active ad.active cc := by
  simp only [accessOperandBad, Bool.or_eq_false_iff, decide_eq_false_iff_not] at h
  refine ⟨hs, by have := h.1.1.2; omega, ?_⟩
  have := h.2
  unfold FMap.has at this
  cases hl : cc.metaTab.lookup r.id.toNat with
  | none => rfl
  | some v => rw [hl] at this; cases this

/-- CC.ACCESS keeps the invariant (R150 to R154). -/
theorem CcState.Inv.classify (h : cc.Inv ad) (hc : cc.configured = true) (r : ReadReq) (hr : r.Ok cc.active ad.active cc) :
    (cc.classify r).1.Inv ad := by
  obtain ⟨l, t, g⟩ := (CcRegs.geometry (h.legal hc))
  have hmerge := CcRegs.legal_merge (h.legal hc)
  have hit : (∃ w, cc.probeFor r = .hit w) → (cc.recordAccess r).Inv ad := by
    rintro ⟨w, hw⟩
    refine h.next hc rfl hc ?_ (h.misses.hit g r)
    have hf := probeFor_fact cc r
    rw [hw] at hf
    show TagInv _ cc.mshr (accessLines _ _ _ _ _ _ (cc.probeFor r))
    rw [hw]
    have hset := g.setOf_lt (cc.active.blockAddr r.src)
    exact h.tags.setLine hset hf.1 ((h.tags.lineOk hset hf.1 fun k hk => (h.tags.reserved _ _ k hset hf.1 hk).2).touch _)
      fun s w k hs hw _ hk => (h.tags.reserved s w k hs hw hk).2
  have miss : (∀ w, cc.probeFor r ≠ .hit w) → cc.probeFor r ≠ .reservationFail →
      (match cc.mshr.lookup (r.key cc.active).toNat with
        | some e => if e.mergeRoom cc.active then (cc.merge r e, cc.acceptedRsp .mshrHit r)
          else (cc, accessRsp .mshrMergeFail (cc.probeFor r) none 0)
        | none => if cc.mqRoom = false then (cc, accessRsp .missQueueFull (cc.probeFor r) none 0)
          else if cc.tableRoom = false then (cc, accessRsp .mshrEntryFail (cc.probeFor r) none 0)
          else (cc.startMiss r, cc.acceptedRsp .miss r)).1.Inv ad := by
    intro hhit hres
    cases hl : cc.mshr.lookup (r.key cc.active).toNat with
    | some e =>
      dsimp only
      split_ifs with hroom
      · have hready : e.ready = false := by
          simp only [MshrEntry.mergeRoom, Bool.and_eq_true, Bool.not_eq_true'] at hroom; exact hroom.1
        have ht : TagInv cc.active (cc.mshr.insert (r.key cc.active).toNat
            { e with list := e.list ++ [r.id], hasAtomic := e.hasAtomic || r.atomic }) (cc.recordAccess r).lines :=
          h.tags.recordAccess g rfl r (fun b k hx => hx.insert _ hready) fun k hk => by
            refine covered_insert_self _ _ ?_ hk; exact hready
        exact h.next hc rfl hc ht (h.misses.merge g r hl hroom)
      · exact h
    | none =>
      dsimp only
      split_ifs with h1 h2
      · exact h
      · exact h
      · exact h.next hc rfl hc (h.tags.recordAccess g rfl r (fun b k hx => hx.insert _ rfl)
          fun k hk => covered_insert_self _ _ rfl hk)
          (h.misses.startMiss g h.tags hmerge r hr hl (by simpa using h1) (by simpa using h2) hhit hres)
  unfold CcState.classify
  cases hp : cc.probeFor r with
  | hit w => exact hit ⟨w, hp⟩
  | reservationFail => exact h
  | hitReserved w | miss w | sectorMiss w =>
    dsimp only
    rw [← hp]
    exact miss (fun w' => by rw [hp]; exact ProbeResult.noConfusion) (by rw [hp]; exact ProbeResult.noConfusion)

/-- A fill under the invariant neither stops nor breaks it (R160). -/
theorem fillFound_next (hcc : s.cc.Inv s.ad) (hc : s.cc.configured = true) {r : ReqId} {e : MetaRec} {m : MshrEntry}
    (he : s.cc.metaTab.lookup r.toNat = some e) (hm : s.cc.mshr.lookup e.mshrAddr.toNat = some m) :
    ∃ cc' rsp, fillFound s r e m = finishCc s cc' rsp ∧ cc'.Inv s.ad := by
  obtain ⟨l, t, g⟩ := (CcRegs.geometry (hcc.legal hc))
  have hi := hcc.misses.metaOk _ _ he
  unfold fillFound
  dsimp only
  split_ifs with h1 h2 h3
  · exact ⟨_, _, rfl, hcc.next hc rfl hc hcc.tags (hcc.misses.waitFill he (by omega))⟩
  · obtain ⟨hs, hw, -⟩ := hi.place g h2.1
    exact absurd ⟨hs, hw⟩ h2.2
  · have := hi.bytes g
    omega
  · exact ⟨_, _, rfl, hcc.next hc rfl hc (hcc.tags.filled g hi m _) (hcc.misses.completeFill g he hm _)⟩

/-- The head of READYQ names an entry with a request to hand back (R34, R180 (f)). -/
theorem CcState.Inv.readyEntry (h : cc.Inv ad) {key : Addr} {keys : List Addr} (hq : cc.readyQ = key :: keys) :
    ∃ m id rest, cc.mshr.lookup key.toNat = some m ∧ m.list = id :: rest := by
  obtain ⟨m, hm, -⟩ := (h.misses.readyKeys key).1 (by simp [hq])
  have := (h.misses.listBound _ (FMap.mem_of_lookup hm)).1
  cases hl : m.list with
  | nil => rw [hl] at this; simp at this
  | cons id rest => exact ⟨m, id, rest, hm, hl⟩

/-- CC.NEXT keeps the invariant (R175). -/
theorem CcState.Inv.handBack (h : cc.Inv ad) (hc : cc.configured = true) {key : Addr} {keys : List Addr} {m : MshrEntry}
    {id : ReqId} {rest : List ReqId} (hq : cc.readyQ = key :: keys) (hm : cc.mshr.lookup key.toNat = some m)
    (hl : m.list = id :: rest) : (cc.handBack key keys m rest).Inv ad := by
  obtain ⟨l, t, g⟩ := (CcRegs.geometry (h.legal hc))
  have ht := h.tags.handBack h.misses hq hm rest
  have hmi := h.misses.handBack g hq hm hl
  revert ht hmi
  unfold CcState.handBack
  split_ifs
  · exact fun ht hmi => h.next hc rfl hc ht hmi
  · exact fun ht hmi => h.next hc rfl hc ht hmi

/-- CC.CYCLE keeps the invariant (R170). -/
theorem CcState.Inv.tick (h : cc.Inv ad) (hc : cc.configured = true) : cc.tick.Inv ad :=
  h.next hc rfl hc h.tags h.misses.tick

theorem CcState.Inv.drainTick (h : cc.Inv ad) (hc : cc.configured = true) {q : MqRec} {rest : List MqRec}
    (hq : cc.mq = q :: rest) : (CcState.tick { cc with mq := rest }).Inv ad :=
  h.next hc rfl hc h.tags (h.misses.drain hq).tick

/-! ## Staging -/

/-- A CSRW keeps every block's invariant (R212, R26). -/
theorem State.Inv.csrWrite (h : s.Inv) (v : Reg64) (r : Csr) : (csrWrite v s r).Inv := by
  obtain ⟨h1, h2, h3, h4, h5, -, -, -⟩ := csrWrite_frame v s r
  refine ⟨h1 ▸ h.sys, ⟨fun hc => ?_, fun hc => ?_⟩, ?_, ?_⟩
  · rw [h2]; exact h.ad.disjoint (h3 ▸ hc)
  · rw [h2]; exact h.ad.legal (h3 ▸ hc)
  · rw [h4]
    refine ⟨h.cc.unborn, fun hc => ?_, h.cc.tags, ?_⟩
    · rw [h3]; exact h.cc.legal hc
    · rw [h2]
      exact { h.cc.misses with metaOk := h.cc.misses.metaOk }
  · rw [h5]
    exact ⟨h.xb.unborn, h.xb.legal, h.xb.cellsCanonical, h.xb.turnsCanonical, h.xb.places, h.xb.depthBound, h.xb.turnBound⟩

end Sys2Proof.Machine
end

