-- ==== Sys2Proof/Laws/Decode.lean ====
section
/-! SUPPORT. Laws of the command word: the fields of a word built from fields, a word rebuilt from its fields, and the
decoder's check on each format (30_encoding.md rules R81, R82, R88). -/

namespace Sys2Proof

set_option Elab.async false

variable (op : BitVec 8) (h0 h1 w0 : BitVec 16) (d0 d1 : BitVec 64)

/-- Every bit of a word built from fields (R81). -/
theorem cmdWord_bit (i : Nat) : (cmdWord op h0 h1 w0 d0 d1).getLsbD i =
    if i < 8 then op.getLsbD i else if i < 16 then false else if i < 32 then h0.getLsbD (i - 16)
    else if i < 48 then h1.getLsbD (i - 32) else if i < 64 then w0.getLsbD (i - 48)
    else if i < 128 then d0.getLsbD (i - 64) else d1.getLsbD (i - 128) := by
  unfold cmdWord
  rw [BitVec.getLsbD_append, BitVec.getLsbD_append, BitVec.getLsbD_append, BitVec.getLsbD_append, BitVec.getLsbD_append,
    BitVec.getLsbD_append]
  simp only [Nat.sub_sub, Nat.reduceAdd, BitVec.getLsbD_zero]
  split_ifs <;> first | omega | rfl

@[simp] theorem cmdWord_op : (cmdWord op h0 h1 w0 d0 d1).op = op := by
  apply BitVec.eq_of_getLsbD_eq; intro i hi
  unfold CmdWord.op
  rw [BitVec.getLsbD_extractLsb', cmdWord_bit]
  simp only [hi, decide_true, Bool.true_and, Nat.zero_add]
  split_ifs <;> first | omega | rfl

@[simp] theorem cmdWord_rsv : (cmdWord op h0 h1 w0 d0 d1).rsv = 0 := by
  apply BitVec.eq_of_getLsbD_eq; intro i hi
  unfold CmdWord.rsv
  rw [BitVec.getLsbD_extractLsb', cmdWord_bit]
  simp only [hi, decide_true, Bool.true_and]
  split_ifs <;> first | omega | exact BitVec.getLsbD_zero.symm

@[simp] theorem cmdWord_h0 : (cmdWord op h0 h1 w0 d0 d1).h0 = h0 := by
  apply BitVec.eq_of_getLsbD_eq; intro i hi
  unfold CmdWord.h0
  rw [BitVec.getLsbD_extractLsb', cmdWord_bit]
  simp only [hi, decide_true, Bool.true_and, Nat.add_sub_cancel_left]
  split_ifs <;> first | omega | rfl

@[simp] theorem cmdWord_h1 : (cmdWord op h0 h1 w0 d0 d1).h1 = h1 := by
  apply BitVec.eq_of_getLsbD_eq; intro i hi
  unfold CmdWord.h1
  rw [BitVec.getLsbD_extractLsb', cmdWord_bit]
  simp only [hi, decide_true, Bool.true_and, Nat.add_sub_cancel_left]
  split_ifs <;> first | omega | rfl

@[simp] theorem cmdWord_w0 : (cmdWord op h0 h1 w0 d0 d1).w0 = w0 := by
  apply BitVec.eq_of_getLsbD_eq; intro i hi
  unfold CmdWord.w0
  rw [BitVec.getLsbD_extractLsb', cmdWord_bit]
  simp only [hi, decide_true, Bool.true_and, Nat.add_sub_cancel_left]
  split_ifs <;> first | omega | rfl

@[simp] theorem cmdWord_d0 : (cmdWord op h0 h1 w0 d0 d1).d0 = d0 := by
  apply BitVec.eq_of_getLsbD_eq; intro i hi
  unfold CmdWord.d0
  rw [BitVec.getLsbD_extractLsb', cmdWord_bit]
  simp only [hi, decide_true, Bool.true_and, Nat.add_sub_cancel_left]
  split_ifs <;> first | omega | rfl

@[simp] theorem cmdWord_d1 : (cmdWord op h0 h1 w0 d0 d1).d1 = d1 := by
  apply BitVec.eq_of_getLsbD_eq; intro i hi
  unfold CmdWord.d1
  rw [BitVec.getLsbD_extractLsb', cmdWord_bit]
  simp only [hi, decide_true, Bool.true_and, Nat.add_sub_cancel_left]
  split_ifs <;> first | omega | rfl

@[simp] theorem append_lo (a b : BitVec 32) : (a ++ b).extractLsb' 0 32 = b := by
  apply BitVec.eq_of_getLsbD_eq; intro i hi
  rw [BitVec.getLsbD_extractLsb', BitVec.getLsbD_append]; simp [hi]

@[simp] theorem append_hi (a b : BitVec 32) : (a ++ b).extractLsb' 32 32 = a := by
  apply BitVec.eq_of_getLsbD_eq; intro i hi
  rw [BitVec.getLsbD_extractLsb', BitVec.getLsbD_append]; simp [hi]

/-- The two halves of `d1` make it up. -/
theorem d1_halves (w : CmdWord) : w.d1hi ++ w.d1lo = w.d1 := by
  apply BitVec.eq_of_getLsbD_eq; intro i hi
  unfold CmdWord.d1hi CmdWord.d1lo
  rw [BitVec.getLsbD_append]
  split
  · simp [*]
  · rename_i h
    rw [BitVec.getLsbD_extractLsb', show 32 + (i - 32) = i by omega]
    simp; omega

@[simp] theorem cmdWord_d1lo : (cmdWord op h0 h1 w0 d0 d1).d1lo = d1.extractLsb' 0 32 := by
  unfold CmdWord.d1lo; rw [cmdWord_d1]
@[simp] theorem cmdWord_d1hi : (cmdWord op h0 h1 w0 d0 d1).d1hi = d1.extractLsb' 32 32 := by
  unfold CmdWord.d1hi; rw [cmdWord_d1]

@[simp] theorem flagBits_bit0 (b0 b1 : Bool) : (flagBits b0 b1).getLsbD 0 = b0 := by
  cases b0 <;> cases b1 <;> rfl
@[simp] theorem flagBits_bit1 (b0 b1 : Bool) : (flagBits b0 b1).getLsbD 1 = b1 := by
  cases b0 <;> cases b1 <;> rfl
@[simp] theorem flagBits_high2 (b0 b1 : Bool) : (flagBits b0 b1).extractLsb' 2 14 = 0 := by
  cases b0 <;> cases b1 <;> rfl
@[simp] theorem flagBits_high1 (b0 : Bool) : (flagBits b0 false).extractLsb' 1 15 = 0 := by
  cases b0 <;> rfl

/-- Zero above bit `n` reads as false there. -/
theorem high_zero {h : BitVec 16} {n k : Nat} (hz : h.extractLsb' n k = 0) {i : Nat} (h1 : n ≤ i) (h2 : i < n + k) :
    h.getLsbD i = false := by
  have := congrArg (fun x => x.getLsbD (i - n)) hz
  simpa [BitVec.getLsbD_extractLsb', show i - n < k by omega, show n + (i - n) = i by omega] using this

/-- Every bit of a halfword of flags. -/
theorem flagBits_bit (b0 b1 : Bool) (i : Nat) : (flagBits b0 b1).getLsbD i =
    if i = 0 then b0 else if i = 1 then b1 else false := by
  match i with
  | 0 => exact flagBits_bit0 b0 b1
  | 1 => exact flagBits_bit1 b0 b1
  | k + 2 =>
    unfold flagBits
    rw [BitVec.getLsbD_append, BitVec.getLsbD_append]
    simp only [show ¬ k + 2 < 1 by omega, show ¬ k + 2 - 1 < 1 by omega, if_false, BitVec.getLsbD_zero,
      show ¬ k + 2 = 0 by omega, show ¬ k + 2 = 1 by omega]

/-- Two flag bits and zeros above make the halfword up. -/
theorem flagBits_of_high2 {h : BitVec 16} (hz : h.extractLsb' 2 14 = 0) : flagBits (h.getLsbD 0) (h.getLsbD 1) = h := by
  apply BitVec.eq_of_getLsbD_eq; intro i hi
  rw [flagBits_bit]
  split_ifs with h0 h1
  · rw [h0]
  · rw [h1]
  · exact (high_zero hz (by omega) (by omega)).symm

theorem flagBits_of_high1 {h : BitVec 16} (hz : h.extractLsb' 1 15 = 0) : flagBits (h.getLsbD 0) false = h := by
  apply BitVec.eq_of_getLsbD_eq; intro i hi
  rw [flagBits_bit]
  split_ifs with h0 h1
  · rw [h0]
  · rw [h1]; exact (high_zero hz (by omega) (by omega)).symm
  · exact (high_zero hz (by omega) (by omega)).symm

/-- A word with `rsv = 0` is made up of its fields (R81). -/
theorem cmdWord_fields (w : CmdWord) (hr : w.rsv = 0) : cmdWord w.op w.h0 w.h1 w.w0 w.d0 w.d1 = w := by
  apply BitVec.eq_of_getLsbD_eq; intro i hi
  have hr' : ∀ j, j < 8 → w.getLsbD (8 + j) = false := fun j hj => by
    have := congrArg (fun x => x.getLsbD j) hr
    simpa [CmdWord.rsv, hj] using this
  unfold cmdWord CmdWord.op CmdWord.h0 CmdWord.h1 CmdWord.w0 CmdWord.d0 CmdWord.d1
  simp only [BitVec.getLsbD_append, BitVec.getLsbD_extractLsb']
  split_ifs with c1 c2 c3 c4 c5 c6
  · simp [c1]
  · have := hr' (i - 8) c2
    rw [show 8 + (i - 8) = i by omega] at this
    rw [this]; simp
  · simp only [c3, decide_true, Bool.true_and]; congr 1; omega
  · simp only [c4, decide_true, Bool.true_and]; congr 1; omega
  · simp only [c5, decide_true, Bool.true_and]; congr 1; omega
  · simp only [c6, decide_true, Bool.true_and]; congr 1; omega
  · rw [show 128 + (i - 8 - 8 - 16 - 16 - 16 - 64) = i by omega]
    simp; omega

/-- When the format's checks pass, and only then, the command is legal (R88). -/
theorem checkFormat_ok {fmt : Format} {w : CmdWord} {i j : Instr} :
    checkFormat fmt w i = .ok j ↔ w.rsv = 0 ∧ fmt.unusedZero w = true ∧ fmt.mustBeZero w = true ∧ i = j := by
  unfold checkFormat
  split_ifs with h1 h2 h3
  · exact ⟨(fun h => nomatch h), (fun h => absurd h.1 h1)⟩
  · simp [h2]
  · simp [h3]
  · simp only [Except.ok.injEq]
    simp only [Bool.not_eq_false] at h2 h3
    simp only [ne_eq, not_not] at h1
    simp [h1, h2, h3]

/-! ## A legal word of each format is rebuilt from the operands the format names (R82) -/

/-- A word with `rsv = 0` and these fields. -/
theorem cmdWord_eq {w : CmdWord} {op : BitVec 8} {h0 h1 w0 : BitVec 16} {d0 d1 : BitVec 64} (hr : w.rsv = 0) (e0 : w.op = op)
    (e1 : w.h0 = h0) (e2 : w.h1 = h1) (e3 : w.w0 = w0) (e4 : w.d0 = d0) (e5 : w.d1 = d1) : cmdWord op h0 h1 w0 d0 d1 = w := by
  subst e0 e1 e2 e3 e4 e5; exact cmdWord_fields w hr

section Formats

variable {w : CmdWord} {o : BitVec 8} {i j : Instr}

theorem word_z (hop : w.op = o) (h : checkFormat .z w i = .ok j) : cmdWord o 0 0 0 0 0 = w ∧ i = j := by
  obtain ⟨hr, hu, -, hi⟩ := checkFormat_ok.1 h
  simp only [Format.unusedZero, Bool.and_eq_true, beq_iff_eq] at hu
  exact ⟨cmdWord_eq hr hop hu.1.1.1.1 hu.1.1.1.2 hu.1.1.2 hu.1.2 hu.2, hi⟩

theorem word_rRead (hop : w.op = o) (h : checkFormat .rRead w i = .ok j) : cmdWord o w.h0 0 0 0 0 = w ∧ i = j := by
  obtain ⟨hr, hu, hm, hi⟩ := checkFormat_ok.1 h
  simp only [Format.unusedZero, Format.mustBeZero, Bool.and_eq_true, beq_iff_eq] at hu hm
  exact ⟨cmdWord_eq hr hop rfl hu.1.1 hu.1.2 hm hu.2, hi⟩

theorem word_rWrite (hop : w.op = o) (h : checkFormat .rWrite w i = .ok j) : cmdWord o w.h0 0 0 w.d0 0 = w ∧ i = j := by
  obtain ⟨hr, hu, -, hi⟩ := checkFormat_ok.1 h
  simp only [Format.unusedZero, Bool.and_eq_true, beq_iff_eq] at hu
  exact ⟨cmdWord_eq hr hop rfl hu.1.1 hu.1.2 rfl hu.2, hi⟩

theorem word_a (hop : w.op = o) (h : checkFormat .a w i = .ok j) : cmdWord o 0 0 0 w.d0 0 = w ∧ i = j := by
  obtain ⟨hr, hu, -, hi⟩ := checkFormat_ok.1 h
  simp only [Format.unusedZero, Bool.and_eq_true, beq_iff_eq] at hu
  exact ⟨cmdWord_eq hr hop hu.1.1.1 hu.1.1.2 hu.1.2 rfl hu.2, hi⟩

theorem word_s (hop : w.op = o) (h : checkFormat .s w i = .ok j) : cmdWord o 0 0 0 w.d0 (w.d1hi ++ w.d1lo) = w ∧ i = j := by
  obtain ⟨hr, hu, -, hi⟩ := checkFormat_ok.1 h
  simp only [Format.unusedZero, Bool.and_eq_true, beq_iff_eq] at hu
  exact ⟨cmdWord_eq hr hop hu.1.1 hu.1.2 hu.2 rfl (d1_halves w).symm, hi⟩

theorem word_q (hop : w.op = o) (h : checkFormat .q w i = .ok j) :
    cmdWord o (flagBits (w.h0.getLsbD 0) (w.h0.getLsbD 1)) 0 w.w0 w.d0 (w.d1hi ++ w.d1lo) = w ∧ i = j := by
  obtain ⟨hr, hu, hm, hi⟩ := checkFormat_ok.1 h
  simp only [Format.unusedZero, Format.mustBeZero, beq_iff_eq] at hu hm
  exact ⟨cmdWord_eq hr hop (flagBits_of_high2 hm).symm hu rfl rfl (d1_halves w).symm, hi⟩

theorem word_f (hop : w.op = o) (h : checkFormat .f w i = .ok j) :
    cmdWord o (flagBits (w.h0.getLsbD 0) false) 0 0 0 (w.d1hi ++ w.d1lo) = w ∧ i = j := by
  obtain ⟨hr, hu, hm, hi⟩ := checkFormat_ok.1 h
  simp only [Format.unusedZero, Format.mustBeZero, Bool.and_eq_true, beq_iff_eq] at hu hm
  exact ⟨cmdWord_eq hr hop (flagBits_of_high1 hm).symm hu.1.1 hu.1.2 hu.2 (d1_halves w).symm, hi⟩

theorem word_c (hop : w.op = o) (h : checkFormat .c w i = .ok j) :
    cmdWord o (flagBits (w.h0.getLsbD 0) false) 0 0 0 0 = w ∧ i = j := by
  obtain ⟨hr, hu, hm, hi⟩ := checkFormat_ok.1 h
  simp only [Format.unusedZero, Format.mustBeZero, Bool.and_eq_true, beq_iff_eq] at hu hm
  exact ⟨cmdWord_eq hr hop (flagBits_of_high1 hm).symm hu.1.1.1 hu.1.1.2 hu.1.2 hu.2, hi⟩

theorem word_x (hop : w.op = o) (h : checkFormat .x w i = .ok j) :
    cmdWord o w.h0 w.h1 0 w.d0 (0#32 ++ w.d1lo) = w ∧ i = j := by
  obtain ⟨hr, hu, hm, hi⟩ := checkFormat_ok.1 h
  simp only [Format.unusedZero, Format.mustBeZero, beq_iff_eq] at hu hm
  exact ⟨cmdWord_eq hr hop rfl rfl hu rfl ((d1_halves w).symm.trans (by rw [hm]; rfl)), hi⟩

theorem word_p (hop : w.op = o) (h : checkFormat .p w i = .ok j) : cmdWord o w.h0 0 0 0 0 = w ∧ i = j := by
  obtain ⟨hr, hu, -, hi⟩ := checkFormat_ok.1 h
  simp only [Format.unusedZero, Bool.and_eq_true, beq_iff_eq] at hu
  exact ⟨cmdWord_eq hr hop rfl hu.1.1.1 hu.1.1.2 hu.1.2 hu.2, hi⟩

end Formats

/-! ## Matching a row of the opcode table, field by field (R85) -/

/-- Two words with the same fields are the same word. -/
theorem CmdWord.ext_fields {v w : CmdWord} (e0 : v.op = w.op) (er : v.rsv = w.rsv) (e1 : v.h0 = w.h0) (e2 : v.h1 = w.h1)
    (e3 : v.w0 = w.w0) (e4 : v.d0 = w.d0) (e5 : v.d1 = w.d1) : v = w := by
  apply BitVec.eq_of_getLsbD_eq; intro i hi
  have bit : ∀ {n lo : Nat} (x : BitVec n) (_ : v.extractLsb' lo n = x) (_ : w.extractLsb' lo n = x), lo ≤ i → i < lo + n →
      v.getLsbD i = w.getLsbD i := by
    intro n lo x hv hw h1 h2
    have := congrArg (fun y => y.getLsbD (i - lo)) (hv.trans hw.symm)
    simp only [BitVec.getLsbD_extractLsb', show i - lo < n by omega, decide_true, Bool.true_and,
      show lo + (i - lo) = i by omega] at this
    exact this
  by_cases c0 : i < 8
  · exact bit _ e0 rfl (by omega) (by omega)
  by_cases cr : i < 16
  · exact bit _ er rfl (by omega) (by omega)
  by_cases c1 : i < 32
  · exact bit _ e1 rfl (by omega) (by omega)
  by_cases c2 : i < 48
  · exact bit _ e2 rfl (by omega) (by omega)
  by_cases c3 : i < 64
  · exact bit _ e3 rfl (by omega) (by omega)
  by_cases c4 : i < 128
  · exact bit _ e4 rfl (by omega) (by omega)
  · exact bit _ e5 rfl (by omega) (by omega)

theorem and_field (a b : CmdWord) (lo n : Nat) : (a &&& b).extractLsb' lo n = a.extractLsb' lo n &&& b.extractLsb' lo n := by
  apply BitVec.eq_of_getLsbD_eq; intro i hi
  simp [hi]

/-- A row matches exactly when every field does. -/
theorem matches_iff (r : OpcodeRow) (w : CmdWord) : r.matches w = true ↔
    w.op &&& r.mask.op = r.bits.op ∧ w.rsv &&& r.mask.rsv = r.bits.rsv ∧ w.h0 &&& r.mask.h0 = r.bits.h0 ∧
      w.h1 &&& r.mask.h1 = r.bits.h1 ∧ w.w0 &&& r.mask.w0 = r.bits.w0 ∧ w.d0 &&& r.mask.d0 = r.bits.d0 ∧
      w.d1 &&& r.mask.d1 = r.bits.d1 := by
  unfold OpcodeRow.matches
  rw [beq_iff_eq]
  constructor
  · intro h
    rw [← h]
    refine ⟨?_, ?_, ?_, ?_, ?_, ?_, ?_⟩ <;> exact (and_field w r.mask _ _).symm
  · rintro ⟨e0, er, e1, e2, e3, e4, e5⟩
    exact CmdWord.ext_fields ((and_field _ _ _ _).trans e0) ((and_field _ _ _ _).trans er) ((and_field _ _ _ _).trans e1)
      ((and_field _ _ _ _).trans e2) ((and_field _ _ _ _).trans e3) ((and_field _ _ _ _).trans e4) ((and_field _ _ _ _).trans e5)

/-- The "must be 0" bits of formats Q, F and C, and of format X, as masks (R82). -/
theorem flag_mask {m : BitVec 16} {n k : Nat} (hnk : n + k = 16) (hm : ∀ i : Fin 16, m.getLsbD i = decide (n ≤ i.val))
    (h : BitVec 16) : h &&& m = 0 ↔ h.extractLsb' n k = 0 := by
  constructor
  · intro e
    apply BitVec.eq_of_getLsbD_eq; intro i hi
    have := congrArg (fun x => x.getLsbD (n + i)) e
    have hb := hm ⟨n + i, by omega⟩
    simp only at hb
    simpa [hb, hi] using this
  · intro e
    apply BitVec.eq_of_getLsbD_eq; intro i hi
    have hb := hm ⟨i, hi⟩
    simp only at hb
    rw [BitVec.getLsbD_and, hb]
    by_cases hn : n ≤ i
    · simp [high_zero e hn (by omega)]
    · simp [hn]

theorem flag2_mask (h : BitVec 16) : h &&& 0xfffc#16 = 0 ↔ h.extractLsb' 2 14 = 0 :=
  flag_mask rfl (by decide +kernel) h
theorem flag1_mask (h : BitVec 16) : h &&& 0xfffe#16 = 0 ↔ h.extractLsb' 1 15 = 0 :=
  flag_mask rfl (by decide +kernel) h

theorem high_mask (d : BitVec 64) : d &&& 0xffffffff00000000#64 = 0 ↔ d.extractLsb' 32 32 = 0 := by
  have hb : ∀ j : Nat, (0xffffffff00000000#64).getLsbD j = (decide (32 ≤ j) && decide (j < 64)) := by
    intro j
    by_cases hj : j < 64
    · have : ∀ k : Fin 64, (0xffffffff00000000#64).getLsbD k = (decide (32 ≤ k.val) && decide (k.val < 64)) := by
        decide +kernel
      exact this ⟨j, hj⟩
    · rw [BitVec.getLsbD_of_ge _ _ (by omega)]; simp [hj]
  constructor
  · intro h
    apply BitVec.eq_of_getLsbD_eq; intro i hi
    have := congrArg (fun x => x.getLsbD (32 + i)) h
    simp only [BitVec.getLsbD_and, hb] at this
    rw [BitVec.getLsbD_extractLsb']
    simp only [hi, decide_true, Bool.true_and]
    simpa [show 32 + i < 64 by omega] using this
  · intro h
    apply BitVec.eq_of_getLsbD_eq; intro i hi
    simp only [BitVec.getLsbD_and, hb]
    by_cases hl : 32 ≤ i
    · have := congrArg (fun x => x.getLsbD (i - 32)) h
      simp only [BitVec.getLsbD_extractLsb', show i - 32 < 32 by omega, decide_true, Bool.true_and,
        show 32 + (i - 32) = i by omega] at this
      simp [this]
    · simp [hl]

/-! ## Serialisation (R63) -/

/-- Reading back a number laid out in `n` little-endian bytes. -/
theorem natOfBytes_range (x : Nat) : ∀ n k, natOfBytes ((List.range' k n).map fun i => BitVec.ofNat 8 (x / 256 ^ i)) =
    x / 256 ^ k % 256 ^ n
  | 0, k => by simp [natOfBytes, Nat.mod_one]
  | n + 1, k => by
    rw [List.range'_succ, List.map_cons, natOfBytes, natOfBytes_range x n (k + 1)]
    have h1 : (BitVec.ofNat 8 (x / 256 ^ k)).toNat = x / 256 ^ k % 256 := by simp
    have h2 : x / 256 ^ (k + 1) = x / 256 ^ k / 256 := by rw [pow_succ, Nat.div_div_eq_div_mul]
    rw [h1, h2, pow_succ, Nat.mul_comm (256 ^ n) 256, Nat.mod_mul]

/-- Byte `i` of a serialised word holds bits `8i+7:8i` (R63). -/
theorem wordBytes_getElem? {k n i : Nat} (w : BitVec k) (h : i < n) : (wordBytes n w)[i]? = some (w.extractLsb' (8 * i) 8) := by
  unfold wordBytes
  rw [List.getElem?_map, List.getElem?_range h]; rfl

@[simp] theorem wordBytes_length {k : Nat} (n : Nat) (w : BitVec k) : (wordBytes n w).length = n := by
  simp [wordBytes]

/-- Serialising a word of `n` bytes and reading it back gives the word. -/
theorem natOfBytes_wordBytes {n : Nat} (w : BitVec (8 * n)) : natOfBytes (wordBytes n w) = w.toNat := by
  have h : wordBytes n w = (List.range' 0 n).map fun i => BitVec.ofNat 8 (w.toNat / 256 ^ i) := by
    unfold wordBytes
    rw [List.range_eq_range']
    refine List.map_congr_left fun i _ => BitVec.eq_of_toNat_eq ?_
    rw [BitVec.extractLsb'_toNat, BitVec.toNat_ofNat, Nat.shiftRight_eq_div_pow, show (256 : Nat) = 2 ^ 8 from rfl, ← pow_mul]
  rw [h, natOfBytes_range, pow_zero, Nat.div_one, show (256 : Nat) = 2 ^ 8 from rfl, ← pow_mul, Nat.mod_eq_of_lt w.isLt]

/-- A command word read back from its 24 bytes. -/
theorem natOfBytes_bytesOfCmd (w : CmdWord) : BitVec.ofNat 192 (natOfBytes (bytesOfCmd w)) = w := by
  rw [bytesOfCmd, natOfBytes_wordBytes (n := 24) w]
  exact BitVec.eq_of_toNat_eq (by rw [BitVec.toNat_ofNat, Nat.mod_eq_of_lt w.isLt])

end Sys2Proof
end

