-- ==== Sys2Proof/Laws/Legality.lean ====
section
/-! SUPPORT. The checks of AD.CONFIGURE and CC.CONFIGURE as computed (40_address_decoder.md rule R111, 41_cache_engine.md rule
R140) against the legality they stand for, and the overlap of the masks bit by bit. -/

namespace Sys2Proof.Machine

set_option Elab.async false

/-- The bounded powers of two of the legality checks. -/
theorem pow2_le_iff (n e : Nat) : (∃ j, j ≤ e ∧ n = 2 ^ j) ↔ isPow2 n = true ∧ n ≤ 2 ^ e := by
  rw [isPow2_iff]
  constructor
  · rintro ⟨j, hj, rfl⟩
    exact ⟨⟨j, rfl⟩, Nat.pow_le_pow_right (by omega) hj⟩
  · rintro ⟨⟨j, rfl⟩, h⟩
    exact ⟨j, (Nat.pow_le_pow_iff_right (by omega)).1 h, rfl⟩

/-- The overlap's bits are the bits two masks share (R111 step 2). -/
theorem AdRegs.shared_iff (c : AdRegs) (i : Nat) : c.shared i ↔ c.overlap.getLsbD i = true := by
  simp only [AdRegs.overlap, BitVec.getLsbD_or, BitVec.getLsbD_and, Bool.or_eq_true, Bool.and_eq_true]
  constructor
  · rintro ⟨p, q, X, Y, hpq, hp, hq, hX, hY⟩
    have hq5 : q < 5 := (List.getElem?_eq_some_iff.1 hq).1
    interval_cases q <;> interval_cases p <;> cases hp <;> cases hq <;> simp only [hX, hY, and_self, true_or, or_true]
  · have pair : ∀ p q (X Y : Reg64), p < q → c.masks[p]? = some X → c.masks[q]? = some Y →
        X.getLsbD i = true ∧ Y.getLsbD i = true → c.shared i :=
      fun p q X Y hpq hp hq h => ⟨p, q, X, Y, hpq, hp, hq, h.1, h.2⟩
    intro h
    repeat' refine Or.elim h (fun h => ?_) (fun h => ?_)
    exacts [pair 0 1 _ _ (by omega) rfl rfl h, pair 0 2 _ _ (by omega) rfl rfl h, pair 0 3 _ _ (by omega) rfl rfl h,
      pair 0 4 _ _ (by omega) rfl rfl h, pair 1 2 _ _ (by omega) rfl rfl h, pair 1 3 _ _ (by omega) rfl rfl h,
      pair 1 4 _ _ (by omega) rfl rfl h, pair 2 3 _ _ (by omega) rfl rfl h, pair 2 4 _ _ (by omega) rfl rfl h,
      pair 3 4 _ _ (by omega) rfl rfl h]

/-- No two masks share a bit exactly when the overlap is 0. -/
theorem AdRegs.overlap_eq_zero (c : AdRegs) : c.overlap = 0 ↔ ¬∃ i, c.shared i := by
  simp only [AdRegs.shared_iff, not_exists, Bool.not_eq_true]
  constructor
  · intro h i; rw [h]; exact BitVec.getLsbD_zero
  · intro h; apply BitVec.eq_of_getLsbD_eq; intro i _; rw [h]; exact BitVec.getLsbD_zero.symm

/-- A shift that loses no bit is a product. -/
theorem shiftLeft_toNat_of_fit {x s k : Nat} (hx : x < 2 ^ k) (h : s + k ≤ 64) :
    (BitVec.ofNat 64 x <<< s).toNat = x * 2 ^ s := by
  have h1 : x * 2 ^ s < 2 ^ 64 :=
    calc x * 2 ^ s < 2 ^ k * 2 ^ s := Nat.mul_lt_mul_of_pos_right hx (by positivity)
      _ = 2 ^ (k + s) := by rw [pow_add]
      _ ≤ 2 ^ 64 := Nat.pow_le_pow_right (by omega) (by omega)
  have h2 : x < 2 ^ 64 := lt_of_lt_of_le hx (Nat.pow_le_pow_right (by omega) (by omega))
  rw [BitVec.toNat_shiftLeft, BitVec.toNat_ofNat, Nat.mod_eq_of_lt h2, Nat.shiftLeft_eq, Nat.mod_eq_of_lt h1]

/-- The checks a to g of AD.CONFIGURE (R111 step 3). -/
theorem AdRegs.legal_iff (c : AdRegs) : c.legal = true ↔ c.Legal := by
  simp only [AdRegs.legal, Bool.and_eq_true, decide_eq_true_eq]
  have hp := pow2_le_iff c.nsub.toNat 8
  have hn : c.p = true ↔ ∃ k, c.nchan.toNat = 2 ^ k := isPow2_iff c.nchan.toNat
  constructor
  · rintro ⟨⟨⟨⟨⟨⟨ha, ⟨hb1, hb2⟩, hb3⟩, hc⟩, ⟨⟨⟨hd1, hd2⟩, hd3⟩, hd4⟩, hd5⟩, he⟩, hf⟩, hg⟩
    have he' : c.chipStart.toNat + log2c c.nchan.toNat ≤ 64 := he
    refine ⟨ha, hp.2 ⟨hb1, hb3⟩, hc, ?_, he, ?_, ?_, hg⟩
    · simp only [AdRegs.masks, List.mem_cons, List.not_mem_nil, or_false]
      rintro X (rfl | rfl | rfl | rfl | rfl) <;> assumption
    · intro hk
      rw [if_pos (hn.2 hk)] at hf
      obtain ⟨k, hk⟩ := hk
      rw [beq_iff_eq.1 hf]
      rw [hk, log2c_two_pow] at he'
      refine shiftLeft_toNat_of_fit (k := k) ?_ ?_
      · show c.nchan.toNat - 1 < 2 ^ k
        rw [hk]; exact Nat.sub_lt (by positivity) (by omega)
      · exact he'
    · intro hk
      rw [if_neg (fun h => hk (hn.1 h))] at hf
      simpa [or_assoc] using hf
  · rintro ⟨ha, hb, hc, hd, he, hf1, hf2, hg⟩
    have hb' := hp.1 hb
    simp only [AdRegs.masks, List.mem_cons, List.not_mem_nil, or_false, forall_eq_or_imp, forall_eq] at hd
    obtain ⟨h1, h2, h3, h4, h5⟩ := hd
    have hm : 1 ≤ c.nsub.toNat := by obtain ⟨j, -, hj⟩ := hb; rw [hj]; exact Nat.one_le_two_pow
    refine ⟨⟨⟨⟨⟨⟨ha, ⟨hb'.1, hm⟩, hb'.2⟩, hc⟩, ⟨⟨⟨h1, h2⟩, h3⟩, h4⟩, h5⟩, he⟩, ?_⟩, hg⟩
    by_cases hk : ∃ k, c.nchan.toNat = 2 ^ k
    · rw [if_pos (hn.2 hk), beq_iff_eq]
      apply BitVec.eq_of_toNat_eq
      rw [hf1 hk]
      obtain ⟨k, hk⟩ := hk
      refine (shiftLeft_toNat_of_fit (k := k) ?_ ?_).symm
      · show c.nchan.toNat - 1 < 2 ^ k
        rw [hk]; exact Nat.sub_lt (by positivity) (by omega)
      · rw [hk, log2c_two_pow] at he; exact he
    · rw [if_neg (fun h => hk (hn.1 h))]
      simpa [or_assoc] using hf2 hk

/-- The checks of CC.CONFIGURE (R140 step 2). -/
theorem CcRegs.legal_iff (c : CcRegs) (b : Bool) : c.legal b = true ↔ c.Legal b := by
  simp only [CcRegs.legal, Bool.and_eq_true, decide_eq_true_eq, Bool.or_eq_true, bne_iff_ne, beq_iff_eq]
  have hp := pow2_le_iff c.lineSz.toNat 12
  have hs := isPow2_iff c.sectorSz.toNat
  constructor
  · rintro ⟨⟨⟨⟨⟨⟨⟨⟨⟨⟨⟨h1, h2, h3⟩, h4⟩, h5⟩, h6⟩, h7⟩, h8⟩, h9⟩, h10⟩, h11, h12⟩, h13⟩, h14⟩
    exact ⟨h1, hp.2 ⟨h2, h3⟩, h4, ⟨h5, h6, h7, h8⟩, h9, h10, ⟨hs.1 h11, h12⟩, fun hk => h13.resolve_left fun h => h hk,
      fun hk => h14.resolve_left fun h => h hk⟩
  · rintro ⟨h1, h2, h4, ⟨h5, h6, h7, h8⟩, h9, h10, ⟨h11, h12⟩, h13, h14⟩
    have h2' := hp.1 h2
    exact ⟨⟨⟨⟨⟨⟨⟨⟨⟨⟨⟨h1, h2'.1, h2'.2⟩, h4⟩, h5⟩, h6⟩, h7⟩, h8⟩, h9⟩, h10⟩, hs.2 h11, h12⟩,
      (Decidable.em (c.kind = 1)).elim (fun hk => .inr (h13 hk)) .inl⟩,
      (Decidable.em (c.blkSrc = 1)).elim (fun hk => .inr (h14 hk)) .inl⟩

end Sys2Proof.Machine
end

