-- ==== Sys2Proof/Laws/PerInstr.lean ====
section
/-! SUPPORT. Per-instruction statements, one lemma per constructor of Instr. -/

namespace Sys2Proof.Laws.EncodesAs

set_option Elab.async false

open Sys2Proof

/-- The encoded word has `rsv = 0` and the opcode of the table row that bears the command's mnemonic (R81, R85). -/
def Statement (i : Instr) : Prop :=
  (encode i).rsv = 0 ∧ ∃ r ∈ opcodeRows, r.mnemonic = i.mnemonic ∧ (encode i).op = r.bits.extractLsb' 0 8

/-- A word built from fields has the opcode it was built with, so the row with that opcode is the one. -/
theorem of_row {i : Instr} {op : BitVec 8} {h0 h1 w0 : BitVec 16} {d0 d1 : BitVec 64} (he : encode i = cmdWord op h0 h1 w0 d0 d1)
    {r : OpcodeRow} (hr : r ∈ opcodeRows) (hm : r.mnemonic = i.mnemonic) (ho : op = r.bits.extractLsb' 0 8) : Statement i :=
  ⟨by rw [he, cmdWord_rsv], r, hr, hm, by rw [he, cmdWord_op, ho]⟩

theorem nop : Statement (.nop) :=
  of_row rfl (List.mem_of_getElem? (i := 0) rfl) rfl (by decide +kernel)

theorem csrr (a : CsrAddr) : Statement (.csrr a) :=
  of_row rfl (List.mem_of_getElem? (i := 1) rfl) rfl (by decide +kernel)

theorem csrw (a : CsrAddr) (b : Reg64) : Statement (.csrw a b) :=
  of_row rfl (List.mem_of_getElem? (i := 2) rfl) rfl (by decide +kernel)

theorem adConfigure : Statement (.adConfigure) :=
  of_row rfl (List.mem_of_getElem? (i := 3) rfl) rfl (by decide +kernel)

theorem adDecode (a : Addr) : Statement (.adDecode a) :=
  of_row rfl (List.mem_of_getElem? (i := 4) rfl) rfl (by decide +kernel)

theorem adPaddr (a : Addr) : Statement (.adPaddr a) :=
  of_row rfl (List.mem_of_getElem? (i := 5) rfl) rfl (by decide +kernel)

theorem adSweep (a : Addr) (b : BitVec 32) (c : BitVec 32) : Statement (.adSweep a b c) :=
  of_row rfl (List.mem_of_getElem? (i := 6) rfl) rfl (by decide +kernel)

theorem ccConfigure : Statement (.ccConfigure) :=
  of_row rfl (List.mem_of_getElem? (i := 7) rfl) rfl (by decide +kernel)

theorem ccAccess (a : Bool) (b : Bool) (c : SectorMask) (d : Addr) (e : ReqId) (f : ReqSize) : Statement (.ccAccess a b c d e f) :=
  of_row rfl (List.mem_of_getElem? (i := 8) rfl) rfl (by decide +kernel)

theorem ccFill (a : Bool) (b : ReqId) (c : ReqId) : Statement (.ccFill a b c) :=
  of_row rfl (List.mem_of_getElem? (i := 9) rfl) rfl (by decide +kernel)

theorem ccCycle (a : Bool) : Statement (.ccCycle a) :=
  of_row rfl (List.mem_of_getElem? (i := 10) rfl) rfl (by decide +kernel)

theorem ccDpfree : Statement (.ccDpfree) :=
  of_row rfl (List.mem_of_getElem? (i := 11) rfl) rfl (by decide +kernel)

theorem ccFpfree : Statement (.ccFpfree) :=
  of_row rfl (List.mem_of_getElem? (i := 12) rfl) rfl (by decide +kernel)

theorem ccReady : Statement (.ccReady) :=
  of_row rfl (List.mem_of_getElem? (i := 13) rfl) rfl (by decide +kernel)

theorem ccNext : Statement (.ccNext) :=
  of_row rfl (List.mem_of_getElem? (i := 14) rfl) rfl (by decide +kernel)

theorem ccMqhead : Statement (.ccMqhead) :=
  of_row rfl (List.mem_of_getElem? (i := 15) rfl) rfl (by decide +kernel)

theorem xbConfigure : Statement (.xbConfigure) :=
  of_row rfl (List.mem_of_getElem? (i := 16) rfl) rfl (by decide +kernel)

theorem xbHasbuf (a : NodeId) (b : NodeId) (c : Payload) (d : ReqSize) : Statement (.xbHasbuf a b c d) :=
  of_row rfl (List.mem_of_getElem? (i := 17) rfl) rfl (by decide +kernel)

theorem xbPush (a : NodeId) (b : NodeId) (c : Payload) (d : ReqSize) : Statement (.xbPush a b c d) :=
  of_row rfl (List.mem_of_getElem? (i := 18) rfl) rfl (by decide +kernel)

theorem xbPop (a : NodeId) : Statement (.xbPop a) :=
  of_row rfl (List.mem_of_getElem? (i := 19) rfl) rfl (by decide +kernel)

theorem xbAdvance : Statement (.xbAdvance) :=
  of_row rfl (List.mem_of_getElem? (i := 20) rfl) rfl (by decide +kernel)

theorem xbBusy : Statement (.xbBusy) :=
  of_row rfl (List.mem_of_getElem? (i := 21) rfl) rfl (by decide +kernel)

end Sys2Proof.Laws.EncodesAs
end

