-- ==== Sys2Proof/Tests/Slice0.lean ====
section
/-! SUPPORT. The author's own tests: words and responses of 95_test_vectors.md, ill-formed words for each check of
WellFormed.lean, the counterexample of log 12, and for each statement with hypotheses one or more witnesses that meet them. -/

namespace Sys2Proof.Tests

open Sys2Proof.Machine

-- Each test is checked before the next begins: a test is short and there are many.
set_option Elab.async false

/-! ## Ill-formed words are refused, one for each check (R88; Y8 to Y14 of 95_test_vectors.md) -/

def refusedFor (w : CmdWord) (e : DecodeError) : Bool := decide (decode w = .error e) && !w.wellFormed

theorem test_refuse_opcode : refusedFor 0x000000000000000000000000000000000000000000000003 .reservedOpcode = true := by
  decide +kernel
theorem test_refuse_rsv : refusedFor 0x000000000000000000000000000000000000000000000100 .rsvNonzero = true := by
  decide +kernel
theorem test_refuse_unused : refusedFor 0x000000000000000000000000000000050000000000010011 .unusedFieldNonzero = true := by
  decide +kernel
theorem test_refuse_cycle_flag : refusedFor 0x000000000000000000000000000000000000000000020023 .mustBeZeroNonzero = true := by
  decide +kernel
theorem test_refuse_csrr_value : refusedFor 0x000000000000000000000000000000010000000001000001 .mustBeZeroNonzero = true := by
  decide +kernel
theorem test_refuse_push_high : refusedFor 0x000000010000000800000000000000010000000200000032 .mustBeZeroNonzero = true := by
  decide +kernel
theorem test_refuse_access_flag : refusedFor 0x000000040000000100000000000010000000000000040021 .mustBeZeroNonzero = true := by
  decide +kernel

/-! ## Words written out from R81, R82, R85 (most of them stand in 95_test_vectors.md) -/

theorem test_decode_system :
    decode 0x000000000000000000000000000000000000000000000000 = .ok .nop ∧
    decode 0x000000000000000000000000000000000000000001000001 = .ok (.csrr 0x100) ∧
    decode 0x000000000000000000000000FFFFE0000000000001030002 = .ok (.csrw 0x103 0xFFFFE000) := by decide +kernel

theorem test_decode_decoder :
    decode 0x000000000000000000000000000000000000000000000010 = .ok .adConfigure ∧
    decode 0x000000000000000000000000123456780000000000000011 = .ok (.adDecode 0x12345678) ∧
    decode 0x000000000000000000000000123456780000000000000012 = .ok (.adPaddr 0x12345678) ∧
    decode 0x000000010000200000000000000000000000000000000013 = .ok (.adSweep 0 8192 1) := by decide +kernel

theorem test_decode_cache :
    decode 0x000000000000000000000000000000000000000000000020 = .ok .ccConfigure ∧
    decode 0x000000080000000100000000000000000000000000020021 = .ok (.ccAccess false true 0 0 1 8) ∧
    decode 0x000000100000000100000000000010200002000000010021 = .ok (.ccAccess true false 2 0x1020 1 16) ∧
    decode 0x000000010000000A00000000000000000000000000010022 = .ok (.ccFill true 10 1) ∧
    decode 0x000000000000000000000000000000000000000000010023 = .ok (.ccCycle true) ∧
    decode 0x000000000000000000000000000000000000000000000024 = .ok .ccDpfree ∧
    decode 0x000000000000000000000000000000000000000000000025 = .ok .ccFpfree ∧
    decode 0x000000000000000000000000000000000000000000000026 = .ok .ccReady ∧
    decode 0x000000000000000000000000000000000000000000000027 = .ok .ccNext ∧
    decode 0x000000000000000000000000000000000000000000000028 = .ok .ccMqhead := by decide +kernel

theorem test_decode_crossbar :
    decode 0x000000000000000000000000000000000000000000000030 = .ok .xbConfigure ∧
    decode 0x000000000000000800000000000000000000000200010031 = .ok (.xbHasbuf 1 2 0 8) ∧
    decode 0x000000000000000800000000000000A20000000200010032 = .ok (.xbPush 1 2 0xA2 8) ∧
    decode 0x000000000000000000000000000000000000000000030033 = .ok (.xbPop 3) ∧
    decode 0x000000000000000000000000000000000000000000000034 = .ok .xbAdvance ∧
    decode 0x000000000000000000000000000000000000000000000035 = .ok .xbBusy := by decide +kernel

/-- R89's example and the expansion of the layout string of `DEC2` (95 section 2.2, R90, R91 (b)). -/
theorem test_assemble :
    assemble "CC.ACCESS addr=0x1000, size=32, id=7, smask=1" = .ok [.ccAccess false false 1 0x1000 7 32] ∧
    (assemble ("AD.LAYOUT \"dramid@8;00000000.00000000.00000000.00000000.RRRRRRRR.RRRRRRRR.RRRRRBBB.CCCSSSSS\"" ++
      ", nchan=3, nsub=2, idxfn=0")).toOption.map (List.take 6) =
      some [.csrw 0x101 0, .csrw 0x102 0x700, .csrw 0x103 0xFFFFF800, .csrw 0x104 0xE0, .csrw 0x105 0x1F, .csrw 0x106 8] := by
  decide +kernel

/-! ## Small states -/

/-- `DEC1` of 95 section 2.2. -/
def dec1 : AdRegs :=
  { maskChip := 0x300, maskBank := 0x1C00, maskRow := 0xFFFFE000, maskCol := 0xE0, maskBurst := 0x1F, chipStart := 8,
    nchan := 4, nsub := 2, idxfn := 0, maskSel := 0 }

/-- `DEC2` of 95 section 2.2: three channels. -/
def dec2 : AdRegs := { dec1 with maskChip := 0, maskBank := 0x700, maskRow := 0xFFFFF800, nchan := 3 }

/-- Two channels, every address bit from 1 on covered: the coverage conditions of R118 (c) and (d) hold. -/
def dec3 : AdRegs :=
  { maskChip := 1, maskBank := 0, maskRow := 0x1FFFFFFFE, maskCol := 0xFFFFFFFE00000000, maskBurst := 0, chipStart := 0,
    nchan := 2, nsub := 1, idxfn := 2, maskSel := 0 }

/-- `EX1` of 41_cache_engine.md. -/
def ex1 : CcRegs :=
  { kind := 0, nsets := 1, lineSz := 32, assoc := 1, repl := 0, wpol := 0, apol := 0, walloc := 0, setIdx := 0, mshrType := 0,
    mshrEntries := 1, mshrMaxMerge := 2, mqSize := 4, rfifo := 0, portW := 32, sectorIncl := 0, blkSrc := 0, sectorSz := 32 }

/-- `EX5` of 95 section 2.3: a normal cache with a sectored MSHR. -/
def ex5 : CcRegs := { ex1 with lineSz := 128, mshrType := 1, mshrEntries := 2, mqSize := 2 }

/-- `EX2` of 42_crossbar.md. -/
def ex2 : XbRegs := { subnets := 2, nshader := 2, nmem := 2, vcs := 2, bufcap := 2, classes := 1 }

/-- Reset, then a decoder with this configuration; AD_DIAG set. -/
def decState (c : AdRegs) : State := { State.reset with ad := { stage := c, diag := 1, configured := true, active := c } }

/-- Reset, then a cache with this configuration. -/
def ccState (c : CcRegs) : State := { State.reset with cc := CcState.commit { State.reset.cc with stage := c } }

/-- Reset, then a crossbar with this configuration. -/
def xbState (c : XbRegs) : State := { State.reset with xb := XbState.commit { State.reset.xb with stage := c } }

/-- A read of `size` bytes at `addr` by request `id`, with CC_BLKSRC 0. -/
def read (addr : Addr) (id : ReqId) (size : ReqSize) (atomic : Bool) : ReadReq :=
  { src := addr, addr := addr, size := size, id := id, atomic := atomic }

/-- The state after an accepted read. -/
def afterRead (s : State) (r : ReadReq) : State := { s with cc := (s.cc.classify r).1 }

/-- The state after the fill that completes request `r`. -/
def afterFill (s : State) (r : ReqId) (e : MetaRec) (m : MshrEntry) : State :=
  { s with cc := s.cc.completeFill r e m (s.cc.active.offset (s.cc.active.srcAddr s.ad.active e.origAddr)) }

/-- A state in the fatal state. -/
def fatalState (s : State) : State := { s with sys := { fatal := true, cause := 3, info := 9 } }

/-! ## Responses of 95_test_vectors.md -/

def rspOf : Outcome → Option Rsp
  | .next t => t.rsp
  | .fault _ | .refused _ => none

theorem test_reset_csr : rspOf (exec (.csrr 0x000) .reset) = some { status := .ok, q0 := 0x0000000147435348 } := by
  decide +kernel
theorem test_csrw_read_only : rspOf (exec (.csrw 0x100 1) .reset) = some { status := .badCsr } := by decide +kernel
theorem test_decode_A1 : rspOf (exec (.adDecode 0x12345678) (decState dec1)) =
    some { status := .ok, q0 := 0x0000000500000002, q1 := 0x00000003000091A2, q2 := 0x0000000500000018 } := by decide +kernel
theorem test_decode_B2 : rspOf (exec (.adDecode 0x12345778) (decState dec2)) =
    some { status := .ok, q0 := 0x0000000200000001, q1 := 0x000000030000C22E, q2 := 0x0000000200000018 } := by decide +kernel
theorem test_paddr_A2_A6 : rspOf (exec (.adPaddr 0x12345678) (decState dec1)) = some { status := .ok, q0 := 0x2468A78 } ∧
    rspOf (exec (.adPaddr 0xFFFFFFFFFFFFFFFF) (decState dec1)) = some { status := .ok, q0 := 0x1FFFFFFFFFFFFFFF } := by
  decide +kernel
theorem test_paddr_B1 : rspOf (exec (.adPaddr 0x12345678) (decState dec2)) = some { status := .ok, q0 := 0x308B978 } := by
  decide +kernel
theorem test_sweep_short : rspOf (exec (.adSweep 0 8 0x55) (decState dec1)) = some { status := .ok, q0 := 8 } := by
  decide +kernel
theorem test_sweep_A15 : rspOf (exec (.adSweep 0xFFFFFFFFFFFFFFFF 2 1) (decState dec1)) = some { status := .badOperand } := by
  decide +kernel
theorem test_configure_A9 :
    rspOf (exec .adConfigure { State.reset with ad := { State.reset.ad with stage := { dec1 with maskCol := 0x1E0 } } }) =
      some { status := .fatalRaised, q0 := 1, q1 := 0x100 } := by decide +kernel
theorem test_configure_A10 :
    rspOf (exec .adConfigure { State.reset with ad := { State.reset.ad with stage := { dec1 with nsub := 16 } } }) =
      some { status := .configInvalid } := by decide +kernel
theorem test_access_P2_20 : rspOf (exec (.ccAccess false false 0 0x1000 1 4) (ccState ex1)) =
    some { status := .miss, aux := 2 } := by decide +kernel
theorem test_access_C4 : rspOf (exec (.ccAccess false false 0 0x101E 1 4) (ccState ex1)) = some { status := .badOperand } := by
  decide +kernel
theorem test_fill_C8 : rspOf (exec (.ccFill false 9 0) (ccState ex1)) = some { status := .fatalRaised, q0 := 3, q1 := 9 } := by
  decide +kernel
theorem test_cycle_P2_26 : rspOf (exec (.ccCycle true) (afterRead (ccState ex1) (read 0x1000 1 4 false))) =
    some { status := .ok, aux := 1, q0 := 0x1000, q1 := 0x0000002000000001 } := by decide +kernel
theorem test_mqhead_P2_24 : rspOf (exec .ccMqhead (afterRead (ccState ex1) (read 0x1000 1 4 false))) =
    some { status := .ok, aux := 1, q0 := 0x1000, q1 := 0x0000002000000001 } := by decide +kernel
theorem test_push_at_capacity : rspOf (exec (.xbPush 0 2 1 8) (xbState { ex2 with bufcap := 0 })) =
    some { status := .fatalRaised, q0 := 4, q1 := 2 } := by decide +kernel
theorem test_hasbuf_X1 : rspOf (exec (.xbHasbuf 0 4 0 8) (xbState ex2)) = some { status := .badOperand } := by decide +kernel
theorem test_rsp_word_P1_12 :
    ({ status := .ok, q0 := 0x0000000500000002, q1 := 0x00000003000091A2, q2 := 0x0000000500000018 } : Rsp).word =
      0x000000050000001800000003000091A200000005000000020000000000000000 := by decide +kernel

/-- R63: the low byte of each field of that response stands at the field's own place. -/
theorem test_rsp_bytes_P1_12 :
    ({ status := .ok, q0 := 0x0000000500000002, q1 := 0x00000003000091A2, q2 := 0x0000000500000018 } : Rsp).bytes =
      [0, 0, 0, 0, 0, 0, 0, 0] ++ [2, 0, 0, 0, 5, 0, 0, 0] ++ [0xA2, 0x91, 0, 0, 3, 0, 0, 0] ++ [0x18, 0, 0, 0, 5, 0, 0, 0] := by
  decide +kernel

/-- Every parameter function the identity on the raw channel: each has `IdxPerm`. -/
def idFns : ParamFns := { ipolyRaw := fun _ r _ => r, paeRaw := fun _ r _ => r, customRaw := fun _ r _ => r, randRaw := fun _ _ => 0 }

/-- Three channels under CUSTOM, every bit from 2 on covered. -/
def dec4 : AdRegs :=
  { maskChip := 0, maskBank := 0, maskRow := 0x3FFFFFFFC, maskCol := 0xFFFFFFFC00000000, maskBurst := 0, chipStart := 0,
    nchan := 3, nsub := 1, idxfn := 5, maskSel := 0 }

/-- Log 12: without `P` R118 (d) fails as written; addresses 0 and 9 decode alike, every bit at or above `s + k = 2` is covered, and
bit 3 tells them apart. -/
theorem test_R118_d_needs_P : dec4.legal = true ∧ dec4.overlap = 0 ∧ dec4.u4 = 0xFFFFFFFFFFFFFFFC ∧
    dec4.decode idFns 0 = dec4.decode idFns 9 ∧ (0 ^^^ 9 : Addr) &&& dec4.u ≠ 0 := by decide +kernel

/-! ## Soundness of the small states -/

theorem reset_sys_inv : State.reset.sys.Inv := ⟨fun _ => ⟨rfl, rfl⟩, (fun h => by cases h)⟩
theorem reset_ad_inv : State.reset.ad.Inv := ⟨(fun h => by cases h), (fun h => by cases h)⟩
theorem reset_cc_inv (ad : AdState) : State.reset.cc.Inv ad := .of_unborn rfl ⟨rfl, rfl, rfl, rfl, rfl⟩
theorem reset_xb_inv : (State.reset.xb).Inv := .empty _ rfl rfl fun h => by cases h

theorem decState_inv {c : AdRegs} (h1 : c.overlap = 0) (h2 : c.legal = true) : (decState c).Inv where
  sys := reset_sys_inv
  ad := ⟨fun _ => h1, fun _ => h2⟩
  cc := reset_cc_inv _
  xb := reset_xb_inv

theorem ccState_inv {c : CcRegs} (h : c.legal false = true) : (ccState c).Inv where
  sys := reset_sys_inv
  ad := reset_ad_inv
  cc := .commit (cc := { State.reset.cc with stage := c }) h
  xb := reset_xb_inv

theorem xbState_inv {c : XbRegs} (h : c.legal = true) : (xbState c).Inv where
  sys := reset_sys_inv
  ad := reset_ad_inv
  cc := reset_cc_inv _
  xb := .empty _ rfl rfl fun _ => h

theorem afterRead_inv {s : State} {r : ReadReq} (h : s.Inv) (hc : s.cc.configured = true) (hr : r.Ok s.cc.active s.ad.active s.cc) :
    (afterRead s r).Inv := ⟨h.sys, h.ad, h.cc.classify hc r hr, h.xb⟩

theorem afterFill_inv {s : State} {r : ReqId} {e : MetaRec} {m : MshrEntry} (h : s.Inv) (hc : s.cc.configured = true)
    (he : s.cc.metaTab.lookup r.toNat = some e) (hm : s.cc.mshr.lookup e.mshrAddr.toNat = some m) :
    (afterFill s r e m).Inv := by
  obtain ⟨l, t, g⟩ := (CcRegs.geometry (h.cc.legal hc))
  exact ⟨h.sys, h.ad, h.cc.next hc rfl hc (h.cc.tags.filled g (h.cc.misses.metaOk _ _ he) m _)
    (h.cc.misses.completeFill g he hm _), h.xb⟩

/-! ## Helpers of the witnesses -/

/-- The outcome is a next state with this property. -/
def nextIs (p : State → Bool) : Outcome → Bool
  | .next t => p t
  | .fault _ | .refused _ => false

theorem nextIs_some {p : State → Bool} {o : Outcome} (h : nextIs p o = true) : ∃ t, o = .next t ∧ p t = true := by
  cases o with
  | next t => exact ⟨t, rfl, h⟩
  | fault r => cases h
  | refused r => cases h

theorem probed {s : State} {a : Addr} {p : ProbeResult}
    (h : probe s.cc.active s.cc.lines (s.block a) (s.set a) (s.sm a) = p) : s.Probed a p :=
  h ▸ probe_fact s.cc.active s.cc.lines (s.block a) (s.set a) (s.sm a)

theorem legalAd {c : AdRegs} (h : c.legal = true) : c.Legal := (AdRegs.legal_iff c).1 h
theorem unshared {c : AdRegs} (h : c.overlap = 0) : ¬∃ i, c.shared i := (AdRegs.overlap_eq_zero c).1 h
theorem notPow2_three : ¬∃ k, (3 : Nat) = 2 ^ k := fun h => by
  have := (isPow2_iff 3).2 h
  exact absurd this (by decide)

/-- A word with this opcode and nothing else. -/
def opWord (o : BitVec 8) : CmdWord := o.setWidth 192

/-- The metadata record and the entry of a first read of block 0x1000, 4 bytes, by request 1 in a one-line cache. -/
def meta1 : MetaRec :=
  { mshrAddr := 0x1000, blockAddr := 0x1000, origAddr := 0x1000, origSize := 4, set := 0, way := 0, smask := 1, pending := 1 }
def entry1 : MshrEntry := { list := [1], hasAtomic := false, ready := false }

/-- `EX1` with allocation on fill, `EX1` with no miss queue, a sector cache, and `EX1` behind the decoder. -/
def exFill : CcRegs := { ex1 with apol := 1 }
def exNoMq : CcRegs := { ex1 with mqSize := 0 }
def exSector : CcRegs := { ex1 with kind := 1, lineSz := 128, mshrType := 1 }
def exBehind : CcRegs := { ex1 with blkSrc := 1 }

theorem ex1_inv : (ccState ex1).Inv := ccState_inv (by decide +kernel)
theorem exFill_inv : (ccState exFill).Inv := ccState_inv (by decide +kernel)
theorem exNoMq_inv : (ccState exNoMq).Inv := ccState_inv (by decide +kernel)
theorem exSector_inv : (ccState exSector).Inv := ccState_inv (by decide +kernel)
theorem ex5_inv : (ccState ex5).Inv := ccState_inv (by decide +kernel)

def read1 : ReadReq := read 0x1000 1 4 false

/-- `EX1` after P2's command 20; the same under ON_FILL; after commands 20 and 21; `EX5` after its 128-byte read. -/
def missed : State := afterRead (ccState ex1) read1
def missedFill : State := afterRead (ccState exFill) read1
def merged : State := afterRead missed (read 0x1004 2 4 false)
def split : State := afterRead (ccState ex5) (read 0 1 128 false)

theorem missed_inv : missed.Inv := afterRead_inv ex1_inv rfl ⟨by decide +kernel, by decide +kernel, by decide +kernel⟩
theorem missedFill_inv : missedFill.Inv :=
  afterRead_inv exFill_inv rfl ⟨by decide +kernel, by decide +kernel, by decide +kernel⟩
theorem merged_inv : merged.Inv :=
  afterRead_inv missed_inv (by decide +kernel) ⟨by decide +kernel, by decide +kernel, by decide +kernel⟩

/-- The decoder `DEC1` with `EX1` behind it. -/
def behind : State := { decState dec1 with cc := (ccState exBehind).cc }

/-- `EX1` with request 1 filled and not yet handed back. -/
def filled : State := afterFill missed 1 meta1 entry1

theorem filled_inv : filled.Inv := afterFill_inv missed_inv (by decide +kernel) (by decide +kernel) (by decide +kernel)

/-- `EX1` with two MSHR entries: block 0x1000 read and filled, then block 0x2000 read into the one line and filled. -/
def exTwo : CcRegs := { ex1 with mshrEntries := 2 }
def filledTwo : State := afterFill (afterRead (ccState exTwo) read1) 1 meta1 entry1
def replacing : State := afterRead filledTwo (read 0x2000 2 4 false)
def replaced : State :=
  afterFill replacing 2 { meta1 with mshrAddr := 0x2000, blockAddr := 0x2000, origAddr := 0x2000 } { entry1 with list := [2] }

theorem filledTwo_inv : filledTwo.Inv :=
  afterFill_inv (afterRead_inv (ccState_inv (by decide +kernel)) rfl ⟨by decide +kernel, by decide +kernel, by decide +kernel⟩)
    (by decide +kernel) (by decide +kernel) (by decide +kernel)
theorem replacing_inv : replacing.Inv :=
  afterRead_inv filledTwo_inv (by decide +kernel) ⟨by decide +kernel, by decide +kernel, by decide +kernel⟩
theorem replaced_inv : replaced.Inv := afterFill_inv replacing_inv (by decide +kernel) (by decide +kernel) (by decide +kernel)

theorem live {s : State} (h1 : s.sys.fatal = false) (h2 : s.cc.configured = true) : s.CcLive := ⟨h1, h2⟩

/-- The X5 state of 95 section 2.4. -/
def x5 : State :=
  { xbState ex2 with xb := { (xbState ex2).xb with cells := [(cellKey 0 2 0 0, [1, 2]), (cellKey 0 2 0 1, [9])] } }

/-! ## Witnesses: encoding -/

theorem witness_LegalWordsEncodeBack : decode 0x000000010000200000000000000000000000000000000013 = .ok (.adSweep 0 8192 1) := by
  decide +kernel

theorem witness_EveryWordMatchesOneRowOrIsIllegal :
    decode 0x000000000000000000000000000000000000000000000001 = .ok (.csrr 0) ∧
    decode 0x000000000000000000000000000000000000000001000001 = .ok (.csrr 0x100) ∧
    CmdWord.op 0x000000000000000000000000000000000000000000000001 =
      CmdWord.op 0x000000000000000000000000000000000000000001000001 := by decide +kernel

theorem witness_IllegalCommandsChangeNothing :
    Illegal 0x000000000000000000000000000000000000000000000003 ∧ Illegal 0x000000000000000000000000000000000000000000000100 ∧
    Illegal 0x000000000000000000000000000000050000000000010011 ∧ Illegal 0x000000000000000000000000000000000000000000020023 :=
  ⟨.inl (by decide +kernel), .inr (.inl (by decide +kernel)),
    .inr (.inr (.inl (.inr (.inr (.inl ⟨.inl (by decide +kernel), .inl (by decide +kernel)⟩))))),
    .inr (.inr (.inr (.inr (.inr (.inl ⟨.inr (by decide +kernel), by decide +kernel⟩)))))⟩

/-- The reserved opcode ranges at their ends. -/
theorem witness_IllegalCommandsChangeNothing_ranges :
    (0x03 ≤ (opWord 0x03).op.toNat ∧ (opWord 0x0F).op.toNat ≤ 0x0F) ∧ 0x14 ≤ (opWord 0x14).op.toNat ∧
    (opWord 0x1F).op.toNat ≤ 0x1F ∧ 0x29 ≤ (opWord 0x29).op.toNat ∧ (opWord 0x2F).op.toNat ≤ 0x2F ∧
    0x36 ≤ (opWord 0x36).op.toNat := by decide +kernel

theorem witness_AStepRunsTheNextInput : State.reset.inputs = [] ∧
    (State.reset.withInputs [.cmd 0]).inputs = .cmd 0 :: [] ∧ decode 0 = .ok .nop ∧
    (State.reset.withInputs [.cmd 3]).inputs = .cmd 3 :: [] ∧ (¬∃ i, decode 3 = .ok i) ∧
    (State.reset.withInputs [.reset]).inputs = .reset :: [] :=
  have e : decode 3 = .error .reservedOpcode := by decide +kernel
  ⟨rfl, rfl, by decide +kernel, rfl, (fun h => by obtain ⟨i, h⟩ := h; rw [e] at h; cases h), rfl⟩

theorem witness_SerialisedCommandsDecodeAlike : (0 : Nat) < 24 ∧ 23 < 24 ∧ (bytesOfCmd 0).tail.length ≠ 24 := by decide +kernel

/-! ## Witnesses: system -/

theorem witness_NopAdvanceAndBusyAnswerOk : (xbState ex2).XbLive := ⟨rfl, rfl⟩

theorem witness_CsrReadsAnswerTheRegister :
    ((0x000#16).toNat, 0x0000000147435348) ∈ State.reset.csrView ∧ ((0x306#16).toNat, 0) ∈ State.reset.csrView ∧
    ∀ v, ((0x003#16).toNat, v) ∉ State.reset.csrView := by
  refine ⟨by decide +kernel, by decide +kernel, fun v hv => ?_⟩
  have : (State.reset.csrView.map Prod.fst).contains 0x003 = false := by decide +kernel
  have hm := List.mem_map_of_mem (f := Prod.fst) hv
  rw [List.contains_eq_mem] at this
  exact absurd hm (by simpa using this)

theorem witness_CsrWritesStoreTheMaskedValue : State.reset.sys.fatal = false ∧ ((0x101#16).toNat, 64) ∈ rwWidths ∧
    ((0x306#16).toNat, 8) ∈ rwWidths ∧ ∀ n, ((0x100#16).toNat, n) ∉ rwWidths := by
  refine ⟨rfl, by decide +kernel, by decide +kernel, fun n hn => ?_⟩
  have : (rwWidths.map Prod.fst).contains 0x100 = false := by decide +kernel
  have hm := List.mem_map_of_mem (f := Prod.fst) hn
  rw [List.contains_eq_mem] at this
  exact absurd hm (by simpa using this)

theorem witness_StagingRegistersHaveNoOtherEffect : (∀ r, Instr.ccCycle true ≠ .csrr r) ∧
    (∀ r v, Instr.ccCycle true ≠ .csrw r v) ∧ Instr.ccCycle true ≠ .adConfigure ∧ Instr.ccCycle true ≠ .ccConfigure ∧
    Instr.ccCycle true ≠ .xbConfigure :=
  ⟨fun _ => Instr.noConfusion, fun _ _ => Instr.noConfusion, Instr.noConfusion, Instr.noConfusion, Instr.noConfusion⟩

theorem not_illegal {w : CmdWord}
    (h : w.op.toNat ∈ opcodes ∧ w.rsv = 0 ∧ w.h0 = 0 ∧ w.h1 = 0 ∧ w.w0 = 0 ∧ w.d0 = 0 ∧ w.d1 = 0) : ¬Illegal w := by
  obtain ⟨h1, h2, h3, h4, h5, h6, h7⟩ := h
  simp [Illegal, UnreadNonzero, MustBeZeroNonzero, h1, h2, h3, h4, h5, h6, h7]

theorem witness_CommonChecksAndTheFatalState :
    (¬Illegal (opWord 0x23) ∧ (fatalState .reset).sys.fatal = true ∧ (opWord 0x23).op ≠ 0x00 ∧ (opWord 0x23).op ≠ 0x01) ∧
    (¬Illegal (opWord 0x00) ∧ (opWord 0x00).op = 0x00) ∧ (¬Illegal (opWord 0x01) ∧ (opWord 0x01).op = 0x01) ∧
    ∃ t, step ((fatalState .reset).withInputs [.reset]) = .next t ∧ t.sys.fatal = false :=
  ⟨⟨not_illegal (by decide), rfl, by decide, by decide⟩,
    ⟨not_illegal (by decide), by decide⟩,
    ⟨not_illegal (by decide), by decide⟩, _, rfl, rfl⟩

theorem witness_FatalStateIsFrozenAlongRuns : (fatalState .reset).sys.fatal = true ∧
    ((fatalState .reset).withInputs [.cmd 0x23, .cmd 0]).NoReset 2 := ⟨rfl, by unfold State.NoReset; decide +kernel⟩

/-- Each of the four fatal causes is raised. -/
theorem witness_FatalEntryIsPrecise :
    (∃ t, exec .adConfigure { State.reset with ad := { State.reset.ad with stage := { dec1 with maskCol := 0x1E0 } } } = .next t ∧
      t.sys.fatal = true) ∧
    (∃ t, exec (.adSweep 0 2 5) (decState { AdRegs.zero with maskChip := 3, nchan := 4, nsub := 1, idxfn := 1 }) = .next t ∧
      t.sys.fatal = true) ∧
    (∃ t, exec (.ccFill false 9 0) (ccState ex1) = .next t ∧ t.sys.fatal = true) ∧
    (∃ t, exec (.xbPush 0 2 1 8) (xbState { ex2 with bufcap := 0 }) = .next t ∧ t.sys.fatal = true) :=
  ⟨nextIs_some (by decide +kernel), nextIs_some (by decide +kernel), nextIs_some (by decide +kernel),
    nextIs_some (by decide +kernel)⟩

theorem witness_ResetLeavesTheStatedValues : ((fatalState .reset).withInputs [.reset, .cmd 0]).inputs = .reset :: [.cmd 0] := rfl

theorem witness_ReadOnlyCommandsAreIdempotent : ∃ t, exec (.adDecode 5) (decState dec1) = .next t ∧ t.sys.fatal = false := by
  obtain ⟨t, h1, h2⟩ := nextIs_some (p := fun t => !t.sys.fatal) (o := exec (.adDecode 5) (decState dec1)) (by decide +kernel)
  exact ⟨t, h1, by simpa using h2⟩

theorem witness_BlocksAreSeparate : unitOf (.adPaddr 5) = 1 ∧ unitOf (.ccCycle true) = 2 ∧ unitOf .ccConfigure = 2 ∧
    (ccState ex1).cc.active.blkSrc = 0 ∧ Instr.ccCycle true ≠ .ccConfigure ∧ behind.cc.active.blkSrc = 1 ∧
    unitOf (.xbPop 2) = 3 := by decide +kernel

theorem witness_UnconfiguredBlocksRefuseWork : State.reset.sys.fatal = false ∧ State.reset.ad.configured = false ∧
    (State.reset.withDiag 1).ad.diag ≠ 0 ∧ unitOf .ccNext = 2 ∧ State.reset.cc.configured = false ∧ unitOf (.xbPop 2) = 3 ∧
    State.reset.xb.configured = false := by decide +kernel

/-! ## Witnesses: decoder -/

theorem witness_PackedBitsKeepTheirOrder : (63 : Nat) < 64 ∧ (0x8000000000000300 : Reg64).getLsbD 63 = true ∧
    (0x8000000000000300 : Reg64).getLsbD 8 = true := by decide

/-- A reset state with this staging copy of the decoder. -/
def staged (c : AdRegs) : State := { State.reset with ad := { State.reset.ad with stage := c } }

theorem witness_AdConfigureChecksThenCommits : (decState dec1).ad.configured = true ∧
    (∃ b, (staged { dec1 with maskCol := 0x1E0 }).ad.stage.shared b) ∧
    ((¬∃ b, (staged { dec1 with nsub := 16 }).ad.stage.shared b) ∧ ¬(staged { dec1 with nsub := 16 }).ad.stage.Legal) ∧
    ((¬∃ b, (staged dec1).ad.stage.shared b) ∧ (staged dec1).ad.stage.Legal) :=
  ⟨rfl, ⟨8, (AdRegs.shared_iff _ _).2 (by decide +kernel)⟩,
    ⟨unshared (by decide +kernel), fun h => by
      have := (AdRegs.legal_iff _).2 h
      exact absurd this (by decide +kernel)⟩,
    unshared (by decide +kernel), legalAd (by decide +kernel)⟩

theorem witness_ChannelSplitIsInjective : (dec1.Legal ∧ ∃ k, dec1.nchan.toNat = 2 ^ k) ∧
    (dec2.Legal ∧ ¬∃ k, dec2.nchan.toNat = 2 ^ k) :=
  ⟨⟨legalAd (by decide +kernel), 2, by decide⟩, legalAd (by decide +kernel), notPow2_three⟩

theorem witness_DecodeAnswersTheCoordinates : ∀ f : BitVec 3, f.toNat ≤ 5 →
    (decState { dec1 with idxfn := f }).AdLive ∧ (decState { dec1 with idxfn := f }).Inv ∧
    (decState { dec1 with idxfn := f }).ad.active.idxfn = f := by
  intro f hf
  refine ⟨⟨rfl, rfl⟩, decState_inv (by revert hf; revert f; decide +kernel) (by revert hf; revert f; decide +kernel), rfl⟩

theorem witness_DecodedCoordinatesAreInBounds : dec1.Legal ∧ dec2.Legal :=
  ⟨legalAd (by decide +kernel), legalAd (by decide +kernel)⟩

theorem witness_DecodingIsInjectiveOnRelevantBits_a : dec1.Legal ∧ (¬∃ i, dec1.shared i) ∧
    dec1.decode idFns 0 = dec1.decode idFns 0x100000000 ∧ dec1.idxfn = 0 ∧ ∃ k, dec1.nchan.toNat = 2 ^ k :=
  ⟨legalAd (by decide +kernel), unshared (by decide +kernel), by decide +kernel, rfl, 2, by decide⟩

theorem witness_DecodingIsInjectiveOnRelevantBits_b : dec2.Legal ∧ (¬∃ i, dec2.shared i) ∧
    dec2.decode idFns 0 = dec2.decode idFns 0x300000000 ∧ dec2.idxfn = 0 ∧ ¬∃ k, dec2.nchan.toNat = 2 ^ k :=
  ⟨legalAd (by decide +kernel), unshared (by decide +kernel), by decide +kernel, rfl, notPow2_three⟩

theorem covers_of {c : AdRegs} {lo hi : Nat} (h : ((List.range 64).all fun i => !(lo ≤ i && i < hi) || c.u4.getLsbD i) = true) :
    c.Covers lo hi := by
  intro i h1 h2 h3
  have := List.all_eq_true.1 h i (List.mem_range.2 h3)
  simpa [h1, h2] using this

theorem witness_DecodingIsInjectiveOnRelevantBits_c : { dec1 with idxfn := 1 }.Legal ∧ (¬∃ i, { dec1 with idxfn := 1 }.shared i) ∧
    { dec1 with idxfn := 1 }.decode idFns 0 = { dec1 with idxfn := 1 }.decode idFns 0x100000000 ∧
    ({ dec1 with idxfn := 1 } : AdRegs).Covers 10 12 :=
  ⟨legalAd (by decide +kernel), unshared (by decide +kernel), by decide +kernel, covers_of (by decide +kernel)⟩

theorem idFns_perm : IdxPerm idFns.ipoly ∧ IdxPerm idFns.pae ∧ IdxPerm idFns.custom := by
  have h : ∀ n c : Nat, c < n → c % n = c := fun n c => Nat.mod_eq_of_lt
  have k : ∀ n c d : Nat, c < n → d < n → c % n = d % n → c = d := fun n c d hc hd e => by rwa [h n c hc, h n d hd] at e
  exact ⟨fun _ n => ⟨fun c hc => Nat.mod_lt _ (by omega), k n⟩, fun _ n => ⟨fun c hc => Nat.mod_lt _ (by omega), k n⟩,
    fun _ n => ⟨fun c hc => Nat.mod_lt _ (by omega), k n⟩⟩

theorem witness_DecodingIsInjectiveOnRelevantBits_d : ∀ f : BitVec 3, f = 2 ∨ f = 3 ∨ f = 5 →
    ({ dec3 with idxfn := f } : AdRegs).Legal ∧ (¬∃ i, ({ dec3 with idxfn := f } : AdRegs).shared i) ∧
    ({ dec3 with idxfn := f } : AdRegs).decode idFns 7 = ({ dec3 with idxfn := f } : AdRegs).decode idFns 7 ∧
    (∃ k, ({ dec3 with idxfn := f } : AdRegs).nchan.toNat = 2 ^ k) ∧ ({ dec3 with idxfn := f } : AdRegs).Covers 1 64 := by
  rintro f (rfl | rfl | rfl) <;>
  exact ⟨legalAd (by decide +kernel), unshared (by decide +kernel), rfl, ⟨1, by decide⟩, covers_of (by decide +kernel)⟩

theorem witness_AddressesAreReconstructed : dec1.Legal ∧ (¬∃ i, dec1.shared i) ∧ (∃ k, dec1.nchan.toNat = 2 ^ k) ∧
    dec1.idxfn = 0 := ⟨legalAd (by decide +kernel), unshared (by decide +kernel), ⟨2, by decide⟩, rfl⟩

theorem witness_PartitionAddressDropsTheSelectingBits : ((decState dec1).AdLive ∧ (decState dec1).Inv ∧
    ∃ k, (decState dec1).ad.active.nchan.toNat = 2 ^ k) ∧
    (decState dec2).AdLive ∧ (decState dec2).Inv ∧ ¬∃ k, (decState dec2).ad.active.nchan.toNat = 2 ^ k :=
  ⟨⟨⟨rfl, rfl⟩, decState_inv (by decide +kernel) (by decide +kernel), 2, by decide⟩, ⟨rfl, rfl⟩,
    decState_inv (by decide +kernel) (by decide +kernel), notPow2_three⟩

/-- Four channels permuted by bits no field covers: addresses 0 and 5 decode alike. -/
def aliased : AdRegs := { AdRegs.zero with maskChip := 3, nchan := 4, nsub := 1, idxfn := 1 }

theorem bounds_of {F : ParamFns} {c : AdRegs} {a : Addr} (h : c.boundsOk F a = true) : c.BoundsHold F a := by
  simp only [AdRegs.boundsOk, Bool.and_eq_true, decide_eq_true_eq, beq_iff_eq] at h
  obtain ⟨⟨⟨⟨⟨⟨⟨h1, h2⟩, h3⟩, h4⟩, h5⟩, h6⟩, h7⟩, h8⟩ := h
  exact ⟨h1, h2, h3, h4, h5, h6, h7, h8⟩

theorem witness_SweepReportsTheFirstFailure_checks : (decState dec1).sys.fatal = false ∧ State.reset.ad.diag = 0 ∧
    ((State.reset.withDiag 1).ad.diag = 1 ∧ (State.reset.withDiag 1).ad.configured = false) ∧
    ((decState dec1).ad.diag = 1 ∧ (decState dec1).ad.configured = true ∧ ¬SweepRange 0xFFFFFFFFFFFFFFFF 2 1) := by
  unfold SweepRange; decide +kernel

theorem witness_SweepReportsTheFirstFailure_fails : (decState aliased).Inv ∧ SweepRange 0 2 5 ∧
    (decState aliased).ad.active.SweepFails (Config.params 0) 0 5 1 ∧
    ∀ i, i < 1 → ¬(decState aliased).ad.active.SweepFails (Config.params 0) 0 5 i := by
  refine ⟨decState_inv (by decide +kernel) (by decide +kernel), by unfold SweepRange; decide +kernel, .inr ⟨0, by omega, ?_, ?_⟩, ?_⟩
  · decide +kernel
  · rintro ⟨h, -⟩
    exact absurd (h ⟨2, by decide⟩) (by decide +kernel)
  · rintro i hi (h | ⟨j, hj, -⟩)
    · obtain rfl : i = 0 := by omega
      exact h (bounds_of (by decide +kernel))
    · omega

theorem witness_SweepReportsTheFirstFailure_passes : (decState dec1).Inv ∧ SweepRange 0 1 1 ∧
    ∀ t, t < (1 : BitVec 32).toNat → ¬(decState dec1).ad.active.SweepFails (Config.params 0) 0 1 t := by
  refine ⟨decState_inv (by decide +kernel) (by decide +kernel), by unfold SweepRange; decide +kernel, ?_⟩
  rintro t ht (h | ⟨j, hj, -⟩)
  · have ht' : t < 1 := ht
    obtain rfl : t = 0 := by omega
    exact h (bounds_of (by decide +kernel))
  · have ht' : t < 1 := ht
    omega

theorem witness_ConsecutiveSweepsPass : (decState dec1).AdLive ∧ (decState dec1).Inv ∧ (decState dec1).ad.diag = 1 ∧
    (decState dec1).ad.active.idxfn = 0 ∧ SweepRange 0 8192 1 :=
  ⟨⟨rfl, rfl⟩, decState_inv (by decide +kernel) (by decide +kernel), rfl, rfl, by unfold SweepRange; decide +kernel⟩

theorem witness_DecodingIsPureAlongRuns : ((decState dec1).withInputs [.cmd 0]).AdLive ∧
    ((decState dec1).withInputs [.cmd 0]).Inv ∧ ((decState dec1).withInputs [.cmd 0]).NoReset 1 ∧
    ∃ t, core.run 1 ((decState dec1).withInputs [.cmd 0]) = .next t ∧ (!t.sys.fatal) = true :=
  have h := decState_inv (c := dec1) (by decide +kernel) (by decide +kernel)
  ⟨⟨rfl, rfl⟩, ⟨h.sys, h.ad, h.cc, h.xb⟩, by unfold State.NoReset; decide +kernel, nextIs_some (by decide +kernel)⟩

/-! ## Witnesses: cache engine -/

/-- A reset state with this staging copy of the cache engine. -/
def ccStaged (c : CcRegs) : State := { State.reset with cc := { State.reset.cc with stage := c } }

theorem witness_CcConfigureChecksThenCommits : (ccState ex1).cc.configured = true ∧
    ¬(ccStaged { ex1 with assoc := 0 }).cc.stage.Legal false ∧ (ccStaged ex1).cc.stage.Legal false :=
  ⟨rfl, fun h => absurd ((CcRegs.legal_iff _ _).2 h) (by decide +kernel), (CcRegs.legal_iff _ _).1 (by decide +kernel)⟩

theorem behind_inv : behind.Inv :=
  have h := decState_inv (c := dec1) (by decide +kernel) (by decide +kernel)
  ⟨h.sys, h.ad, .commit (cc := { State.reset.cc with stage := exBehind }) (by decide +kernel), h.xb⟩

theorem witness_RequestAddressesFollowTheGeometry : ((ccState ex1).cc.configured = true ∧ (ccState ex1).Inv ∧
    (ccState ex1).cc.active.blkSrc = 0) ∧ ((ccState exSector).Inv ∧ (ccState exSector).cc.active.kind = 1) ∧
    behind.cc.configured = true ∧ behind.Inv ∧ behind.cc.active.blkSrc = 1 :=
  ⟨⟨rfl, ex1_inv, rfl⟩, ⟨exSector_inv, rfl⟩, rfl, behind_inv, rfl⟩

/-- Size 0; 30 + 4 bytes of a 32-byte line; a sector mask for the wrong sector; an id in META. -/
theorem witness_AccessChecksComeFirst : (ccState ex1).CcLive ∧ (ccState ex1).Inv ∧
    (ccState ex1).cc.active.offset ((ccState ex1).src 0x101E) % (ccState ex1).cc.active.tagSectorBytes + (4 : ReqSize).toNat >
      (ccState ex1).cc.active.tagSectorBytes ∧
    (1 < (ccState exSector).cc.active.tagSectors ∧ (1 : SectorMask) ≠ (ccState exSector).sm 0x1020) ∧
    missed.Inv ∧ missed.cc.metaTab.lookup (1 : ReqId).toNat = some meta1 :=
  ⟨⟨rfl, rfl⟩, ex1_inv, by decide +kernel, by decide +kernel, missed_inv, by decide +kernel⟩

theorem witness_ProbeAnswersTheRule : (ccState ex1).cc.configured = true ∧ (ccState ex1).Inv ∧ missed.Inv :=
  ⟨rfl, ex1_inv, missed_inv⟩

theorem witness_HitStampsTheLineAndChargesThePort : filled.Accepts 0 0x1010 5 8 ∧ filled.Probed 0x1010 (.hit 0) :=
  ⟨⟨⟨by decide +kernel, by decide +kernel⟩, filled_inv, by decide, by decide +kernel, by decide +kernel, by decide +kernel⟩,
    probed (by decide +kernel)⟩

theorem witness_NoReservableLineIsRejected : missed.Accepts 0 0x2000 4 4 ∧ missed.Probed 0x2000 .reservationFail :=
  ⟨⟨⟨by decide +kernel, by decide +kernel⟩, missed_inv, by decide, by decide +kernel, by decide +kernel, by decide +kernel⟩,
    probed (by decide +kernel)⟩

theorem witness_MshrHitMergesOrIsRejected_merges : missed.Accepts 0 0x1004 2 4 ∧ missed.Probed 0x1004 (.hitReserved 0) ∧
    missed.cc.mshr.lookup (missed.key 0x1004).toNat = some entry1 ∧
    entry1.list.length < missed.cc.active.mshrMaxMerge.toNat :=
  ⟨⟨⟨by decide +kernel, by decide +kernel⟩, missed_inv, by decide, by decide +kernel, by decide +kernel, by decide +kernel⟩,
    probed (by decide +kernel), by decide +kernel, by decide +kernel⟩

theorem witness_MshrHitMergesOrIsRejected_full : merged.Accepts 0 0x1008 3 4 ∧ merged.Probed 0x1008 (.hitReserved 0) ∧
    merged.cc.mshr.lookup (merged.key 0x1008).toNat = some { entry1 with list := [1, 2] } ∧
    merged.cc.active.mshrMaxMerge.toNat ≤ ([1, 2] : List ReqId).length :=
  ⟨⟨⟨by decide +kernel, by decide +kernel⟩, merged_inv, by decide, by decide +kernel, by decide +kernel, by decide +kernel⟩,
    probed (by decide +kernel), by decide +kernel, by decide +kernel⟩

/-- An entry that is ready and not yet drained, its line meanwhile replaced and the replacing line filled. -/
theorem witness_MshrHitMergesOrIsRejected_ready : replaced.Accepts 0 0x1000 3 4 ∧ replaced.Probed 0x1000 (.miss 0) ∧
    replaced.cc.mshr.lookup (replaced.key 0x1000).toNat = some { entry1 with ready := true } :=
  ⟨⟨⟨by decide +kernel, by decide +kernel⟩, replaced_inv, by decide, by decide +kernel, by decide +kernel, by decide +kernel⟩,
    probed (by decide +kernel), by decide +kernel⟩

theorem witness_MshrMissStartsARequestOrIsRejected_queue : (ccState exNoMq).Accepts 0 0x1000 1 4 ∧
    (ccState exNoMq).Probed 0x1000 (.miss 0) ∧ (ccState exNoMq).cc.mshr.lookup ((ccState exNoMq).key 0x1000).toNat = none ∧
    (ccState exNoMq).cc.active.mqSize.toNat ≤ (ccState exNoMq).cc.mq.length :=
  ⟨⟨⟨rfl, rfl⟩, exNoMq_inv, by decide, by decide +kernel, by decide +kernel, by decide +kernel⟩,
    probed (by decide +kernel), by decide +kernel, by decide +kernel⟩

theorem witness_MshrMissStartsARequestOrIsRejected_table : missedFill.Accepts 0 0x2000 4 4 ∧
    missedFill.Probed 0x2000 (.miss 0) ∧ missedFill.cc.mshr.lookup (missedFill.key 0x2000).toNat = none ∧
    missedFill.cc.mq.length < missedFill.cc.active.mqSize.toNat ∧
    missedFill.cc.active.mshrEntries.toNat ≤ missedFill.cc.mshr.length :=
  ⟨⟨⟨by decide +kernel, by decide +kernel⟩, missedFill_inv, by decide, by decide +kernel, by decide +kernel, by decide +kernel⟩,
    probed (by decide +kernel), by decide +kernel, by decide +kernel, by decide +kernel⟩

theorem ex1_accepts (id : ReqId) : (ccState ex1).Accepts 0 0x1000 id 4 :=
  ⟨⟨rfl, rfl⟩, ex1_inv, by decide, by decide +kernel, by decide +kernel, rfl⟩

theorem witness_MshrMissStartsARequestOrIsRejected_starts : (ccState ex1).Accepts 0 0x1000 1 4 ∧
    (ccState ex1).Probed 0x1000 (.miss 0) ∧ (ccState ex1).cc.mshr.lookup ((ccState ex1).key 0x1000).toNat = none ∧
    (ccState ex1).cc.mq.length < (ccState ex1).cc.active.mqSize.toNat ∧
    (ccState ex1).cc.mshr.length < (ccState ex1).cc.active.mshrEntries.toNat :=
  ⟨ex1_accepts 1, probed (by decide +kernel), by decide +kernel, by decide +kernel, by decide +kernel⟩

theorem witness_ClassificationIsTotal : (ccState ex1).Accepts 0 0x1000 1 4 ∧ missed.Accepts 0 0x2000 4 4 :=
  ⟨ex1_accepts 1, witness_NoReservableLineIsRejected.1⟩

theorem witness_SourceScenariosHold_a : (ccState exNoMq).CcLive ∧ (ccState exNoMq).Inv ∧ (ccState exNoMq).cc.active.mqSize = 0 ∧
    (ccState exNoMq).cc.lines = [] ∧ (ccState exNoMq).cc.mshr = [] ∧ (ccState exNoMq).NoReset 3 ∧
    core.run 3 (ccState exNoMq) = .next (ccState exNoMq) ∧ (ccState exNoMq).Accepts 0 0x1000 1 4 :=
  ⟨⟨rfl, rfl⟩, exNoMq_inv, rfl, rfl, rfl, by unfold State.NoReset; decide +kernel, rfl, witness_MshrMissStartsARequestOrIsRejected_queue.1⟩

theorem witness_SourceScenariosHold_b : (ccState ex1).cc.active.kind = 0 ∧ (ccState ex1).cc.active.nsets = 1 ∧
    (ccState ex1).cc.active.assoc = 1 ∧ (ccState ex1).cc.active.lineSz = 32 ∧ (ccState ex1).cc.active.mshrEntries = 1 ∧
    2 ≤ (ccState ex1).cc.active.mshrMaxMerge.toNat ∧ 1 ≤ (ccState ex1).cc.active.mqSize.toNat ∧ (ccState ex1).cc.lines = [] ∧
    (ccState ex1).cc.mshr = [] ∧ (ccState ex1).cc.mq = [] ∧ (ccState ex1).Accepts 0 0x1000 1 4 ∧
    (ccState ex1).Accepts 0 0x1000 2 4 :=
  ⟨rfl, rfl, rfl, rfl, rfl, by decide, by decide, rfl, rfl, rfl, ex1_accepts 1, ex1_accepts 2⟩

/-- No record; a record whose entry is missing; a record that owes four responses. -/
theorem witness_FillChecksAndWaits : (ccState ex1).CcLive ∧ (ccState ex1).cc.metaTab.lookup (9 : ReqId).toNat = none ∧
    (missed.cc.metaTab.lookup (1 : ReqId).toNat = some meta1 ∧
      ({ missed.cc with mshr := [] } : CcState).mshr.lookup meta1.mshrAddr.toNat = none) ∧
    split.CcLive ∧ (split.cc.metaTab.lookup (1 : ReqId).toNat).any (fun e =>
      (split.cc.mshr.lookup e.mshrAddr.toNat).isSome && decide (1 < e.pending)) = true :=
  ⟨⟨rfl, rfl⟩, by decide +kernel, by decide +kernel, ⟨by decide +kernel, by decide +kernel⟩, by decide +kernel⟩

theorem witness_FillCompletesUnderOnMiss : missed.CcLive ∧ missed.Inv ∧
    missed.cc.metaTab.lookup (1 : ReqId).toNat = some meta1 ∧ meta1.pending = 1 ∧ missed.cc.active.apol = 0 :=
  ⟨⟨by decide +kernel, by decide +kernel⟩, missed_inv, by decide +kernel, rfl, by decide +kernel⟩

theorem witness_FillCompletesUnderOnFill : missedFill.CcLive ∧ missedFill.Inv ∧
    missedFill.cc.metaTab.lookup (1 : ReqId).toNat = some meta1 ∧ meta1.pending = 1 ∧ missedFill.cc.active.apol = 1 :=
  ⟨⟨by decide +kernel, by decide +kernel⟩, missedFill_inv, by decide +kernel, rfl, by decide +kernel⟩

theorem witness_ASecondCompletingFillIsFatal : ∃ t, exec (.ccFill false 1 0) missed = .next t ∧
    t.rsp.any (fun r => r.status == .fillDone) = true := nextIs_some (by decide +kernel)

theorem witness_CycleDrainsSamplesAndReplenishes : (ccState ex1).CcLive ∧ (ccState ex1).cc.mq = [] ∧ missed.CcLive ∧
    missed.cc.mq = [{ id := 1, addr := 0x1000, size := 32, isWrite := false }] :=
  ⟨⟨rfl, rfl⟩, rfl, ⟨by decide +kernel, by decide +kernel⟩, by decide +kernel⟩

theorem witness_CountersFallOnePerCycle :
    ((ccState ex1).withInputs ([true, false].map fun d => .cmd (encode (.ccCycle d)))).CcLive ∧
    ((ccState ex1).withInputs ([true, false].map fun d => .cmd (encode (.ccCycle d)))).inputs =
      [true, false].map (fun d => EnvInput.cmd (encode (.ccCycle d))) ++ [] := ⟨⟨rfl, rfl⟩, by simp⟩

theorem witness_CacheQueriesAnswerTheState : (ccState ex1).CcLive ∧ (ccState ex1).cc.mq = [] ∧ missed.CcLive ∧
    missed.cc.mq = [{ id := 1, addr := 0x1000, size := 32, isWrite := false }] :=
  witness_CycleDrainsSamplesAndReplenishes

theorem witness_NextHandsBackOneRequest : (ccState ex1).CcLive ∧ (ccState ex1).cc.readyQ = [] ∧ filled.CcLive ∧ filled.Inv ∧
    filled.cc.readyQ = [0x1000] :=
  ⟨⟨rfl, rfl⟩, rfl, ⟨by decide +kernel, by decide +kernel⟩, filled_inv, by decide +kernel⟩

theorem witness_CacheInvariantsHoldAfterEveryOperation : missed.Inv ∧ ∃ t, exec (.ccFill false 1 0) missed = .next t ∧
    t.rsp.any (fun r => r.status == .fillDone) = true := ⟨missed_inv, witness_ASecondCompletingFillIsFatal⟩

/-! ## Witnesses: crossbar -/

/-- A reset state with this staging copy of the crossbar. -/
def xbStaged (c : XbRegs) : State := { State.reset with xb := { State.reset.xb with stage := c } }

theorem witness_XbConfigureChecksThenCommits : (xbState ex2).xb.configured = true ∧
    (xbStaged { ex2 with nshader := 0xFFFF }).xb.stage.nshader.toNat + (xbStaged { ex2 with nshader := 0xFFFF }).xb.stage.nmem.toNat >
      65535 ∧
    ((xbStaged ex2).xb.configured = false ∧ (xbStaged ex2).xb.stage.subnets ≠ 0 ∧
      (xbStaged ex2).xb.stage.nshader.toNat + (xbStaged ex2).xb.stage.nmem.toNat ≠ 0 ∧
      (xbStaged ex2).xb.stage.nshader.toNat + (xbStaged ex2).xb.stage.nmem.toNat ≤ 65535 ∧ (xbStaged ex2).xb.stage.vcs ≠ 0 ∧
      (xbStaged ex2).xb.stage.classes ≠ 0) := by decide +kernel

theorem witness_DevicesBeyondTheNodesAreRejected : (xbState ex2).XbLive ∧
    (xbState ex2).xb.active.nshader.toNat + (xbState ex2).xb.active.nmem.toNat ≤ (4 : NodeId).toNat := ⟨⟨rfl, rfl⟩, by decide +kernel⟩

theorem witness_HasbufAnswersTheDepth : x5.XbLive ∧ (0 : NodeId).toNat < x5.xb.active.nodes ∧
    (2 : NodeId).toNat < x5.xb.active.nodes ∧
    3 = ((List.range x5.xb.active.vcs.toNat).map fun v => (x5.xb.cell (x5.sendsOn 0) (2 : NodeId).toNat 0 v).length).sum :=
  ⟨⟨rfl, rfl⟩, by decide +kernel, by decide +kernel, by decide +kernel⟩

theorem witness_PushAppendsOrIsFatal :
    ((xbState ex2).XbLive ∧ (0 : NodeId).toNat < (xbState ex2).xb.active.nodes ∧ (3 : NodeId).toNat < (xbState ex2).xb.active.nodes ∧
      (xbState ex2).xb.depth ((xbState ex2).sendsOn 0) (3 : NodeId).toNat 0 < (xbState ex2).xb.active.bufcap.toNat) ∧
    x5.xb.active.bufcap.toNat ≤ x5.xb.depth (x5.sendsOn 0) (2 : NodeId).toNat 0 :=
  ⟨⟨⟨rfl, rfl⟩, by decide +kernel, by decide +kernel, by decide +kernel⟩, by decide +kernel⟩

/-- Every channel empty; the first channel served; a channel behind an empty one served. -/
theorem witness_PopServesTheNextChannel : (xbState ex2).XbLive ∧ (3 : NodeId).toNat < (xbState ex2).xb.active.nodes ∧
    (∀ v, v < (xbState ex2).xb.active.vcs.toNat →
      (xbState ex2).xb.cell ((xbState ex2).receivesOn 3) (3 : NodeId).toNat 0 v = []) ∧
    x5.xb.cell (x5.receivesOn 2) (2 : NodeId).toNat 0 ((x5.xb.turn (x5.receivesOn 2) (2 : NodeId).toNat + 0) % x5.xb.active.vcs.toNat) =
      [1, 2] ∧
    ({ x5.xb with cells := [(cellKey 0 2 0 1, [9])] } : XbState).cell (x5.receivesOn 2) (2 : NodeId).toNat 0
      ((x5.xb.turn (x5.receivesOn 2) (2 : NodeId).toNat + 1) % x5.xb.active.vcs.toNat) = [9] :=
  ⟨⟨rfl, rfl⟩, by decide +kernel, by intro v _; rfl, by decide +kernel, by decide +kernel⟩

theorem witness_CellsAreQueues : ∃ t, exec (.xbPop 2) x5 = .next t ∧ (t.xb.cell 0 2 0 0 == [2]) = true :=
  nextIs_some (by decide +kernel)

theorem witness_TwoChannelsAreServedInTurn : x5.XbLive ∧ (2 : NodeId).toNat < x5.xb.active.nodes ∧ 0 < x5.xb.active.vcs.toNat ∧
    1 < x5.xb.active.vcs.toNat ∧
    ∀ v, v < x5.xb.active.vcs.toNat → (x5.xb.cell (x5.receivesOn 2) (2 : NodeId).toNat 0 v ≠ [] ↔ v = 0 ∨ v = 1) := by
  refine ⟨⟨rfl, rfl⟩, by decide +kernel, by decide +kernel, by decide +kernel, ?_⟩
  have h : ∀ v : Fin 2, (x5.xb.cell (x5.receivesOn 2) (2 : NodeId).toNat 0 v ≠ [] ↔ v.val = 0 ∨ v.val = 1) := by decide +kernel
  exact fun v hv => h ⟨v, hv⟩

theorem witness_PayloadsReachTheOtherKind : (xbState ex2).XbLive ∧ (xbState ex2).Inv ∧ (xbState ex2).xb.active.bufcap ≠ 0 ∧
    ((0 : NodeId).toNat < (xbState ex2).xb.active.nshader.toNat ∧ (xbState ex2).xb.active.nshader.toNat ≤ (2 : NodeId).toNat) ∧
    (xbState ex2).xb.cell ((xbState ex2).sendsOn 0) (2 : NodeId).toNat 0 0 = [] ∧ x5.xb.active.subnets ≠ 1 ∧
    ∃ t, exec (.xbPop 2) x5 = .next t ∧ (t.xb.cell 0 2 0 0 == [2]) = true :=
  ⟨⟨rfl, rfl⟩, xbState_inv (by decide +kernel), by decide +kernel, by decide +kernel, by decide +kernel, by decide +kernel,
    witness_CellsAreQueues⟩

theorem witness_HasbufAnswersStayTrue : (∃ t, exec (.xbHasbuf 0 2 0 8) (xbState ex2) = .next t ∧
      t.rsp.any (fun r => r.status == .ok && r.aux == 1) = true) ∧
    (xbState ex2).XbLive ∧ (xbState ex2).Inv ∧ (xbState ex2).xb.depth 0 3 0 < (xbState ex2).xb.active.bufcap.toNat ∧
    ∃ t, exec (.xbPush 1 3 7 8) (xbState ex2) = .next t ∧ (t.xb.depth 0 3 0 == 1) = true :=
  ⟨nextIs_some (by decide +kernel), ⟨rfl, rfl⟩, xbState_inv (by decide +kernel), by decide +kernel, nextIs_some (by decide +kernel)⟩

theorem witness_EveryStepGoesOnAndKeepsTheInvariant : missed.Inv ∧ filled.Inv ∧ behind.Inv :=
  ⟨missed_inv, filled_inv, behind_inv⟩

end Sys2Proof.Tests
end

section
/-! Bit `p` of `pext` and `pdep` by the number of mask bits below it (00_scope.md rule R11). -/

namespace Sys2Proof.Machine

/-! ## The rank of a mask bit -/

/-- The 1 bits of `m` below position `p`, listed, are as many as `popcount` counts in the low `p` bits. -/
theorem length_filter_testBit (m p : Nat) : ((List.range p).filter m.testBit).length = popcountNat p m := by
  induction p generalizing m with
  | zero => rfl
  | succ p ih =>
    have shift : m.testBit ∘ Nat.succ = (m / 2).testBit := funext fun i => Nat.testBit_succ m i
    rw [popcountNat_succ, ← ih, List.range_succ_eq_map, List.filter_cons, List.filter_map, shift, Nat.testBit_zero]
    rcases Nat.mod_two_eq_zero_or_one m with h | h <;> simp [h, Nat.add_comm]

theorem rankBelow_eq_popcountNat (m : Reg64) (p : Nat) : rankBelow m p = popcountNat p m.toNat :=
  length_filter_testBit m.toNat p

/-! ## A number by its lowest bit and the rest -/

theorem testBit_bit_add_double_zero (b x : Nat) : (b % 2 + 2 * x).testBit 0 = b.testBit 0 := by
  simp only [Nat.testBit_zero, Nat.add_mul_mod_self_left, Nat.mod_mod]

theorem testBit_bit_add_double_succ (b x j : Nat) : (b % 2 + 2 * x).testBit (j + 1) = x.testBit j := by
  rw [Nat.testBit_succ, show (b % 2 + 2 * x) / 2 = x by omega]

/-! ## pext and pdep, bit by bit -/

/-- `pext` moves the bit at a 1 bit of the mask to that bit's rank (R11). -/
theorem testBit_pextNat {w m p : Nat} (v : Nat) (hp : p < w) (hm : m.testBit p = true) :
    (pextNat w m v).testBit (popcountNat p m) = v.testBit p := by
  induction w generalizing m v p with
  | zero => omega
  | succ w ih =>
    rw [pextNat_succ]
    cases p with
    | zero =>
      have h : m % 2 = 1 := by simpa [Nat.testBit_zero] using hm
      rw [if_pos h]
      exact testBit_bit_add_double_zero _ _
    | succ p =>
      rw [Nat.testBit_succ] at hm
      have rest := ih (v / 2) (by omega : p < w) hm
      rw [popcountNat_succ, Nat.testBit_succ v]
      split_ifs with h
      · rw [h, Nat.add_comm 1, testBit_bit_add_double_succ, rest]
      · rw [show m % 2 = 0 by omega, Nat.zero_add, rest]

/-- `pdep` takes the bit at a 1 bit of the mask from that bit's rank, and has no bit elsewhere (R11). -/
theorem testBit_pdepNat {w p : Nat} (m x : Nat) (hp : p < w) :
    (pdepNat w m x).testBit p = (m.testBit p && x.testBit (popcountNat p m)) := by
  induction w generalizing m x p with
  | zero => omega
  | succ w ih =>
    rw [pdepNat_succ]
    cases p with
    | zero => split_ifs with h <;> simp [Nat.testBit_zero, popcountNat, h]
    | succ p =>
      have hp : p < w := by omega
      rw [popcountNat_succ, Nat.testBit_succ m]
      split_ifs with h
      · rw [testBit_bit_add_double_succ, ih _ _ hp, h, Nat.add_comm 1, Nat.testBit_succ x]
      · rw [show m % 2 = 0 by omega, Nat.zero_add, Nat.testBit_succ, Nat.mul_div_cancel_left _ (by omega), ih _ _ hp]

theorem testBit_pext {m : Reg64} {p : Nat} (v : Reg64) (hp : p < 64) (hm : m.getLsbD p = true) :
    (pext m v).testBit (rankBelow m p) = v.getLsbD p := by
  rw [rankBelow_eq_popcountNat]
  exact testBit_pextNat v.toNat hp hm

theorem getLsbD_pdep (m : Reg64) (x : Nat) {p : Nat} (hp : p < 64) :
    (pdep m x).getLsbD p = (m.getLsbD p && x.testBit (rankBelow m p)) := by
  rw [rankBelow_eq_popcountNat, pdep, BitVec.getLsbD_ofNat, testBit_pdepNat _ _ hp]
  simp [hp, BitVec.getLsbD]

/-- Settles O20: the bound and the round trip are laws of `pext` and `pdep`, the two places are read off bit by bit. -/
theorem packedBitsKeepTheirOrder : Obligations.PackedBitsKeepTheirOrder := fun m v =>
  ⟨pext_lt m v, fun _ => testBit_pext v, fun x _ => getLsbD_pdep m x, pdep_pext m v⟩

end Sys2Proof.Machine
end

section
/-! The decoder on an encoded command (30_encoding.md rules R81, R82, R85): the opcode picks the row, the row's format
checks pass. -/

namespace Sys2Proof

/-- The format of each command (R82, R85). -/
def Instr.format : Instr → Format
  | .csrr _ => .rRead
  | .csrw _ _ => .rWrite
  | .adDecode _ | .adPaddr _ => .a
  | .adSweep _ _ _ => .s
  | .ccAccess _ _ _ _ _ _ => .q
  | .ccFill _ _ _ => .f
  | .ccCycle _ => .c
  | .xbHasbuf _ _ _ _ | .xbPush _ _ _ _ => .x
  | .xbPop _ => .p
  | .nop | .adConfigure | .ccConfigure | .ccDpfree | .ccFpfree | .ccReady | .ccNext | .ccMqhead | .xbConfigure | .xbAdvance
  | .xbBusy => .z

/-- The decoder reads a command's own format and operands from its word. (The flag bits stay spelled `getLsbD`, as in
`flagBits_bit0`.) -/
theorem decode_encode_eq_checkFormat (i : Instr) : decode (encode i) = checkFormat i.format (encode i) i := by
  cases i <;> simp [decode, encode, Instr.format, -BitVec.getLsbD_eq_getElem]

@[simp] theorem encode_rsv (i : Instr) : (encode i).rsv = 0 := by
  cases i <;> exact cmdWord_rsv ..

theorem encode_unusedZero (i : Instr) : i.format.unusedZero (encode i) = true := by
  cases i <;> simp [encode, Instr.format, Format.unusedZero]

theorem encode_mustBeZero (i : Instr) : i.format.mustBeZero (encode i) = true := by
  cases i <;> simp [encode, Instr.format, Format.mustBeZero]

@[simp] theorem decode_encode (i : Instr) : decode (encode i) = .ok i := by
  rw [decode_encode_eq_checkFormat]
  exact checkFormat_ok.2 ⟨encode_rsv i, encode_unusedZero i, encode_mustBeZero i, rfl⟩

end Sys2Proof
end

section
/-! One step by the input at the head (00_scope.md rules R2, R13; 60_exceptions.md rule R223). -/

namespace Sys2Proof.Machine

/-! ## One command word -/

theorem runCmd_legal {w : CmdWord} {i : Instr} (h : decode w = .ok i) (s : State) : runCmd w s = exec i s := by
  rw [runCmd, h]

theorem runCmd_illegal {w : CmdWord} (h : ¬∃ i, decode w = .ok i) (s : State) :
    runCmd w s = .next (s.answering { status := .illegalOp }) := by
  cases e : decode w with
  | ok i => exact absurd ⟨i, e⟩ h
  | error _ => rw [runCmd, e]; rfl

/-! ## One step -/

theorem step_of_no_input {s : State} (h : s.inputs = []) : step s = .next s := by
  rw [step, h]; rfl

theorem step_of_cmd {s : State} {w : CmdWord} {rest : List EnvInput} (h : s.inputs = .cmd w :: rest) :
    step s = runCmd w (s.withInputs rest) := by
  rw [step, h]

theorem step_of_reset {s : State} {rest : List EnvInput} (h : s.inputs = .reset :: rest) :
    step s = .next (s.withInputs rest).resetPulse := by
  rw [step, h]

/-- A presented word is the next command, and taking it restores the state. -/
theorem step_withFetchWord (s : State) (w : CmdWord) : step (s.withFetchWord 192 w.toNat) = runCmd w s := by
  have word : BitVec.ofNat 192 (w.toNat % 2 ^ 192) = w := by rw [Nat.mod_eq_of_lt w.isLt, BitVec.ofNat_toNat, BitVec.setWidth_eq]
  have head : (s.withFetchWord 192 w.toNat).inputs = .cmd w :: s.inputs := by
    rw [State.withFetchWord, withInputs_inputs, word]
  exact step_of_cmd head

/-- Settles O6, one lemma for each kind of input at the head; the encoded command decodes to itself. -/
theorem aStepRunsTheNextInput : Obligations.AStepRunsTheNextInput := by
  refine ⟨fun s => step_of_no_input, fun s w rest i hin hdec => ?legal, fun s w rest hin hdec => ?illegal,
    fun s rest => step_of_reset, fun s i => ?fetch⟩
  case legal => rw [step_of_cmd hin, runCmd_legal hdec]
  case illegal => rw [step_of_cmd hin, runCmd_illegal hdec]
  case fetch => rw [step_withFetchWord, runCmd_legal (decode_encode i)]

end Sys2Proof.Machine
end

section
/-! The staging registers of 10_state.md rule R26 carried through an operation: no operation but CSRR, CSRW and the three
CONFIGURE reads or writes them (R26, R74). Each lemma `_withStages` says of a shared check or of an operation that in the
state with other staging registers it ends as before, with those registers in the next state. -/

namespace Sys2Proof.Machine

variable {s : State} {k k' l l' : Outcome} {a : AdRegs} {c : CcRegs} {x : XbRegs}

/-- The cache state with another staging copy (R26). -/
def CcState.withStage (cc : CcState) (c : CcRegs) : CcState := { cc with stage := c }

/-- The crossbar state with another staging copy (R26). -/
def XbState.withStage (xb : XbState) (x : XbRegs) : XbState := { xb with stage := x }

/-! ## What the state shows with other staging registers -/

@[simp] theorem withStages_sys : (s.withStages a c x).sys = s.sys := rfl
@[simp] theorem withStages_cc : (s.withStages a c x).cc = s.cc.withStage c := rfl
@[simp] theorem withStages_xb : (s.withStages a c x).xb = s.xb.withStage x := rfl
@[simp] theorem withStages_rsp : (s.withStages a c x).rsp = s.rsp := rfl
@[simp] theorem withStages_inputs : (s.withStages a c x).inputs = s.inputs := rfl
@[simp] theorem withStages_run : (s.withStages a c x).run = s.run := rfl
@[simp] theorem withStages_adStage : (s.withStages a c x).ad.stage = a := rfl
@[simp] theorem withStages_adDiag : (s.withStages a c x).ad.diag = s.ad.diag := rfl
@[simp] theorem withStages_adConfigured : (s.withStages a c x).ad.configured = s.ad.configured := rfl
@[simp] theorem withStages_adActive : (s.withStages a c x).ad.active = s.ad.active := rfl

@[simp] theorem ccWithStage_stage (cc : CcState) : (cc.withStage c).stage = c := rfl
@[simp] theorem ccWithStage_configured (cc : CcState) : (cc.withStage c).configured = cc.configured := rfl
@[simp] theorem ccWithStage_active (cc : CcState) : (cc.withStage c).active = cc.active := rfl
@[simp] theorem ccWithStage_lines (cc : CcState) : (cc.withStage c).lines = cc.lines := rfl
@[simp] theorem ccWithStage_mshr (cc : CcState) : (cc.withStage c).mshr = cc.mshr := rfl
@[simp] theorem ccWithStage_readyQ (cc : CcState) : (cc.withStage c).readyQ = cc.readyQ := rfl
@[simp] theorem ccWithStage_mq (cc : CcState) : (cc.withStage c).mq = cc.mq := rfl
@[simp] theorem ccWithStage_metaTab (cc : CcState) : (cc.withStage c).metaTab = cc.metaTab := rfl
@[simp] theorem ccWithStage_dpBusy (cc : CcState) : (cc.withStage c).dpBusy = cc.dpBusy := rfl
@[simp] theorem ccWithStage_fpBusy (cc : CcState) : (cc.withStage c).fpBusy = cc.fpBusy := rfl
@[simp] theorem ccWithStage_now (cc : CcState) : (cc.withStage c).now = cc.now := rfl

@[simp] theorem xbWithStage_stage (xb : XbState) : (xb.withStage x).stage = x := rfl
@[simp] theorem xbWithStage_configured (xb : XbState) : (xb.withStage x).configured = xb.configured := rfl
@[simp] theorem xbWithStage_active (xb : XbState) : (xb.withStage x).active = xb.active := rfl
@[simp] theorem xbWithStage_cells (xb : XbState) : (xb.withStage x).cells = xb.cells := rfl
@[simp] theorem xbWithStage_turns (xb : XbState) : (xb.withStage x).turns = xb.turns := rfl
@[simp] theorem xbWithStage_cell (xb : XbState) (sub d q v : Nat) : (xb.withStage x).cell sub d q v = xb.cell sub d q v := rfl
@[simp] theorem xbWithStage_served (xb : XbState) (sub d : Nat) : (xb.withStage x).served sub d = xb.served sub d := rfl

/-! ## The updates of the cache state that branch -/

/-- The classification of a read request carries the staging copy along, whatever it finds (R150 step 3). -/
theorem classify_withStage (cc : CcState) (r : ReadReq) :
    (cc.withStage c).classify r = (cc.classify r).map (·.withStage c) id := by
  have probed : (cc.withStage c).probeFor r = cc.probeFor r := rfl
  unfold CcState.classify
  simp only [probed, ccWithStage_active, ccWithStage_mshr]
  split
  · rfl
  · rfl
  · split <;> simp only [apply_ite (Prod.map _ _)] <;> rfl

theorem handBack_withStage (cc : CcState) (key : Addr) (keys : List Addr) (m : MshrEntry) (rest : List ReqId) :
    (cc.withStage c).handBack key keys m rest = (cc.handBack key keys m rest).withStage c := by
  unfold CcState.handBack
  split_ifs <;> rfl

/-! ## The shared operations (R12, R222, R223) -/

theorem respond_withStages (r : Rsp) :
    respond r (s.withStages a c x) = mapNext (·.withStages a c x) (respond r s) := rfl

theorem reject_withStages (st : Status) :
    reject st (s.withStages a c x) = mapNext (·.withStages a c x) (reject st s) := rfl

theorem raiseFatal_withStages (cause : FatalCause) (info : Reg64) :
    raiseFatal cause info (s.withStages a c x) = mapNext (·.withStages a c x) (raiseFatal cause info s) := rfl

theorem finishCc_withStages (cc : CcState) (r : Rsp) :
    finishCc (s.withStages a c x) (cc.withStage c) r = mapNext (·.withStages a c x) (finishCc s cc r) := rfl

theorem finishXb_withStages (xb : XbState) (r : Rsp) :
    finishXb (s.withStages a c x) (xb.withStage x) r = mapNext (·.withStages a c x) (finishXb s xb r) := rfl

theorem ite_withStages {p : Prop} [Decidable p] (hk : k' = mapNext (·.withStages a c x) k)
    (hl : l' = mapNext (·.withStages a c x) l) :
    (if p then k' else l') = mapNext (·.withStages a c x) (if p then k else l) := by
  rw [hk, hl, apply_ite (mapNext _)]

theorem unlessFatal_withStages (h : k' = mapNext (·.withStages a c x) k) :
    unlessFatal (s.withStages a c x) k' = mapNext (·.withStages a c x) (unlessFatal s k) :=
  ite_withStages (reject_withStages _) h

theorem ifConfigured_withStages (b : Bool) (h : k' = mapNext (·.withStages a c x) k) :
    ifConfigured b (s.withStages a c x) k' = mapNext (·.withStages a c x) (ifConfigured b s k) :=
  ite_withStages h (reject_withStages _)

theorem ccOp_withStages (h : k' = mapNext (·.withStages a c x) k) :
    ccOp (s.withStages a c x) k' = mapNext (·.withStages a c x) (ccOp s k) :=
  unlessFatal_withStages (ifConfigured_withStages _ h)

theorem xbOp_withStages (h : k' = mapNext (·.withStages a c x) k) :
    xbOp (s.withStages a c x) k' = mapNext (·.withStages a c x) (xbOp s k) :=
  unlessFatal_withStages (ifConfigured_withStages _ h)

theorem ifNodes_withStages (ds : List NodeId) (h : k' = mapNext (·.withStages a c x) k) :
    ifNodes ds (s.withStages a c x) k' = mapNext (·.withStages a c x) (ifNodes ds s k) :=
  ite_withStages h (reject_withStages _)

theorem withIndexing_withStages (h : k' = mapNext (·.withStages a c x) k) :
    withIndexing (s.withStages a c x) k' = mapNext (·.withStages a c x) (withIndexing s k) :=
  ite_withStages rfl h

/-! ## The operations that branch on the state -/

theorem execAdSweep_withStages (base : Addr) (count stride : BitVec 32) :
    execAdSweep base count stride (s.withStages a c x) =
      mapNext (·.withStages a c x) (execAdSweep base count stride s) := by
  refine unlessFatal_withStages <| ite_withStages (reject_withStages _) <| ifConfigured_withStages _ <|
    ite_withStages (reject_withStages _) <| withIndexing_withStages ?_
  simp only [withStages_adActive, withStages_run]
  split
  · exact raiseFatal_withStages _ _
  · exact respond_withStages _

theorem execCcAccess_withStages (isWrite isAtomic : Bool) (smask : SectorMask) (addr : Addr) (id : ReqId) (size : ReqSize) :
    execCcAccess isWrite isAtomic smask addr id size (s.withStages a c x) =
      mapNext (·.withStages a c x) (execCcAccess isWrite isAtomic smask addr id size s) := by
  refine ccOp_withStages <| ite_withStages (reject_withStages _) <| ite_withStages (reject_withStages _) ?_
  rw [withStages_cc, classify_withStage]
  exact finishCc_withStages _ _

theorem fillFound_withStages (r : ReqId) (e : MetaRec) (m : MshrEntry) :
    fillFound (s.withStages a c x) r e m = mapNext (·.withStages a c x) (fillFound s r e m) :=
  ite_withStages (finishCc_withStages (s.cc.waitFill r e) _) <| ite_withStages rfl <| ite_withStages rfl <|
    finishCc_withStages (s.cc.completeFill r e m _) _

theorem execCcFill_withStages (hasParent : Bool) (id parent : ReqId) :
    execCcFill hasParent id parent (s.withStages a c x) =
      mapNext (·.withStages a c x) (execCcFill hasParent id parent s) := by
  refine ccOp_withStages ?_
  simp only [withStages_cc, ccWithStage_metaTab, ccWithStage_mshr]
  split
  · exact raiseFatal_withStages _ _
  · split
    · exact raiseFatal_withStages _ _
    · exact fillFound_withStages _ _ _

theorem execCcCycle_withStages (dsOk : Bool) :
    execCcCycle dsOk (s.withStages a c x) = mapNext (·.withStages a c x) (execCcCycle dsOk s) := by
  refine ccOp_withStages ?_
  simp only [withStages_cc, ccWithStage_mq]
  split <;> rfl

theorem execCcNext_withStages :
    execCcNext (s.withStages a c x) = mapNext (·.withStages a c x) (execCcNext s) := by
  refine ccOp_withStages ?_
  simp only [withStages_cc, ccWithStage_readyQ, ccWithStage_mshr, handBack_withStage]
  split
  · rfl
  · split
    · rfl
    · split <;> rfl

theorem execCcMqhead_withStages :
    execCcMqhead (s.withStages a c x) = mapNext (·.withStages a c x) (execCcMqhead s) := by
  refine ccOp_withStages ?_
  simp only [withStages_cc, ccWithStage_mq]
  split <;> rfl

theorem execXbPush_withStages (src dst : NodeId) (payload : Payload) (size : ReqSize) :
    execXbPush src dst payload size (s.withStages a c x) =
      mapNext (·.withStages a c x) (execXbPush src dst payload size s) :=
  xbOp_withStages <| ifNodes_withStages _ <| ite_withStages (raiseFatal_withStages _ _) <|
    finishXb_withStages (s.xb.push _ _ payload) _

theorem execXbPop_withStages (dev : NodeId) :
    execXbPop dev (s.withStages a c x) = mapNext (·.withStages a c x) (execXbPop dev s) := by
  refine xbOp_withStages (ifNodes_withStages _ ?_)
  simp only [withStages_xb, xbWithStage_active, xbWithStage_served, xbWithStage_cell]
  split
  · rfl
  · split <;> rfl

/-- Settles O12, by cases on the command: five are excluded, every other one carries the staging registers through. -/
theorem stagingRegistersHaveNoOtherEffect : Obligations.StagingRegistersHaveNoOtherEffect := by
  intro i s a c x notCsrr notCsrw notAd notCc notXb
  cases i with
  | csrr r => exact absurd rfl (notCsrr r)
  | csrw r v => exact absurd rfl (notCsrw r v)
  | adConfigure => exact absurd rfl notAd
  | ccConfigure => exact absurd rfl notCc
  | xbConfigure => exact absurd rfl notXb
  | nop => exact respond_withStages _
  | adDecode _ =>
    exact unlessFatal_withStages (ifConfigured_withStages _ (withIndexing_withStages (respond_withStages _)))
  | adPaddr _ => exact unlessFatal_withStages (ifConfigured_withStages _ (respond_withStages _))
  | adSweep base count stride => exact execAdSweep_withStages base count stride
  | ccAccess isWrite isAtomic smask addr id size => exact execCcAccess_withStages isWrite isAtomic smask addr id size
  | ccFill hasParent id parent => exact execCcFill_withStages hasParent id parent
  | ccCycle dsOk => exact execCcCycle_withStages dsOk
  | ccDpfree | ccFpfree | ccReady => exact ccOp_withStages (respond_withStages _)
  | ccNext => exact execCcNext_withStages
  | ccMqhead => exact execCcMqhead_withStages
  | xbHasbuf _ _ _ _ => exact xbOp_withStages (ifNodes_withStages _ (respond_withStages _))
  | xbPush src dst payload size => exact execXbPush_withStages src dst payload size
  | xbPop dev => exact execXbPop_withStages dev
  | xbAdvance | xbBusy => exact xbOp_withStages (respond_withStages _)

end Sys2Proof.Machine
end

section
/-! Words as bytes and as fields: a command word through its 24 bytes (20_memory.md rule R63), the response word by its
fields, its 32 bytes and its status codes (30_encoding.md rules R83, R84). -/

namespace Sys2Proof

/-! ## Command words -/

@[simp] theorem decodeBytes_bytesOfCmd (w : CmdWord) : decodeBytes (bytesOfCmd w) = decode w := by
  have length : (bytesOfCmd w).length = 24 := wordBytes_length 24 w
  rw [decodeBytes, if_pos length, natOfBytes_bytesOfCmd]

theorem decodeBytes_of_length_ne {bs : List Byte} (h : bs.length ≠ 24) : decodeBytes bs = .error .wrongLength := by
  rw [decodeBytes, if_neg h]

/-- The table's reading of a whole command word is the decoder's. -/
theorem decodeTableWord_toNat (w : CmdWord) : decodeTableWord 192 w.toNat = (decode w).toOption := by
  have word : BitVec.ofNat 192 (w.toNat % 2 ^ 192) = w := by
    rw [Nat.mod_eq_of_lt w.isLt, BitVec.ofNat_toNat, BitVec.setWidth_eq]
  rw [decodeTableWord, if_pos le_rfl, word, decodeBytes_bytesOfCmd]
  cases decode w <;> rfl

/-- Settles O7: the byte layout and the way back are laws of the serialisation, an encoded command decodes to itself. -/
theorem serialisedCommandsDecodeAlike : Obligations.SerialisedCommandsDecodeAlike :=
  ⟨fun w _ => wordBytes_getElem? w, decodeBytes_bytesOfCmd, fun _ => decodeBytes_of_length_ne,
    fun i => by rw [decodeTableWord_toNat, decode_encode]; rfl⟩

end Sys2Proof

namespace Sys2Proof.Machine

/-! ## Response words -/

/-- Appended words as naturals: the left one counts above the right one's bits. -/
theorem toNat_append_eq_add {m n : Nat} (x : BitVec m) (y : BitVec n) : (x ++ y).toNat = 2 ^ n * x.toNat + y.toNat := by
  rw [BitVec.toNat_append, Nat.shiftLeft_eq, Nat.mul_comm, Nat.two_pow_add_eq_or_of_lt y.isLt]

theorem rsp_word_toNat (r : Rsp) : r.word.toNat =
    r.status.code.toNat + 2 ^ 8 * r.aux.toNat + 2 ^ 64 * r.q0.toNat + 2 ^ 128 * r.q1.toNat + 2 ^ 192 * r.q2.toNat := by
  simp only [Rsp.word, toNat_append_eq_add, BitVec.toNat_ofNat, Nat.zero_mod]
  omega

/-- A response word read back from its 32 bytes. -/
theorem natOfBytes_rspBytes (r : Rsp) : BitVec.ofNat 256 (natOfBytes r.bytes) = r.word := by
  rw [Rsp.bytes, natOfBytes_wordBytes (n := 32), BitVec.ofNat_toNat, BitVec.setWidth_eq]

/-- Settles O8: the fields as naturals, the layout and the way back as for command words, the codes read off the table. -/
theorem responseWordHasItsFields : Obligations.ResponseWordHasItsFields :=
  ⟨rsp_word_toNat, fun r => ⟨wordBytes_length 32 r.word, fun _ => wordBytes_getElem? r.word, natOfBytes_rspBytes r⟩,
    by decide⟩

end Sys2Proof.Machine
end

section
/-! The commands that change no state (20_memory.md rule R66): they answer and do nothing else, and no command reads the
answer before it. -/

namespace Sys2Proof.Machine

variable {s : State} {k : Outcome}

/-- The outcome, if it is a next state, differs from this state in the response alone. -/
def AnswersOnly (s : State) (k : Outcome) : Prop := ∀ t, k = .next t → ∃ r, t = s.answering r

/-- A register write followed by an answer leaves nothing of an answer before it. -/
theorem respond_csrWrite_answering (r q : Rsp) (v : Reg64) (x : Csr) :
    respond q (csrWrite v (s.answering r) x) = respond q (csrWrite v s x) := by
  cases x <;> rfl

theorem execCsrw_answering (csr : CsrAddr) (v : Reg64) (r : Rsp) : execCsrw csr v (s.answering r) = execCsrw csr v s := by
  simp only [execCsrw, respond_csrWrite_answering]
  rfl

/-- No command reads the response port, and each replaces it whole (R20, log 2). -/
theorem exec_answering (i : Instr) (s : State) (r : Rsp) : exec i (s.answering r) = exec i s := by
  cases i with
  | csrw csr v => exact execCsrw_answering csr v r
  | _ => rfl

theorem respond_answersOnly (r : Rsp) : AnswersOnly s (respond r s) := by
  rintro t ⟨⟩
  exact ⟨r, rfl⟩

theorem unlessFatal_answersOnly (h : AnswersOnly s k) : AnswersOnly s (unlessFatal s k) := by
  intro t ht
  obtain ⟨-, rfl⟩ | ⟨-, ht⟩ := unlessFatal_next ht
  · exact ⟨_, rfl⟩
  · exact h t ht

theorem ifConfigured_answersOnly (b : Bool) (h : AnswersOnly s k) : AnswersOnly s (ifConfigured b s k) := by
  intro t ht
  obtain ⟨-, rfl⟩ | ⟨-, ht⟩ := ifConfigured_next ht
  · exact ⟨_, rfl⟩
  · exact h t ht

theorem ifNodes_answersOnly (ds : List NodeId) (h : AnswersOnly s k) : AnswersOnly s (ifNodes ds s k) := by
  intro t ht
  obtain rfl | ⟨-, ht⟩ := ifNodes_next ht
  · exact ⟨_, rfl⟩
  · exact h t ht

theorem withIndexing_answersOnly (h : AnswersOnly s k) : AnswersOnly s (withIndexing s k) :=
  fun t ht => h t (withIndexing_next ht).2

theorem ccOp_answersOnly (h : AnswersOnly s k) : AnswersOnly s (ccOp s k) :=
  unlessFatal_answersOnly (ifConfigured_answersOnly _ h)

theorem xbOp_answersOnly (h : AnswersOnly s k) : AnswersOnly s (xbOp s k) :=
  unlessFatal_answersOnly (ifConfigured_answersOnly _ h)

theorem execCsrr_answersOnly (csr : CsrAddr) : AnswersOnly s (execCsrr csr s) := by
  unfold execCsrr
  split
  · exact respond_answersOnly _
  · exact respond_answersOnly _

theorem execCcMqhead_answersOnly : AnswersOnly s (execCcMqhead s) := by
  refine ccOp_answersOnly ?_
  split
  · exact respond_answersOnly _
  · exact respond_answersOnly _

/-- A command that only answers, given again at once, answers the same and changes nothing. -/
theorem exec_again {i : Instr} (h : AnswersOnly s (exec i s)) {t : State} (ht : exec i s = .next t) :
    (∃ r, t = s.answering r) ∧ exec i t = .next t := by
  obtain ⟨r, rfl⟩ := h t ht
  exact ⟨⟨r, rfl⟩, by rw [exec_answering, ht]⟩

/-- Settles O17: each of the commands of R66 only answers. -/
theorem readOnlyCommandsAreIdempotent : Obligations.ReadOnlyCommandsAreIdempotent := by
  intro i s t hi
  refine exec_again ?_
  rcases hi with rfl | ⟨csr, rfl⟩ | ⟨a, rfl⟩ | ⟨a, rfl⟩ | rfl | rfl | rfl | rfl | ⟨a, b, p, z, rfl⟩ | rfl | rfl
  · exact respond_answersOnly _
  · exact execCsrr_answersOnly csr
  · exact unlessFatal_answersOnly (ifConfigured_answersOnly _ (withIndexing_answersOnly (respond_answersOnly _)))
  · exact unlessFatal_answersOnly (ifConfigured_answersOnly _ (respond_answersOnly _))
  · exact ccOp_answersOnly (respond_answersOnly _)
  · exact ccOp_answersOnly (respond_answersOnly _)
  · exact ccOp_answersOnly (respond_answersOnly _)
  · exact execCcMqhead_answersOnly
  · exact xbOp_answersOnly (ifNodes_answersOnly _ (respond_answersOnly _))
  · exact xbOp_answersOnly (respond_answersOnly _)
  · exact xbOp_answersOnly (respond_answersOnly _)

end Sys2Proof.Machine
end

section
/-! The three blocks side by side (20_memory.md rule R71; 00_scope.md rule R13). Each block's commands are run in a state
whose other blocks, pending inputs and run number are taken from a second state: they end as before, and what was taken from
the second state stands in the next state. Taking it from the state itself says that the commands leave it unchanged. -/

namespace Sys2Proof.Machine

variable {s o : State} {f : State → State} {k k' l l' : Outcome}

/-! ## The unit of a command -/

/-- The unit of each command (R81, R85). -/
def commandUnit : Instr → Nat
  | .nop | .csrr _ | .csrw _ _ => 0
  | .adConfigure | .adDecode _ | .adPaddr _ | .adSweep _ _ _ => 1
  | .ccConfigure | .ccAccess _ _ _ _ _ _ | .ccFill _ _ _ | .ccCycle _ | .ccDpfree | .ccFpfree | .ccReady | .ccNext
  | .ccMqhead => 2
  | .xbConfigure | .xbHasbuf _ _ _ _ | .xbPush _ _ _ _ | .xbPop _ | .xbAdvance | .xbBusy => 3

/-- The unit read off the encoded opcode is the command's (R81). -/
theorem unitOf_eq_commandUnit (i : Instr) : unitOf i = commandUnit i := by
  cases i <;> simp [unitOf, encode, commandUnit]

/-! ## One block of a state in the rest of another -/

/-- The decoder of `s`, with its system registers and response, in the rest of `o`. -/
def State.adWithin (s o : State) : State := { o with sys := s.sys, ad := s.ad, rsp := s.rsp }

/-- The cache engine of `s`, with its system registers and response, in the rest of `o`. -/
def State.ccWithin (s o : State) : State := { o with sys := s.sys, cc := s.cc, rsp := s.rsp }

/-- The crossbar of `s`, with its system registers and response, in the rest of `o`. -/
def State.xbWithin (s o : State) : State := { o with sys := s.sys, xb := s.xb, rsp := s.rsp }

@[simp] theorem adWithin_ad (s o : State) : (s.adWithin o).ad = s.ad := rfl
@[simp] theorem adWithin_run (s o : State) : (s.adWithin o).run = o.run := rfl
@[simp] theorem ccWithin_cc (s o : State) : (s.ccWithin o).cc = s.cc := rfl
@[simp] theorem ccWithin_ad (s o : State) : (s.ccWithin o).ad = o.ad := rfl
@[simp] theorem xbWithin_xb (s o : State) : (s.xbWithin o).xb = s.xb := rfl

/-! ## The shared operations (R12, R222, R223) carry a change they do not see -/

/-- The change `f` concerns neither the system registers nor the response. -/
structure BesidePort (f : State → State) : Prop where
  sys    : ∀ s, (f s).sys = s.sys
  answer : ∀ s y r, f { s with sys := y, rsp := r } = { f s with sys := y, rsp := r }

theorem adWithin_besidePort (o : State) : BesidePort (·.adWithin o) := ⟨fun _ => rfl, fun _ _ _ => rfl⟩
theorem ccWithin_besidePort (o : State) : BesidePort (·.ccWithin o) := ⟨fun _ => rfl, fun _ _ _ => rfl⟩
theorem xbWithin_besidePort (o : State) : BesidePort (·.xbWithin o) := ⟨fun _ => rfl, fun _ _ _ => rfl⟩

theorem ite_mapNext {p : Prop} [Decidable p] (hk : k' = mapNext f k) (hl : l' = mapNext f l) :
    (if p then k' else l') = mapNext f (if p then k else l) := by
  rw [hk, hl, apply_ite (mapNext f)]

section
variable (hf : BesidePort f)
include hf

theorem respond_mapNext (r : Rsp) : respond r (f s) = mapNext f (respond r s) := by
  rw [respond_eq, respond_eq, mapNext, hf.answer s s.sys (some r), ← hf.sys s]

theorem raiseFatal_mapNext (c : FatalCause) (info : Reg64) : raiseFatal c info (f s) = mapNext f (raiseFatal c info s) :=
  congrArg Host.Outcome.next (hf.answer s _ _).symm

theorem ifConfigured_mapNext (b : Bool) (h : k' = mapNext f k) :
    ifConfigured b (f s) k' = mapNext f (ifConfigured b s k) :=
  ite_mapNext h (respond_mapNext hf _)

theorem unlessFatal_mapNext (h : k' = mapNext f k) : unlessFatal (f s) k' = mapNext f (unlessFatal s k) := by
  rw [unlessFatal, hf.sys]
  exact ite_mapNext (respond_mapNext hf _) h

end

/-! ## Decoder operations within another state (R110 to R123) -/

theorem respond_adWithin (r : Rsp) : respond r (s.adWithin o) = mapNext (·.adWithin o) (respond r s) :=
  respond_mapNext (adWithin_besidePort o) r

theorem adOp_adWithin (h : k' = mapNext (·.adWithin o) k) :
    unlessFatal (s.adWithin o) (ifConfigured s.ad.configured (s.adWithin o) k') =
      mapNext (·.adWithin o) (unlessFatal s (ifConfigured s.ad.configured s k)) :=
  unlessFatal_mapNext (adWithin_besidePort o) (ifConfigured_mapNext (adWithin_besidePort o) _ h)

theorem withIndexing_adWithin (h : k' = mapNext (·.adWithin o) k) :
    withIndexing (s.adWithin o) k' = mapNext (·.adWithin o) (withIndexing s k) :=
  ite_mapNext rfl h

theorem execAdConfigure_adWithin : execAdConfigure (s.adWithin o) = mapNext (·.adWithin o) (execAdConfigure s) :=
  unlessFatal_mapNext (adWithin_besidePort o) <| ite_mapNext (respond_adWithin _) <|
    ite_mapNext (raiseFatal_mapNext (adWithin_besidePort o) _ _) <| ite_mapNext rfl (respond_adWithin _)

theorem execAdDecode_adWithin (hrun : o.run = s.run) (addr : Addr) :
    execAdDecode addr (s.adWithin o) = mapNext (·.adWithin o) (execAdDecode addr s) := by
  refine adOp_adWithin (withIndexing_adWithin ?_)
  rw [adWithin_run, hrun]
  exact respond_adWithin _

theorem execAdSweep_adWithin (hrun : o.run = s.run) (base : Addr) (count stride : BitVec 32) :
    execAdSweep base count stride (s.adWithin o) = mapNext (·.adWithin o) (execAdSweep base count stride s) := by
  have port := adWithin_besidePort o
  refine unlessFatal_mapNext port <| ite_mapNext (respond_adWithin _) <| ifConfigured_mapNext port _ <|
    ite_mapNext (respond_adWithin _) <| withIndexing_adWithin ?_
  simp only [adWithin_ad, adWithin_run, hrun]
  split
  · exact raiseFatal_mapNext port _ _
  · exact respond_adWithin _

/-- A decoder operation reads nothing outside the decoder but the run's parameter functions (R9, R71). -/
theorem exec_adWithin {i : Instr} (hu : unitOf i = 1) (hrun : o.run = s.run) :
    exec i (s.adWithin o) = mapNext (·.adWithin o) (exec i s) := by
  rw [unitOf_eq_commandUnit] at hu
  cases i with
  | adConfigure => exact execAdConfigure_adWithin
  | adDecode addr => exact execAdDecode_adWithin hrun addr
  | adPaddr addr => exact adOp_adWithin (respond_adWithin _)
  | adSweep base count stride => exact execAdSweep_adWithin hrun base count stride
  | _ => cases hu

/-! ## Cache operations within another state (R140 to R176) -/

/-- The two decoders map every address alike for this cache: with CC_BLKSRC = 0 they always do (R141). -/
def CcRegs.SameSource (c : CcRegs) (d e : AdRegs) : Prop := ∀ a, c.srcAddr d a = c.srcAddr e a

theorem respond_ccWithin (r : Rsp) : respond r (s.ccWithin o) = mapNext (·.ccWithin o) (respond r s) :=
  respond_mapNext (ccWithin_besidePort o) r

theorem ccOp_ccWithin (h : k' = mapNext (·.ccWithin o) k) :
    ccOp (s.ccWithin o) k' = mapNext (·.ccWithin o) (ccOp s k) :=
  unlessFatal_mapNext (ccWithin_besidePort o) (ifConfigured_mapNext (ccWithin_besidePort o) _ h)

theorem execCcConfigure_ccWithin (hc : o.ad.configured = s.ad.configured) :
    execCcConfigure (s.ccWithin o) = mapNext (·.ccWithin o) (execCcConfigure s) := by
  refine unlessFatal_mapNext (ccWithin_besidePort o) (ite_mapNext (respond_ccWithin _) ?_)
  rw [ccWithin_ad, hc]
  exact ite_mapNext rfl (respond_ccWithin _)

theorem execCcAccess_ccWithin (hsrc : s.cc.active.SameSource o.ad.active s.ad.active) (isWrite isAtomic : Bool)
    (smask : SectorMask) (addr : Addr) (id : ReqId) (size : ReqSize) :
    execCcAccess isWrite isAtomic smask addr id size (s.ccWithin o) =
      mapNext (·.ccWithin o) (execCcAccess isWrite isAtomic smask addr id size s) := by
  refine ccOp_ccWithin (ite_mapNext (respond_ccWithin _) ?_)
  rw [ccWithin_cc, ccWithin_ad, hsrc addr]
  exact ite_mapNext (respond_ccWithin _) rfl

theorem fillFound_ccWithin (hsrc : s.cc.active.SameSource o.ad.active s.ad.active) (r : ReqId) (e : MetaRec)
    (m : MshrEntry) : fillFound (s.ccWithin o) r e m = mapNext (·.ccWithin o) (fillFound s r e m) := by
  refine ite_mapNext rfl (ite_mapNext rfl ?_)
  rw [ccWithin_cc, ccWithin_ad, hsrc e.origAddr]
  exact ite_mapNext rfl rfl

theorem execCcFill_ccWithin (hsrc : s.cc.active.SameSource o.ad.active s.ad.active) (hasParent : Bool)
    (id parent : ReqId) :
    execCcFill hasParent id parent (s.ccWithin o) = mapNext (·.ccWithin o) (execCcFill hasParent id parent s) := by
  refine ccOp_ccWithin ?_
  simp only [ccWithin_cc]
  split
  · exact raiseFatal_mapNext (ccWithin_besidePort o) _ _
  · split
    · exact raiseFatal_mapNext (ccWithin_besidePort o) _ _
    · exact fillFound_ccWithin hsrc _ _ _

theorem execCcCycle_ccWithin (dsOk : Bool) :
    execCcCycle dsOk (s.ccWithin o) = mapNext (·.ccWithin o) (execCcCycle dsOk s) := by
  refine ccOp_ccWithin ?_
  simp only [ccWithin_cc]
  split <;> rfl

theorem execCcNext_ccWithin : execCcNext (s.ccWithin o) = mapNext (·.ccWithin o) (execCcNext s) := by
  refine ccOp_ccWithin ?_
  simp only [ccWithin_cc]
  split
  · rfl
  · split
    · rfl
    · split <;> rfl

theorem execCcMqhead_ccWithin : execCcMqhead (s.ccWithin o) = mapNext (·.ccWithin o) (execCcMqhead s) := by
  refine ccOp_ccWithin ?_
  simp only [ccWithin_cc]
  split <;> rfl

/-- A cache operation reads nothing outside the cache engine but `src(a)` from the decoder's active copy (R141), and in
CC.CONFIGURE only AD_CTRL.CONFIGURED (R140). -/
theorem exec_ccWithin {i : Instr} (hu : unitOf i = 2)
    (hsrc : i ≠ .ccConfigure → s.cc.active.SameSource o.ad.active s.ad.active)
    (hcfg : i = .ccConfigure → o.ad.configured = s.ad.configured) :
    exec i (s.ccWithin o) = mapNext (·.ccWithin o) (exec i s) := by
  rw [unitOf_eq_commandUnit] at hu
  cases i with
  | ccConfigure => exact execCcConfigure_ccWithin (hcfg rfl)
  | ccAccess isWrite isAtomic smask addr id size =>
    exact execCcAccess_ccWithin (hsrc Instr.noConfusion) isWrite isAtomic smask addr id size
  | ccFill hasParent id parent => exact execCcFill_ccWithin (hsrc Instr.noConfusion) hasParent id parent
  | ccCycle dsOk => exact execCcCycle_ccWithin dsOk
  | ccDpfree | ccFpfree | ccReady => exact ccOp_ccWithin (respond_ccWithin _)
  | ccNext => exact execCcNext_ccWithin
  | ccMqhead => exact execCcMqhead_ccWithin
  | _ => cases hu

/-! ## Crossbar operations within another state (R190 to R199) -/

theorem respond_xbWithin (r : Rsp) : respond r (s.xbWithin o) = mapNext (·.xbWithin o) (respond r s) :=
  respond_mapNext (xbWithin_besidePort o) r

theorem xbOp_xbWithin (h : k' = mapNext (·.xbWithin o) k) :
    xbOp (s.xbWithin o) k' = mapNext (·.xbWithin o) (xbOp s k) :=
  unlessFatal_mapNext (xbWithin_besidePort o) (ifConfigured_mapNext (xbWithin_besidePort o) _ h)

theorem ifNodes_xbWithin (ds : List NodeId) (h : k' = mapNext (·.xbWithin o) k) :
    ifNodes ds (s.xbWithin o) k' = mapNext (·.xbWithin o) (ifNodes ds s k) :=
  ite_mapNext h (respond_xbWithin _)

theorem execXbConfigure_xbWithin : execXbConfigure (s.xbWithin o) = mapNext (·.xbWithin o) (execXbConfigure s) :=
  unlessFatal_mapNext (xbWithin_besidePort o) <| ite_mapNext (respond_xbWithin _) <| ite_mapNext rfl (respond_xbWithin _)

theorem execXbPush_xbWithin (src dst : NodeId) (payload : Payload) (size : ReqSize) :
    execXbPush src dst payload size (s.xbWithin o) = mapNext (·.xbWithin o) (execXbPush src dst payload size s) :=
  xbOp_xbWithin <| ifNodes_xbWithin _ <| ite_mapNext (raiseFatal_mapNext (xbWithin_besidePort o) _ _) rfl

theorem execXbPop_xbWithin (dev : NodeId) :
    execXbPop dev (s.xbWithin o) = mapNext (·.xbWithin o) (execXbPop dev s) := by
  refine xbOp_xbWithin (ifNodes_xbWithin _ ?_)
  simp only [xbWithin_xb]
  split
  · rfl
  · split <;> rfl

/-- A crossbar operation reads nothing outside the crossbar (R71). -/
theorem exec_xbWithin {i : Instr} (hu : unitOf i = 3) : exec i (s.xbWithin o) = mapNext (·.xbWithin o) (exec i s) := by
  rw [unitOf_eq_commandUnit] at hu
  cases i with
  | xbConfigure => exact execXbConfigure_xbWithin
  | xbHasbuf _ _ _ _ => exact xbOp_xbWithin (ifNodes_xbWithin _ (respond_xbWithin _))
  | xbPush src dst payload size => exact execXbPush_xbWithin src dst payload size
  | xbPop dev => exact execXbPop_xbWithin dev
  | xbAdvance | xbBusy => exact xbOp_xbWithin (respond_xbWithin _)
  | _ => cases hu

/-! ## What a command leaves unchanged -/

variable {t : State}

/-- An outcome that a change of its next state leaves alone answers a state that the change leaves alone. -/
theorem eq_of_mapNext_self (h : k = mapNext f k) (hk : k = .next t) : f t = t := by
  subst hk
  exact (Host.Outcome.next.inj h).symm

/-- A decoder operation takes everything outside the decoder from the state before it (R71). -/
theorem exec_ad_frame {i : Instr} (hu : unitOf i = 1) (h : exec i s = .next t) : t.adWithin s = t :=
  eq_of_mapNext_self (exec_adWithin hu rfl) h

/-- A cache operation takes everything outside the cache engine from the state before it (R71). -/
theorem exec_cc_frame {i : Instr} (hu : unitOf i = 2) (h : exec i s = .next t) : t.ccWithin s = t :=
  eq_of_mapNext_self (exec_ccWithin hu (fun _ _ => rfl) fun _ => rfl) h

/-- A crossbar operation takes everything outside the crossbar from the state before it (R71). -/
theorem exec_xb_frame {i : Instr} (hu : unitOf i = 3) (h : exec i s = .next t) : t.xbWithin s = t :=
  eq_of_mapNext_self (exec_xbWithin hu) h

theorem execCsrw_inputs_run {csr : CsrAddr} {v : Reg64} (h : execCsrw csr v s = .next t) :
    t.inputs = s.inputs ∧ t.run = s.run := by
  obtain ⟨-, rfl⟩ | ⟨-, h⟩ := unlessFatal_next h
  · exact ⟨rfl, rfl⟩
  · split at h
    · cases h; exact ⟨rfl, rfl⟩
    · split_ifs at h <;> cases h
      · exact ⟨rfl, rfl⟩
      · obtain ⟨-, -, -, -, -, -, hinputs, hrun⟩ := csrWrite_frame v s _
        exact ⟨hinputs, hrun⟩

/-- No command changes the environment's pending inputs or the run (logs 1, 6). -/
theorem exec_inputs_run {i : Instr} (h : exec i s = .next t) : t.inputs = s.inputs ∧ t.run = s.run := by
  cases i with
  | nop => cases h; exact ⟨rfl, rfl⟩
  | csrr csr =>
    obtain ⟨r, rfl⟩ := execCsrr_answersOnly csr t h
    exact ⟨rfl, rfl⟩
  | csrw csr v => exact execCsrw_inputs_run h
  | adConfigure | adDecode _ | adPaddr _ | adSweep _ _ _ =>
    rw [← exec_ad_frame (unitOf_eq_commandUnit _) h]
    exact ⟨rfl, rfl⟩
  | ccConfigure | ccAccess _ _ _ _ _ _ | ccFill _ _ _ | ccCycle _ | ccDpfree | ccFpfree | ccReady | ccNext | ccMqhead =>
    rw [← exec_cc_frame (unitOf_eq_commandUnit _) h]
    exact ⟨rfl, rfl⟩
  | xbConfigure | xbHasbuf _ _ _ _ | xbPush _ _ _ _ | xbPop _ | xbAdvance | xbBusy =>
    rw [← exec_xb_frame (unitOf_eq_commandUnit _) h]
    exact ⟨rfl, rfl⟩

/-! ## What a command does not read -/

variable {g : State → State}

theorem mapNext_congr (h : ∀ t, k = .next t → f t = g t) : mapNext f k = mapNext g k := by
  cases k with
  | next t => exact congrArg _ (h t rfl)
  | fault _ | refused _ => rfl

/-- A decoder operation carries any change `g` outside the decoder along that keeps the run number. -/
theorem exec_adWithin_of_change {i : Instr} (hu : unitOf i = 1) (hrun : o.run = s.run)
    (hg : ∀ t : State, g (t.adWithin s) = t.adWithin o) : exec i (s.adWithin o) = mapNext g (exec i s) := by
  rw [exec_adWithin hu hrun]
  refine mapNext_congr fun t ht => ?_
  rw [← exec_ad_frame hu ht]
  exact (hg t).symm

/-- A cache operation carries any change `g` outside the cache engine along that keeps what it reads of the decoder. -/
theorem exec_ccWithin_of_change {i : Instr} (hu : unitOf i = 2)
    (hsrc : i ≠ .ccConfigure → s.cc.active.SameSource o.ad.active s.ad.active)
    (hcfg : i = .ccConfigure → o.ad.configured = s.ad.configured)
    (hg : ∀ t : State, g (t.ccWithin s) = t.ccWithin o) : exec i (s.ccWithin o) = mapNext g (exec i s) := by
  rw [exec_ccWithin hu hsrc hcfg]
  refine mapNext_congr fun t ht => ?_
  rw [← exec_cc_frame hu ht]
  exact (hg t).symm

/-- A crossbar operation carries any change `g` outside the crossbar along. -/
theorem exec_xbWithin_of_change {i : Instr} (hu : unitOf i = 3) (hg : ∀ t : State, g (t.xbWithin s) = t.xbWithin o) :
    exec i (s.xbWithin o) = mapNext g (exec i s) := by
  rw [exec_xbWithin hu]
  refine mapNext_congr fun t ht => ?_
  rw [← exec_xb_frame hu ht]
  exact (hg t).symm

theorem CcRegs.sameSource_of_blkSrc {c : CcRegs} (h : c.blkSrc = 0) (d e : AdRegs) : c.SameSource d e := by
  intro a
  have hne : ¬c.blkSrc = 1 := by rw [h]; decide
  rw [CcRegs.srcAddr, CcRegs.srcAddr, if_neg hne, if_neg hne]

/-- Settles O18: each clause takes from the changed state what its block does not see; the frame is the case of no change. -/
theorem blocksAreSeparate : Obligations.BlocksAreSeparate := by
  refine ⟨fun i s t h => ?frame, fun i s cc xb hu => ?decoder, fun i s ad xb hu hne hsrc => ?cacheOwnSource,
    fun i s xb hu => ?cacheXbar, fun i s r d hu => ?cacheStage, fun s active => ?configureActive,
    fun i s b hu hne => ?cacheConfigured, fun i s ad cc hu => ?crossbar⟩
  case frame =>
    obtain ⟨hinputs, hrun⟩ := exec_inputs_run h
    refine ⟨hinputs, hrun, fun hu => ?_, fun hu => ?_, fun hu => ?_⟩
    · rw [← exec_ad_frame hu h]; exact ⟨rfl, rfl⟩
    · rw [← exec_cc_frame hu h]; exact ⟨rfl, rfl⟩
    · rw [← exec_xb_frame hu h]; exact ⟨rfl, rfl⟩
  case decoder => exact exec_adWithin_of_change (o := { s with cc := cc, xb := xb }) hu rfl fun _ => rfl
  case cacheOwnSource =>
    exact exec_ccWithin_of_change (o := { s with ad := ad, xb := xb }) hu
      (fun _ => CcRegs.sameSource_of_blkSrc hsrc _ _) (fun h => absurd h hne) fun _ => rfl
  case cacheXbar =>
    exact exec_ccWithin_of_change (o := { s with xb := xb }) hu (fun _ _ => rfl) (fun _ => rfl) fun _ => rfl
  case cacheStage =>
    exact exec_ccWithin_of_change (s := s) (o := (s.withAdStage r).withDiag d) (g := fun t => (t.withAdStage r).withDiag d) hu
      (fun _ _ => rfl) (fun _ => rfl) fun _ => rfl
  case configureActive =>
    exact exec_ccWithin_of_change (o := { s with ad := { s.ad with active := active } }) (unitOf_eq_commandUnit _)
      (fun h => absurd rfl h) (fun _ => rfl) fun _ => rfl
  case cacheConfigured =>
    exact exec_ccWithin_of_change (o := { s with ad := { s.ad with configured := b } }) hu (fun _ _ => rfl)
      (fun h => absurd h hne) fun _ => rfl
  case crossbar => exact exec_xbWithin_of_change (o := { s with ad := ad, cc := cc }) hu fun _ => rfl

end Sys2Proof.Machine
end

section
/-! The opcode table by opcode and format (30_encoding.md rules R82, R85, R87): the row of each command, the words a row
matches, and what the decoder answers on every word. -/

namespace Sys2Proof

/-! ## The opcode and the row of a command -/

/-- The opcode of each command (R85). -/
def Instr.opcode : Instr → BitVec 8
  | .nop => 0x00
  | .csrr _ => 0x01
  | .csrw _ _ => 0x02
  | .adConfigure => 0x10
  | .adDecode _ => 0x11
  | .adPaddr _ => 0x12
  | .adSweep _ _ _ => 0x13
  | .ccConfigure => 0x20
  | .ccAccess _ _ _ _ _ _ => 0x21
  | .ccFill _ _ _ => 0x22
  | .ccCycle _ => 0x23
  | .ccDpfree => 0x24
  | .ccFpfree => 0x25
  | .ccReady => 0x26
  | .ccNext => 0x27
  | .ccMqhead => 0x28
  | .xbConfigure => 0x30
  | .xbHasbuf _ _ _ _ => 0x31
  | .xbPush _ _ _ _ => 0x32
  | .xbPop _ => 0x33
  | .xbAdvance => 0x34
  | .xbBusy => 0x35

theorem encode_op (i : Instr) : (encode i).op = i.opcode := by
  cases i <;> exact cmdWord_op ..

/-- The bits a format does not read, with its must-be-zero bits and those of `op` and `rsv` (R85). -/
def Format.mask : Format → CmdWord
  | .z      => 0xffffffffffffffffffffffffffffffffffffffffffffffff#192
  | .rRead  => 0xffffffffffffffffffffffffffffffffffffffff0000ffff#192
  | .rWrite => 0xffffffffffffffff0000000000000000ffffffff0000ffff#192
  | .a      => 0xffffffffffffffff0000000000000000ffffffffffffffff#192
  | .s      => 0x00000000000000000000000000000000ffffffffffffffff#192
  | .q      => 0x000000000000000000000000000000000000fffffffcffff#192
  | .f      => 0x0000000000000000fffffffffffffffffffffffffffeffff#192
  | .c      => 0xfffffffffffffffffffffffffffffffffffffffffffeffff#192
  | .x      => 0xffffffff000000000000000000000000ffff00000000ffff#192
  | .p      => 0xffffffffffffffffffffffffffffffffffffffff0000ffff#192

/-- The row of a mnemonic, an opcode and a format: the format's mask, the opcode in bits 7:0 and 0 elsewhere (R85). -/
def formatRow (mnemonic : String) (op : BitVec 8) (fmt : Format) : OpcodeRow :=
  ⟨mnemonic, fmt.mask, cmdWord op 0 0 0 0 0⟩

/-- The row of each command. -/
def Instr.row (i : Instr) : OpcodeRow := formatRow i.mnemonic i.opcode i.format

theorem row_mem (i : Instr) : i.row ∈ opcodeRows := by
  cases i <;> simp [opcodeRows, Instr.row, formatRow, Instr.mnemonic, Instr.opcode, Instr.format, Format.mask, cmdWord]

/-! ## Rows and opcodes -/

theorem rows_opcode_mem : ∀ r ∈ opcodeRows, r.bits.op.toNat ∈ Machine.opcodes := by decide +kernel

/-- The rows differ in `op` (R85). -/
theorem rows_inj : ∀ r ∈ opcodeRows, ∀ q ∈ opcodeRows, q.bits.op = r.bits.op → q = r := by decide +kernel

theorem rows_mask_op : ∀ r ∈ opcodeRows, r.mask.op = BitVec.allOnes 8 := by decide +kernel

theorem op_of_matches {r : OpcodeRow} {w : CmdWord} (hr : r ∈ opcodeRows) (h : w &&& r.mask = r.bits) : w.op = r.bits.op := by
  obtain ⟨hop, -⟩ := (matches_iff r w).1 (beq_iff_eq.2 h)
  rwa [rows_mask_op r hr, BitVec.and_allOnes] at hop

@[simp] theorem row_bits_op (i : Instr) : i.row.bits.op = i.opcode := cmdWord_op ..

/-- A command's row is the only one with the opcode. -/
theorem eq_row_of_op {r : OpcodeRow} {i : Instr} (hr : r ∈ opcodeRows) (h : r.bits.op = i.opcode) : r = i.row :=
  rows_inj i.row (row_mem i) r hr (h.trans (row_bits_op i).symm)

/-! ## The words a row matches -/

/-- A word matches a row when it has the row's opcode and passes the checks of its format (R85).
(The masks of whole fields and of the must-be-zero bits are spelled as `simp` evaluates them.) -/
theorem formatRow_matches_iff (m : String) (op : BitVec 8) (fmt : Format) (w : CmdWord) :
    w &&& (formatRow m op fmt).mask = (formatRow m op fmt).bits ↔
      w.op = op ∧ w.rsv = 0 ∧ fmt.unusedZero w = true ∧ fmt.mustBeZero w = true := by
  have h8 (x : BitVec 8) : x &&& 0xff#8 = x := BitVec.and_allOnes
  have h16 (x : BitVec 16) : x &&& 0xffff#16 = x := BitVec.and_allOnes
  have h64 (x : BitVec 64) : x &&& 0xffffffffffffffff#64 = x := BitVec.and_allOnes
  have hq (x : BitVec 16) : x &&& 0xfffc#16 = 0#16 ↔ x.extractLsb' 2 14 = 0#14 := flag2_mask x
  have hf (x : BitVec 16) : x &&& 0xfffe#16 = 0#16 ↔ x.extractLsb' 1 15 = 0#15 := flag1_mask x
  have hx (x : BitVec 64) : x &&& 0xffffffff00000000#64 = 0#64 ↔ x.extractLsb' 32 32 = 0#32 := high_mask x
  rw [← beq_iff_eq, ← OpcodeRow.matches, matches_iff]
  simp only [formatRow, cmdWord_op, cmdWord_rsv, cmdWord_h0, cmdWord_h1, cmdWord_w0, cmdWord_d0, cmdWord_d1,
    Format.unusedZero, Format.mustBeZero, CmdWord.d1hi]
  generalize w.op = wop, w.rsv = wrsv, w.h0 = wh0, w.h1 = wh1, w.w0 = ww0, w.d0 = wd0, w.d1 = wd1
  cases fmt <;>
    simp [Format.mask, CmdWord.op, CmdWord.rsv, CmdWord.h0, CmdWord.h1, CmdWord.w0, CmdWord.d0, CmdWord.d1, h8, h16, h64,
      hq, hf, hx, and_assoc, and_left_comm, and_comm]

/-! ## What the decoder answers -/

/-- One arm of the decoder: it reads a command of the word's opcode and checks that command's format. -/
theorem reads_of_format {w : CmdWord} {i : Instr} {fmt : Format} (hf : i.format = fmt) (hop : w.op = i.opcode)
    (hword : checkFormat fmt w i = .ok i → encode i = w) :
    ∃ j : Instr, checkFormat fmt w i = checkFormat j.format w j ∧ w.op = j.opcode ∧
      (checkFormat fmt w i = .ok j → encode j = w) :=
  ⟨i, by rw [hf], hop, hword⟩

/-- The decoder by the opcode (R87): one of no row is reserved, one of a row reads a command of that row, whose format's
checks decide; when they pass the word is the command's encoding. -/
theorem decode_cases (w : CmdWord) :
    (w.op.toNat ∉ Machine.opcodes ∧ decode w = .error .reservedOpcode) ∨
      ∃ i : Instr, decode w = checkFormat i.format w i ∧ w.op = i.opcode ∧ (decode w = .ok i → encode i = w) := by
  unfold decode
  split
  case h_1 hop | h_4 hop | h_8 hop | h_12 hop | h_13 hop | h_14 hop | h_15 hop | h_16 hop | h_17 hop | h_21 hop | h_22 hop =>
    exact .inr (reads_of_format rfl hop fun h => (word_z hop h).1)
  case h_2 hop => exact .inr (reads_of_format rfl hop fun h => (word_rRead hop h).1)
  case h_3 hop => exact .inr (reads_of_format rfl hop fun h => (word_rWrite hop h).1)
  case h_5 hop | h_6 hop => exact .inr (reads_of_format rfl hop fun h => (word_a hop h).1)
  case h_7 hop => exact .inr (reads_of_format rfl hop fun h => (word_s hop h).1)
  case h_9 hop => exact .inr (reads_of_format rfl hop fun h => (word_q hop h).1)
  case h_10 hop => exact .inr (reads_of_format rfl hop fun h => (word_f hop h).1)
  case h_11 hop => exact .inr (reads_of_format rfl hop fun h => (word_c hop h).1)
  case h_18 hop | h_19 hop => exact .inr (reads_of_format rfl hop fun h => (word_x hop h).1)
  case h_20 hop => exact .inr (reads_of_format rfl hop fun h => (word_p hop h).1)
  case h_23 => exact .inl ⟨by simp_all [Machine.opcodes, ← BitVec.toNat_inj], rfl⟩

theorem encode_of_decode {w : CmdWord} {i : Instr} (h : decode w = .ok i) : encode i = w := by
  rcases decode_cases w with ⟨-, hres⟩ | ⟨j, hj, -, henc⟩
  · rw [hres] at h; cases h
  · obtain ⟨-, -, -, rfl⟩ := checkFormat_ok.1 (hj ▸ h)
    exact henc h

theorem decode_op {w : CmdWord} {i : Instr} (h : decode w = .ok i) : w.op = i.opcode := by
  rw [← encode_of_decode h, encode_op]

theorem row_matches_encode (i : Instr) : encode i &&& i.row.mask = i.row.bits :=
  (formatRow_matches_iff ..).2 ⟨encode_op i, encode_rsv i, encode_unusedZero i, encode_mustBeZero i⟩

/-- A word that a row matches decodes: its opcode names a command, and that command's row is the matching one. -/
theorem decodes_of_matches {r : OpcodeRow} {w : CmdWord} (hr : r ∈ opcodeRows) (h : w &&& r.mask = r.bits) :
    ∃ i, decode w = .ok i := by
  have hop := op_of_matches hr h
  rcases decode_cases w with ⟨hnot, -⟩ | ⟨i, hi, hiop, -⟩
  · exact absurd (hop ▸ rows_opcode_mem r hr) hnot
  · obtain rfl := eq_row_of_op hr (hop.symm.trans hiop)
    obtain ⟨-, hrsv, hunused, hzero⟩ := (formatRow_matches_iff ..).1 h
    exact ⟨i, hi.trans (checkFormat_ok.2 ⟨hrsv, hunused, hzero, rfl⟩)⟩

/-! ## The statements -/

/-- Settles O1: the decoder reads an encoded command back, and the command's own row matches its word. -/
theorem encodedCommandsDecodeToThemselves : Obligations.EncodedCommandsDecodeToThemselves := fun i =>
  ⟨decode_encode i, List.any_eq_true.2 ⟨i.row, row_mem i, beq_iff_eq.2 (row_matches_encode i)⟩⟩

/-- Settles O2: the passed checks of the format rebuild the word from the operands. -/
theorem legalWordsEncodeBack : Obligations.LegalWordsEncodeBack := fun _ _ => encode_of_decode

/-- Settles O3: a legal word is its command's encoding, which the command's row matches; the opcode picks the row. -/
theorem everyWordMatchesOneRowOrIsIllegal : Obligations.EveryWordMatchesOneRowOrIsIllegal := by
  refine ⟨fun w => ⟨fun ⟨i, h⟩ => ?matched, fun ⟨r, hr, h⟩ => decodes_of_matches hr h⟩, fun w i h => ?oneRow,
    fun v w i j hv hw hop => ?opcode⟩
  case matched =>
    obtain rfl := encode_of_decode h
    exact ⟨i.row, row_mem i, row_matches_encode i⟩
  case oneRow =>
    obtain rfl := encode_of_decode h
    refine ⟨i.row, row_mem i, row_matches_encode i, rfl, fun q hq hm => ?_⟩
    exact eq_row_of_op hq ((op_of_matches hq hm).symm.trans (encode_op i))
  case opcode =>
    have hij : i.opcode = j.opcode := by rw [← decode_op hv, ← decode_op hw, hop]
    exact congrArg OpcodeRow.mnemonic (eq_row_of_op (row_mem i) ((row_bits_op i).trans hij))

end Sys2Proof
end

section
/-! Illegal commands (30_encoding.md rule R88): the cases (a) to (d), stated without the decoder, against its checks. -/

namespace Sys2Proof.Machine

variable {w : CmdWord} {i : Instr}

theorem opcode_mem (i : Instr) : i.opcode.toNat ∈ opcodes := by
  rw [← row_bits_op]; exact rows_opcode_mem i.row (row_mem i)

/-- For a word of a command's opcode, R88 (c) says that the format's check for unread fields fails. -/
theorem unreadNonzero_iff (hop : w.op = i.opcode) : UnreadNonzero w ↔ i.format.unusedZero w = false := by
  cases i <;> simp [UnreadNonzero, plainOpcodes, hop, Instr.opcode, Instr.format, Format.unusedZero, imp_iff_not_or,
    or_assoc]

/-- The high bits of a field are zero when dividing by the place of the lowest of them gives 0. -/
theorem extractLsb'_eq_zero_iff {n k m : Nat} (hm : n + k = m) (x : BitVec m) :
    x.extractLsb' n k = 0 ↔ x.toNat / 2 ^ n = 0 := by
  have lt : x.toNat / 2 ^ n < 2 ^ k := Nat.div_lt_of_lt_mul (by rw [← pow_add, hm]; exact x.isLt)
  rw [← BitVec.toNat_inj, BitVec.extractLsb'_toNat, Nat.shiftRight_eq_div_pow, Nat.mod_eq_of_lt lt]; rfl

/-- For a word of a command's opcode, R88 (d) says that the format's check of its must-be-zero bits fails. -/
theorem mustBeZeroNonzero_iff (hop : w.op = i.opcode) : MustBeZeroNonzero w ↔ i.format.mustBeZero w = false := by
  have h1 : w.h0.extractLsb' 1 15 = 0#15 ↔ w.h0.toNat / 2 = 0 := extractLsb'_eq_zero_iff (n := 1) (k := 15) rfl w.h0
  have h2 : w.h0.extractLsb' 2 14 = 0#14 ↔ w.h0.toNat / 4 = 0 := extractLsb'_eq_zero_iff (n := 2) (k := 14) rfl w.h0
  have h32 : w.d1hi = 0#32 ↔ w.d1.toNat / 2 ^ 32 = 0 := extractLsb'_eq_zero_iff (n := 32) (k := 32) rfl w.d1
  cases i <;> simp [MustBeZeroNonzero, hop, Instr.opcode, Instr.format, Format.mustBeZero, h1, h2, h32]

theorem illegal_iff_of_opcode (hop : w.op = i.opcode) :
    Illegal w ↔ ¬(w.rsv = 0 ∧ i.format.unusedZero w = true ∧ i.format.mustBeZero w = true) := by
  have known : w.op.toNat ∈ opcodes := hop ▸ opcode_mem i
  rw [Illegal, unreadNonzero_iff hop, mustBeZeroNonzero_iff hop]
  simp [known, imp_iff_not_or]

/-- R88 (a) to (d) are the words that decode to nothing. -/
theorem illegal_iff (w : CmdWord) : Illegal w ↔ ¬∃ i, decode w = .ok i := by
  rcases decode_cases w with ⟨hnot, hres⟩ | ⟨i, hi, hop, -⟩
  · simp [Illegal, hnot, hres]
  · rw [illegal_iff_of_opcode hop, hi]
    simp [checkFormat_ok]

theorem illegal_of_reserved (h : (0x03 ≤ w.op.toNat ∧ w.op.toNat ≤ 0x0F) ∨ (0x14 ≤ w.op.toNat ∧ w.op.toNat ≤ 0x1F) ∨
    (0x29 ≤ w.op.toNat ∧ w.op.toNat ≤ 0x2F) ∨ 0x36 ≤ w.op.toNat) : Illegal w := by
  refine .inl fun hmem => ?_
  simp only [opcodes, List.mem_cons, List.not_mem_nil, or_false] at hmem
  omega

/-- Settles O5: the cases of R88 are the decoder's checks, and a word that does not decode is rejected. -/
theorem illegalCommandsChangeNothing : Obligations.IllegalCommandsChangeNothing :=
  ⟨illegal_iff, fun w s h => runCmd_illegal ((illegal_iff w).1 h) s, fun _ => illegal_of_reserved⟩

/-- Settles O4: the words and texts are decoded and assembled as they stand. -/
theorem specExamplesDecodeAndAssemble : Obligations.SpecExamplesDecodeAndAssemble := by
  unfold Obligations.SpecExamplesDecodeAndAssemble
  decide +kernel

end Sys2Proof.Machine
end

section
/-! Masks of the decoder's shapes (40_address_decoder.md rules R111, R112): the contiguous chip mask, the lowest 1 bits of a
mask, and the popcount of disjoint masks, each by the rank of a mask bit (00_scope.md rule R11). -/

namespace Sys2Proof.Machine

/-! ## Ranks and popcounts -/

theorem rankBelow_succ (m : Reg64) (p : Nat) : rankBelow m (p + 1) = rankBelow m p + (m.getLsbD p).toNat := by
  unfold rankBelow
  rw [List.range_succ, List.filter_append, List.length_append, List.filter_singleton]
  cases m.getLsbD p <;> rfl

theorem popcount_eq_rankBelow (m : Reg64) : popcount m = rankBelow m 64 := (rankBelow_eq_popcountNat m 64).symm

/-- The 1 bits of disjoint masks are counted apart. -/
theorem popcount_or_of_disjoint {x y : Reg64} (h : x &&& y = 0) : popcount (x ||| y) = popcount x + popcount y := by
  have rank : ∀ p, rankBelow (x ||| y) p = rankBelow x p + rankBelow y p := by
    intro p
    induction p with
    | zero => rfl
    | succ p ih =>
      have apart : (x.getLsbD p && y.getLsbD p) = false := by rw [← BitVec.getLsbD_and, h]; exact BitVec.getLsbD_zero
      simp only [rankBelow_succ, ih, BitVec.getLsbD_or]
      revert apart
      cases x.getLsbD p <;> cases y.getLsbD p <;> simp <;> omega
  simpa only [popcount_eq_rankBelow] using rank 64

/-! ## A contiguous mask -/

/-- `pext` of `k` contiguous bits from bit `s` on is a division and a remainder (R113). -/
theorem pextNat_contiguous {w s k : Nat} (v : Nat) (h : s + k ≤ w) :
    pextNat w ((2 ^ k - 1) * 2 ^ s) v = v / 2 ^ s % 2 ^ k := by
  induction w generalizing s k v with
  | zero =>
    obtain ⟨rfl, rfl⟩ : s = 0 ∧ k = 0 := by omega
    simp [pextNat, Nat.mod_one]
  | succ w ih =>
    rw [pextNat_succ]
    cases s with
    | zero =>
      cases k with
      | zero => simpa [Nat.mod_one] using ih (s := 0) (k := 0) (v / 2) (Nat.zero_le w)
      | succ k =>
        have rest := ih (s := 0) (k := k) (v / 2) (by omega)
        have pos := Nat.one_le_two_pow (n := k)
        have odd : (2 ^ (k + 1) - 1) % 2 = 1 := by omega
        have half : (2 ^ (k + 1) - 1) / 2 = 2 ^ k - 1 := by omega
        simp only [pow_zero, Nat.mul_one, Nat.div_one] at rest ⊢
        rw [if_pos odd, half, rest, Nat.pow_succ', Nat.mod_mul]
    | succ s =>
      have mask : (2 ^ k - 1) * 2 ^ (s + 1) = 2 * ((2 ^ k - 1) * 2 ^ s) := by rw [pow_succ]; ring
      rw [mask, if_neg (by omega), Nat.mul_div_cancel_left _ (by omega), ih (v / 2) (by omega), Nat.div_div_eq_div_mul,
        Nat.pow_succ']

/-! ## The lowest 1 bits of a mask -/

variable (m : Reg64) (j : Nat)

/-- `pdep(m, 2^j - 1)` is made of the 1 bits of `m` of rank below `j` (R112). -/
theorem getLsbD_pdep_ones (p : Nat) :
    (pdep m (2 ^ j - 1)).getLsbD p = (m.getLsbD p && decide (rankBelow m p < j)) := by
  rcases Nat.lt_or_ge p 64 with hp | hp
  · rw [getLsbD_pdep m _ hp, Nat.testBit_two_pow_sub_one]
  · rw [BitVec.getLsbD_of_ge _ _ hp, BitVec.getLsbD_of_ge _ _ hp, Bool.false_and]

theorem rankBelow_pdep_ones (p : Nat) : rankBelow (pdep m (2 ^ j - 1)) p = min j (rankBelow m p) := by
  induction p with
  | zero => exact (Nat.min_zero j).symm
  | succ p ih =>
    rw [rankBelow_succ, rankBelow_succ, ih, getLsbD_pdep_ones]
    cases m.getLsbD p with
    | false => rfl
    | true =>
      by_cases h : rankBelow m p < j <;> simp [h] <;> omega

theorem popcount_pdep_ones : popcount (pdep m (2 ^ j - 1)) = min j (popcount m) := by
  rw [popcount_eq_rankBelow, popcount_eq_rankBelow, rankBelow_pdep_ones]

/-- The `j` lowest packed bits go back to the `j` lowest 1 bits of the mask. -/
theorem pdep_pdep_ones_pext (v : Reg64) : pdep (pdep m (2 ^ j - 1)) (pext m v % 2 ^ j) = v &&& pdep m (2 ^ j - 1) := by
  refine BitVec.eq_of_getLsbD_eq fun p hp => ?_
  rw [getLsbD_pdep _ _ hp, BitVec.getLsbD_and, rankBelow_pdep_ones, getLsbD_pdep_ones, Nat.testBit_mod_two_pow]
  by_cases h : m.getLsbD p = true ∧ rankBelow m p < j
  · obtain ⟨hm, hr⟩ := h
    rw [Nat.min_eq_right hr.le, testBit_pext v hp hm]
    simp [hm, hr]
  · have out : (m.getLsbD p && decide (rankBelow m p < j)) = false := by simpa using h
    rw [out, Bool.false_and, Bool.and_false]

end Sys2Proof.Machine
end

section
/-! The channel split (40_address_decoder.md rule R113) in naturals. -/

namespace Sys2Proof.Machine

variable {c : AdRegs}

/-! ## What a legal configuration fixes (R111) -/

theorem AdRegs.p_iff : c.p = true ↔ ∃ k, c.nchan.toNat = 2 ^ k := isPow2_iff _

theorem AdRegs.nchan_eq_two_pow (hP : ∃ k, c.nchan.toNat = 2 ^ k) : c.nchan.toNat = 2 ^ c.k := by
  obtain ⟨k, hk⟩ := hP
  rw [AdRegs.k, AdRegs.n, hk, log2c_two_pow]

theorem AdRegs.Legal.nsub_eq_two_pow (h : c.Legal) : c.nsub.toNat = 2 ^ c.j := by
  obtain ⟨j, -, hj⟩ := h.subs
  rw [AdRegs.j, AdRegs.m, hj, log2c_two_pow]

/-- The strategies that are refused without `P` are only met with `P` (R111 check f). -/
theorem AdRegs.Legal.pow2_of_idxfn (h : c.Legal) (h0 : c.idxfn ≠ 0) (h4 : c.idxfn ≠ 4) (h5 : c.idxfn ≠ 5) :
    ∃ k, c.nchan.toNat = 2 ^ k := by
  by_contra hP
  obtain ⟨-, hf | hf | hf⟩ := h.chipElse hP
  exacts [h0 hf, h4 hf, h5 hf]

/-- With `P` the chip mask is `k` contiguous bits from bit `s` on (R111 check f). -/
theorem AdRegs.Legal.maskChip_toNat (h : c.Legal) (hP : ∃ k, c.nchan.toNat = 2 ^ k) :
    c.maskChip.toNat = (2 ^ c.k - 1) * 2 ^ c.chipStart.toNat := by
  rw [h.chipPow2 hP, ← AdRegs.nchan_eq_two_pow hP]

/-! ## The split in naturals -/

theorem AdRegs.shift_toNat (c : AdRegs) (a : Addr) : (a >>> c.s).toNat = a.toNat / 2 ^ c.chipStart.toNat := by
  rw [BitVec.toNat_ushiftRight, Nat.shiftRight_eq_div_pow, AdRegs.s]

theorem AdRegs.chipRaw_eq (c : AdRegs) (a : Addr) :
    c.chipRaw a = a.toNat / 2 ^ c.chipStart.toNat % c.nchan.toNat := by
  rw [AdRegs.chipRaw, AdRegs.shift_toNat, AdRegs.n]

theorem AdRegs.high_toNat (c : AdRegs) (a : Addr) :
    (c.high a).toNat = a.toNat / 2 ^ c.chipStart.toNat / c.nchan.toNat := by
  have le : a.toNat / 2 ^ c.chipStart.toNat / c.nchan.toNat ≤ a.toNat := (Nat.div_le_self _ _).trans (Nat.div_le_self _ _)
  rw [AdRegs.high, AdRegs.shift_toNat, AdRegs.n, BitVec.toNat_ofNat, Nat.mod_eq_of_lt (le.trans_lt a.isLt)]

theorem AdRegs.chipRaw_lt (h : c.Legal) (a : Addr) : c.chipRaw a < c.nchan.toNat := by
  rw [AdRegs.chipRaw_eq]
  exact Nat.mod_lt _ h.channels.1

/-- With `P` the raw channel is the packed chip bits (R113). -/
theorem AdRegs.chipRaw_eq_pext (h : c.Legal) (hP : ∃ k, c.nchan.toNat = 2 ^ k) (a : Addr) :
    c.chipRaw a = pext c.maskChip a := by
  have room : c.chipStart.toNat + c.k ≤ 64 := h.room
  rw [AdRegs.chipRaw_eq, pext, h.maskChip_toNat hP, pextNat_contiguous _ room, ← AdRegs.nchan_eq_two_pow hP]

/-- With `P` the bits above the channel are a shift of the address (R113). -/
theorem AdRegs.high_eq_shift (hP : ∃ k, c.nchan.toNat = 2 ^ k) (a : Addr) :
    c.high a = a >>> (c.chipStart.toNat + c.k) := by
  apply BitVec.eq_of_toNat_eq
  rw [AdRegs.high_toNat, BitVec.toNat_ushiftRight, Nat.shiftRight_eq_div_pow, AdRegs.nchan_eq_two_pow hP, Nat.div_div_eq_div_mul,
    ← pow_add]

theorem AdRegs.w_of_pow2 (hP : ∃ k, c.nchan.toNat = 2 ^ k) (a : Addr) : c.w a = a := if_pos (AdRegs.p_iff.2 hP)

/-- The division leaves room for the low bits: the compacted address is not above the address (R113). -/
theorem AdRegs.high_mul_le (c : AdRegs) (a : Addr) : (c.high a).toNat * 2 ^ c.chipStart.toNat ≤ a.toNat := by
  rw [AdRegs.high_toNat]
  exact (Nat.mul_le_mul_right _ (Nat.div_le_self _ _)).trans (Nat.div_mul_le_self _ _)

/-- Without `P` the compacted address is the low bits below `high` (R113). -/
theorem AdRegs.w_toNat (hP : ¬∃ k, c.nchan.toNat = 2 ^ k) (a : Addr) :
    (c.w a).toNat = (c.high a).toNat * 2 ^ c.chipStart.toNat + a.toNat % 2 ^ c.chipStart.toNat := by
  have fit := (c.high_mul_le a).trans_lt a.isLt
  have start : c.chipStart.toNat ≤ 64 := by have := c.chipStart.isLt; omega
  have ones : (BitVec.ofNat 64 (2 ^ c.chipStart.toNat - 1)).toNat = 2 ^ c.chipStart.toNat - 1 := by
    have := Nat.pow_le_pow_right (n := 2) (by omega) start
    rw [BitVec.toNat_ofNat, Nat.mod_eq_of_lt (by omega)]
  rw [AdRegs.w, if_neg (mt AdRegs.p_iff.1 hP), AdRegs.s, BitVec.toNat_or, BitVec.toNat_and, ones,
    Nat.and_two_pow_sub_one_eq_mod, BitVec.toNat_shiftLeft, Nat.shiftLeft_eq, Nat.mod_eq_of_lt fit, Nat.mul_comm,
    Nat.two_pow_add_eq_or_of_lt (Nat.mod_lt _ (by positivity))]

theorem AdRegs.w_mod (hP : ¬∃ k, c.nchan.toNat = 2 ^ k) (a : Addr) :
    (c.w a).toNat % 2 ^ c.chipStart.toNat = a.toNat % 2 ^ c.chipStart.toNat := by
  rw [AdRegs.w_toNat hP, Nat.mul_add_mod', Nat.mod_mod]

theorem AdRegs.w_div (hP : ¬∃ k, c.nchan.toNat = 2 ^ k) (a : Addr) :
    (c.w a).toNat / 2 ^ c.chipStart.toNat = (c.high a).toNat := by
  have low := Nat.mod_lt a.toNat (Nat.two_pow_pos c.chipStart.toNat)
  rw [AdRegs.w_toNat hP, Nat.mul_comm, Nat.mul_add_div (by positivity), Nat.div_eq_of_lt low, Nat.add_zero]

/-- The raw channel and `high` determine what stands at and above bit `s`. -/
theorem AdRegs.div_eq (c : AdRegs) (a : Addr) :
    a.toNat / 2 ^ c.chipStart.toNat = c.nchan.toNat * (c.high a).toNat + c.chipRaw a := by
  rw [AdRegs.high_toNat, AdRegs.chipRaw_eq, Nat.div_add_mod]

/-- The raw channel and the remaining address determine the address (R113). -/
theorem AdRegs.eq_of_chipRaw_eq_of_w_eq {a b : Addr} (hraw : c.chipRaw a = c.chipRaw b) (hw : c.w a = c.w b) : a = b := by
  by_cases hP : ∃ k, c.nchan.toNat = 2 ^ k
  · rwa [AdRegs.w_of_pow2 hP, AdRegs.w_of_pow2 hP] at hw
  · have low : a.toNat % 2 ^ c.chipStart.toNat = b.toNat % 2 ^ c.chipStart.toNat := by
      rw [← AdRegs.w_mod hP a, hw, AdRegs.w_mod hP]
    have high : (c.high a).toNat = (c.high b).toNat := by rw [← AdRegs.w_div hP a, hw, AdRegs.w_div hP]
    apply BitVec.eq_of_toNat_eq
    rw [← Nat.div_add_mod a.toNat (2 ^ c.chipStart.toNat), ← Nat.div_add_mod b.toNat (2 ^ c.chipStart.toNat), low,
      AdRegs.div_eq, AdRegs.div_eq, high, hraw]

/-- Settles O22: one lemma for each formula of the split, and the recovery of the address from its parts. -/
theorem channelSplitIsInjective : Obligations.ChannelSplitIsInjective := fun c a _ h =>
  ⟨c.chipRaw_eq a, c.high_toNat a,
    fun hP => ⟨AdRegs.w_of_pow2 hP a, AdRegs.chipRaw_eq_pext h hP a, AdRegs.high_eq_shift hP a⟩,
    fun hP => AdRegs.w_toNat hP a, AdRegs.eq_of_chipRaw_eq_of_w_eq⟩

end Sys2Proof.Machine
end

section
/-! The bounds of the six coordinates (40_address_decoder.md rules R114, R115, R119). -/

namespace Sys2Proof.Machine

variable {c : AdRegs}

/-! ## The chip by the strategy (R115) -/

variable (F : ParamFns) (a : Addr)

theorem AdRegs.chip_consecutive (h : c.idxfn = 0) : c.chip F a = c.chipRaw a := by
  simp [AdRegs.chip, AdRegs.indexing, h]

theorem AdRegs.chip_bitwisePermutation (h : c.idxfn = 1) :
    c.chip F a = c.chipRaw a ^^^ ((c.high a).toNat &&& (c.nchan.toNat - 1)) := by
  simp [AdRegs.chip, AdRegs.indexing, h, AdRegs.n]

theorem AdRegs.chip_ipoly (h : c.idxfn = 2) : c.chip F a = F.ipoly (c.high a) (c.chipRaw a) c.nchan.toNat := by
  simp [AdRegs.chip, AdRegs.indexing, h, AdRegs.n]

theorem AdRegs.chip_pae (h : c.idxfn = 3) : c.chip F a = F.pae (c.high a) (c.chipRaw a) c.nchan.toNat := by
  simp [AdRegs.chip, AdRegs.indexing, h, AdRegs.n]

theorem AdRegs.chip_random (h : c.idxfn = 4) : c.chip F a = F.rand (a >>> c.chipStart.toNat) c.nchan.toNat := by
  simp [AdRegs.chip, AdRegs.indexing, h, AdRegs.n, AdRegs.s]

theorem AdRegs.chip_custom (h : c.idxfn = 5) : c.chip F a = F.custom (c.high a) (c.chipRaw a) c.nchan.toNat := by
  simp [AdRegs.chip, AdRegs.indexing, h, AdRegs.n]

/-- The six strategies a legal configuration can name (R111 check c). -/
theorem AdRegs.Legal.idxfn_cases (h : c.Legal) :
    c.idxfn = 0 ∨ c.idxfn = 1 ∨ c.idxfn = 2 ∨ c.idxfn = 3 ∨ c.idxfn = 4 ∨ c.idxfn = 5 := by
  have hf := h.strategy
  revert hf
  generalize c.idxfn = f
  revert f
  decide

/-! ## Bounds -/

/-- Every strategy stays below the channel count: the XOR because it is only met with `P`, the functions by R9. -/
theorem AdRegs.chip_lt (h : c.Legal) : c.chip F a < c.nchan.toNat := by
  have pos := h.channels.1
  obtain hf | hf | hf | hf | hf | hf := h.idxfn_cases
  · rw [AdRegs.chip_consecutive F a hf]; exact AdRegs.chipRaw_lt h a
  · have hn := AdRegs.nchan_eq_two_pow (h.pow2_of_idxfn (by simp [hf]) (by simp [hf]) (by simp [hf]))
    have raw := AdRegs.chipRaw_lt h a
    rw [AdRegs.chip_bitwisePermutation F a hf, hn, Nat.and_two_pow_sub_one_eq_mod]
    exact Nat.xor_lt_two_pow (hn ▸ raw) (Nat.mod_lt _ (by positivity))
  · rw [AdRegs.chip_ipoly F a hf]; exact Nat.mod_lt _ pos
  · rw [AdRegs.chip_pae F a hf]; exact Nat.mod_lt _ pos
  · rw [AdRegs.chip_random F a hf]; exact Nat.mod_lt _ pos
  · rw [AdRegs.chip_custom F a hf]; exact Nat.mod_lt _ pos

/-- The low bank bits of the sub-partition are a remainder, as the number of sub-partitions is a power of two (R115). -/
theorem AdRegs.Legal.and_nsub_sub_one (h : c.Legal) (x : Nat) : x &&& (c.nsub.toNat - 1) = x % c.nsub.toNat := by
  rw [h.nsub_eq_two_pow, Nat.and_two_pow_sub_one_eq_mod]

theorem AdRegs.sub_eq (h : c.Legal) : c.sub F a = c.nsub.toNat * c.chip F a + c.bank a % c.nsub.toNat := by
  rw [AdRegs.sub, AdRegs.m, h.and_nsub_sub_one, Nat.mul_comm]

theorem AdRegs.Legal.nsub_pos (h : c.Legal) : 0 < c.nsub.toNat := by rw [h.nsub_eq_two_pow]; positivity

theorem AdRegs.sub_div (h : c.Legal) : c.sub F a / c.nsub.toNat = c.chip F a := by
  rw [AdRegs.sub_eq F a h, Nat.mul_add_div h.nsub_pos, Nat.div_eq_of_lt (Nat.mod_lt _ h.nsub_pos), Nat.add_zero]

theorem AdRegs.sub_mod (h : c.Legal) : c.sub F a % c.nsub.toNat = c.bank a % c.nsub.toNat := by
  rw [AdRegs.sub_eq F a h, Nat.mul_add_mod, Nat.mod_mod]

theorem AdRegs.sub_lt (h : c.Legal) : c.sub F a < c.nchan.toNat * c.nsub.toNat := by
  rw [← Nat.div_lt_iff_lt_mul h.nsub_pos, AdRegs.sub_div F a h]
  exact AdRegs.chip_lt F a h

theorem AdRegs.boundsHold (h : c.Legal) : c.BoundsHold F a where
  chip := AdRegs.chip_lt F a h
  sub := AdRegs.sub_lt F a h
  subDiv := AdRegs.sub_div F a h
  subMod := AdRegs.sub_mod F a h
  bank := pext_lt _ _
  row := pext_lt _ _
  col := pext_lt _ _
  burst := pext_lt _ _

/-- Settles O24: the chip by its strategy, the sub-partition by division with remainder, the fields by the bound of `pext`. -/
theorem decodedCoordinatesAreInBounds : Obligations.DecodedCoordinatesAreInBounds := fun F _ a => AdRegs.boundsHold F a

end Sys2Proof.Machine
end

section
/-! Injectivity on the scheme-relevant bits (40_address_decoder.md rule R118): addresses that decode alike agree under `U4`,
and the chip mask's bits agree when the raw channels do. -/

namespace Sys2Proof.Machine

variable {F : ParamFns} {c : AdRegs} {a b : Addr}

/-! ## Agreement under a mask -/

theorem xor_and_eq_zero_iff {x y m : Reg64} : (x ^^^ y) &&& m = 0 ↔ x &&& m = y &&& m := by
  have split : (x ^^^ y) &&& m = (x &&& m) ^^^ (y &&& m) :=
    BitVec.eq_of_getLsbD_eq fun i _ => by simp only [BitVec.getLsbD_and, BitVec.getLsbD_xor, Bool.and_xor_distrib_right]
  rw [split]
  exact BitVec.xor_eq_zero_iff

/-- Two values with the same packed bits agree under the mask (R11). -/
theorem xor_and_eq_zero_of_pext_eq {x y m : Reg64} (h : pext m x = pext m y) : (x ^^^ y) &&& m = 0 :=
  xor_and_eq_zero_iff.2 ((pext_eq_iff m x y).1 h)

/-- Addresses that decode alike have remaining addresses that agree under `U4`: each field recovers its own bits. -/
theorem AdRegs.xor_and_u4_of_decode_eq (h : c.decode F a = c.decode F b) : (c.w a ^^^ c.w b) &&& c.u4 = 0 := by
  have bank : c.bank a = c.bank b := congrArg Coord.bank h
  have row : c.row a = c.row b := congrArg Coord.row h
  have col : c.col a = c.col b := congrArg Coord.col h
  have burst : c.burst a = c.burst b := congrArg Coord.burst h
  simp [AdRegs.u4, BitVec.and_or_distrib_left, xor_and_eq_zero_of_pext_eq bank, xor_and_eq_zero_of_pext_eq row,
    xor_and_eq_zero_of_pext_eq col, xor_and_eq_zero_of_pext_eq burst]

section Pow2
variable (hP : ∃ k, c.nchan.toNat = 2 ^ k)
include hP

theorem AdRegs.xor_and_u4_of_decode_eq_pow2 (h : c.decode F a = c.decode F b) : (a ^^^ b) &&& c.u4 = 0 := by
  simpa only [AdRegs.w_of_pow2 hP] using AdRegs.xor_and_u4_of_decode_eq h

/-- With `P`, addresses that decode alike from one raw channel agree under `U`. -/
theorem AdRegs.xor_and_u_of_decode_eq (hc : c.Legal) (h : c.decode F a = c.decode F b) (hraw : c.chipRaw a = c.chipRaw b) :
    (a ^^^ b) &&& c.u = 0 := by
  rw [AdRegs.chipRaw_eq_pext hc hP, AdRegs.chipRaw_eq_pext hc hP] at hraw
  rw [AdRegs.u, BitVec.and_or_distrib_left, AdRegs.xor_and_u4_of_decode_eq_pow2 hP h, xor_and_eq_zero_of_pext_eq hraw]
  rfl

/-- Covered bits of `high` are recovered from the fields (R118 (c), (d)). -/
theorem AdRegs.high_getLsbD_eq {hi i : Nat} (h : c.decode F a = c.decode F b)
    (hcov : c.Covers (c.chipStart.toNat + c.k) hi) (hi' : c.chipStart.toNat + c.k + i < hi) :
    (c.high a).getLsbD i = (c.high b).getLsbD i := by
  rw [AdRegs.high_eq_shift hP, AdRegs.high_eq_shift hP, BitVec.getLsbD_ushiftRight, BitVec.getLsbD_ushiftRight]
  rcases Nat.lt_or_ge (c.chipStart.toNat + c.k + i) 64 with h64 | h64
  · have covered := hcov _ (Nat.le_add_right _ i) hi' h64
    have agree := congrArg (BitVec.getLsbD · (c.chipStart.toNat + c.k + i))
      (xor_and_eq_zero_iff.1 (AdRegs.xor_and_u4_of_decode_eq_pow2 hP h))
    simpa only [BitVec.getLsbD_and, covered, Bool.and_true] using agree
  · rw [BitVec.getLsbD_of_ge _ _ h64, BitVec.getLsbD_of_ge _ _ h64]

/-- With the `k` bits above the channel covered, what BITWISE_PERMUTATION mixes into the channel is recovered. -/
theorem AdRegs.high_and_eq (h : c.decode F a = c.decode F b)
    (hcov : c.Covers (c.chipStart.toNat + c.k) (c.chipStart.toNat + 2 * c.k)) :
    (c.high a).toNat &&& (c.nchan.toNat - 1) = (c.high b).toNat &&& (c.nchan.toNat - 1) := by
  refine Nat.eq_of_testBit_eq fun i => ?_
  rw [AdRegs.nchan_eq_two_pow hP, Nat.testBit_and, Nat.testBit_and, Nat.testBit_two_pow_sub_one]
  rcases Nat.lt_or_ge i c.k with hi | hi
  · exact congrArg (· && decide (i < c.k)) (AdRegs.high_getLsbD_eq hP h hcov (by omega))
  · rw [decide_eq_false (by omega), Bool.and_false, Bool.and_false]

/-- With every bit above the channel covered, `high` is recovered. -/
theorem AdRegs.high_eq_of_covers (h : c.decode F a = c.decode F b) (hcov : c.Covers (c.chipStart.toNat + c.k) 64) :
    c.high a = c.high b := by
  have all : c.Covers (c.chipStart.toNat + c.k) (c.chipStart.toNat + c.k + 64) := fun i hlo _ hi => hcov i hlo hi hi
  exact BitVec.eq_of_getLsbD_eq fun i hi => AdRegs.high_getLsbD_eq hP h all (by omega)

end Pow2

/-! ## The raw channel from the chip -/

/-- BITWISE_PERMUTATION: the bits mixed into the channel cancel. -/
theorem AdRegs.chipRaw_eq_of_bitwisePermutation (hf : c.idxfn = 1) (hP : ∃ k, c.nchan.toNat = 2 ^ k)
    (hcov : c.Covers (c.chipStart.toNat + c.k) (c.chipStart.toNat + 2 * c.k)) (h : c.decode F a = c.decode F b) :
    c.chipRaw a = c.chipRaw b := by
  have chip : c.chip F a = c.chip F b := congrArg Coord.chip h
  rw [AdRegs.chip_bitwisePermutation F a hf, AdRegs.chip_bitwisePermutation F b hf, AdRegs.high_and_eq hP h hcov] at chip
  exact Nat.xor_left_inj.1 chip

/-- A function that permutes the channels for every `high` is undone once `high` is recovered (R9). -/
theorem AdRegs.chipRaw_eq_of_idxPerm {f : Addr → Nat → Nat → Nat} (hf : IdxPerm f) (hc : c.Legal)
    (hP : ∃ k, c.nchan.toNat = 2 ^ k) (hcov : c.Covers (c.chipStart.toNat + c.k) 64)
    (hchip : ∀ x, c.chip F x = f (c.high x) (c.chipRaw x) c.nchan.toNat) (h : c.decode F a = c.decode F b) :
    c.chipRaw a = c.chipRaw b := by
  have chip : c.chip F a = c.chip F b := congrArg Coord.chip h
  rw [hchip, hchip, AdRegs.high_eq_of_covers hP h hcov] at chip
  exact (hf _ _).2 _ _ (AdRegs.chipRaw_lt hc a) (AdRegs.chipRaw_lt hc b) chip

/-- CONSECUTIVE decodes the raw channel itself. -/
theorem AdRegs.chipRaw_eq_of_consecutive (hf : c.idxfn = 0) (h : c.decode F a = c.decode F b) : c.chipRaw a = c.chipRaw b := by
  rw [← AdRegs.chip_consecutive F a hf, ← AdRegs.chip_consecutive F b hf]
  exact congrArg Coord.chip h

/-- Settles O25: `U4` from the fields in every clause, the raw channel by the strategy. -/
theorem decodingIsInjectiveOnRelevantBits : Obligations.DecodingIsInjectiveOnRelevantBits := by
  intro F c a b hc _ h
  refine ⟨fun hf hP => ?a, fun hf _ => ?b, fun hf hcov => ?c, fun hf hcov => ?d⟩
  case a => exact AdRegs.xor_and_u_of_decode_eq hP hc h (AdRegs.chipRaw_eq_of_consecutive hf h)
  case b => exact ⟨AdRegs.chipRaw_eq_of_consecutive hf h, AdRegs.xor_and_u4_of_decode_eq h⟩
  case c =>
    have hP := hc.pow2_of_idxfn (by simp [hf]) (by simp [hf]) (by simp [hf])
    exact AdRegs.xor_and_u_of_decode_eq hP hc h (AdRegs.chipRaw_eq_of_bitwisePermutation hf hP hcov h)
  case d =>
    obtain ⟨hf, hperm⟩ | ⟨hf, hperm⟩ | ⟨hf, hperm, hP⟩ := hf
    · have hP := hc.pow2_of_idxfn (by simp [hf]) (by simp [hf]) (by simp [hf])
      exact AdRegs.xor_and_u_of_decode_eq hP hc h
        (AdRegs.chipRaw_eq_of_idxPerm hperm hc hP hcov (fun x => AdRegs.chip_ipoly F x hf) h)
    · have hP := hc.pow2_of_idxfn (by simp [hf]) (by simp [hf]) (by simp [hf])
      exact AdRegs.xor_and_u_of_decode_eq hP hc h
        (AdRegs.chipRaw_eq_of_idxPerm hperm hc hP hcov (fun x => AdRegs.chip_pae F x hf) h)
    · exact AdRegs.xor_and_u_of_decode_eq hP hc h
        (AdRegs.chipRaw_eq_of_idxPerm hperm hc hP hcov (fun x => AdRegs.chip_custom F x hf) h)

end Sys2Proof.Machine
end

section
/-! The partition address (40_address_decoder.md rules R120, R121): the selecting bits, what the rest packs to, and the address
put together again. -/

namespace Sys2Proof.Machine

variable {c : AdRegs} {a b : Addr}

/-! ## The selecting bits (R112) -/

theorem AdRegs.subMask_getLsbD (c : AdRegs) (p : Nat) :
    c.subMask.getLsbD p = (c.maskBank.getLsbD p && decide (rankBelow c.maskBank p < c.j)) :=
  getLsbD_pdep_ones c.maskBank c.j p

/-- A legal bank mask has the `j` bits that select a sub-partition (R111 check g). -/
theorem AdRegs.Legal.popcount_subMask (h : c.Legal) : popcount c.subMask = c.j := by
  have enough : c.j ≤ popcount c.maskBank := by
    rw [← Nat.pow_le_pow_iff_right Nat.one_lt_two, ← h.nsub_eq_two_pow]
    exact h.bankBits
  rw [AdRegs.subMask, popcount_pdep_ones, Nat.min_eq_left enough]

/-- With `P` the chip mask has `k` bits. -/
theorem AdRegs.Legal.le_popcount_maskChip (h : c.Legal) (hP : ∃ k, c.nchan.toNat = 2 ^ k) : c.k ≤ popcount c.maskChip := by
  have room : c.chipStart.toNat + c.k ≤ 64 := h.room
  have packed : pextNat 64 c.maskChip.toNat ((2 ^ c.k - 1) * 2 ^ c.chipStart.toNat) = 2 ^ c.k - 1 := by
    have := Nat.two_pow_pos c.k
    rw [h.maskChip_toNat hP, pextNat_contiguous _ room, Nat.mul_div_cancel _ (by positivity), Nat.mod_eq_of_lt (by omega)]
  have lt := pextNat_lt 64 c.maskChip.toNat ((2 ^ c.k - 1) * 2 ^ c.chipStart.toNat)
  rw [packed] at lt
  exact (Nat.pow_le_pow_iff_right Nat.one_lt_two).1 (Nat.le_of_pred_lt lt)

/-- Channel and sub-partition are selected by different bits (R111 step 2). -/
theorem AdRegs.maskChip_and_subMask (h : ¬∃ i, c.shared i) : c.maskChip &&& c.subMask = 0 := by
  refine BitVec.eq_of_getLsbD_eq fun i _ => Eq.trans ?_ BitVec.getLsbD_zero.symm
  have apart : ¬(c.maskChip.getLsbD i = true ∧ c.maskBank.getLsbD i = true) := fun hb =>
    h ⟨i, 0, 1, c.maskChip, c.maskBank, Nat.zero_lt_one, rfl, rfl, hb⟩
  rw [BitVec.getLsbD_and, AdRegs.subMask_getLsbD]
  revert apart
  cases c.maskChip.getLsbD i <;> cases c.maskBank.getLsbD i <;> simp

/-- The bits that select nothing are at most `64 - k - j` (R120). -/
theorem AdRegs.Legal.popcount_unselecting_le (h : c.Legal) (hd : ¬∃ i, c.shared i) (hP : ∃ k, c.nchan.toNat = 2 ^ k) :
    popcount (~~~(c.maskChip ||| c.subMask)) ≤ 64 - c.k - c.j := by
  have all : popcount (~~~(c.maskChip ||| c.subMask) ||| (c.maskChip ||| c.subMask)) ≤ 64 := popcountNat_le _ _
  have apart : ~~~(c.maskChip ||| c.subMask) &&& (c.maskChip ||| c.subMask) = 0 := by
    rw [BitVec.and_comm]; exact BitVec.and_not_self _
  rw [popcount_or_of_disjoint apart, popcount_or_of_disjoint (AdRegs.maskChip_and_subMask hd), h.popcount_subMask] at all
  have := h.le_popcount_maskChip hP
  omega

/-! ## The partition address (R120) -/

theorem AdRegs.partitionAddress_toNat_of_pow2 (hP : ∃ k, c.nchan.toNat = 2 ^ k) (a : Addr) :
    (c.partitionAddress a).toNat = pext (~~~(c.maskChip ||| c.subMask)) a := by
  rw [AdRegs.partitionAddress, if_pos (AdRegs.p_iff.2 hP), BitVec.toNat_ofNat, Nat.mod_eq_of_lt (pext_lt_two_pow_64 _ _)]

theorem AdRegs.partitionAddress_toNat_of_not_pow2 (hP : ¬∃ k, c.nchan.toNat = 2 ^ k) (a : Addr) :
    (c.partitionAddress a).toNat = pext (~~~c.subMask) (c.w a) := by
  rw [AdRegs.partitionAddress, if_neg (mt AdRegs.p_iff.1 hP), BitVec.toNat_ofNat,
    Nat.mod_eq_of_lt (pext_lt_two_pow_64 _ _)]

/-- With `P` the partition address has `64 - k - j` significant bits (R120). -/
theorem AdRegs.partitionAddress_lt (h : c.Legal) (hd : ¬∃ i, c.shared i) (hP : ∃ k, c.nchan.toNat = 2 ^ k) (a : Addr) :
    (c.partitionAddress a).toNat < 2 ^ (64 - c.k - c.j) := by
  rw [AdRegs.partitionAddress_toNat_of_pow2 hP]
  exact (pext_lt _ _).trans_le (Nat.pow_le_pow_right (by omega) (h.popcount_unselecting_le hd hP))

/-! ## Reconstruction (R121) -/

/-- A value is its bits under two masks and under what is left over. -/
theorem eq_or_and_masks (v x y : Reg64) : v = v &&& x ||| v &&& y ||| v &&& ~~~(x ||| y) := by
  rw [← BitVec.and_or_distrib_left, ← BitVec.and_or_distrib_left, BitVec.or_not_self, BitVec.and_allOnes]

/-- With `P` the address is the raw channel, the low bank bits and the partition address, each put back at its bits. -/
theorem AdRegs.eq_or_pdep (h : c.Legal) (hP : ∃ k, c.nchan.toNat = 2 ^ k) (a : Addr) :
    a = pdep c.maskChip (c.chipRaw a) ||| pdep c.subMask (c.bank a % c.nsub.toNat) |||
      pdep (~~~(c.maskChip ||| c.subMask)) (c.partitionAddress a).toNat := by
  have chip : pdep c.maskChip (c.chipRaw a) = a &&& c.maskChip := by rw [AdRegs.chipRaw_eq_pext h hP, pdep_pext]
  have bank : pdep c.subMask (c.bank a % c.nsub.toNat) = a &&& c.subMask := by
    rw [h.nsub_eq_two_pow, AdRegs.bank, AdRegs.w_of_pow2 hP]
    exact pdep_pdep_ones_pext c.maskBank c.j a
  rw [chip, bank, AdRegs.partitionAddress_toNat_of_pow2 hP, pdep_pext]
  exact eq_or_and_masks a _ _

/-- Under CONSECUTIVE with `P` the sub-partition and the partition address determine the address (R121). -/
theorem AdRegs.eq_of_sub_eq_of_partitionAddress_eq {F : ParamFns} (h : c.Legal) (hP : ∃ k, c.nchan.toNat = 2 ^ k)
    (hf : c.idxfn = 0) (hsub : c.sub F a = c.sub F b) (hpa : c.partitionAddress a = c.partitionAddress b) : a = b := by
  have chip : c.chipRaw a = c.chipRaw b := by
    rw [← AdRegs.chip_consecutive F a hf, ← AdRegs.chip_consecutive F b hf, ← AdRegs.sub_div F a h, hsub, AdRegs.sub_div F b h]
  have bank : c.bank a % c.nsub.toNat = c.bank b % c.nsub.toNat := by
    rw [← AdRegs.sub_mod F a h, hsub, AdRegs.sub_mod F b h]
  rw [AdRegs.eq_or_pdep h hP a, chip, bank, hpa, ← AdRegs.eq_or_pdep h hP b]

/-- Settles O26: each part gives back the address under its mask, and the masks make up all 64 bits. -/
theorem addressesAreReconstructed : Obligations.AddressesAreReconstructed := by
  intro F c a b h _ hP
  refine ⟨?_, AdRegs.eq_of_sub_eq_of_partitionAddress_eq h hP⟩
  rw [h.and_nsub_sub_one]
  exact AdRegs.eq_or_pdep h hP a

end Sys2Proof.Machine
end

section
/-! The decoder's commands (40_address_decoder.md rules R111, R116, R120, R122): for each outcome of each command one lemma
that says when it is answered, then the statements. -/

namespace Sys2Proof.Machine

variable {s t : State}

/-! ## AD.CONFIGURE (R111) -/

/-- The checks of AD.CONFIGURE in their order, on a decoder that is not configured. -/
theorem exec_adConfigure_unconfigured (hf : s.sys.fatal = false) (hc : s.ad.configured = false) :
    exec .adConfigure s =
      if s.ad.stage.overlap ≠ 0 then .next (s.fatalEntry 0x01 s.ad.stage.overlap)
      else if s.ad.stage.legal then .next { s with ad := s.ad.commit, rsp := some { status := .ok } }
      else .next (s.answering { status := .configInvalid }) := by
  change execAdConfigure s = _
  rw [execAdConfigure, unlessFatal_ok hf, hc, if_neg Bool.false_ne_true]
  rfl

theorem exec_adConfigure_configured (hf : s.sys.fatal = false) (hc : s.ad.configured = true) :
    exec .adConfigure s = .next (s.answering { status := .alreadyConfigured }) := by
  change execAdConfigure s = _
  rw [execAdConfigure, unlessFatal_ok hf, hc, if_pos rfl]
  rfl

/-- Settles O21: the overlap is nonzero when two masks share a bit, the computed checks are the legality of R111. -/
theorem adConfigureChecksThenCommits : Obligations.AdConfigureChecksThenCommits := by
  intro s hf
  refine ⟨exec_adConfigure_configured hf, fun hc hov => ⟨s.ad.stage.overlap, ?fatal⟩, fun hc hno hl => ?invalid,
    fun hc hno hl => ?commit⟩
  case fatal =>
    have nonzero : s.ad.stage.overlap ≠ 0 := fun h => (AdRegs.overlap_eq_zero _).1 h hov
    rw [exec_adConfigure_unconfigured hf hc, if_pos nonzero]
    exact ⟨fun b => (AdRegs.shared_iff _ b).symm, rfl⟩
  case invalid =>
    have zero := (AdRegs.overlap_eq_zero _).2 hno
    rw [exec_adConfigure_unconfigured hf hc, if_neg (not_not.2 zero), if_neg (mt (AdRegs.legal_iff _).1 hl)]
  case commit =>
    have zero := (AdRegs.overlap_eq_zero _).2 hno
    rw [exec_adConfigure_unconfigured hf hc, if_neg (not_not.2 zero), if_pos ((AdRegs.legal_iff _).2 hl)]
    rfl

/-! ## What the invariant says of a live decoder -/

theorem State.Inv.ad_legal (hi : s.Inv) (hs : s.AdLive) : s.ad.active.Legal :=
  (AdRegs.legal_iff _).1 (hi.ad.legal hs.configured)

theorem State.Inv.ad_disjoint (hi : s.Inv) (hs : s.AdLive) : ¬∃ i, s.ad.active.shared i :=
  (AdRegs.overlap_eq_zero _).1 (hi.ad.disjoint hs.configured)

theorem State.Inv.ad_indexing (hi : s.Inv) (hs : s.AdLive) : s.ad.active.indexing ≠ .reserved :=
  hi.ad.indexing hs.configured

/-! ## AD.DECODE (R116) -/

theorem exec_adDecode (hs : s.AdLive) (hx : s.ad.active.indexing ≠ .reserved) (a : Addr) :
    exec (.adDecode a) s = .next (s.answering (s.ad.active.decode (Config.params s.run) a).rsp) := by
  change execAdDecode a s = _
  rw [execAdDecode, unlessFatal_ok hs.notFatal, hs.configured, ifConfigured_true, withIndexing_ok hx]
  rfl

/-- Two 32-bit fields of a response word as naturals (R116). -/
theorem ofNat_append_ofNat {lo hi : Nat} (hlo : lo < 2 ^ 32) (hhi : hi < 2 ^ 32) :
    BitVec.ofNat 32 hi ++ BitVec.ofNat 32 lo = BitVec.ofNat 64 (lo + 2 ^ 32 * hi) := by
  apply BitVec.eq_of_toNat_eq
  rw [toNat_append_eq_add, BitVec.toNat_ofNat, BitVec.toNat_ofNat, BitVec.toNat_ofNat, Nat.mod_eq_of_lt hlo,
    Nat.mod_eq_of_lt hhi]
  omega

/-- A field mask has at most 32 bits, so its coordinate fits (R111 check d, R114). -/
theorem AdRegs.Legal.pext_lt_two_pow_32 {c : AdRegs} (h : c.Legal) {x : Reg64} (hx : x ∈ c.masks) (v : Reg64) :
    pext x v < 2 ^ 32 :=
  (pext_lt x v).trans_le (Nat.pow_le_pow_right (by omega) (h.widths x hx))

/-- Channels and sub-partitions are at most `2^16` and `2^8` (R111 checks a, b). -/
theorem AdRegs.Legal.nchan_mul_nsub_le {c : AdRegs} (h : c.Legal) : c.nchan.toNat * c.nsub.toNat ≤ 2 ^ 16 * 2 ^ 8 := by
  obtain ⟨j, hj, hm⟩ := h.subs
  rw [hm]
  exact Nat.mul_le_mul h.channels.2 (Nat.pow_le_pow_right (by omega) hj)

/-- Every coordinate of a legal configuration fits in 32 bits (R114). -/
theorem AdRegs.decode_lt_two_pow_32 {c : AdRegs} (h : c.Legal) (F : ParamFns) (a : Addr) :
    c.chip F a < 2 ^ 32 ∧ c.bank a < 2 ^ 32 ∧ c.row a < 2 ^ 32 ∧ c.col a < 2 ^ 32 ∧ c.burst a < 2 ^ 32 ∧
      c.sub F a < 2 ^ 32 := by
  have chip := (AdRegs.chip_lt F a h).trans_le h.channels.2
  have sub := (AdRegs.sub_lt F a h).trans_le h.nchan_mul_nsub_le
  refine ⟨by omega, ?_, ?_, ?_, ?_, by omega⟩
  all_goals exact h.pext_lt_two_pow_32 (by simp [AdRegs.masks]) _

/-- Settles O23: the coordinates are the model's own, their formulas the strategies', the response packs them in pairs. -/
theorem decodeAnswersTheCoordinates : Obligations.DecodeAnswersTheCoordinates := by
  intro s a hs hi
  have h := hi.ad_legal hs
  have small := AdRegs.decode_lt_two_pow_32 h (Config.params s.run) a
  refine ⟨_, _, _, _, _, _, small, rfl, rfl, rfl, rfl, AdRegs.chip_consecutive _ a, AdRegs.chip_bitwisePermutation _ a,
    AdRegs.chip_ipoly _ a, AdRegs.chip_pae _ a, AdRegs.chip_random _ a, AdRegs.chip_custom _ a, rfl, ?_⟩
  obtain ⟨chip, bank, row, col, burst, sub⟩ := small
  rw [exec_adDecode hs (hi.ad_indexing hs), ← ofNat_append_ofNat chip bank, ← ofNat_append_ofNat row col,
    ← ofNat_append_ofNat burst sub]
  rfl

/-! ## AD.PADDR (R120) -/

theorem exec_adPaddr (hs : s.AdLive) (a : Addr) :
    exec (.adPaddr a) s = .next (s.answering { status := .ok, q0 := s.ad.active.partitionAddress a }) := by
  change execAdPaddr a s = _
  rw [execAdPaddr, unlessFatal_ok hs.notFatal, hs.configured, ifConfigured_true]
  rfl

/-- Settles O27: SUBMASK is the model's, the answer its partition address, which never reads AD_IDXFN. -/
theorem partitionAddressDropsTheSelectingBits : Obligations.PartitionAddressDropsTheSelectingBits := by
  intro s a hs hi
  have h := hi.ad_legal hs
  refine ⟨s.ad.active.j, s.ad.active.subMask, s.ad.active.partitionAddress a, h.nsub_eq_two_pow, fun p => ?_, fun hP => ?_,
    fun hP => AdRegs.partitionAddress_toNat_of_not_pow2 hP a, fun _ => rfl, exec_adPaddr hs a⟩
  · rw [AdRegs.subMask_getLsbD, Bool.and_eq_true, decide_eq_true_eq]
  · exact ⟨AdRegs.partitionAddress_toNat_of_pow2 hP a, AdRegs.partitionAddress_lt h (hi.ad_disjoint hs) hP a⟩

end Sys2Proof.Machine
end

section
/-! AD.SWEEP (40_address_decoder.md rule R122): its computed assertion against the bounds of R119 and the relevant bits of
R118, its checks in order, and its verdict. -/

namespace Sys2Proof.Machine

variable {F : ParamFns} {c : AdRegs} {a b base : Addr} {count stride : BitVec 32} {s : State}

/-! ## The assertion at one index -/

theorem AdRegs.boundsOk_iff : c.boundsOk F a = true ↔ c.BoundsHold F a := by
  simp only [AdRegs.boundsOk, Bool.and_eq_true, decide_eq_true_eq, beq_iff_eq]
  constructor
  · rintro ⟨⟨⟨⟨⟨⟨⟨chip, sub⟩, subDiv⟩, subMod⟩, bank⟩, row⟩, col⟩, burst⟩
    exact ⟨chip, sub, subDiv, subMod, bank, row, col, burst⟩
  · rintro ⟨chip, sub, subDiv, subMod, bank, row, col, burst⟩
    exact ⟨⟨⟨⟨⟨⟨⟨chip, sub⟩, subDiv⟩, subMod⟩, bank⟩, row⟩, col⟩, burst⟩

theorem AdRegs.sameRelevant_iff : c.sameRelevant a b = true ↔ c.SameRelevant a b := by
  unfold AdRegs.sameRelevant AdRegs.SameRelevant
  by_cases hP : ∃ k, c.nchan.toNat = 2 ^ k
  · rw [if_pos (AdRegs.p_iff.2 hP), beq_iff_eq]
    exact ⟨fun h => ⟨fun _ => h, fun hn => absurd hP hn⟩, fun h => h.1 hP⟩
  · rw [if_neg (mt AdRegs.p_iff.1 hP), Bool.and_eq_true, beq_iff_eq, beq_iff_eq]
    exact ⟨fun h => ⟨fun hp => absurd hp hP, fun _ => h⟩, fun h => h.2 hP⟩

theorem AdRegs.sweepFailsAt_iff {t : Nat} : c.sweepFailsAt F base stride t = true ↔ c.SweepFails F base stride t := by
  simp only [AdRegs.sweepFailsAt, AdRegs.SweepFails, Bool.or_eq_true, Bool.not_eq_true', ← Bool.not_eq_true,
    AdRegs.boundsOk_iff, List.any_eq_true, List.mem_range, Bool.and_eq_true, beq_iff_eq, AdRegs.sameRelevant_iff]

/-! ## The first failure -/

theorem AdRegs.sweepFailure_eq_some {t n : Nat} (ht : t < n) (hfail : c.SweepFails F base stride t)
    (hfirst : ∀ i, i < t → ¬c.SweepFails F base stride i) : c.sweepFailure F base stride n = some t := by
  rw [AdRegs.sweepFailure, List.find?_range_eq_some]
  refine ⟨AdRegs.sweepFailsAt_iff.2 hfail, List.mem_range.2 ht, fun i hi => ?_⟩
  rw [Bool.not_eq_true', ← Bool.not_eq_true, AdRegs.sweepFailsAt_iff]
  exact hfirst i hi

theorem AdRegs.sweepFailure_eq_none {n : Nat} (h : ∀ t, t < n → ¬c.SweepFails F base stride t) :
    c.sweepFailure F base stride n = none := by
  rw [AdRegs.sweepFailure, List.find?_range_eq_none]
  intro t ht
  rw [Bool.not_eq_true', ← Bool.not_eq_true, AdRegs.sweepFailsAt_iff]
  exact h t ht

/-! ## The checks in their order -/

theorem sweepRange_iff : SweepRange base count stride ↔
    ¬(count = 0 ∨ stride = 0 ∨ base.toNat + (count.toNat - 1) * stride.toNat ≥ 2 ^ 64) := by
  simp only [SweepRange, not_or, not_le, ge_iff_le, ne_eq]

theorem exec_adSweep_diagOff (hf : s.sys.fatal = false) (hd : s.ad.diag = 0) :
    exec (.adSweep base count stride) s = .next (s.answering { status := .diagDisabled }) := by
  change execAdSweep base count stride s = _
  rw [execAdSweep, unlessFatal_ok hf, if_pos hd]
  rfl

section DiagOn
variable (hf : s.sys.fatal = false) (hd : s.ad.diag = 1)
include hf hd

theorem exec_adSweep_unconfigured (hc : s.ad.configured = false) :
    exec (.adSweep base count stride) s = .next (s.answering { status := .notConfigured }) := by
  change execAdSweep base count stride s = _
  rw [execAdSweep, unlessFatal_ok hf, if_neg (by simp [hd]), hc, ifConfigured_false]
  rfl

theorem exec_adSweep_badOperand (hc : s.ad.configured = true) (hr : ¬SweepRange base count stride) :
    exec (.adSweep base count stride) s = .next (s.answering { status := .badOperand }) := by
  change execAdSweep base count stride s = _
  rw [execAdSweep, unlessFatal_ok hf, if_neg (by simp [hd]), hc, ifConfigured_true,
    if_pos (not_not.1 (mt sweepRange_iff.2 hr))]
  rfl

/-- In range AD.SWEEP passes the count or is fatal at the failure its search finds. -/
theorem exec_adSweep_inRange (hc : s.ad.configured = true) (hi : s.Inv) (hr : SweepRange base count stride) :
    exec (.adSweep base count stride) s =
      (s.ad.active.sweepFailure (Config.params s.run) base stride count.toNat).elim
        (.next (s.answering { status := .ok, q0 := BitVec.ofNat 64 count.toNat }))
        fun t => .next (s.fatalEntry 0x02 (sweepAddr base stride t)) := by
  change execAdSweep base count stride s = _
  rw [execAdSweep, unlessFatal_ok hf, if_neg (by simp [hd]), hc, ifConfigured_true, if_neg (sweepRange_iff.1 hr),
    withIndexing_ok (hi.ad.indexing hc), BitVec.ofNat_toNat]
  cases s.ad.active.sweepFailure (Config.params s.run) base stride count.toNat <;> rfl

end DiagOn

/-- Settles O28: one lemma for each check; the computed search finds the first index at which the assertion fails. -/
theorem sweepReportsTheFirstFailure : Obligations.SweepReportsTheFirstFailure := by
  intro s base count stride hf
  refine ⟨exec_adSweep_diagOff hf, exec_adSweep_unconfigured hf, exec_adSweep_badOperand hf,
    fun hd hc hi hr => ⟨fun t ht hfail hfirst => ?fails, fun hnone => ?passes⟩⟩
  case fails =>
    rw [exec_adSweep_inRange hf hd hc hi hr, AdRegs.sweepFailure_eq_some ht hfail hfirst]
    rfl
  case passes =>
    rw [exec_adSweep_inRange hf hd hc hi hr, AdRegs.sweepFailure_eq_none hnone]
    rfl

/-! ## CONSECUTIVE -/

/-- Under CONSECUTIVE addresses that decode alike have the same relevant bits (R118 (a), (b)). -/
theorem AdRegs.sameRelevant_of_consecutive (hc : c.Legal) (hf : c.idxfn = 0) (h : c.decode F a = c.decode F b) :
    c.SameRelevant a b :=
  have hraw := AdRegs.chipRaw_eq_of_consecutive hf h
  ⟨fun hP => AdRegs.xor_and_u_of_decode_eq hP hc h hraw, fun _ => ⟨hraw, AdRegs.xor_and_u4_of_decode_eq h⟩⟩

theorem AdRegs.not_sweepFails_of_consecutive (hc : c.Legal) (hf : c.idxfn = 0) (t : Nat) :
    ¬c.SweepFails F base stride t := by
  rintro (hbounds | ⟨i, -, hsame, hdiff⟩)
  · exact hbounds (AdRegs.boundsHold F _ hc)
  · exact hdiff (AdRegs.sameRelevant_of_consecutive hc hf hsame)

/-- Settles O29: under CONSECUTIVE the assertion fails nowhere, so no index is found. -/
theorem consecutiveSweepsPass : Obligations.ConsecutiveSweepsPass := by
  intro s base count stride hs hi hd hf hr
  have noFailure := AdRegs.sweepFailure_eq_none (F := Config.params s.run) (base := base) (stride := stride) (n := count.toNat)
    fun t _ => AdRegs.not_sweepFails_of_consecutive (hi.ad_legal hs) hf t
  rw [exec_adSweep_inRange hs.notFatal hd hs.configured hi hr, noFailure]
  rfl

end Sys2Proof.Machine
end

section
/-! Decoding along a run (40_address_decoder.md rule R117): once configured, no command changes what AD.DECODE reads, the
active copy and the run's parameter functions. -/

namespace Sys2Proof.Machine

variable {s t u : State}

/-- What AD.DECODE reads of `t` is what it reads of `s`, and `t` is configured. -/
structure State.DecodesLike (t s : State) : Prop where
  configured : t.ad.configured = true
  active     : t.ad.active = s.ad.active
  run        : t.run = s.run

theorem State.DecodesLike.refl (hc : s.ad.configured = true) : s.DecodesLike s := ⟨hc, rfl, rfl⟩

theorem State.DecodesLike.trans (h : u.DecodesLike t) (k : t.DecodesLike s) : u.DecodesLike s :=
  ⟨h.configured, h.active.trans k.active, h.run.trans k.run⟩

/-! ## One command -/

/-- AD.CONFIGURE on a configured decoder only answers (R111 step 1). -/
theorem execAdConfigure_answersOnly (hc : s.ad.configured = true) : AnswersOnly s (execAdConfigure s) := by
  rw [execAdConfigure, hc, if_pos rfl]
  exact unlessFatal_answersOnly (respond_answersOnly _)

theorem execAdSweep_ad {base : Addr} {count stride : BitVec 32} (h : execAdSweep base count stride s = .next t) :
    t.ad = s.ad := by
  obtain ⟨-, rfl⟩ | ⟨-, h⟩ := unlessFatal_next h
  · rfl
  split at h
  · cases h; rfl
  obtain ⟨-, rfl⟩ | ⟨-, h⟩ := ifConfigured_next h
  · rfl
  split at h
  · cases h; rfl
  obtain ⟨-, h⟩ := withIndexing_next h
  split at h <;> cases h <;> rfl

theorem execCsrw_ad {csr : CsrAddr} {v : Reg64} (h : execCsrw csr v s = .next t) :
    t.ad.configured = s.ad.configured ∧ t.ad.active = s.ad.active := by
  obtain ⟨-, rfl⟩ | ⟨-, h⟩ := unlessFatal_next h
  · exact ⟨rfl, rfl⟩
  · split at h
    · cases h; exact ⟨rfl, rfl⟩
    · split_ifs at h <;> cases h
      · exact ⟨rfl, rfl⟩
      · obtain ⟨-, hactive, hconfigured, -⟩ := csrWrite_frame v s _
        exact ⟨hconfigured, hactive⟩

/-- No command changes AD_CTRL.CONFIGURED or the active copy of a configured decoder (R26, R111). -/
theorem exec_configured_active {i : Instr} (hc : s.ad.configured = true) (h : exec i s = .next t) :
    t.ad.configured = s.ad.configured ∧ t.ad.active = s.ad.active := by
  cases i with
  | nop => cases h; exact ⟨rfl, rfl⟩
  | csrr csr =>
    obtain ⟨r, rfl⟩ := execCsrr_answersOnly csr t h
    exact ⟨rfl, rfl⟩
  | csrw csr v => exact execCsrw_ad h
  | adConfigure =>
    obtain ⟨r, rfl⟩ := execAdConfigure_answersOnly hc t h
    exact ⟨rfl, rfl⟩
  | adDecode a =>
    obtain ⟨⟨r, rfl⟩, -⟩ := readOnlyCommandsAreIdempotent (.adDecode a) s t (by simp) h
    exact ⟨rfl, rfl⟩
  | adPaddr a =>
    obtain ⟨⟨r, rfl⟩, -⟩ := readOnlyCommandsAreIdempotent (.adPaddr a) s t (by simp) h
    exact ⟨rfl, rfl⟩
  | adSweep base count stride =>
    rw [execAdSweep_ad h]
    exact ⟨rfl, rfl⟩
  | ccConfigure | ccAccess _ _ _ _ _ _ | ccFill _ _ _ | ccCycle _ | ccDpfree | ccFpfree | ccReady | ccNext | ccMqhead =>
    rw [← exec_cc_frame (unitOf_eq_commandUnit _) h]
    exact ⟨rfl, rfl⟩
  | xbConfigure | xbHasbuf _ _ _ _ | xbPush _ _ _ _ | xbPop _ | xbAdvance | xbBusy =>
    rw [← exec_xb_frame (unitOf_eq_commandUnit _) h]
    exact ⟨rfl, rfl⟩

theorem exec_decodesLike {i : Instr} (hc : s.ad.configured = true) (h : exec i s = .next t) : t.DecodesLike s :=
  have ⟨configured, active⟩ := exec_configured_active hc h
  ⟨configured.trans hc, active, (exec_inputs_run h).2⟩

/-! ## One step and a run -/

theorem runCmd_decodesLike {w : CmdWord} (hc : s.ad.configured = true) (h : runCmd w s = .next t) :
    t.DecodesLike s ∧ t.inputs = s.inputs := by
  by_cases hw : ∃ i, decode w = .ok i
  · obtain ⟨i, hi⟩ := hw
    rw [runCmd_legal hi] at h
    exact ⟨exec_decodesLike hc h, (exec_inputs_run h).1⟩
  · rw [runCmd_illegal hw] at h
    cases h
    exact ⟨⟨hc, rfl, rfl⟩, rfl⟩

/-- A step that is no reset pulse takes its input and leaves what AD.DECODE reads. -/
theorem step_decodesLike (hc : s.ad.configured = true) (hno : .reset ∉ s.inputs.head?) (h : step s = .next t) :
    t.DecodesLike s ∧ t.inputs = s.inputs.tail := by
  cases e : s.inputs with
  | nil =>
    rw [step_of_no_input e] at h
    cases h
    exact ⟨.refl hc, e⟩
  | cons x rest =>
    cases x with
    | reset => simp [e] at hno
    | cmd w =>
      rw [step_of_cmd e] at h
      obtain ⟨like, inputs⟩ := runCmd_decodesLike (s := s.withInputs rest) hc h
      exact ⟨⟨like.configured, like.active, like.run⟩, inputs⟩

/-- No reset pulse among the next inputs: the first is none and none follows. -/
theorem noReset_succ {n : Nat} (h : s.NoReset (n + 1)) :
    .reset ∉ s.inputs.head? ∧ ∀ x ∈ s.inputs.tail.take n, x ≠ .reset := by
  unfold State.NoReset at h
  cases e : s.inputs with
  | nil => simp
  | cons x rest =>
    rw [e, List.take_succ_cons, List.forall_mem_cons] at h
    exact ⟨by simpa using h.1, h.2⟩

/-- A run goes on from the state after its first step. -/
theorem run_succ_eq_next {M : Host.Core} {s t : M.State} {n : Nat} (h : M.run (n + 1) s = .next t) :
    ∃ u, M.step s = .next u ∧ M.run n u = .next t := by
  rw [Host.Core.run] at h
  split at h
  · exact ⟨_, ‹_›, h⟩
  · cases h
  · cases h

/-- Without a reset pulse a run leaves what AD.DECODE reads. -/
theorem run_decodesLike (n : Nat) (hc : s.ad.configured = true) (hno : s.NoReset n) (h : core.run n s = .next t) :
    t.DecodesLike s := by
  induction n generalizing s with
  | zero => cases h; exact .refl hc
  | succ n ih =>
    obtain ⟨u, hu, hrun⟩ : ∃ u : State, step s = .next u ∧ core.run n u = .next t := run_succ_eq_next h
    obtain ⟨hhead, htail⟩ := noReset_succ hno
    obtain ⟨like, inputs⟩ := step_decodesLike hc hhead hu
    have rest : u.NoReset n := fun x hx => htail x (inputs ▸ hx)
    exact (ih like.configured rest hrun).trans like

/-- Settles O30: at the end of the run AD.DECODE reads what it read at the start, so it gives the same response. -/
theorem decodingIsPureAlongRuns : Obligations.DecodingIsPureAlongRuns := by
  intro n s t a hs hi hno h hf
  have like := run_decodesLike n hs.configured hno h
  have hx := hi.ad_indexing hs
  have answer := exec_adDecode ⟨hf, like.configured⟩ (like.active ▸ hx) a
  rw [like.active, like.run] at answer
  exact ⟨_, exec_adDecode hs hx a, answer⟩

end Sys2Proof.Machine
end

section
/-! Every operation of a sound machine goes on and leaves it sound (41_cache_engine.md rule R180; 10_state.md rules R32, R34,
R35, R37; 42_crossbar.md rule R197): the shared checks once, then each block's commands from the block's own laws. -/

namespace Sys2Proof.Machine

variable {s : State} {k : Outcome}

/-- The outcome is a sound next state. -/
def StaysSound (k : Outcome) : Prop := ∃ t, k = .next t ∧ t.Inv

/-! ## The shared operations -/

/-- The response port, the inputs and the run number are no part of the invariant. -/
theorem State.Inv.respond (h : s.Inv) (r : Rsp) : StaysSound (Machine.respond r s) := ⟨_, rfl, h.sys, h.ad, h.cc, h.xb⟩

theorem State.Inv.raiseFatal (h : s.Inv) (c : FatalCause) (info : Reg64) : StaysSound (Machine.raiseFatal c info s) :=
  ⟨_, rfl, ⟨(fun hf => by cases hf), fun _ => ⟨c, rfl⟩⟩, h.ad, h.cc, h.xb⟩

theorem State.Inv.finishCc (h : s.Inv) {cc : CcState} (hcc : cc.Inv s.ad) (r : Rsp) : StaysSound (Machine.finishCc s cc r) :=
  ⟨_, rfl, h.sys, h.ad, hcc, h.xb⟩

theorem State.Inv.finishXb (h : s.Inv) {xb : XbState} (hxb : xb.Inv) (r : Rsp) : StaysSound (Machine.finishXb s xb r) :=
  ⟨_, rfl, h.sys, h.ad, h.cc, hxb⟩

theorem State.Inv.unlessFatal (h : s.Inv) (hk : s.sys.fatal = false → StaysSound k) : StaysSound (Machine.unlessFatal s k) := by
  cases hf : s.sys.fatal with
  | true => rw [unlessFatal_fatal hf]; exact h.respond _
  | false => rw [unlessFatal_ok hf]; exact hk hf

theorem State.Inv.ifConfigured (h : s.Inv) {b : Bool} (hk : b = true → StaysSound k) :
    StaysSound (Machine.ifConfigured b s k) := by
  cases b with
  | true => exact hk rfl
  | false => exact h.respond _

theorem State.Inv.ccOp (h : s.Inv) (hk : s.cc.configured = true → StaysSound k) : StaysSound (Machine.ccOp s k) :=
  h.unlessFatal fun _ => h.ifConfigured hk

theorem State.Inv.xbOp (h : s.Inv) (hk : s.xb.configured = true → StaysSound k) : StaysSound (Machine.xbOp s k) :=
  h.unlessFatal fun _ => h.ifConfigured hk

theorem State.Inv.ifNodes (h : s.Inv) {ds : List NodeId} (hk : (∀ d ∈ ds, d.toNat < s.xb.active.nodes) → StaysSound k) :
    StaysSound (Machine.ifNodes ds s k) := by
  by_cases hd : ∀ d ∈ ds, d.toNat < s.xb.active.nodes
  · rw [ifNodes_ok hd]; exact hk hd
  · unfold Machine.ifNodes
    split_ifs with hv
    · exact absurd (fun d hd => by simpa [XbRegs.validNode] using List.all_eq_true.1 hv d hd) hd
    · exact h.respond _

theorem State.Inv.withIndexing (h : s.Inv) (hc : s.ad.configured = true) (hk : StaysSound k) :
    StaysSound (Machine.withIndexing s k) := by
  rw [withIndexing_ok (h.ad.indexing hc)]; exact hk

/-! ## The system's and the decoder's commands -/

theorem State.Inv.execCsrr (h : s.Inv) (csr : CsrAddr) : StaysSound (Machine.execCsrr csr s) := by
  unfold Machine.execCsrr
  split
  · exact h.respond _
  · exact h.respond _

theorem State.Inv.execCsrw (h : s.Inv) (csr : CsrAddr) (v : Reg64) : StaysSound (Machine.execCsrw csr v s) := by
  refine h.unlessFatal fun _ => ?_
  split
  · exact h.respond _
  · split_ifs
    · exact h.respond _
    · exact (h.csrWrite v _).respond _

theorem State.Inv.execAdConfigure (h : s.Inv) : StaysSound (Machine.execAdConfigure s) := by
  refine h.unlessFatal fun _ => ?_
  split_ifs with hc hov hl
  · exact h.respond _
  · exact h.raiseFatal _ _
  · exact ⟨_, rfl, h.sys, .commit (not_not.1 hov) hl, h.cc.adCommit (by simpa using hc), h.xb⟩
  · exact h.respond _

theorem State.Inv.execAdDecode (h : s.Inv) (a : Addr) : StaysSound (Machine.execAdDecode a s) :=
  h.unlessFatal fun _ => h.ifConfigured fun hc => h.withIndexing hc (h.respond _)

theorem State.Inv.execAdPaddr (h : s.Inv) (a : Addr) : StaysSound (Machine.execAdPaddr a s) :=
  h.unlessFatal fun _ => h.ifConfigured fun _ => h.respond _

theorem State.Inv.execAdSweep (h : s.Inv) (base : Addr) (count stride : BitVec 32) :
    StaysSound (Machine.execAdSweep base count stride s) := by
  refine h.unlessFatal fun _ => ?_
  split
  · exact h.respond _
  refine h.ifConfigured fun hc => ?_
  split
  · exact h.respond _
  refine h.withIndexing hc ?_
  split
  · exact h.raiseFatal _ _
  · exact h.respond _

/-! ## The cache engine's commands -/

theorem State.Inv.execCcConfigure (h : s.Inv) : StaysSound (Machine.execCcConfigure s) := by
  refine h.unlessFatal fun _ => ?_
  split_ifs with hc hl
  · exact h.respond _
  · exact h.finishCc (.commit hl) _
  · exact h.respond _

theorem State.Inv.execCcAccess (h : s.Inv) (isWrite isAtomic : Bool) (smask : SectorMask) (addr : Addr) (id : ReqId)
    (size : ReqSize) : StaysSound (Machine.execCcAccess isWrite isAtomic smask addr id size s) := by
  refine h.ccOp fun hc => ?_
  dsimp only
  split_ifs with hw hbad
  · exact h.respond _
  · exact h.respond _
  · exact h.finishCc (h.cc.classify hc _ (ReadReq.ok_of_check rfl (by simpa using hbad))) _

theorem State.Inv.execCcFill (h : s.Inv) (hasParent : Bool) (id parent : ReqId) :
    StaysSound (Machine.execCcFill hasParent id parent s) := by
  refine h.ccOp fun hc => ?_
  dsimp only
  split
  · exact h.raiseFatal _ _
  · split
    · exact h.raiseFatal _ _
    · obtain ⟨cc, r, heq, hcc⟩ := fillFound_next h.cc hc (by assumption) (by assumption)
      rw [heq]
      exact h.finishCc hcc r

theorem State.Inv.execCcCycle (h : s.Inv) (dsOk : Bool) : StaysSound (Machine.execCcCycle dsOk s) := by
  refine h.ccOp fun hc => ?_
  dsimp only
  split
  · exact h.finishCc (h.cc.drainTick hc (by assumption)) _
  · exact h.finishCc (h.cc.tick hc) _

theorem State.Inv.execCcNext (h : s.Inv) : StaysSound (Machine.execCcNext s) := by
  refine h.ccOp fun hc => ?_
  cases hq : s.cc.readyQ with
  | nil => exact h.respond _
  | cons key keys =>
    obtain ⟨m, id, rest, hm, hl⟩ := h.cc.readyEntry hq
    simp only [hm, hl]
    exact h.finishCc (h.cc.handBack hc hq hm hl) _

theorem State.Inv.execCcMqhead (h : s.Inv) : StaysSound (Machine.execCcMqhead s) := by
  refine h.ccOp fun _ => ?_
  split
  · exact h.respond _
  · exact h.respond _

/-! ## The crossbar's commands -/

theorem State.Inv.execXbConfigure (h : s.Inv) : StaysSound (Machine.execXbConfigure s) := by
  refine h.unlessFatal fun _ => ?_
  split_ifs with hc hl
  · exact h.respond _
  · exact h.finishXb (.empty _ rfl rfl fun _ => hl) _
  · exact h.respond _

theorem State.Inv.execXbPush (h : s.Inv) (src dst : NodeId) (payload : Payload) (size : ReqSize) :
    StaysSound (Machine.execXbPush src dst payload size s) := by
  refine h.xbOp fun hc => h.ifNodes fun hd => ?_
  dsimp only
  split_ifs with hfull
  · exact h.raiseFatal _ _
  · exact h.finishXb (h.xb.push hc (XbRegs.injectSubnet_lt _ _) (hd dst (by simp)) (by omega) _) _

theorem State.Inv.execXbPop (h : s.Inv) (dev : NodeId) : StaysSound (Machine.execXbPop dev s) := by
  refine h.xbOp fun hc => h.ifNodes fun _ => ?_
  dsimp only
  split
  · exact h.respond _
  · split
    · exact h.respond _
    · exact h.finishXb (h.xb.popped hc (served_lt (by assumption)) (by assumption)) _

/-! ## Every command, every input -/

/-- Every command of a sound machine answers a sound next state. -/
theorem State.Inv.exec (h : s.Inv) (i : Instr) : StaysSound (Machine.exec i s) := by
  cases i with
  | nop => exact h.respond _
  | csrr csr => exact h.execCsrr csr
  | csrw csr v => exact h.execCsrw csr v
  | adConfigure => exact h.execAdConfigure
  | adDecode a => exact h.execAdDecode a
  | adPaddr a => exact h.execAdPaddr a
  | adSweep base count stride => exact h.execAdSweep base count stride
  | ccConfigure => exact h.execCcConfigure
  | ccAccess isWrite isAtomic smask addr id size => exact h.execCcAccess isWrite isAtomic smask addr id size
  | ccFill hasParent id parent => exact h.execCcFill hasParent id parent
  | ccCycle dsOk => exact h.execCcCycle dsOk
  | ccDpfree | ccFpfree | ccReady => exact h.ccOp fun _ => h.respond _
  | ccNext => exact h.execCcNext
  | ccMqhead => exact h.execCcMqhead
  | xbConfigure => exact h.execXbConfigure
  | xbHasbuf src dst payload size => exact h.xbOp fun _ => h.ifNodes fun _ => h.respond _
  | xbPush src dst payload size => exact h.execXbPush src dst payload size
  | xbPop dev => exact h.execXbPop dev
  | xbAdvance | xbBusy => exact h.xbOp fun _ => h.respond _

theorem State.Inv.of_exec {t : State} {i : Instr} (h : s.Inv) (he : Machine.exec i s = .next t) : t.Inv := by
  obtain ⟨u, hu, hi⟩ := h.exec i
  rw [he] at hu
  cases hu
  exact hi

theorem State.Inv.runCmd (h : s.Inv) (w : CmdWord) : StaysSound (Machine.runCmd w s) := by
  by_cases hw : ∃ i, decode w = .ok i
  · obtain ⟨i, hi⟩ := hw
    rw [runCmd_legal hi]
    exact h.exec i
  · rw [runCmd_illegal hw]
    exact h.respond _

theorem State.Inv.withInputs (h : s.Inv) (rest : List EnvInput) : (s.withInputs rest).Inv := ⟨h.sys, h.ad, h.cc, h.xb⟩

/-- The state after a reset pulse is sound, whatever stood before it (R250, R251). -/
theorem resetPulse_inv (s : State) : s.resetPulse.Inv where
  sys := ⟨fun _ => ⟨rfl, rfl⟩, (fun hf => by cases hf)⟩
  ad := ⟨(fun hc => by cases hc), (fun hc => by cases hc)⟩
  cc := .of_unborn rfl ⟨rfl, rfl, rfl, rfl, rfl⟩
  xb := .empty _ rfl rfl fun hc => by cases hc

/-- Settles O60, by the kind of the input at the head. -/
theorem everyStepGoesOnAndKeepsTheInvariant : Obligations.EveryStepGoesOnAndKeepsTheInvariant := by
  intro s h
  cases e : s.inputs with
  | nil => exact ⟨s, step_of_no_input e, h⟩
  | cons x rest =>
    cases x with
    | reset => exact ⟨_, step_of_reset e, resetPulse_inv _⟩
    | cmd w => rw [step_of_cmd e]; exact (h.withInputs rest).runCmd w

/-- Distinct keys (R180 (a)) are what the canonical form of a table says. -/
theorem FMap.Sorted.nodup_keys {α : Type} {m : FMap α} (h : m.Sorted) : (m.map Prod.fst).Nodup :=
  List.pairwise_map.2 (h.imp Nat.ne_of_lt)

/-- Settles O49: the next state is sound, and R180 (a) to (f) are parts of the invariant. -/
theorem cacheInvariantsHoldAfterEveryOperation : Obligations.CacheInvariantsHoldAfterEveryOperation := by
  intro i s t hs he
  have cc := (hs.of_exec he).cc
  have miss := cc.misses
  exact ⟨miss.mshrSorted.nodup_keys, miss.mqBound, miss.mshrBound,
    fun id e hid => ⟨(miss.metaOk id e hid).pending, (miss.metaOk id e hid).waiting⟩,
    fun _ set way k hset hway hr => (cc.tags.reserved set way k hset hway hr).2, miss.readyOnce, miss.readyKeys⟩

end Sys2Proof.Machine
end

section
/-! CC.CONFIGURE (41_cache_engine.md rule R140) and the geometry it fixes, in naturals (rules R141 to R143). -/

namespace Sys2Proof.Machine

variable {s : State} {c : CcRegs}

/-! ## CC.CONFIGURE (R140) -/

theorem exec_ccConfigure_configured (hf : s.sys.fatal = false) (hc : s.cc.configured = true) :
    exec .ccConfigure s = .next (s.answering { status := .alreadyConfigured }) := by
  change execCcConfigure s = _
  rw [execCcConfigure, unlessFatal_ok hf, hc, if_pos rfl]
  rfl

/-- The legality check, on a cache engine that is not configured. -/
theorem exec_ccConfigure_unconfigured (hf : s.sys.fatal = false) (hc : s.cc.configured = false) :
    exec .ccConfigure s =
      if s.cc.stage.legal s.ad.configured then .next { s with cc := s.cc.commit, rsp := some { status := .ok } }
      else .next (s.answering { status := .configInvalid }) := by
  change execCcConfigure s = _
  rw [execCcConfigure, unlessFatal_ok hf, hc, if_neg Bool.false_ne_true]
  rfl

/-- In an array that lists no line every line is as CC.CONFIGURE makes it. -/
@[simp] theorem lineAt_nil (set way : Nat) : lineAt [] set way = Line.empty := rfl

/-- Settles O31: the computed check is the legality of R140, and the committed array lists no line. -/
theorem ccConfigureChecksThenCommits : Obligations.CcConfigureChecksThenCommits := by
  intro s hf
  refine ⟨exec_ccConfigure_configured hf, fun hc hl => ?invalid, fun hc hl => ⟨_, ?commit, rfl, fun set way => ⟨rfl, empty_st⟩⟩⟩
  case invalid => rw [exec_ccConfigure_unconfigured hf hc, if_neg (mt (CcRegs.legal_iff _ _).1 hl)]
  case commit =>
    rw [exec_ccConfigure_unconfigured hf hc, if_pos ((CcRegs.legal_iff _ _).2 hl)]
    rfl

/-! ## Geometry (R141 to R143) -/

theorem State.Inv.cc_legal (hi : s.Inv) (hc : s.cc.configured = true) : s.cc.active.Legal s.ad.configured :=
  (CcRegs.legal_iff _ _).1 (hi.cc.legal hc)

theorem State.Inv.geometry (hi : s.Inv) (hc : s.cc.configured = true) : ∃ l t, Geometry s.cc.active l t :=
  CcRegs.geometry (hi.cc.legal hc)

/-- The tag sector size is the configured sector size of a sector cache, else the line size (R141). -/
theorem CcRegs.Legal.tagSectorBytes_eq {b : Bool} (h : c.Legal b) :
    c.tagSectorBytes = if c.kind = 1 then c.sectorSz.toNat else c.lineSz.toNat := by
  obtain ⟨l, -, hl⟩ := h.line
  obtain ⟨⟨q, hq⟩, hle⟩ := h.sector
  rw [hl, hq, Nat.pow_le_pow_iff_right (by omega)] at hle
  have divides : c.sectorSz.toNat ∣ c.lineSz.toNat := hl ▸ hq ▸ Nat.pow_dvd_pow 2 hle
  rw [CcRegs.tagSectorBytes, CcRegs.tagSectors]
  split_ifs
  · exact Nat.div_div_self divides (hl.trans_ne (by positivity))
  · exact Nat.div_one _

theorem CcRegs.srcAddr_direct (h : c.blkSrc = 0) (ad : AdRegs) (a : Addr) : c.srcAddr ad a = a := by
  rw [CcRegs.srcAddr, if_neg (by rw [h]; decide)]

theorem CcRegs.srcAddr_partition (h : c.blkSrc = 1) (ad : AdRegs) (a : Addr) : c.srcAddr ad a = ad.partitionAddress a :=
  if_pos h

/-- The set of a block is the set of every address in it. -/
theorem Geometry.setOf_blockAddr {l t : Nat} (g : Geometry c l t) (a : Addr) :
    c.setOf (c.blockAddr a) = a.toNat / c.lineBytes % c.sets := by
  rw [CcRegs.setOf, g.blockAddr_toNat, g.line, Nat.mul_div_cancel _ (by positivity)]

/-- The sector mask of a request as a natural (R142). -/
theorem Geometry.sectorMask_toNat {l t : Nat} (g : Geometry c l t) (a : Addr) :
    (c.sectorMask a).toNat = if c.kind = 1 then 2 ^ (a.toNat % c.lineBytes / c.tagSectorBytes) else 1 := by
  rw [CcRegs.sectorMask]
  split_ifs with h
  · have few : a.toNat % 2 ^ l / 2 ^ t < 16 := (g.sector_lt a).trans_le g.few
    rw [g.offset_eq, g.line, g.sector, BitVec.toNat_shiftLeft, BitVec.toNat_one (by omega), Nat.one_shiftLeft,
      Nat.mod_eq_of_lt (Nat.pow_lt_pow_right (by omega) few)]
  · rfl

/-- Settles O32: line and tag sector sizes are powers of two, so each mask of R141 to R143 is a quotient or a remainder. -/
theorem requestAddressesFollowTheGeometry : Obligations.RequestAddressesFollowTheGeometry := by
  intro s a hc hi
  obtain ⟨l, t, g⟩ := hi.geometry hc
  have line : 2 ^ l = s.cc.active.lineSz.toNat := g.line.symm
  refine ⟨_, _, s.cc.active.tagSectorBytes, rfl, rfl, rfl, (hi.cc_legal hc).tagSectorBytes_eq,
    fun h => CcRegs.srcAddr_direct h _ a, fun h => CcRegs.srcAddr_partition h _ a, ?block, ?offset, g.setOf_blockAddr _, ?key,
    g.sectorMask_toNat _, ?sector⟩
  case block => rw [← line]; exact g.blockAddr_toNat _
  case offset => rw [← line]; exact g.offset_eq _
  case key => rw [g.sector]; exact g.mshrAddr_toNat _
  case sector => rw [← line, g.sector]; exact line ▸ g.sector_lt (s.src a)

end Sys2Proof.Machine
end

section
/-! The tag probe (41_cache_engine.md rule R144): what the rule says of the tag array leaves one answer, the computed one. -/

namespace Sys2Proof.Machine

variable {s : State} {c : CcRegs} {lines : FMap Line} {b : Addr} {set way : Nat} {sm : SectorMask} {p : ProbeResult}

/-! ## The three searches of a probe, as equations -/

theorem findWay_eq_some {q : Line → Bool} (hway : way < c.ways) (hq : q (lineAt lines set way) = true)
    (below : ∀ w, w < way → q (lineAt lines set w) = false) : findWay c lines set q = some way :=
  List.find?_range_eq_some.2 ⟨hq, List.mem_range.2 hway, fun w hw => by rw [below w hw]; rfl⟩

/-- The victim is the one way not reserved that comes before every other in the order of R144. -/
theorem victim_eq_some (hway : way < c.ways) (hfree : (lineAt lines set way).isReserved = false)
    (least : ∀ w, w < c.ways → (lineAt lines set w).isReserved = false →
      replKey c lines set way < replKey c lines set w ∨ (replKey c lines set way = replKey c lines set w ∧ way ≤ w)) :
    victim c lines set = some way := by
  cases hv : victim c lines set with
  | none => rw [victim_none.1 hv way hway] at hfree; cases hfree
  | some v =>
    obtain ⟨hvway, hvfree, hvleast⟩ := victim_some hv
    have := least v hvway hvfree
    have := hvleast way hway hfree
    exact congrArg some (by omega)

/-- The way that holds a block is the first one to hold it. -/
theorem TagInv.findWay_of_holds {mshr : FMap MshrEntry} (ht : TagInv c mshr lines) (hset : set < c.sets) (hway : way < c.ways)
    (ha : (lineAt lines set way).allocated = true) (htag : (lineAt lines set way).tag = b) :
    findWay c lines set (fun ln => ln.allocated && ln.tag == b) = some way := by
  refine findWay_eq_some hway (by rw [ha, htag, Bool.true_and, beq_self_eq_true]) fun w hw => ?_
  rw [Bool.and_eq_false_imp, beq_eq_false_iff_ne]
  intro haw hb
  exact absurd (ht.unique set w way hset (hw.trans hway) hway haw ha (hb.trans htag.symm)) hw.ne

theorem findWay_of_absent (h : Absent c lines b set) : findWay c lines set (fun ln => ln.allocated && ln.tag == b) = none := by
  refine findWay_none.2 fun w hw => ?_
  rw [Bool.and_eq_false_imp, beq_eq_false_iff_ne]
  exact h w hw

theorem hasIn_eq_false {ln : Line} {v : SectorStatus} (h : ∀ k : Fin 16, sm.getLsbD k = true → ln.st[k] ≠ v) :
    ln.hasIn sm v = false := by
  rw [Bool.eq_false_iff]
  intro hv
  obtain ⟨k, hk, e⟩ := (hasIn_iff ln sm v).1 hv
  exact h k hk e

/-! ## The probe -/

/-- What the rule says of the tag array determines the answer. -/
theorem TagInv.probe_eq {mshr : FMap MshrEntry} (ht : TagInv c mshr lines) (hset : set < c.sets)
    (h : ProbeFact c lines b set sm p) : probe c lines b set sm = p := by
  unfold probe
  cases p with
  | hit way =>
    obtain ⟨hway, ha, htag, hst⟩ := h
    rw [ht.findWay_of_holds hset hway ha htag]
    simp only [hasIn_eq_false fun k hk => (hst k hk).1, hasIn_eq_false fun k hk => (hst k hk).2, Bool.false_eq_true, if_false]
  | hitReserved way =>
    obtain ⟨hway, ha, htag, hst, hr⟩ := h
    rw [ht.findWay_of_holds hset hway ha htag]
    simp only [hasIn_eq_false hst, (hasIn_iff _ _ _).2 hr, Bool.false_eq_true, if_false, if_true]
  | sectorMiss way =>
    obtain ⟨hway, ha, htag, hinv⟩ := h
    rw [ht.findWay_of_holds hset hway ha htag]
    simp only [(hasIn_iff _ _ _).2 hinv, if_true]
  | miss way =>
    obtain ⟨hway, habs, hfree, ⟨hna, hbelow⟩ | ⟨hall, hleast⟩⟩ := h
    · rw [findWay_of_absent habs, findWay_eq_some hway (by rw [hna]; rfl) fun w hw => by rw [hbelow w hw]; rfl]
    · rw [findWay_of_absent habs, findWay_none.2 fun w hw => by rw [hall w hw]; rfl]
      simp only [victim_eq_some hway hfree hleast]
  | reservationFail =>
    obtain ⟨habs, hres⟩ := h
    have hall : ∀ w, w < c.ways → (!(lineAt lines set w).allocated) = false := fun w hw => by
      obtain ⟨k, hk⟩ := (isReserved_iff _).1 (hres w hw)
      rw [allocated_of_st hk (by decide)]; rfl
    rw [findWay_of_absent habs, findWay_none.2 hall]
    simp only [victim_none.2 hres]

/-- In a sound state the rule of the probe holds of the computed answer and of no other. -/
theorem State.Inv.probed_iff (hi : s.Inv) (hc : s.cc.configured = true) (a : Addr) :
    s.Probed a p ↔ probe s.cc.active s.cc.lines (s.block a) (s.set a) (s.sm a) = p := by
  obtain ⟨l, t, g⟩ := hi.geometry hc
  exact ⟨hi.cc.tags.probe_eq (g.setOf_lt _), fun h => h ▸ probe_fact _ _ _ _ _⟩

/-- Settles O34: the computed answer satisfies the rule, and whatever satisfies the rule is computed. -/
theorem probeAnswersTheRule : Obligations.ProbeAnswersTheRule := by
  intro s a hc hi
  refine ⟨fun p => hi.probed_iff hc a, _, (hi.probed_iff hc a).2 rfl, fun p hp => ((hi.probed_iff hc a).1 hp).symm⟩

end Sys2Proof.Machine
end

section
/-! CC.CYCLE, CC.NEXT and the queries of the cache engine (41_cache_engine.md rules R167, R170 to R176). -/

namespace Sys2Proof.Machine

variable {s : State} {k : Outcome}

theorem State.CcLive.ccOp (h : s.CcLive) : Machine.ccOp s k = k := ccOp_ready h.notFatal h.configured

/-! ## Counters and response fields as naturals -/

theorem decFloor_eq (c : BitVec 64) : decFloor c = BitVec.ofNat 64 (c.toNat - 1) :=
  BitVec.eq_of_toNat_eq (by rw [decFloor_toNat, BitVec.toNat_ofNat, Nat.mod_eq_of_lt (by omega)])

theorem add_one_eq_ofNat (c : BitVec 64) : c + 1 = BitVec.ofNat 64 (c.toNat + 1) := by
  rw [BitVec.ofNat_add, BitVec.ofNat_toNat, BitVec.setWidth_eq]; rfl

/-- The word `{ size, id }` of a miss-queue record (R170, R176). -/
theorem MqRec.idSize_eq (r : MqRec) : r.idSize = BitVec.ofNat 64 (r.id.toNat + 2 ^ 32 * r.size.toNat) := by
  refine BitVec.eq_of_toNat_eq ?_
  rw [MqRec.idSize, toNat_append_eq_add, BitVec.toNat_ofNat, Nat.mod_eq_of_lt (by omega), Nat.add_comm]

theorem dpFree_eq_decide (cc : CcState) : cc.dpFree = decide (cc.dpBusy = 0) := rfl
theorem fpFree_eq_decide (cc : CcState) : cc.fpFree = decide (cc.fpBusy = 0) := rfl

theorem auxBit0_decide (p : Prop) [Decidable p] : auxBit0 (decide p) = if p then 1 else 0 := by
  split_ifs with h <;> simp [auxBit0, h]

/-- The `aux` of CC.CYCLE, bit by bit (R170): `p` and `q` say that the data and the fill port are free. -/
theorem cycleAux_decide (sent : Bool) (p q : Prop) [Decidable p] [Decidable q] :
    cycleAux sent (!decide p) (!decide q) = BitVec.ofNat 8 (sent.toNat + (if p then 0 else 2) + if q then 0 else 4) := by
  split_ifs with hp hq hq <;> cases sent <;> simp [cycleAux, hp, hq]

/-! ## CC.CYCLE (R167, R170) -/

/-- Both counters fall by one, floored at zero, and CC_NOW advances (R167, R170). -/
theorem CcState.tick_eq (cc : CcState) : cc.tick =
    { cc with dpBusy := BitVec.ofNat 64 (cc.dpBusy.toNat - 1), fpBusy := BitVec.ofNat 64 (cc.fpBusy.toNat - 1)
              now := BitVec.ofNat 64 (cc.now.toNat + 1) } := by
  rw [← decFloor_eq, ← decFloor_eq, ← add_one_eq_ofNat]; rfl

theorem exec_ccCycle_kept (h : s.CcLive) {dsOk : Bool} (hk : s.cc.mq = [] ∨ dsOk = false) :
    exec (.ccCycle dsOk) s =
      .next { s with cc := s.cc.tick, rsp := some { status := .ok, aux := cycleAux false (!s.cc.dpFree) (!s.cc.fpFree) } } := by
  change execCcCycle dsOk s = _
  rw [execCcCycle, h.ccOp]
  obtain hq | rfl := hk
  · rw [hq]; rfl
  · cases s.cc.mq <;> rfl

theorem exec_ccCycle_sent (h : s.CcLive) {q : MqRec} {rest : List MqRec} (hq : s.cc.mq = q :: rest) :
    exec (.ccCycle true) s =
      .next { s with
              cc  := { s.cc with mq := rest }.tick
              rsp := some { status := .ok, aux := cycleAux true (!s.cc.dpFree) (!s.cc.fpFree), q0 := q.addr
                            q1 := q.idSize } } := by
  change execCcCycle true s = _
  rw [execCcCycle, h.ccOp, hq]
  rfl

/-- Settles O45, by whether a record leaves. -/
theorem cycleDrainsSamplesAndReplenishes : Obligations.CycleDrainsSamplesAndReplenishes := by
  refine fun s dsOk hs => ⟨fun hk => ?kept, fun q rest hq hd => ?sent⟩
  case kept =>
    rw [exec_ccCycle_kept hs hk, CcState.tick_eq, dpFree_eq_decide, fpFree_eq_decide, cycleAux_decide, Bool.toNat_false,
      Nat.zero_add]
  case sent =>
    subst hd
    rw [exec_ccCycle_sent hs hq, CcState.tick_eq, dpFree_eq_decide, fpFree_eq_decide, cycleAux_decide, MqRec.idSize_eq]
    rfl

/-- The state after a CC.CYCLE that answered `r`: with `dsOk` the head of the miss queue, if any, has left. -/
def State.cycled (s : State) (dsOk : Bool) (r : Rsp) : State :=
  { s with cc := { s.cc with mq := s.cc.mq.drop dsOk.toNat }.tick, rsp := some r }

theorem exec_ccCycle (h : s.CcLive) (dsOk : Bool) : ∃ r, exec (.ccCycle dsOk) s = .next (s.cycled dsOk r) := by
  cases dsOk with
  | false => exact ⟨_, exec_ccCycle_kept h (.inr rfl)⟩
  | true =>
    unfold State.cycled
    by_cases hq : s.cc.mq = []
    · have kept : s.cc.mq.drop true.toNat = s.cc.mq := by rw [hq]; rfl
      rw [kept]
      exact ⟨_, exec_ccCycle_kept h (.inl hq)⟩
    · obtain ⟨q, rest, hq⟩ := List.exists_cons_of_ne_nil hq
      have sent : s.cc.mq.drop true.toNat = rest := by rw [hq]; rfl
      rw [sent]
      exact ⟨_, exec_ccCycle_sent h hq⟩

@[simp] theorem cycled_dpBusy (s : State) (dsOk : Bool) (r : Rsp) : (s.cycled dsOk r).cc.dpBusy = decFloor s.cc.dpBusy := rfl
@[simp] theorem cycled_fpBusy (s : State) (dsOk : Bool) (r : Rsp) : (s.cycled dsOk r).cc.fpBusy = decFloor s.cc.fpBusy := rfl
@[simp] theorem cycled_now (s : State) (dsOk : Bool) (r : Rsp) : (s.cycled dsOk r).cc.now = s.cc.now + 1 := rfl
@[simp] theorem cycled_mq (s : State) (dsOk : Bool) (r : Rsp) : (s.cycled dsOk r).cc.mq = s.cc.mq.drop dsOk.toNat := rfl

/-- The step that takes a CC.CYCLE. -/
theorem step_ccCycle (h : s.CcLive) {dsOk : Bool} {rest : List EnvInput}
    (hin : s.inputs = .cmd (encode (.ccCycle dsOk)) :: rest) :
    ∃ r, core.step s = .next ((s.withInputs rest).cycled dsOk r) := by
  obtain ⟨r, hexec⟩ := exec_ccCycle (s := s.withInputs rest) ⟨h.notFatal, h.configured⟩ dsOk
  exact ⟨r, (step_of_cmd hin).trans ((runCmd_legal (decode_encode _) _).trans hexec)⟩

/-- A run whose first step answers goes on from there. -/
theorem run_succ_of_step {M : Host.Core} {s u : M.State} (n : Nat) (h : M.step s = .next u) : M.run (n + 1) s = M.run n u := by
  rw [Host.Core.run, h]

/-- Settles O46, by induction on the commands: each is one CC.CYCLE of a live state and leaves it live. -/
theorem countersFallOnePerCycle : Obligations.CountersFallOnePerCycle := by
  intro ds
  induction ds with
  | nil => intro s rest _ hin; exact ⟨s, rfl, hin, by simp⟩
  | cons d ds ih =>
    intro s rest hs hin
    obtain ⟨r, first⟩ := step_ccCycle hs hin
    obtain ⟨t, hrun, hrest, hdp, hfp, hnow, hmq, frame⟩ :=
      ih ((s.withInputs (ds.map (fun d => .cmd (encode (.ccCycle d))) ++ rest)).cycled d r) rest
        ⟨hs.notFatal, hs.configured⟩ rfl
    refine ⟨t, (run_succ_of_step _ first).trans hrun, hrest, ?dp, ?fp, ?now, ?mq, frame⟩
    case dp =>
      rw [hdp, cycled_dpBusy, withInputs_cc, decFloor_toNat, List.length_cons]
      omega
    case fp =>
      rw [hfp, cycled_fpBusy, withInputs_cc, decFloor_toNat, List.length_cons]
      omega
    case now =>
      rw [hnow, cycled_now, withInputs_cc, List.length_cons, Nat.add_comm, BitVec.ofNat_add, ← BitVec.add_assoc]
      rfl
    case mq =>
      rw [hmq, cycled_mq, withInputs_cc, List.drop_drop, List.count_cons]
      cases d <;> simp [Nat.add_comm]

/-! ## The queries (R172 to R174, R176) -/

/-- Settles O47: each query answers what it reads. -/
theorem cacheQueriesAnswerTheState : Obligations.CacheQueriesAnswerTheState := by
  intro s hs
  have ready : s.cc.accessReady = decide (s.cc.readyQ ≠ []) := by cases h : s.cc.readyQ <;> simp [CcState.accessReady, h]
  refine ⟨?dpfree, ?fpfree, ?ready, fun hq => ?noHead, fun q rest hq => ?head⟩
  case dpfree =>
    change execCcDpfree s = _
    rw [execCcDpfree, hs.ccOp, dpFree_eq_decide, auxBit0_decide]; rfl
  case fpfree =>
    change execCcFpfree s = _
    rw [execCcFpfree, hs.ccOp, fpFree_eq_decide, auxBit0_decide]; rfl
  case ready =>
    change execCcReady s = _
    rw [execCcReady, hs.ccOp, ready, auxBit0_decide, ite_not]; rfl
  case noHead =>
    change execCcMqhead s = _
    rw [execCcMqhead, hs.ccOp, hq]; rfl
  case head =>
    change execCcMqhead s = _
    rw [execCcMqhead, hs.ccOp, hq]
    simp only [MqRec.idSize_eq]
    cases q.isWrite <;> rfl

/-! ## CC.NEXT (R175) -/

theorem exec_ccNext_empty (h : s.CcLive) (hq : s.cc.readyQ = []) :
    exec .ccNext s = .next (s.answering { status := .ok, aux := 0 }) := by
  change execCcNext s = _
  rw [execCcNext, h.ccOp, hq]; rfl

theorem exec_ccNext_head (h : s.CcLive) {key : Addr} {keys : List Addr} {m : MshrEntry} {id : ReqId} {rest : List ReqId}
    (hq : s.cc.readyQ = key :: keys) (hm : s.cc.mshr.lookup key.toNat = some m) (hl : m.list = id :: rest) :
    exec .ccNext s =
      .next { s with
              cc  := s.cc.handBack key keys m rest
              rsp := some { status := .ok, aux := 1, q0 := id.setWidth 64, q1 := key } } := by
  change execCcNext s = _
  rw [execCcNext, h.ccOp, hq]
  simp only [hm, hl]
  rfl

theorem setWidth_eq_ofNat (x : BitVec 32) : x.setWidth 64 = BitVec.ofNat 64 x.toNat := by
  rw [BitVec.ofNat_toNat]

/-- Settles O48: the head of READYQ has an entry with a request, which leaves the table with its last one. -/
theorem nextHandsBackOneRequest : Obligations.NextHandsBackOneRequest := by
  refine fun s hs => ⟨exec_ccNext_empty hs, fun key keys hi hq => ?_⟩
  obtain ⟨m, id, rest, hm, hl⟩ := hi.cc.readyEntry hq
  have answer := exec_ccNext_head hs hq hm hl
  rw [CcState.handBack, setWidth_eq_ofNat] at answer
  by_cases hrest : rest = []
  · refine ⟨m, id, rest, s.cc.mshr.erase key.toNat, hm, hl, fun k => ?_, ?_⟩
    · rw [FMap.lookup_erase, if_pos hrest]
    · rw [answer, if_pos hrest, if_pos hrest]
  · refine ⟨m, id, rest, s.cc.mshr.insert key.toNat { m with list := rest }, hm, hl, fun k => ?_, ?_⟩
    · rw [FMap.lookup_insert, if_neg hrest]
    · rw [answer, if_neg hrest, if_neg hrest]

end Sys2Proof.Machine
end

section
/-! What the tag array reports and becomes: writebacks, tag_access and the data port (41_cache_engine.md rules R145, R156, R161,
R165) against the terms of the statements. -/

namespace Sys2Proof.Machine

variable {s : State} {a : Addr} {p : ProbeResult} {c : CcRegs}

/-! ## Writebacks (R145, R161) -/

/-- The powers of two at which `q` holds, added up, are the number with those bits. -/
theorem sum_two_pow_eq_ofBits {n : Nat} (q : Fin n → Prop) [DecidablePred q] :
    ((List.finRange n).map fun k => if q k then 2 ^ k.val else 0).sum = Nat.ofBits fun k => decide (q k) := by
  induction n with
  | zero => rfl
  | succ n ih =>
    have double : (fun k : Fin n => if q k.succ then 2 ^ k.succ.val else 0) =
        fun k => 2 * if q k.succ then 2 ^ k.val else 0 := by
      funext k
      rw [mul_ite, Fin.val_succ, pow_succ']
    rw [List.finRange_succ, List.map_cons, List.map_map, List.sum_cons, Nat.ofBits_succ, Nat.add_comm]
    refine congrArg₂ (· + ·) ?_ ?_
    · refine (congrArg (fun f => ((List.finRange n).map f).sum) double).trans ?_
      rw [List.sum_map_mul_left, ih]
      rfl
    · by_cases h : q 0 <;> simp [h]

theorem modifiedSectors_bit (ln : Line) (k : Fin 16) : ln.modifiedSectors.getLsbD k = true ↔ ln.st[k] = .modified := by
  rw [Line.modifiedSectors, sum_two_pow_eq_ofBits, BitVec.getLsbD_ofNat, Nat.testBit_ofBits_lt _ _ k.isLt]
  simp

/-- The writeback of a line is the report the rule asks for. -/
theorem writeback_report (ln : Line) : ln.report ln.writeback := by
  unfold Line.writeback
  split_ifs with h
  · exact ⟨(isModified_iff ln).1 h, rfl, rfl, modifiedSectors_bit ln⟩
  · exact fun hm => h ((isModified_iff ln).2 hm)

/-- A writeback's byte count fits the 32-bit field of the response (R156, R160). -/
theorem writeback_bytes_lt {ln : Line} {v : Writeback} (h : ln.writeback = some v) : v.bytes < 2 ^ 32 := by
  unfold Line.writeback at h
  split_ifs at h
  cases h
  exact (popcountNat_le _ _).trans_lt (by norm_num)

/-! ## Replacing one line -/

/-- Writing a line of the array leaves every other line. -/
theorem lineBecomes_setLine {set way : Nat} (hway : way < s.cc.active.ways) (ln : Line) :
    s.LineBecomes (setLine s.cc.lines set way ln) set way ln := by
  have hlt := s.cc.active.ways_lt
  exact ⟨lineAt_setLine_self _ _ _ _, fun set' way' hw hne =>
    lineAt_setLine_ne (hway.trans hlt) (hw.trans hlt) fun e => hne e.1 e.2⟩

theorem onMiss_iff : c.onMiss = true ↔ c.apol = 0 := beq_iff_eq

/-! ## tag_access (R145) -/

theorem accessWriteback_miss (lines : FMap Line) (set way : Nat) :
    accessWriteback c lines set (.miss way) = if c.onMiss then (lineAt lines set way).writeback else none := rfl

theorem accessLines_miss (now : BitVec 64) (lines : FMap Line) (b : Addr) (set : Nat) (sm : SectorMask) (way : Nat) :
    accessLines c now lines b set sm (.miss way) =
      if c.onMiss then setLine lines set way (Line.allocate b sm now) else lines := rfl

theorem accessLines_sectorMiss (now : BitVec 64) (lines : FMap Line) (b : Addr) (set : Nat) (sm : SectorMask) (way : Nat) :
    accessLines c now lines b set sm (.sectorMiss way) =
      if c.onMiss then setLine lines set way (((lineAt lines set way).setSectors sm .reserved).touch now) else lines := rfl

/-- `tag_access` as computed is `tag_access` as the rule says. -/
theorem State.Probed.tagAccessed (h : s.Probed a p) :
    s.TagAccessed a (accessLines s.cc.active s.cc.now s.cc.lines (s.block a) (s.set a) (s.sm a) p)
      (accessWriteback s.cc.active s.cc.lines (s.set a) p) p := by
  cases p with
  | hit way | hitReserved way => exact ⟨rfl, lineBecomes_setLine h.1 _⟩
  | miss way =>
    rw [accessLines_miss, accessWriteback_miss]
    refine ⟨fun hon => ?_, fun hoff => ?_⟩
    · rw [if_pos (onMiss_iff.2 hon), if_pos (onMiss_iff.2 hon)]
      exact ⟨writeback_report _, _, lineBecomes_setLine h.1 _, rfl, allocate_st _ _ _, allocate_dirty _ _ _, rfl, rfl⟩
    · rw [if_neg (mt onMiss_iff.1 hoff), if_neg (mt onMiss_iff.1 hoff)]
      exact ⟨rfl, rfl⟩
  | sectorMiss way =>
    rw [accessLines_sectorMiss]
    refine ⟨rfl, fun hon => ?_, fun hoff => ?_⟩
    · rw [if_pos (onMiss_iff.2 hon)]
      exact ⟨_, lineBecomes_setLine h.1 _, rfl, setSectors_st _ _ _, rfl, rfl, rfl⟩
    · rw [if_neg (mt onMiss_iff.1 hoff)]
  | reservationFail => exact ⟨rfl, rfl⟩

/-! ## The data port (R165) -/

theorem State.charge_eq (s : State) (size : ReqSize) (wb : Option Writeback) (p : ProbeResult) :
    s.charge size wb p = dataPortCharge s.cc.active size wb p := by
  cases p <;> cases wb <;> rfl

theorem State.satAdd_dpBusy (s : State) (size : ReqSize) (wb : Option Writeback) (p : ProbeResult) :
    satAdd s.cc.dpBusy (dataPortCharge s.cc.active size wb p) = BitVec.ofNat 64 (s.dpAfter size wb p) := by
  rw [← s.charge_eq]; rfl

/-- By how much a saturating counter grew. -/
theorem satAdd_sub_toNat (c : BitVec 64) (n : Nat) : (satAdd c n - c).toNat = min (c.toNat + n) (2 ^ 64 - 1) - c.toNat := by
  have grown : c.toNat ≤ (satAdd c n).toNat := by rw [satAdd_toNat]; omega
  rw [BitVec.toNat_sub_of_le grown, satAdd_toNat]

/-! ## The response of CC.ACCESS (R156) -/

theorem ProbeResult.code_toNat (p : ProbeResult) : p.code.toNat = tagStatus p := by cases p <;> rfl

/-- The field of a response that holds a writeback's byte count and sectors (R156, R160). -/
theorem writeback_field_toNat {v : Writeback} (h : v.bytes < 2 ^ 32) :
    (0#16 ++ v.sectors ++ BitVec.ofNat 32 v.bytes).toNat = v.bytes + 2 ^ 32 * v.sectors.toNat := by
  rw [toNat_append_eq_add, toNat_append_eq_add, BitVec.toNat_ofNat, BitVec.toNat_ofNat, Nat.mod_eq_of_lt h, Nat.zero_mod]
  omega

theorem accessRsp_reports (st : Status) (p : ProbeResult) {wb : Option Writeback} (hwb : ∀ v, wb = some v → v.bytes < 2 ^ 32)
    (added : BitVec 64) : (accessRsp st p wb added).Reports st p wb added.toNat := by
  cases wb with
  | none =>
    have aux : (0#5 ++ p.code).toNat = tagStatus p + 0 := by rw [toNat_append_eq_add, p.code_toNat]; simp
    exact ⟨rfl, aux, rfl, rfl, rfl⟩
  | some v =>
    have aux : (0#4 ++ 1#1 ++ p.code).toNat = tagStatus p + 8 := by
      rw [toNat_append_eq_add, p.code_toNat, Nat.add_comm]; rfl
    exact ⟨rfl, aux, rfl, writeback_field_toNat (hwb v rfl), rfl⟩

theorem accessWriteback_bytes_lt {lines : FMap Line} {set : Nat} {v : Writeback}
    (h : accessWriteback c lines set p = some v) : v.bytes < 2 ^ 32 := by
  cases p with
  | miss way =>
    rw [accessWriteback_miss] at h
    split_ifs at h
    exact writeback_bytes_lt h
  | hit _ | hitReserved _ | sectorMiss _ | reservationFail => cases h

end Sys2Proof.Machine
end

section
/-! CC.ACCESS (41_cache_engine.md rules R150 to R157): its checks, what the classification can answer, and one statement for
each classification. -/

namespace Sys2Proof.Machine

variable {s : State} {isAtomic : Bool} {smask : SectorMask} {addr : Addr} {id : ReqId} {size : ReqSize} {p : ProbeResult}
  {cc : CcState} {r : ReadReq}

/-! ## The checks (R150 steps 1 and 2) -/

/-- The read request a CC.ACCESS stands for. -/
def State.request (s : State) (isAtomic : Bool) (addr : Addr) (id : ReqId) (size : ReqSize) : ReadReq :=
  { src := s.src addr, addr := addr, size := size, id := id, atomic := isAtomic }

theorem FMap.has_iff {α : Type} {k : Nat} {m : FMap α} : m.has k = true ↔ ∃ v, m.lookup k = some v := Option.isSome_iff_exists

theorem accessOperandBad_iff : accessOperandBad s.cc smask (s.request isAtomic addr id size) = true ↔
    size = 0 ∨ s.cc.active.offset (s.src addr) % s.cc.active.tagSectorBytes + size.toNat > s.cc.active.tagSectorBytes ∨
      (1 < s.cc.active.tagSectors ∧ smask ≠ s.sm addr) ∨ ∃ e, s.cc.metaTab.lookup id.toNat = some e := by
  rw [accessOperandBad, Bool.or_eq_true, Bool.or_eq_true, Bool.or_eq_true, Bool.and_eq_true, beq_iff_eq, decide_eq_true_eq,
    decide_eq_true_eq, bne_iff_ne, FMap.has_iff, or_assoc, or_assoc]
  rfl

theorem exec_ccAccess_write (h : s.CcLive) :
    exec (.ccAccess true isAtomic smask addr id size) s = .next (s.answering { status := .refusedWrite }) := by
  change execCcAccess true isAtomic smask addr id size s = _
  rw [execCcAccess, h.ccOp, if_pos rfl]
  rfl

theorem exec_ccAccess_read (h : s.CcLive) :
    exec (.ccAccess false isAtomic smask addr id size) s =
      if accessOperandBad s.cc smask (s.request isAtomic addr id size) then .next (s.answering { status := .badOperand })
      else .next { s with
                   cc  := (s.cc.classify (s.request isAtomic addr id size)).1
                   rsp := some (s.cc.classify (s.request isAtomic addr id size)).2 } := by
  change execCcAccess false isAtomic smask addr id size s = _
  rw [execCcAccess, h.ccOp, if_neg Bool.false_ne_true]
  rfl

/-- Settles O33: the computed check is the disjunction of the rule's four cases. -/
theorem accessChecksComeFirst : Obligations.AccessChecksComeFirst := by
  refine fun s isAtomic smask addr id size hs => ⟨exec_ccAccess_write hs, fun _ hbad => ?_⟩
  rw [exec_ccAccess_read hs, if_pos (accessOperandBad_iff.2 hbad)]

/-- A request that passes the checks is classified. -/
theorem State.Accepts.exec_eq (h : s.Accepts smask addr id size) :
    exec (.ccAccess false isAtomic smask addr id size) s =
      .next { s with
              cc  := (s.cc.classify (s.request isAtomic addr id size)).1
              rsp := some (s.cc.classify (s.request isAtomic addr id size)).2 } := by
  rw [exec_ccAccess_read h.live, if_neg]
  rw [accessOperandBad_iff]
  rintro (hsize | hcross | ⟨hmany, hmask⟩ | ⟨e, he⟩)
  · exact h.sizePos hsize
  · exact absurd h.inside (by omega)
  · exact hmask (h.mask hmany)
  · rw [h.fresh] at he; cases he

/-! ## What the classification answers (R150 step 3) -/

theorem classify_hit {way : Nat} (h : cc.probeFor r = .hit way) :
    cc.classify r = (cc.recordAccess r, cc.acceptedRsp .hit r) := by
  unfold CcState.classify; rw [h]

theorem classify_reservationFail (h : cc.probeFor r = .reservationFail) :
    cc.classify r = (cc, accessRsp .lineAllocFail .reservationFail none 0) := by
  unfold CcState.classify; rw [h]

theorem classify_of_entry {e : MshrEntry} (hhit : ∀ way, cc.probeFor r ≠ .hit way) (hres : cc.probeFor r ≠ .reservationFail)
    (he : cc.mshr.lookup (r.key cc.active).toNat = some e) :
    cc.classify r =
      if e.mergeRoom cc.active then (cc.merge r e, cc.acceptedRsp .mshrHit r)
      else (cc, accessRsp .mshrMergeFail (cc.probeFor r) none 0) := by
  unfold CcState.classify
  split
  · exact absurd ‹_› (hhit _)
  · exact absurd ‹_› hres
  · rw [he]

theorem classify_of_no_entry (hhit : ∀ way, cc.probeFor r ≠ .hit way) (hres : cc.probeFor r ≠ .reservationFail)
    (he : cc.mshr.lookup (r.key cc.active).toNat = none) :
    cc.classify r =
      if cc.mqRoom = false then (cc, accessRsp .missQueueFull (cc.probeFor r) none 0)
      else if cc.tableRoom = false then (cc, accessRsp .mshrEntryFail (cc.probeFor r) none 0)
      else (cc.startMiss r, cc.acceptedRsp .miss r) := by
  unfold CcState.classify
  split
  · exact absurd ‹_› (hhit _)
  · exact absurd ‹_› hres
  · rw [he]

/-- Everything the classification can answer: three acceptances, each with a condition of its own, or a rejection that changes
nothing. -/
theorem classify_cases (cc : CcState) (r : ReadReq) :
    ((∃ way, cc.probeFor r = .hit way) ∧ cc.classify r = (cc.recordAccess r, cc.acceptedRsp .hit r)) ∨
    (∃ e, cc.mshr.lookup (r.key cc.active).toNat = some e ∧ cc.classify r = (cc.merge r e, cc.acceptedRsp .mshrHit r)) ∨
    (cc.mqRoom = true ∧ cc.classify r = (cc.startMiss r, cc.acceptedRsp .miss r)) ∨
    ∃ st ∈ [Status.lineAllocFail, .mshrMergeFail, .missQueueFull, .mshrEntryFail], ∃ ts,
      cc.classify r = (cc, accessRsp st ts none 0) := by
  by_cases hhit : ∃ way, cc.probeFor r = .hit way
  · exact .inl ⟨hhit, classify_hit hhit.choose_spec⟩
  by_cases hres : cc.probeFor r = .reservationFail
  · exact .inr (.inr (.inr ⟨_, by simp, _, classify_reservationFail hres⟩))
  cases he : cc.mshr.lookup (r.key cc.active).toNat with
  | some e =>
    rw [classify_of_entry (not_exists.1 hhit) hres he]
    split_ifs
    · exact .inr (.inl ⟨e, rfl, rfl⟩)
    · exact .inr (.inr (.inr ⟨_, by simp, _, rfl⟩))
  | none =>
    rw [classify_of_no_entry (not_exists.1 hhit) hres he]
    split_ifs with hmq htab
    · exact .inr (.inr (.inr ⟨_, by simp, _, rfl⟩))
    · exact .inr (.inr (.inr ⟨_, by simp, _, rfl⟩))
    · exact .inr (.inr (.inl ⟨by simpa using hmq, rfl⟩))

@[simp] theorem accessRsp_status (st : Status) (ts : ProbeResult) (wb : Option Writeback) (added : BitVec 64) :
    (accessRsp st ts wb added).status = st := by
  cases wb <;> rfl

@[simp] theorem acceptedRsp_status (cc : CcState) (st : Status) (r : ReadReq) : (cc.acceptedRsp st r).status = st :=
  accessRsp_status ..

/-- Settles O39, by what the classification can answer. -/
theorem classificationIsTotal : Obligations.ClassificationIsTotal := by
  intro s isAtomic smask addr id size h
  refine ⟨_, _, h.exec_eq, rfl, ?_⟩
  obtain ⟨-, eq⟩ | ⟨e, -, eq⟩ | ⟨-, eq⟩ | ⟨st, hst, ts, eq⟩ := classify_cases s.cc (s.request isAtomic addr id size)
  · simp [eq]
  · rw [eq]
    refine ⟨by simp, by simp, fun _ => ⟨_, FMap.lookup_insert_self _ _ _, ?_⟩, by simp, by simp⟩
    exact List.mem_append_right _ (List.mem_singleton.2 rfl)
  · rw [eq]
    exact ⟨by simp, fun _ => ⟨⟨_, FMap.lookup_insert_self _ _ _⟩, _, FMap.lookup_insert_self _ _ _, rfl⟩, by simp, by simp,
      by simp⟩
  · rw [eq]
    simp only [List.mem_cons, List.not_mem_nil, or_false] at hst
    rcases hst with rfl | rfl | rfl | rfl <;> simp [State.answering]

/-! ## The request's record in the tag array and the data port -/

/-- The classification of an acceptable request probes what the rule says (R144). -/
theorem State.Accepts.probeFor_eq (h : s.Accepts smask addr id size) (hp : s.Probed addr p) :
    s.cc.probeFor (s.request isAtomic addr id size) = p :=
  (h.sound.probed_iff h.live.configured addr).1 hp

/-- What an accepted request does to the tag array and the data port, and what it reports of them (R145, R156, R165). -/
theorem State.Accepts.recorded (h : s.Accepts smask addr id size) (hp : s.Probed addr p) (isAtomic : Bool) :
    ∃ lines wb, s.TagAccessed addr lines wb p ∧
      s.cc.recordAccess (s.request isAtomic addr id size) =
        { s.cc with lines := lines, dpBusy := BitVec.ofNat 64 (s.dpAfter size wb p) } ∧
      ∀ st, (s.cc.acceptedRsp st (s.request isAtomic addr id size)).Reports st p wb
        (s.dpAfter size wb p - s.cc.dpBusy.toNat) := by
  refine ⟨_, _, hp.tagAccessed, ?_, fun st => ?_⟩
  · rw [← s.satAdd_dpBusy, CcState.recordAccess, h.probeFor_eq hp]
    rfl
  · have grown := satAdd_sub_toNat s.cc.dpBusy
      (s.charge size (accessWriteback s.cc.active s.cc.lines (s.set addr) p) p)
    rw [CcState.acceptedRsp, CcState.recordAccess, h.probeFor_eq hp]
    rw [s.charge_eq] at grown
    rw [State.dpAfter, s.charge_eq, ← grown]
    exact accessRsp_reports st p (fun _ => accessWriteback_bytes_lt) _

/-! ## The classifications -/

/-- Settles O35: a HIT is the record of the access and its report. -/
theorem hitStampsTheLineAndChargesThePort : Obligations.HitStampsTheLineAndChargesThePort := by
  intro s isAtomic smask addr id size way h hp
  obtain ⟨lines, wb, ⟨rfl, htag⟩, hrec, hrep⟩ := h.recorded hp isAtomic
  refine ⟨lines, _, ⟨rfl, htag⟩, hrep _, ?_⟩
  rw [h.exec_eq, classify_hit (h.probeFor_eq hp), hrec]

/-- Some way of every set exists, and under RESERVATION_FAIL its line is reserved, which only ON_MISS makes it (R161). -/
theorem State.Inv.onMiss_of_reservationFail (hi : s.Inv) (hc : s.cc.configured = true) {b : Addr} {sm : SectorMask}
    (h : ProbeFact s.cc.active s.cc.lines b (s.cc.active.setOf b) sm .reservationFail) : s.cc.active.onMiss = true := by
  obtain ⟨l, t, g⟩ := hi.geometry hc
  have first : 0 < s.cc.active.ways := (hi.cc_legal hc).ways
  obtain ⟨k, hk⟩ := (isReserved_iff _).1 (h.2 0 first)
  exact (hi.cc.tags.reserved _ 0 k (g.setOf_lt b) first hk).1

/-- Settles O36: the rejection answers at once, and a set without free way has a RESERVED sector. -/
theorem noReservableLineIsRejected : Obligations.NoReservableLineIsRejected := by
  refine fun s isAtomic smask addr id size h hp =>
    ⟨?_, onMiss_iff.1 (h.sound.onMiss_of_reservationFail h.live.configured hp)⟩
  rw [h.exec_eq, classify_reservationFail (h.probeFor_eq hp)]
  rfl

theorem MshrEntry.mergeRoom_iff {e : MshrEntry} {c : CcRegs} :
    e.mergeRoom c = true ↔ e.ready = false ∧ e.list.length < c.mshrMaxMerge.toNat := by
  simp [MshrEntry.mergeRoom]

theorem mqRoom_eq_false : cc.mqRoom = false ↔ cc.active.mqSize.toNat ≤ cc.mq.length := by simp [CcState.mqRoom]

theorem tableRoom_eq_false : cc.tableRoom = false ↔ cc.active.mshrEntries.toNat ≤ cc.mshr.length := by
  simp [CcState.tableRoom]

/-- A rejection reports the probe and nothing else (R156). -/
theorem rejection_reports (st : Status) (p : ProbeResult) : (accessRsp st p none 0).Reports st p none 0 :=
  accessRsp_reports (wb := none) st p (fun _ hv => nomatch hv) 0

/-- Settles O37, by whether the entry takes the request. -/
theorem mshrHitMergesOrIsRejected : Obligations.MshrHitMergesOrIsRejected := by
  intro s isAtomic smask addr id size p e h hp hhit hres he
  have probed := h.probeFor_eq (isAtomic := isAtomic) hp
  have classified := classify_of_entry (cc := s.cc) (r := s.request isAtomic addr id size)
    (fun way => probed ▸ hhit way) (probed ▸ hres) he
  refine ⟨fun hroom => ?merges, fun hfull => ?rejected⟩
  case merges =>
    obtain ⟨lines, wb, htag, hrec, hrep⟩ := h.recorded hp isAtomic
    refine ⟨lines, wb, _, _, htag, hrep _, fun k => FMap.lookup_insert _ k _ _, ?_⟩
    rw [h.exec_eq, classified, if_pos (MshrEntry.mergeRoom_iff.2 hroom), CcState.merge, hrec]
    rfl
  case rejected =>
    have noRoom : ¬e.mergeRoom s.cc.active = true := by
      rw [MshrEntry.mergeRoom_iff]
      rintro ⟨hready, hlt⟩
      obtain hr | hle := hfull
      · rw [hready] at hr; cases hr
      · omega
    refine ⟨_, rejection_reports _ _, ?_⟩
    rw [h.exec_eq, classified, if_neg noRoom, probed]
    rfl

/-- Settles O38, by the room in the miss queue and in the table. -/
theorem mshrMissStartsARequestOrIsRejected : Obligations.MshrMissStartsARequestOrIsRejected := by
  intro s isAtomic smask addr id size p h hp hhit hres he
  have probed := h.probeFor_eq (isAtomic := isAtomic) hp
  have classified := classify_of_no_entry (cc := s.cc) (r := s.request isAtomic addr id size)
    (fun way => probed ▸ hhit way) (probed ▸ hres) he
  refine ⟨fun hmq => ?queueFull, fun hmq htab => ?tableFull, fun hmq htab => ?starts⟩
  case queueFull =>
    refine ⟨_, rejection_reports _ _, ?_⟩
    rw [h.exec_eq, classified, if_pos (mqRoom_eq_false.2 hmq), probed]
    rfl
  case tableFull =>
    have room : ¬s.cc.mqRoom = false := mt mqRoom_eq_false.1 hmq.not_ge
    refine ⟨_, rejection_reports _ _, ?_⟩
    rw [h.exec_eq, classified, if_neg room, if_pos (tableRoom_eq_false.2 htab), probed]
    rfl
  case starts =>
    have room : ¬s.cc.mqRoom = false := mt mqRoom_eq_false.1 hmq.not_ge
    have place : ¬s.cc.tableRoom = false := mt tableRoom_eq_false.1 htab.not_ge
    obtain ⟨lines, wb, htag, hrec, hrep⟩ := h.recorded hp isAtomic
    refine ⟨lines, wb, _, _, _, s.cc.newMeta (s.request isAtomic addr id size), htag, hrep _,
      fun k => FMap.lookup_insert _ k _ _, ?way, rfl, fun k => FMap.lookup_insert _ k _ _, ?exec⟩
    case way =>
      rw [CcState.newMeta, probed]
      cases p with
      | hit way => exact absurd rfl (hhit way)
      | hitReserved way => exact .inr (.inr rfl)
      | miss way => exact .inl rfl
      | sectorMiss way => exact .inr (.inl rfl)
      | reservationFail => exact absurd rfl hres
    case exec =>
      rw [h.exec_eq, classified, if_neg room, if_neg place, CcState.startMiss, hrec]
      rfl

end Sys2Proof.Machine
end

section
/-! The source's cache scenarios (41_cache_engine.md rule R158): a miss queue of size 0 keeps the cache empty along every run,
and two reads of one block are a MISS and an MSHR_HIT. -/

namespace Sys2Proof.Machine

variable {s t : State} {smask : SectorMask} {addr : Addr} {id : ReqId} {size : ReqSize}

/-! ## An empty tag array -/

theorem empty_not_allocated : Line.empty.allocated = false := by
  rw [Bool.eq_false_iff, ne_eq, allocated_iff]
  rintro ⟨k, hk⟩
  exact hk (empty_st k)

/-- In an empty tag array every probe is a MISS on way 0 (R144). -/
theorem State.Accepts.probed_of_no_lines (h : s.Accepts smask addr id size) (hl : s.cc.lines = []) :
    s.Probed addr (.miss 0) := by
  have first : 0 < s.cc.active.ways := (h.sound.cc_legal h.live.configured).ways
  have none_allocated : ∀ w, (lineAt s.cc.lines (s.set addr) w).allocated = false := fun w => by
    rw [hl, lineAt_nil, empty_not_allocated]
  refine ⟨first, fun w _ ha => ?_, not_reserved_of_not_allocated (none_allocated 0), .inl ⟨none_allocated 0, fun w hw => ?_⟩⟩
  · rw [none_allocated w] at ha; cases ha
  · omega

/-! ## No miss queue -/

/-- A configured cache without miss queue that holds no line and no entry. -/
structure State.Queueless (s : State) : Prop where
  configured : s.cc.configured = true
  noQueue    : s.cc.active.mqSize = 0
  noLines    : s.cc.lines = []
  noEntries  : s.cc.mshr = []

theorem State.Queueless.of_cc_eq (h : s.Queueless) (e : t.cc = s.cc) : t.Queueless := by
  obtain ⟨h1, h2, h3, h4⟩ := h
  constructor <;> rw [e] <;> assumption

theorem State.Queueless.of_answersOnly {k : Outcome} (h : s.Queueless) (hk : AnswersOnly s k) (ht : k = .next t) :
    t.Queueless := by
  obtain ⟨r, rfl⟩ := hk t ht
  exact h.of_cc_eq rfl

/-- CC.CONFIGURE on a configured cache only answers (R140 step 1). -/
theorem execCcConfigure_answersOnly (hc : s.cc.configured = true) : AnswersOnly s (execCcConfigure s) := by
  rw [execCcConfigure, hc, if_pos rfl]
  exact unlessFatal_answersOnly (respond_answersOnly _)

/-- With no line to hit, no entry to join and no queue to enter, every request is rejected. -/
theorem State.Queueless.classify_fst (h : s.Queueless) (r : ReadReq) : (s.cc.classify r).1 = s.cc := by
  obtain ⟨⟨way, hhit⟩, -⟩ | ⟨e, he, -⟩ | ⟨hroom, -⟩ | ⟨st, -, ts, eq⟩ := classify_cases s.cc r
  · have hf := probeFor_fact s.cc r
    rw [hhit] at hf
    have ha := hf.2.1
    rw [h.noLines, lineAt_nil, empty_not_allocated] at ha
    cases ha
  · rw [h.noEntries] at he; cases he
  · have full := mqRoom_eq_false.2 (show s.cc.active.mqSize.toNat ≤ s.cc.mq.length by rw [h.noQueue]; exact Nat.zero_le _)
    rw [hroom] at full; cases full
  · rw [eq]

theorem State.Queueless.execCcAccess (h : s.Queueless) {isWrite isAtomic : Bool}
    (ht : Machine.execCcAccess isWrite isAtomic smask addr id size s = .next t) : t.Queueless := by
  obtain ⟨st, rfl⟩ | ⟨-, -, ht⟩ := ccOp_next ht
  · exact h.of_cc_eq rfl
  dsimp only at ht
  split_ifs at ht <;> cases ht
  · exact h.of_cc_eq rfl
  · exact h.of_cc_eq rfl
  · exact h.of_cc_eq (h.classify_fst _)

/-- No fill finds an entry. -/
theorem State.Queueless.execCcFill (h : s.Queueless) {hasParent : Bool} {parent : ReqId}
    (ht : Machine.execCcFill hasParent id parent s = .next t) : t.Queueless := by
  obtain ⟨st, rfl⟩ | ⟨-, -, ht⟩ := ccOp_next ht
  · exact h.of_cc_eq rfl
  simp only [h.noEntries, FMap.lookup_nil] at ht
  split at ht <;> cases ht <;> exact h.of_cc_eq rfl

theorem State.Queueless.execCcCycle (h : s.Queueless) {dsOk : Bool} (ht : Machine.execCcCycle dsOk s = .next t) :
    t.Queueless := by
  obtain ⟨st, rfl⟩ | ⟨-, -, ht⟩ := ccOp_next ht
  · exact h.of_cc_eq rfl
  dsimp only at ht
  split at ht <;> cases ht <;> exact ⟨h.configured, h.noQueue, h.noLines, h.noEntries⟩

/-- No queued key names an entry, so CC.NEXT hands nothing back. -/
theorem State.Queueless.execCcNext (h : s.Queueless) (ht : Machine.execCcNext s = .next t) : t.Queueless := by
  obtain ⟨st, rfl⟩ | ⟨-, -, ht⟩ := ccOp_next ht
  · exact h.of_cc_eq rfl
  simp only [h.noEntries, FMap.lookup_nil] at ht
  split at ht <;> cases ht
  exact h.of_cc_eq rfl

theorem State.Queueless.execCsrw (h : s.Queueless) {csr : CsrAddr} {v : Reg64} (ht : Machine.execCsrw csr v s = .next t) :
    t.Queueless := by
  obtain ⟨-, rfl⟩ | ⟨-, ht⟩ := unlessFatal_next ht
  · exact h.of_cc_eq rfl
  split at ht
  · cases ht; exact h.of_cc_eq rfl
  split_ifs at ht <;> cases ht
  · exact h.of_cc_eq rfl
  · obtain ⟨-, -, -, hcc, -⟩ := csrWrite_frame v s ‹Csr›
    exact State.Queueless.of_cc_eq (s := { s with cc := { s.cc with stage := (csrWrite v s ‹Csr›).cc.stage } })
      ⟨h.configured, h.noQueue, h.noLines, h.noEntries⟩ hcc

/-- No command fills a cache without miss queue. -/
theorem State.Queueless.exec {i : Instr} (h : s.Queueless) (ht : Machine.exec i s = .next t) : t.Queueless := by
  cases i with
  | nop => exact h.of_answersOnly (respond_answersOnly _) ht
  | csrr csr => exact h.of_answersOnly (execCsrr_answersOnly csr) ht
  | csrw csr v => exact h.execCsrw ht
  | adConfigure | adDecode _ | adPaddr _ | adSweep _ _ _ =>
    rw [← exec_ad_frame (unitOf_eq_commandUnit _) ht]
    exact h.of_cc_eq rfl
  | ccConfigure => exact h.of_answersOnly (execCcConfigure_answersOnly h.configured) ht
  | ccAccess _ _ _ _ _ _ => exact h.execCcAccess ht
  | ccFill _ _ _ => exact h.execCcFill ht
  | ccCycle _ => exact h.execCcCycle ht
  | ccDpfree | ccFpfree | ccReady => exact h.of_answersOnly (ccOp_answersOnly (respond_answersOnly _)) ht
  | ccNext => exact h.execCcNext ht
  | ccMqhead => exact h.of_answersOnly execCcMqhead_answersOnly ht
  | xbConfigure | xbHasbuf _ _ _ _ | xbPush _ _ _ _ | xbPop _ | xbAdvance | xbBusy =>
    rw [← exec_xb_frame (unitOf_eq_commandUnit _) ht]
    exact h.of_cc_eq rfl

/-! ## Along a run -/

/-- A command word is executed or only answered. -/
theorem runCmd_cases {w : CmdWord} (h : runCmd w s = .next t) :
    (∃ i, exec i s = .next t) ∨ t = s.answering { status := .illegalOp } := by
  by_cases hw : ∃ i, decode w = .ok i
  · obtain ⟨i, hi⟩ := hw
    exact .inl ⟨i, runCmd_legal hi s ▸ h⟩
  · rw [runCmd_illegal hw] at h
    exact .inr (Host.Outcome.next.inj h).symm

/-- What no command, no answer and no taking of an input breaks holds after every run without a reset pulse. -/
theorem run_keeps {P : State → Prop} (hexec : ∀ {i s t}, P s → exec i s = .next t → P t)
    (hanswer : ∀ {s} r, P s → P (s.answering r)) (htake : ∀ {s} rest, P s → P (s.withInputs rest)) (n : Nat) (hs : P s)
    (hno : s.NoReset n) (h : core.run n s = .next t) : P t := by
  induction n generalizing s with
  | zero => cases h; exact hs
  | succ n ih =>
    obtain ⟨u, hu, hrun⟩ : ∃ u : State, step s = .next u ∧ core.run n u = .next t := run_succ_eq_next h
    obtain ⟨hhead, htail⟩ := noReset_succ hno
    suffices next : P u ∧ u.inputs = s.inputs.tail from ih next.1 (fun x hx => htail x (next.2 ▸ hx)) hrun
    cases e : s.inputs with
    | nil =>
      rw [step_of_no_input e] at hu
      cases hu
      exact ⟨hs, e⟩
    | cons x rest =>
      cases x with
      | reset => simp [e] at hhead
      | cmd w =>
        rw [step_of_cmd e] at hu
        obtain ⟨i, hi⟩ | rfl := runCmd_cases hu
        · exact ⟨hexec (htake rest hs) hi, (exec_inputs_run hi).1⟩
        · exact ⟨hanswer _ (htake rest hs), rfl⟩

/-- A request to an empty cache without miss queue is MISS_QUEUE_FULL (R154). -/
theorem State.Queueless.exec_ccAccess (h : s.Queueless) (ha : s.Accepts smask addr id size) (isAtomic : Bool) :
    Machine.exec (.ccAccess false isAtomic smask addr id size) s =
      .next (s.answering { status := .missQueueFull, aux := 2 }) := by
  have probed := ha.probeFor_eq (isAtomic := isAtomic) (ha.probed_of_no_lines h.noLines)
  have full : s.cc.mqRoom = false := mqRoom_eq_false.2 (by rw [h.noQueue]; exact Nat.zero_le _)
  rw [ha.exec_eq, classify_of_no_entry (by simp [probed]) (by simp [probed]) (by rw [h.noEntries]; rfl), if_pos full, probed]
  rfl

/-! ## Two reads of one block -/

/-- What a MISS of request `id` on an empty tag array leaves for the next request (R154). -/
structure State.Started (s t : State) (addr : Addr) (id : ReqId) : Prop where
  live    : t.CcLive
  active  : t.cc.active = s.cc.active
  decoder : t.ad = s.ad
  lines   : ∃ wb, s.TagAccessed addr t.cc.lines wb (.miss 0)
  entry   : ∃ m, t.cc.mshr.lookup (s.key addr).toNat = some m ∧ m.ready = false ∧ m.list = [id]
  records : ∀ k, k ≠ id.toNat → t.cc.metaTab.lookup k = s.cc.metaTab.lookup k

/-- A request to an empty cache with room in its queue and table is a MISS. -/
theorem State.Accepts.starts (h : s.Accepts smask addr id size) (isAtomic : Bool) (hl : s.cc.lines = []) (hm : s.cc.mshr = [])
    (hroom : s.cc.mq.length < s.cc.active.mqSize.toNat) (htable : 0 < s.cc.active.mshrEntries.toNat) :
    ∃ t r, exec (.ccAccess false isAtomic smask addr id size) s = .next t ∧ t.rsp = some r ∧ r.status = .miss ∧
      s.Started t addr id := by
  obtain ⟨-, -, starts⟩ := mshrMissStartsARequestOrIsRejected s isAtomic smask addr id size (.miss 0) h
    (h.probed_of_no_lines hl) (fun _ => ProbeResult.noConfusion) ProbeResult.noConfusion (by rw [hm]; rfl)
  obtain ⟨lines, wb, mshr, metaTab, r, e, htag, hr, hmshr, -, -, hmeta, hexec⟩ := starts hroom (by rw [hm]; exact htable)
  refine ⟨_, r, hexec, rfl, hr.status, ⟨h.live.notFatal, h.live.configured⟩, rfl, rfl, ⟨wb, htag⟩,
    ⟨{ list := [id], hasAtomic := isAtomic, ready := false }, ?_, rfl, rfl⟩, fun k hk => ?_⟩
  · exact (hmshr _).trans (if_pos rfl)
  · exact (hmeta k).trans (if_neg hk)

namespace State.Started

variable {a : Addr} {i : ReqId} (h : s.Started t a i)
include h

theorem src_eq (b : Addr) : t.src b = s.src b := by rw [State.src, State.src, h.active, h.decoder]

theorem block_eq (b : Addr) : t.block b = s.block b := by rw [State.block, State.block, h.active, h.src_eq]

theorem set_eq (b : Addr) : t.set b = s.set b := by rw [State.set, State.set, h.active, h.block_eq]

theorem sm_eq (b : Addr) : t.sm b = s.sm b := by rw [State.sm, State.sm, h.active, h.src_eq]

theorem key_eq (b : Addr) : t.key b = s.key b := by rw [State.key, State.key, h.active, h.src_eq]

/-- A request with another id is acceptable as before. -/
theorem accepts (hi : t.Inv) (ha : s.Accepts smask addr id size) (hid : id ≠ i) : t.Accepts smask addr id size where
  live := h.live
  sound := hi
  sizePos := ha.sizePos
  inside := by rw [h.active, h.src_eq]; exact ha.inside
  mask := by rw [h.active, h.sm_eq]; exact ha.mask
  fresh := (h.records _ fun e => hid (BitVec.eq_of_toNat_eq e)).trans ha.fresh

/-- The line of the first request is reserved under ON_MISS, and under ON_FILL the tag array is still empty: a request for the
same tag sector is neither a HIT nor a RESERVATION_FAIL. -/
theorem probed (ha : t.Accepts smask addr id size) (hl : s.cc.lines = []) (hblock : s.block addr = s.block a)
    (hsm : s.sm addr = s.sm a) : ∃ p, t.Probed addr p ∧ (∀ way, p ≠ .hit way) ∧ p ≠ .reservationFail := by
  obtain ⟨wb, honMiss, honFill⟩ := h.lines
  by_cases hon : s.cc.active.apol = 0
  · obtain ⟨-, ln, ⟨hln, -⟩, hnew⟩ := honMiss hon
    obtain ⟨l, u, g⟩ := ha.sound.geometry ha.live.configured
    obtain ⟨k, hk⟩ := g.sectorMask_some (t.src addr)
    have held : lineAt t.cc.lines (t.set addr) 0 = ln := by rw [h.set_eq, State.set, hblock]; exact hln
    have reserved : ∀ k : Fin 16, (t.sm addr).getLsbD k = true → (lineAt t.cc.lines (t.set addr) 0).st[k] = .reserved := by
      intro k hk
      rw [h.sm_eq, hsm] at hk
      rw [held, hnew.st k, if_pos hk]
    refine ⟨.hitReserved 0, ⟨(ha.sound.cc_legal ha.live.configured).ways, allocated_of_st (reserved k hk) (by decide), ?_,
      fun k hk => ?_, k, hk, reserved k hk⟩, fun _ => ProbeResult.noConfusion, ProbeResult.noConfusion⟩
    · rw [held, hnew.tag, h.block_eq, hblock]
    · rw [reserved k hk]; decide
  · exact ⟨.miss 0, ha.probed_of_no_lines ((honFill hon).2.trans hl), fun _ => ProbeResult.noConfusion,
      ProbeResult.noConfusion⟩

/-- A request for the same tag sector joins the entry (R153). -/
theorem merges (ha : t.Accepts smask addr id size) (isAtomic : Bool) (hl : s.cc.lines = [])
    (hmerge : 2 ≤ s.cc.active.mshrMaxMerge.toNat) (hblock : s.block addr = s.block a) (hsm : s.sm addr = s.sm a)
    (hkey : s.key addr = s.key a) :
    ∃ u r, exec (.ccAccess false isAtomic smask addr id size) t = .next u ∧ u.rsp = some r ∧ r.status = .mshrHit := by
  obtain ⟨p, hp, hhit, hres⟩ := h.probed ha hl hblock hsm
  obtain ⟨m, hm, hready, hlist⟩ := h.entry
  rw [← hkey, ← h.key_eq] at hm
  obtain ⟨merges, -⟩ := mshrHitMergesOrIsRejected t isAtomic smask addr id size p m ha hp hhit hres hm
  obtain ⟨lines, wb, mshr, r, -, hr, -, hexec⟩ := merges ⟨hready, by rw [hlist, h.active]; exact hmerge⟩
  exact ⟨_, r, hexec, rfl, hr.status⟩

end State.Started

/-- Settles O40: (a) by the invariant `State.Queueless`, (b) by what the first request leaves for the second. -/
theorem sourceScenariosHold : Obligations.SourceScenariosHold := by
  refine ⟨?noQueue, ?twoReads⟩
  case noQueue =>
    intro n s t isAtomic smask addr id size hs _ hq hl hm hno hrun ha
    have after : t.Queueless := run_keeps (fun h => h.exec) (fun _ h => h.of_cc_eq rfl) (fun _ h => h.of_cc_eq rfl) n
      ⟨hs.configured, hq, hl, hm⟩ hno hrun
    exact after.exec_ccAccess ha isAtomic
  case twoReads =>
    intro s at₁ at₂ sm₁ sm₂ a₁ a₂ id₁ id₂ z₁ z₂ hkind _ _ _ hentries hmerge hqueue hl hm hq hblock hid h₁ h₂
    obtain ⟨l, u, g⟩ := h₁.sound.geometry h₁.live.configured
    have hsm : s.sm a₂ = s.sm a₁ := by
      rw [State.sm, State.sm, CcRegs.sectorMask, CcRegs.sectorMask, hkind, if_neg (by decide), if_neg (by decide)]
    have hkey : s.key a₂ = s.key a₁ := (g.mshrAddr_eq_iff _ _).2 ⟨hblock.symm, hsm⟩
    obtain ⟨t, r₁, hexec₁, hrsp₁, hst₁, started⟩ := h₁.starts at₁ hl hm (by rw [hq]; exact hqueue) (by rw [hentries]; decide)
    have accepts := started.accepts (h₁.sound.of_exec hexec₁) h₂ hid.symm
    obtain ⟨u, r₂, hexec₂, hrsp₂, hst₂⟩ := started.merges accepts at₂ hl hmerge hblock.symm hsm hkey
    exact ⟨t, u, r₁, r₂, hexec₁, hrsp₁, hst₁, hexec₂, hrsp₂, hst₂⟩

end Sys2Proof.Machine
end

section
/-! CC.FILL (41_cache_engine.md rules R160 to R162, R166): the missing record or entry, the fill that waits, and the completing
fill under each allocation policy. -/

namespace Sys2Proof.Machine

variable {s : State} {hasParent : Bool} {id parent r : ReqId} {e : MetaRec} {m : MshrEntry} {c : CcRegs} {lines : FMap Line}

/-! ## The existence checks and the fill that waits (R160) -/

theorem exec_ccFill_found (h : s.CcLive) (hr : r = if hasParent then parent else id)
    (he : s.cc.metaTab.lookup r.toNat = some e) (hm : s.cc.mshr.lookup e.mshrAddr.toNat = some m) :
    exec (.ccFill hasParent id parent) s = fillFound s r e m := by
  subst hr
  change execCcFill hasParent id parent s = _
  rw [execCcFill, h.ccOp]
  simp only [he, hm]

theorem raiseFatal_ccFillNoMshr (r : ReqId) (s : State) :
    raiseFatal .ccFillNoMshr (r.setWidth 64) s = .next (s.fatalEntry 0x03 (BitVec.ofNat 64 r.toNat)) := by
  rw [setWidth_eq_ofNat]; rfl

/-- Without a record whose entry exists the fill is fatal. -/
theorem exec_ccFill_missing (h : s.CcLive) (hr : r = if hasParent then parent else id)
    (hno : (s.cc.metaTab.lookup r.toNat).bind (fun e => s.cc.mshr.lookup e.mshrAddr.toNat) = none) :
    exec (.ccFill hasParent id parent) s = .next (s.fatalEntry 0x03 (BitVec.ofNat 64 r.toNat)) := by
  subst hr
  change execCcFill hasParent id parent s = _
  rw [execCcFill, h.ccOp, ← raiseFatal_ccFillNoMshr]
  dsimp only
  split
  · rfl
  next e he =>
    rw [he] at hno
    split
    · rfl
    next m hm => exact absurd (hno.symm.trans hm) nofun

/-- Settles O41: both missing cases are one, and a waiting fill writes the record alone. -/
theorem fillChecksAndWaits : Obligations.FillChecksAndWaits := by
  refine fun s hasParent id parent r hs hr => ⟨fun he => exec_ccFill_missing hs hr (by rw [he]; rfl),
    fun e he hm => exec_ccFill_missing hs hr (by rw [he]; exact hm), fun e m he hm hp => ?_⟩
  refine ⟨_, fun k => FMap.lookup_insert _ k _ _, ?_⟩
  rw [exec_ccFill_found hs hr he hm, fillFound, if_pos hp, setWidth_eq_ofNat]
  rfl

/-! ## What a completing fill leaves (R160, R166) -/

theorem fillRsp_reports (r : ReqId) {wb : Option Writeback} (hwb : ∀ v, wb = some v → v.bytes < 2 ^ 32) :
    (fillRsp r wb).ReportsFill r wb := by
  have q0 : (r.setWidth 64).toNat = r.toNat := by rw [BitVec.toNat_setWidth, Nat.mod_eq_of_lt (by omega)]
  cases wb with
  | none => exact ⟨rfl, rfl, q0, rfl, rfl⟩
  | some v => exact ⟨rfl, rfl, q0, writeback_field_toNat (hwb v rfl), rfl⟩

theorem tagFill_hit (hoff : ¬c.onMiss = true) {way : Nat}
    (hp : probe c lines e.blockAddr (c.setOf e.blockAddr) e.smask = .hit way) (now : BitVec 64) :
    tagFill c now lines e = { place := some (c.setOf e.blockAddr, way), wb := none, lines := lines } := by
  unfold tagFill; rw [if_neg hoff]; simp only [hp]

theorem tagFill_miss (hoff : ¬c.onMiss = true) {way : Nat}
    (hp : probe c lines e.blockAddr (c.setOf e.blockAddr) e.smask = .miss way) (now : BitVec 64) :
    tagFill c now lines e =
      { place := some (c.setOf e.blockAddr, way), wb := (lineAt lines (c.setOf e.blockAddr) way).writeback
        lines := setLine lines (c.setOf e.blockAddr) way
          ((Line.allocate e.blockAddr e.smask now).setSectors e.smask .valid) } := by
  unfold tagFill; rw [if_neg hoff]; simp only [hp]

theorem tagFill_partial (hoff : ¬c.onMiss = true) {way : Nat} {p : ProbeResult}
    (hp : probe c lines e.blockAddr (c.setOf e.blockAddr) e.smask = p) (hway : p = .sectorMiss way ∨ p = .hitReserved way)
    (now : BitVec 64) :
    tagFill c now lines e =
      { place := some (c.setOf e.blockAddr, way), wb := none
        lines := setLine lines (c.setOf e.blockAddr) way
          (((lineAt lines (c.setOf e.blockAddr) way).mapSectors e.smask validUnlessModified).touch now) } := by
  unfold tagFill; rw [if_neg hoff]; rcases hway with rfl | rfl <;> simp only [hp]

theorem tagFill_reservationFail (hoff : ¬c.onMiss = true)
    (hp : probe c lines e.blockAddr (c.setOf e.blockAddr) e.smask = .reservationFail) (now : BitVec 64) :
    tagFill c now lines e = { place := none, wb := none, lines := lines } := by
  unfold tagFill; rw [if_neg hoff]; simp only [hp]

/-- A fill reports nothing but the writeback of a line (R161). -/
theorem tagFill_wb_bytes_lt {now : BitVec 64} {v : Writeback} (h : (tagFill c now lines e).wb = some v) : v.bytes < 2 ^ 32 := by
  by_cases hon : c.onMiss = true
  · rw [tagFill_onMiss hon] at h; cases h
  cases hp : probe c lines e.blockAddr (c.setOf e.blockAddr) e.smask with
  | hit way => rw [tagFill_hit hon hp] at h; cases h
  | hitReserved way => rw [tagFill_partial hon hp (.inr rfl)] at h; cases h
  | miss way => rw [tagFill_miss hon hp] at h; exact writeback_bytes_lt h
  | sectorMiss way => rw [tagFill_partial hon hp (.inl rfl)] at h; cases h
  | reservationFail => rw [tagFill_reservationFail hon hp] at h; cases h

/-- The last response of a request with a record completes it: its entry exists, and everything but the tag array is as R160
says. -/
theorem State.Inv.exec_ccFill_completes (hi : s.Inv) (h : s.CcLive) (hr : r = if hasParent then parent else id)
    (he : s.cc.metaTab.lookup r.toNat = some e) (hp : e.pending = 1) :
    ∃ m t, s.cc.mshr.lookup e.mshrAddr.toNat = some m ∧ Machine.exec (.ccFill hasParent id parent) s = .next t ∧
      s.FillDone t r e m (s.cc.filledLines e m (s.cc.active.offset (s.src e.origAddr)))
        (tagFill s.cc.active s.cc.now s.cc.lines e).wb := by
  obtain ⟨l, u, g⟩ := hi.geometry h.configured
  have record := hi.cc.misses.metaOk _ _ he
  obtain ⟨m, hm, -⟩ := record.waiting
  have inArray : ¬(s.cc.active.onMiss = true ∧ ¬(e.set < s.cc.active.sets ∧ e.way < s.cc.active.ways)) := by
    rintro ⟨hon, hout⟩
    obtain ⟨hset, hway, -⟩ := record.place g hon
    exact hout ⟨hset, hway⟩
  have inLine : ¬(m.hasAtomic = true ∧
      s.cc.active.offset (s.cc.active.srcAddr s.ad.active e.origAddr) + e.origSize.toNat > s.cc.active.lineBytes) :=
    fun hout => absurd (record.bytes g) hout.2.not_ge
  refine ⟨m, _, hm, ?_, _, _, _, rfl, fun k => FMap.lookup_insert _ k _ _, fun k => FMap.lookup_erase _ k _,
    fillRsp_reports r fun _ => tagFill_wb_bytes_lt⟩
  rw [exec_ccFill_found h hr he hm, fillFound]
  dsimp only
  rw [if_neg (by omega), if_neg inArray, if_neg inLine]
  rfl

/-! ## The line a completing fill writes (R161, R162) -/

theorem State.LineBecomes.setLine {set way : Nat} {ln ln' : Line} (h : s.LineBecomes lines set way ln)
    (hway : way < s.cc.active.ways) : s.LineBecomes (Machine.setLine lines set way ln') set way ln' := by
  have hlt := s.cc.active.ways_lt
  refine ⟨lineAt_setLine_self _ _ _ _, fun set' way' hw hne => ?_⟩
  rw [lineAt_setLine_ne (hway.trans hlt) (hw.trans hlt) fun e => hne e.1 e.2]
  exact h.2 set' way' hw hne

/-- `force_dirty` marks the line `tag_fill` wrote, when the entry holds an atomic. -/
theorem State.LineBecomes.filledLines {set way : Nat} {ln : Line} (m : MshrEntry) (o : Nat) (hway : way < s.cc.active.ways)
    (hplace : (tagFill s.cc.active s.cc.now s.cc.lines e).place = some (set, way))
    (h : s.LineBecomes (tagFill s.cc.active s.cc.now s.cc.lines e).lines set way ln) :
    s.LineBecomes (s.cc.filledLines e m o) set way (if m.hasAtomic then ln.markAtomic e.smask o e.origSize.toNat else ln) := by
  unfold CcState.filledLines
  dsimp only
  split_ifs
  · rw [hplace, forceDirty, h.1]
    exact h.setLine hway
  · exact h

/-- Marking a filled line for an atomic makes the request's sectors MODIFIED and its bytes dirty (R162). -/
theorem Line.FilledFrom.mark {ln base : Line} {f : SectorStatus → SectorStatus} {o : Nat}
    (h : ln.FilledFrom base e f false o) (hbytes : o + e.origSize.toNat ≤ 4096) (atomic : Bool) :
    (if atomic then ln.markAtomic e.smask o e.origSize.toNat else ln).FilledFrom base e f atomic o := by
  cases atomic with
  | false => exact h
  | true =>
    refine ⟨h.tag, h.last, h.alloc, fun k => ?_, fun b hb => ?_⟩
    · rw [if_pos rfl, markAtomic_st, h.st k]
      by_cases hk : e.smask.getLsbD k = true
      · rw [if_pos hk, if_pos hk]; rfl
      · rw [if_neg hk, if_neg hk, if_neg hk]
    · have before := h.dirty b hb
      rw [if_pos rfl, markAtomic_dirty, BitVec.getLsbD_or, Bool.or_eq_true, before, byteRange_bit _ _ _ hbytes]
      simp

theorem MetaRec.Inv.bytes_le {ad : AdRegs} {mshr : FMap MshrEntry} {l t : Nat} (g : Geometry c l t)
    (h : e.Inv c ad mshr lines) : c.offset (c.srcAddr ad e.origAddr) + e.origSize.toNat ≤ 4096 :=
  (h.bytes g).trans (g.line ▸ line_le g)

/-- A line with the statuses `f` gives in the request's sectors and nothing else changed is a filled line without atomic. -/
theorem Line.FilledFrom.of_eq {ln base : Line} {f : SectorStatus → SectorStatus} (o : Nat) (htag : ln.tag = base.tag)
    (hlast : ln.lastAccess = base.lastAccess) (halloc : ln.allocTime = base.allocTime) (hdirty : ln.dirty = base.dirty)
    (hst : ∀ k : Fin 16, ln.st[k] = if e.smask.getLsbD k then f base.st[k] else base.st[k]) :
    ln.FilledFrom base e f false o :=
  ⟨htag, hlast, halloc, hst, fun b _ => by rw [hdirty]; simp⟩

/-- Settles O42: the record's line still holds its block, and `tag_fill` writes it in place. -/
theorem fillCompletesUnderOnMiss : Obligations.FillCompletesUnderOnMiss := by
  intro s hasParent id parent r e hs hi hr he hp hon
  replace hon := onMiss_iff.2 hon
  obtain ⟨l, u, g⟩ := hi.geometry hs.configured
  have record := hi.cc.misses.metaOk _ _ he
  obtain ⟨hway, htag, hst⟩ := record.line hon
  obtain ⟨m, t, hm, hexec, hdone⟩ := hi.exec_ccFill_completes hs hr he hp
  have fill := tagFill_onMiss hon s.cc.now s.cc.lines e
  have written : s.LineBecomes (tagFill s.cc.active s.cc.now s.cc.lines e).lines e.set e.way
      ((s.line e.set e.way).setSectors e.smask .valid) := by
    rw [fill]; exact lineBecomes_setLine hway _
  have filled : ((s.line e.set e.way).setSectors e.smask .valid).FilledFrom (s.line e.set e.way) e (fun _ => .valid) false
      (s.cc.active.offset (s.src e.origAddr)) := .of_eq _ rfl rfl rfl rfl (setSectors_st _ _ _)
  rw [show (tagFill s.cc.active s.cc.now s.cc.lines e).wb = none by rw [fill]] at hdone
  exact ⟨htag, hst, m, t, _, _, hm, hexec, written.filledLines m _ hway (by rw [fill]), filled.mark (record.bytes_le g) _,
    hdone⟩

/-- Where and how `tag_fill` writes under ON_FILL (R161). -/
theorem State.Inv.fillPlan (hi : s.Inv) (hc : s.cc.configured = true) (hoff : ¬s.cc.active.onMiss = true) {p : ProbeResult}
    (hp : probe s.cc.active s.cc.lines e.blockAddr (s.fillSet e) e.smask = p) (o : Nat) :
    ∃ way base f ln, s.FillPlan e way base f (tagFill s.cc.active s.cc.now s.cc.lines e).wb p ∧ way < s.cc.active.ways ∧
      (tagFill s.cc.active s.cc.now s.cc.lines e).place = some (s.fillSet e, way) ∧
      s.LineBecomes (tagFill s.cc.active s.cc.now s.cc.lines e).lines (s.fillSet e) way ln ∧
      ln.FilledFrom base e f false o := by
  have fact : ProbeFact s.cc.active s.cc.lines e.blockAddr (s.fillSet e) e.smask p := hp ▸ probe_fact _ _ _ _ _
  cases p with
  | hit way =>
    rw [tagFill_hit hoff hp]
    exact ⟨way, _, id, _, ⟨rfl, rfl, rfl, rfl⟩, fact.1, rfl, ⟨rfl, fun _ _ _ _ => rfl⟩,
      .of_eq _ rfl rfl rfl rfl fun k => (ite_self _).symm⟩
  | hitReserved way | sectorMiss way =>
    rw [tagFill_partial (way := way) hoff hp (by simp)]
    exact ⟨way, _, _, _, ⟨rfl, rfl, rfl, rfl⟩, fact.1, rfl, lineBecomes_setLine fact.1 _,
      .of_eq _ rfl rfl rfl rfl (mapSectors_st _ _ _)⟩
  | miss way =>
    rw [tagFill_miss hoff hp]
    refine ⟨way, _, _, _, ⟨rfl, rfl, rfl, writeback_report _⟩, fact.1, rfl, lineBecomes_setLine fact.1 _,
      .of_eq _ rfl rfl rfl (allocate_dirty e.blockAddr e.smask s.cc.now) fun k => ?_⟩
    rw [setSectors_st, allocate_st]
    split_ifs
    · rfl
    · exact (empty_st k).symm
  | reservationFail => exact absurd (hi.onMiss_of_reservationFail hc fact) hoff

/-- Settles O43, by the plan of `tag_fill` for the probe's answer. -/
theorem fillCompletesUnderOnFill : Obligations.FillCompletesUnderOnFill := by
  intro s hasParent id parent r e hs hi hr he hp hoff
  have notOnMiss : ¬s.cc.active.onMiss = true := fun hon => by rw [onMiss_iff.1 hon] at hoff; cases hoff
  obtain ⟨l, u, g⟩ := hi.geometry hs.configured
  have record := hi.cc.misses.metaOk _ _ he
  obtain ⟨m, t, hm, hexec, hdone⟩ := hi.exec_ccFill_completes hs hr he hp
  obtain ⟨way, base, f, ln, hplan, hway, hplace, hline, hfilled⟩ :=
    hi.fillPlan hs.configured notOnMiss rfl (s.cc.active.offset (s.src e.origAddr))
  exact ⟨_, way, base, f, _, m, t, _, _, probe_fact _ _ _ _ _, hplan, hm, hexec, hline.filledLines m _ hway hplace,
    hfilled.mark (record.bytes_le g) _, hdone⟩

end Sys2Proof.Machine
end

section
/-! The crossbar's cells, turn pointers and subnets in the statements' terms (10_state.md rule R37; 42_crossbar.md rules R192,
R196): indices of the widths of R36 name different cells, and what a push and a pop make of them. -/

namespace Sys2Proof.Machine

variable {s : State} {xb : XbState}

/-! ## Indices of R36's widths -/

/-- Cells with different indices have different keys; the subnet index stands on top and needs no bound. -/
theorem cellKey_eq_iff {s d c v s' d' c' v' : Nat} (hd : d < 65536) (hc : c < 256) (hv : v < 256) (hd' : d' < 65536)
    (hc' : c' < 256) (hv' : v' < 256) : cellKey s' d' c' v' = cellKey s d c v ↔ s' = s ∧ d' = d ∧ c' = c ∧ v' = v := by
  unfold cellKey; omega

theorem turnKey_eq_iff {s d s' d' : Nat} (hd : d < 65536) (hd' : d' < 65536) :
    turnKey s' d' = turnKey s d ↔ s' = s ∧ d' = d := by
  unfold turnKey; omega

/-! ## The cell a push or a pop changes (R195, R196) -/

theorem cellBecomes_setCell {sub dev v : Nat} (hdev : dev < 65536) (hv : v < 256) (q : List Payload) :
    s.CellBecomes (s.xb.setCell sub dev 0 v q) sub dev v q := by
  intro s' d' c' v' _ hd' hc' hv'
  rw [cell_setCell]
  simp only [cellKey_eq_iff hdev (by decide : 0 < 256) hv hd' hc' hv']

theorem cellBecomes_push (sub : Nat) (dst : NodeId) (p : Payload) :
    s.CellBecomes (s.xb.push sub dst.toNat p) sub dst.toNat 0 (s.xb.cell sub dst.toNat 0 0 ++ [p]) :=
  cellBecomes_setCell dst.isLt (by decide) _

theorem cellBecomes_popped {sub v : Nat} {dev : NodeId} (hv : v < s.xb.active.channels) (rest : List Payload) :
    s.CellBecomes (s.xb.popped sub dev.toNat v rest) sub dev.toNat v rest :=
  cellBecomes_setCell dev.isLt (hv.trans s.xb.active.channels_lt) rest

theorem turn_popped (xb : XbState) (sub d v : Nat) (rest : List Payload) (s' d' : Nat) :
    (xb.popped sub d v rest).turn s' d' =
      if turnKey s' d' = turnKey sub d then (v + 1) % xb.active.channels else xb.turn s' d' := turn_setTurn _ _ _ _ _ _

/-- What a pop leaves in the channels of its own queue. -/
theorem cell_popped_same_queue {sub d v w : Nat} (hv : v < 256) (hw : w < 256) (rest : List Payload) :
    (xb.popped sub d v rest).cell sub d 0 w = if w = v then rest else xb.cell sub d 0 w := by
  rw [XbState.popped, setTurn_cell, cell_setCell]
  simp only [cellKey_inj hw hv, true_and]

/-- A queue whose channels are empty has depth 0. -/
theorem depth_eq_zero {sub d c : Nat} (h : ∀ v, v < xb.active.channels → xb.cell sub d c v = []) : xb.depth sub d c = 0 := by
  refine List.sum_eq_zero fun n hn => ?_
  obtain ⟨v, hv, rfl⟩ := List.mem_map.1 hn
  rw [h v (List.mem_range.1 hv), List.length_nil]

/-! ## Subnets (R192) -/

theorem State.receivesOn_eq (s : State) (dev : NodeId) : s.receivesOn dev = s.xb.active.ejectSubnet dev := rfl

theorem State.sendsOn_lt (s : State) (src : NodeId) : s.sendsOn src < 256 :=
  (s.xb.active.injectSubnet_lt src).trans (by decide)

/-- A device receives on the subnet a source sends on when there is one subnet or the two are of different kinds. -/
theorem State.sendsOn_eq_receivesOn_iff (s : State) (src dev : NodeId) : s.sendsOn src = s.receivesOn dev ↔
    s.xb.active.subnets = 1 ∨ (src.toNat < s.xb.active.nshader.toNat ↔ s.xb.active.nshader.toNat ≤ dev.toNat) := by
  unfold State.sendsOn State.receivesOn
  by_cases hone : s.xb.active.subnets = 1
  · rw [if_pos hone, if_pos hone]
    exact iff_of_true rfl (.inl hone)
  · rw [if_neg hone, if_neg hone, or_iff_right hone]
    split_ifs with hsrc hdev hdev <;> simp [hsrc, hdev, ← not_lt]

/-! ## The served channel (R196) -/

/-- The first nonempty channel in turn order is served. -/
theorem served_eq_some {sub d i v : Nat} (hi : i < xb.active.channels) (hv : v = (xb.turn sub d + i) % xb.active.channels)
    (hne : xb.cell sub d 0 v ≠ [])
    (hfirst : ∀ j, j < i → xb.cell sub d 0 ((xb.turn sub d + j) % xb.active.channels) = []) : xb.served sub d = some v := by
  subst hv
  rw [XbState.served, List.find?_map, Option.map_eq_some_iff]
  refine ⟨i, List.find?_range_eq_some.2 ⟨?_, List.mem_range.2 hi, fun j hj => ?_⟩, rfl⟩
  · simpa using hne
  · simpa using hfirst j hj

/-- Some channel is served when one is nonempty, and the served one is nonempty. -/
theorem exists_served {sub d v : Nat} (hv : v < xb.active.channels) (hne : xb.cell sub d 0 v ≠ []) :
    ∃ w p rest, xb.served sub d = some w ∧ xb.cell sub d 0 w = p :: rest := by
  obtain ⟨w, hw⟩ := Option.ne_none_iff_exists'.1 fun hnone => hne (served_none.1 hnone v hv)
  obtain ⟨-, -, -, hcell, -⟩ := served_some hw
  obtain ⟨p, rest, hcell⟩ := List.exists_cons_of_ne_nil hcell
  exact ⟨w, p, rest, hw, hcell⟩

/-- In turn order from behind channel `v`, `v` itself is the last of the channels. -/
theorem turn_order_ends_at {n v w i : Nat} (hi : i < n) (hv : v < n) (hw : w < n) (hne : w ≠ v)
    (hlast : ((v + 1) % n + i) % n = v) : ∃ j, j < i ∧ ((v + 1) % n + j) % n = w := by
  have reached := turn_reaches ((v + 1) % n) hw
  have inRange := Nat.mod_lt (w + n - (v + 1) % n % n) (show 0 < n by omega)
  refine ⟨_, ?_, reached⟩
  have wraps : n ∣ 1 + i := by
    have back : v + (1 + i) ≡ v + 0 [MOD n] := by
      rw [Nat.ModEq, ← Nat.add_assoc, ← Nat.mod_add_mod, hlast, Nat.add_zero, Nat.mod_eq_of_lt hv]
    exact Nat.modEq_zero_iff_dvd.1 (Nat.ModEq.add_left_cancel' v back)
  have hend := Nat.le_of_dvd (by omega) wraps
  have notLast : (w + n - (v + 1) % n % n) % n ≠ i := fun h => hne (by rw [← reached, h, hlast])
  omega

/-- After a pop of channel `v`, the only other nonempty channel is served, whether `v` is empty now or not. -/
theorem served_popped {sub d v w : Nat} (rest : List Payload) (hv : v < xb.active.channels) (hw : w < xb.active.channels)
    (hne : w ≠ v) (hcell : xb.cell sub d 0 w ≠ [])
    (honly : ∀ x, x < xb.active.channels → xb.cell sub d 0 x ≠ [] → x = v ∨ x = w) :
    (xb.popped sub d v rest).served sub d = some w := by
  have small := xb.active.channels_lt
  have cells : ∀ x, x < xb.active.channels →
      (xb.popped sub d v rest).cell sub d 0 x = if x = v then rest else xb.cell sub d 0 x := fun x hx =>
    cell_popped_same_queue (hv.trans small) (hx.trans small) rest
  have still : (xb.popped sub d v rest).cell sub d 0 w ≠ [] := by rw [cells w hw, if_neg hne]; exact hcell
  obtain ⟨x, -, -, hx, -⟩ := exists_served (xb := xb.popped sub d v rest) hw still
  have hxn : x < xb.active.channels := served_lt (xb := xb.popped sub d v rest) hx
  obtain ⟨i, hi, hxi, hxc, hfirst⟩ := served_some hx
  rw [turn_popped, if_pos rfl] at hxi hfirst
  by_cases hxv : x = v
  · obtain ⟨j, hj, hjw⟩ := turn_order_ends_at hi hv hw hne (hxi.symm.trans hxv)
    exact absurd (hjw ▸ hfirst j hj) still
  · rw [cells x hxn, if_neg hxv] at hxc
    rw [hx, (honly x hxn hxc).resolve_left hxv]

/-- In a sound crossbar only channel 0 is ever served (R197 (e)). -/
theorem XbState.Inv.served_zero (h : xb.Inv) {sub d : Nat} (hn : 0 < xb.active.channels) (hne : xb.cell sub d 0 0 ≠ []) :
    xb.served sub d = some 0 := by
  obtain ⟨w, p, rest, hw, hcell⟩ := exists_served hn hne
  have zero : w = 0 := h.only_zero (s := sub) (d := d) ((served_lt hw).trans xb.active.channels_lt) (by simp [hcell])
  rw [hw, zero]

end Sys2Proof.Machine
end

section
/-! The crossbar's commands (42_crossbar.md rules R190 to R199; 43_system_ops.md rule R210): for each command what it answers
on a live crossbar, and what it can do to the queue cells in any state. -/

namespace Sys2Proof.Machine

variable {s t : State} {k : Outcome} {src dst dev : NodeId} {payload : Payload} {size : ReqSize}

theorem State.XbLive.xbOp (h : s.XbLive) : Machine.xbOp s k = k := xbOp_ready h.notFatal h.configured

/-- Settles O9: the checks of R223 let both crossbar commands through to their answer. -/
theorem nopAdvanceAndBusyAnswerOk : Obligations.NopAdvanceAndBusyAnswerOk :=
  ⟨fun _ => rfl, fun _ hs => ⟨hs.xbOp, hs.xbOp⟩⟩

/-! ## XB.CONFIGURE (R190) -/

/-- The computed check of XB.CONFIGURE, in the spec's words. -/
theorem XbRegs.legal_iff (c : XbRegs) : c.legal = true ↔
    c.subnets ≠ 0 ∧ c.nodes ≠ 0 ∧ c.nodes ≤ 65535 ∧ c.vcs ≠ 0 ∧ c.classes ≠ 0 := by
  simp [XbRegs.legal, and_assoc]

theorem exec_xbConfigure_configured (hf : s.sys.fatal = false) (hc : s.xb.configured = true) :
    exec .xbConfigure s = .next (s.answering { status := .alreadyConfigured }) := by
  change execXbConfigure s = _
  rw [execXbConfigure, unlessFatal_ok hf, hc, if_pos rfl]
  rfl

/-- The legality check, on a crossbar that is not configured. -/
theorem exec_xbConfigure_unconfigured (hf : s.sys.fatal = false) (hc : s.xb.configured = false) :
    exec .xbConfigure s =
      if s.xb.stage.legal then .next { s with xb := s.xb.commit, rsp := some { status := .ok } }
      else .next (s.answering { status := .configInvalid }) := by
  change execXbConfigure s = _
  rw [execXbConfigure, unlessFatal_ok hf, hc, if_neg Bool.false_ne_true]
  rfl

/-- Settles O50: the computed check is the legality of R190, and the committed crossbar lists no cell and no turn pointer. -/
theorem xbConfigureChecksThenCommits : Obligations.XbConfigureChecksThenCommits := by
  intro s hf
  refine ⟨exec_xbConfigure_configured hf, fun hc hbad => ?invalid,
    fun hc hsub hnode hmax hvcs hcls => ⟨_, ?commit, rfl, fun _ _ _ _ => ⟨rfl, rfl⟩⟩⟩
  case invalid =>
    rw [exec_xbConfigure_unconfigured hf hc, if_neg]
    rw [XbRegs.legal_iff]
    rintro ⟨hsub, hnode, hmax, hvcs, hcls⟩
    obtain h | h | h | h | h := hbad
    · exact hsub h
    · exact hnode h
    · exact Nat.not_lt.2 hmax h
    · exact hvcs h
    · exact hcls h
  case commit =>
    rw [exec_xbConfigure_unconfigured hf hc, if_pos ((XbRegs.legal_iff _).2 ⟨hsub, hnode, hmax, hvcs, hcls⟩)]
    rfl

/-! ## Device operands (R191) -/

/-- An operand that is no node ends the operation. -/
theorem State.XbLive.badOperand (hs : s.XbLive) {ds : List NodeId} {d : NodeId} (hmem : d ∈ ds)
    (hd : s.xb.active.nodes ≤ d.toNat) : Machine.xbOp s (ifNodes ds s k) = .next (s.answering { status := .badOperand }) := by
  rw [hs.xbOp, ifNodes, if_neg]
  · rfl
  · intro hall
    have valid := List.all_eq_true.1 hall d hmem
    exact Nat.not_lt.2 hd (of_decide_eq_true valid)

/-- Settles O51: the node is an operand of each of the five commands. -/
theorem devicesBeyondTheNodesAreRejected : Obligations.DevicesBeyondTheNodesAreRejected := fun _ _ hs hd =>
  ⟨hs.badOperand (List.mem_singleton_self _) hd, fun _ _ _ =>
    ⟨hs.badOperand List.mem_cons_self hd, hs.badOperand (List.mem_cons_of_mem _ (List.mem_singleton_self _)) hd,
      hs.badOperand List.mem_cons_self hd, hs.badOperand (List.mem_cons_of_mem _ (List.mem_singleton_self _)) hd⟩⟩

/-- With operands that are nodes the operation goes on. -/
theorem State.XbLive.onNodes (hs : s.XbLive) {ds : List NodeId} (hd : ∀ d ∈ ds, d.toNat < s.xb.active.nodes) :
    Machine.xbOp s (ifNodes ds s k) = k := by
  rw [hs.xbOp, ifNodes_ok hd]

theorem State.XbLive.onNode (hs : s.XbLive) (hdev : dev.toNat < s.xb.active.nodes) :
    Machine.xbOp s (ifNodes [dev] s k) = k :=
  hs.onNodes (List.forall_mem_singleton.2 hdev)

theorem State.XbLive.onPair (hs : s.XbLive) (hsrc : src.toNat < s.xb.active.nodes) (hdst : dst.toNat < s.xb.active.nodes) :
    Machine.xbOp s (ifNodes [src, dst] s k) = k :=
  hs.onNodes (List.forall_mem_cons.2 ⟨hsrc, List.forall_mem_singleton.2 hdst⟩)

/-! ## XB.HASBUF (R194) -/

theorem exec_xbHasbuf (hs : s.XbLive) (hsrc : src.toNat < s.xb.active.nodes) (hdst : dst.toNat < s.xb.active.nodes) :
    exec (.xbHasbuf src dst payload size) s =
      .next (s.answering
        { status := .ok
          aux := auxBit0 (s.xb.depth (s.sendsOn src) dst.toNat 0 < s.xb.active.capacity)
          q0 := BitVec.ofNat 64 (s.xb.depth (s.sendsOn src) dst.toNat 0) }) := hs.onPair hsrc hdst

/-- Settles O52: the depth the command counts is the sum of the statement. -/
theorem hasbufAnswersTheDepth : Obligations.HasbufAnswersTheDepth := by
  intro s src dst payload size n hs hsrc hdst hn
  have depth : s.xb.depth (s.sendsOn src) dst.toNat 0 = n := hn.symm
  rw [exec_xbHasbuf hs hsrc hdst, depth, auxBit0_decide]
  rfl

/-! ## XB.PUSH (R195) -/

/-- A push below the capacity. -/
theorem exec_xbPush_room (hs : s.XbLive) (hsrc : src.toNat < s.xb.active.nodes) (hdst : dst.toNat < s.xb.active.nodes)
    (hroom : s.xb.depth (s.sendsOn src) dst.toNat 0 < s.xb.active.capacity) :
    exec (.xbPush src dst payload size) s =
      .next { s with xb := s.xb.push (s.sendsOn src) dst.toNat payload, rsp := some { status := .ok } } :=
  (hs.onPair hsrc hdst).trans (if_neg (Nat.not_le.2 hroom))

/-- The two nodes of a fatal push as a number (R221). -/
theorem pushInfo_eq (src dst : NodeId) : (0#32 ++ src ++ dst : Reg64) = BitVec.ofNat 64 (dst.toNat + 2 ^ 16 * src.toNat) := by
  refine BitVec.eq_of_toNat_eq ?_
  rw [toNat_append_eq_add, toNat_append_eq_add, BitVec.toNat_ofNat, BitVec.toNat_ofNat]
  omega

/-- A push at the capacity. -/
theorem exec_xbPush_full (hs : s.XbLive) (hsrc : src.toNat < s.xb.active.nodes) (hdst : dst.toNat < s.xb.active.nodes)
    (hfull : s.xb.active.capacity ≤ s.xb.depth (s.sendsOn src) dst.toNat 0) :
    exec (.xbPush src dst payload size) s =
      .next (s.fatalEntry 0x04 (BitVec.ofNat 64 (dst.toNat + 2 ^ 16 * src.toNat))) := by
  rw [← pushInfo_eq]
  exact (hs.onPair hsrc hdst).trans (if_pos hfull)

/-- Settles O53, by the two cases of the command: room at the destination, or none. -/
theorem pushAppendsOrIsFatal : Obligations.PushAppendsOrIsFatal := fun _ _ _ _ _ hs hsrc hdst =>
  ⟨fun hroom => ⟨_, cellBecomes_push _ _ _, exec_xbPush_room hs hsrc hdst hroom⟩, exec_xbPush_full hs hsrc hdst⟩

/-- Everything XB.PUSH can make of the crossbar, in any state. -/
theorem execXbPush_xb (h : execXbPush src dst payload size s = .next t) :
    t.xb = s.xb ∨ t.xb = s.xb.push (s.sendsOn src) dst.toNat payload := by
  obtain ⟨_, rfl⟩ | ⟨-, -, h⟩ := xbOp_next h
  · exact .inl rfl
  obtain rfl | ⟨-, h⟩ := ifNodes_next h
  · exact .inl rfl
  dsimp only at h
  split_ifs at h <;> cases h
  · exact .inl rfl
  · exact .inr rfl

/-! ## XB.POP (R196) -/

/-- A pop of a queue with a payload. -/
theorem exec_xbPop_served {v : Nat} {p : Payload} {rest : List Payload} (hs : s.XbLive) (hdev : dev.toNat < s.xb.active.nodes)
    (hv : s.xb.served (s.receivesOn dev) dev.toNat = some v) (hcell : s.xb.cell (s.receivesOn dev) dev.toNat 0 v = p :: rest) :
    exec (.xbPop dev) s =
      .next { s with
              xb  := s.xb.popped (s.receivesOn dev) dev.toNat v rest
              rsp := some { status := .ok, aux := 1, q0 := p, q1 := BitVec.ofNat 64 v } } := by
  rw [s.receivesOn_eq] at hv hcell ⊢
  change execXbPop dev s = _
  rw [execXbPop, hs.onNode hdev]
  simp only [hv, hcell]
  rfl

/-- A pop of an empty queue. -/
theorem exec_xbPop_empty (hs : s.XbLive) (hdev : dev.toNat < s.xb.active.nodes)
    (hnone : s.xb.served (s.receivesOn dev) dev.toNat = none) :
    exec (.xbPop dev) s = .next (s.answering { status := .ok, aux := 0 }) := by
  rw [s.receivesOn_eq] at hnone
  change execXbPop dev s = _
  rw [execXbPop, hs.onNode hdev]
  simp only [hnone]
  rfl

/-- Settles O54: the statement's channel is the served one. -/
theorem popServesTheNextChannel : Obligations.PopServesTheNextChannel := by
  intro s dev hs hdev
  refine ⟨fun hempty => exec_xbPop_empty hs hdev (served_none.2 hempty), fun i v p rest hi hv hcell hfirst => ?_⟩
  have served := served_eq_some hi hv (by simp [hcell]) hfirst
  refine ⟨_, (s.xb.popped (s.receivesOn dev) dev.toNat v rest).turns, cellBecomes_popped (served_lt served) rest,
    fun s' d' _ hd' => ?_, exec_xbPop_served hs hdev served hcell⟩
  refine (turn_popped s.xb (s.receivesOn dev) dev.toNat v rest s' d').trans ?_
  simp only [turnKey_eq_iff dev.isLt hd']
  rfl

/-- Everything XB.POP can make of the crossbar, in any state. -/
theorem execXbPop_xb (h : execXbPop dev s = .next t) :
    t.xb = s.xb ∨ ∃ v p rest, v < s.xb.active.channels ∧ s.xb.cell (s.receivesOn dev) dev.toNat 0 v = p :: rest ∧
      t.xb = s.xb.popped (s.receivesOn dev) dev.toNat v rest ∧
      t.rsp = some { status := .ok, aux := 1, q0 := p, q1 := BitVec.ofNat 64 v } := by
  obtain ⟨_, rfl⟩ | ⟨-, -, h⟩ := xbOp_next h
  · exact .inl rfl
  obtain rfl | ⟨-, h⟩ := ifNodes_next h
  · exact .inl rfl
  dsimp only at h
  split at h
  · cases h; exact .inl rfl
  next v hv =>
    split at h
    · cases h; exact .inl rfl
    next p rest hcell =>
      cases h
      exact .inr ⟨v, p, rest, served_lt hv, hcell, rfl, rfl⟩

/-! ## The queue cells under every command (R193, R197) -/

theorem execXbConfigure_xb (h : execXbConfigure s = .next t) :
    t.xb = s.xb ∨ s.xb.configured = false ∧ t.xb = s.xb.commit := by
  obtain ⟨-, rfl⟩ | ⟨-, h⟩ := unlessFatal_next h
  · exact .inl rfl
  split_ifs at h with hc <;> cases h
  · exact .inl rfl
  · exact .inr ⟨Bool.eq_false_of_not_eq_true hc, rfl⟩
  · exact .inl rfl

theorem execCsrw_cells {csr : CsrAddr} {v : Reg64} (h : execCsrw csr v s = .next t) : t.xb.cells = s.xb.cells := by
  obtain ⟨-, rfl⟩ | ⟨-, h⟩ := unlessFatal_next h
  · rfl
  split at h
  · cases h; rfl
  split_ifs at h <;> cases h
  · rfl
  · obtain ⟨-, -, -, -, hxb, -⟩ := csrWrite_frame v s _
    have cells := congrArg XbState.cells hxb
    exact cells

/-- No command but XB.CONFIGURE, XB.PUSH and XB.POP changes a queue cell. -/
theorem exec_cells {i : Instr} (hconf : i ≠ .xbConfigure) (hpush : ∀ src dst p z, i ≠ .xbPush src dst p z)
    (hpop : ∀ dev, i ≠ .xbPop dev) (h : exec i s = .next t) : t.xb.cells = s.xb.cells := by
  cases i with
  | nop => cases h; rfl
  | csrr csr =>
    obtain ⟨r, rfl⟩ := execCsrr_answersOnly csr t h
    rfl
  | csrw csr v => exact execCsrw_cells h
  | adConfigure | adDecode _ | adPaddr _ | adSweep _ _ _ =>
    rw [← exec_ad_frame (unitOf_eq_commandUnit _) h]
    rfl
  | ccConfigure | ccAccess _ _ _ _ _ _ | ccFill _ _ _ | ccCycle _ | ccDpfree | ccFpfree | ccReady | ccNext | ccMqhead =>
    rw [← exec_cc_frame (unitOf_eq_commandUnit _) h]
    rfl
  | xbConfigure => exact absurd rfl hconf
  | xbPush src dst p z => exact absurd rfl (hpush src dst p z)
  | xbPop dev => exact absurd rfl (hpop dev)
  | xbHasbuf _ _ _ _ =>
    obtain ⟨r, rfl⟩ := xbOp_answersOnly (ifNodes_answersOnly _ (respond_answersOnly _)) t h
    rfl
  | xbAdvance | xbBusy =>
    obtain ⟨r, rfl⟩ := xbOp_answersOnly (respond_answersOnly _) t h
    rfl

/-- Settles O55: a push and a pop make one cell of class 0 the longer or shorter one and leave the rest. -/
theorem cellsAreQueues : Obligations.CellsAreQueues := by
  intro i s t sub d c v h hsub hd hc hv
  by_cases hpush : ∃ src dst p z, i = .xbPush src dst p z
  · obtain ⟨src, dst, p, z, rfl⟩ := hpush
    obtain hxb | hxb := execXbPush_xb (size := z) h
    · exact .inl (by rw [hxb])
    rw [hxb, cellBecomes_push (s.sendsOn src) dst p sub d c v hsub hd hc hv]
    split_ifs with hplace
    · obtain ⟨rfl, rfl, rfl, rfl⟩ := hplace
      exact .inr (.inl ⟨src, dst, p, z, rfl, rfl, rfl, rfl, rfl, rfl⟩)
    · exact .inl rfl
  by_cases hpop : ∃ dev, i = .xbPop dev
  · obtain ⟨dev, rfl⟩ := hpop
    obtain hxb | ⟨w, p, rest, hw, hcell, hxb, hrsp⟩ := execXbPop_xb h
    · exact .inl (by rw [hxb])
    rw [hxb, cellBecomes_popped hw rest sub d c v hsub hd hc hv]
    split_ifs with hplace
    · obtain ⟨rfl, rfl, rfl, rfl⟩ := hplace
      exact .inr (.inr (.inl ⟨dev, p, rfl, rfl, rfl, rfl, hcell, hrsp⟩))
    · exact .inl rfl
  by_cases hconf : i = .xbConfigure
  · subst hconf
    obtain hxb | ⟨hun, hxb⟩ := execXbConfigure_xb h
    · exact .inl (by rw [hxb])
    · exact .inr (.inr (.inr ⟨rfl, hun, by rw [hxb]; rfl⟩))
  · push Not at hpush hpop
    have same := exec_cells hconf hpush hpop h
    exact .inl (by rw [XbState.cell, same, XbState.cell])

end Sys2Proof.Machine
end

section
/-! Runs of two crossbar commands (42_crossbar.md rule R197 (d), (f)): two pops of one queue, and a push that a pop answers. -/

namespace Sys2Proof.Machine

variable {s : State} {src dst dev : NodeId} {payload : Payload} {size : ReqSize}

/-- The channel index of an answer, read back. -/
theorem toNat_ofNat_channel {c : XbRegs} {v : Nat} (hv : v < c.channels) : (BitVec.ofNat 64 v).toNat = v := by
  have small := c.channels_lt
  rw [BitVec.toNat_ofNat, Nat.mod_eq_of_lt (by omega)]

/-- Two pops of a queue whose nonempty channels are the served one, `v`, and one other, `w`: they answer `v`, then `w`. -/
theorem exec_xbPop_twice {v w : Nat} (hs : s.XbLive) (hdev : dev.toNat < s.xb.active.nodes)
    (hv : s.xb.served (s.receivesOn dev) dev.toNat = some v) (hw : w < s.xb.active.channels) (hne : w ≠ v)
    (hcell : s.xb.cell (s.receivesOn dev) dev.toNat 0 w ≠ [])
    (honly : ∀ x, x < s.xb.active.channels → s.xb.cell (s.receivesOn dev) dev.toNat 0 x ≠ [] → x = v ∨ x = w) :
    ∃ t u r₁ r₂, exec (.xbPop dev) s = .next t ∧ t.rsp = some r₁ ∧ exec (.xbPop dev) t = .next u ∧ u.rsp = some r₂ ∧
      r₁.aux = 1 ∧ r₂.aux = 1 ∧ r₁.q1.toNat = v ∧ r₂.q1.toNat = w := by
  have hvn := served_lt hv
  obtain ⟨-, -, -, hcv, -⟩ := served_some hv
  obtain ⟨p, rest, hcv⟩ := List.exists_cons_of_ne_nil hcv
  obtain ⟨p', rest', hcw⟩ := List.exists_cons_of_ne_nil hcell
  have small := s.xb.active.channels_lt
  have hcw' : (s.xb.popped (s.receivesOn dev) dev.toNat v rest).cell (s.receivesOn dev) dev.toNat 0 w = p' :: rest' := by
    rw [cell_popped_same_queue (hvn.trans small) (hw.trans small), if_neg hne, hcw]
  have first := exec_xbPop_served hs hdev hv hcv
  exact ⟨_, _, _, _, first, rfl,
    exec_xbPop_served ⟨hs.notFatal, hs.configured⟩ hdev (served_popped rest hvn hw hne hcell honly) hcw', rfl, rfl, rfl,
    toNat_ofNat_channel hvn, toNat_ofNat_channel hw⟩

/-- Settles O56: the first pop serves one of the two channels, the second the other. -/
theorem twoChannelsAreServedInTurn : Obligations.TwoChannelsAreServedInTurn := by
  intro s dev v₁ v₂ hs hdev h₁ h₂ hne hcells
  have c₁ := (hcells v₁ h₁).2 (.inl rfl)
  have c₂ := (hcells v₂ h₂).2 (.inr rfl)
  obtain ⟨v, p, rest, hv, hcell⟩ := exists_served h₁ c₁
  have both : ∀ x, x < s.xb.active.channels → s.xb.cell (s.receivesOn dev) dev.toNat 0 x ≠ [] → x = v₁ ∨ x = v₂ :=
    fun x hx => (hcells x hx).1
  obtain rfl | rfl := both v (served_lt hv) (by simp [hcell])
  · obtain ⟨t, u, r₁, r₂, ht, hr₁, hu, hr₂, a₁, a₂, q₁, q₂⟩ := exec_xbPop_twice hs hdev hv h₂ hne.symm c₂ both
    exact ⟨t, u, r₁, r₂, ht, hr₁, hu, hr₂, a₁, a₂, .inl ⟨q₁, q₂⟩⟩
  · obtain ⟨t, u, r₁, r₂, ht, hr₁, hu, hr₂, a₁, a₂, q₁, q₂⟩ :=
      exec_xbPop_twice hs hdev hv h₁ hne c₁ fun x hx hc => (both x hx hc).symm
    exact ⟨t, u, r₁, r₂, ht, hr₁, hu, hr₂, a₁, a₂, .inr ⟨q₁, q₂⟩⟩

/-- In a sound crossbar a queue whose channel 0 is empty is empty (R197 (e)). -/
theorem XbState.Inv.depth_eq_zero {xb : XbState} (h : xb.Inv) {sub d : Nat} (hempty : xb.cell sub d 0 0 = []) :
    xb.depth sub d 0 = 0 := by
  refine Machine.depth_eq_zero fun v hv => by_contra fun hne => ?_
  obtain rfl := h.only_zero (hv.trans xb.active.channels_lt) hne
  exact hne hempty

/-- A push to an empty queue and the pop that takes it back leave every cell as it was. -/
theorem cell_popped_push {xb : XbState} {sub d : Nat} (hempty : xb.cell sub d 0 0 = []) (p : Payload) (s' d' c' v' : Nat) :
    ((xb.push sub d p).popped sub d 0 []).cell s' d' c' v' = xb.cell s' d' c' v' := by
  rw [XbState.popped, setTurn_cell, cell_setCell]
  split_ifs with hkey
  · rw [XbState.cell, hkey]; exact hempty.symm
  · rw [XbState.push, cell_setCell, if_neg hkey]

/-- A push to an empty queue of a sound crossbar, then a pop by the destination, which receives there. -/
theorem exec_xbPush_then_xbPop (hs : s.XbLive) (hi : s.Inv) (hsrc : src.toNat < s.xb.active.nodes)
    (hdst : dst.toNat < s.xb.active.nodes) (hcap : 0 < s.xb.active.capacity) (hsub : s.sendsOn src = s.receivesOn dst)
    (hempty : s.xb.cell (s.sendsOn src) dst.toNat 0 0 = []) :
    ∃ t u, exec (.xbPush src dst payload size) s = .next t ∧ exec (.xbPop dst) t = .next u ∧
      u.rsp = some { status := .ok, aux := 1, q0 := payload, q1 := 0 } ∧
      u.xb = (s.xb.push (s.sendsOn src) dst.toNat payload).popped (s.sendsOn src) dst.toNat 0 [] := by
  have push : exec (.xbPush src dst payload size) s = _ :=
    exec_xbPush_room hs hsrc hdst (by rw [hi.xb.depth_eq_zero hempty]; exact hcap)
  have cell : (s.xb.push (s.sendsOn src) dst.toNat payload).cell (s.sendsOn src) dst.toNat 0 0 = [payload] := by
    rw [XbState.push, cell_setCell, if_pos rfl, hempty, List.nil_append]
  have served : (s.xb.push (s.sendsOn src) dst.toNat payload).served (s.sendsOn src) dst.toNat = some 0 :=
    (hi.of_exec push).xb.served_zero (XbRegs.legal_channels (hi.xb.legal hs.configured))
      (by simp [cell])
  rw [hsub] at cell served push ⊢
  exact ⟨_, _, push, exec_xbPop_served ⟨hs.notFatal, hs.configured⟩ hdst served cell, rfl, rfl⟩

/-- Settles O57: R192's two comparisons name one subnet for nodes of different kinds and two for nodes of one kind. -/
theorem payloadsReachTheOtherKind : Obligations.PayloadsReachTheOtherKind := by
  refine ⟨fun s src dst payload size hs hi hsrc hdst hcap hkinds hempty => ?delivered,
    fun s t src dst dev v htwo hkind hv h => ?stays⟩
  case delivered =>
    have room : 0 < s.xb.active.capacity := Nat.pos_of_ne_zero fun h0 => hcap (BitVec.eq_of_toNat_eq h0)
    obtain ⟨t, u, ht, hu, hr, hxb⟩ :=
      exec_xbPush_then_xbPop hs hi hsrc hdst room ((s.sendsOn_eq_receivesOn_iff src dst).2 hkinds) hempty
    exact ⟨t, u, _, ht, hu, hr, rfl, rfl, fun sub d c v _ _ _ _ => by rw [hxb, cell_popped_push hempty]⟩
  case stays =>
    have apart : s.sendsOn src ≠ s.receivesOn dst := by
      rw [Ne, s.sendsOn_eq_receivesOn_iff, or_iff_right htwo]
      omega
    obtain hsame | ⟨_, _, _, _, himp, -⟩ | ⟨_, _, himp, hsub, hdst, -⟩ | ⟨himp, -⟩ :=
      cellsAreQueues _ s t (s.sendsOn src) dst.toNat 0 v h (s.sendsOn_lt src) dst.isLt (by decide) hv
    · exact hsame
    · cases himp
    · obtain rfl := BitVec.eq_of_toNat_eq hdst
      exact absurd hsub.symm apart
    · cases himp

end Sys2Proof.Machine
end

section
/-! The control and status registers (10_state.md rules R24 to R26, R67; 43_system_ops.md rules R211, R212): the tables of the
statements list exactly the implemented registers, and a write changes what one register shows. -/

namespace Sys2Proof.Machine

variable {s : State} {a : CsrAddr} {r : Csr}

/-- The implemented registers in ascending address order, as the tables list them. -/
def Csr.all : List Csr :=
  [.sysId, .sysFatal, .sysFatalInfo,
   .adCtrl, .adMaskChip, .adMaskBank, .adMaskRow, .adMaskCol, .adMaskBurst, .adChipStart, .adNchan, .adNsub, .adIdxfn,
   .adMasksel, .adDiag,
   .ccCtrl, .ccKind, .ccNsets, .ccLineSz, .ccAssoc, .ccRepl, .ccWpol, .ccApol, .ccWalloc, .ccSetidx, .ccMshrType,
   .ccMshrEntries, .ccMshrMaxMerge, .ccMqSize, .ccRfifo, .ccPortW, .ccSectorIncl, .ccBlksrc, .ccSectorSz,
   .ccDpBusy, .ccFpBusy, .ccMqLen, .ccMshrLen, .ccNowR, .ccMetaLen,
   .xbCtrl, .xbSubnets, .xbNshader, .xbNmem, .xbVcs, .xbBufcap, .xbClasses]

theorem Csr.mem_all (r : Csr) : r ∈ Csr.all := by cases r <;> decide

/-- The CSR map and the registers' addresses say the same (R67). -/
theorem Csr.ofAddr_eq_some_iff : Csr.ofAddr a = some r ↔ a = r.addr := by
  constructor
  · unfold Csr.ofAddr
    split <;> rintro ⟨⟩ <;> rfl
  · rintro rfl
    cases r <;> rfl

/-- A table with one row for each register of a list: its rows at an address are those of the register there. -/
theorem Csr.mem_table_iff {l : List Csr} {f : Csr → Nat} {n : Nat} :
    (a.toNat, n) ∈ l.map (fun r => (r.addr.toNat, f r)) ↔ ∃ r, Csr.ofAddr a = some r ∧ r ∈ l ∧ f r = n := by
  simp only [List.mem_map, Prod.mk.injEq, BitVec.toNat_inj, Csr.ofAddr_eq_some_iff]
  exact exists_congr fun r => by rw [and_left_comm, eq_comm]

theorem toNat_flagReg (b : Bool) : (flagReg b).toNat = if b then 1 else 0 := by cases b <;> rfl

theorem toNat_fatalWord (y : SysState) : y.fatalWord.toNat = (if y.fatal then 1 else 0) + 256 * y.cause.toNat := by
  simp only [SysState.fatalWord, toNat_append_eq_add, BitVec.toNat_ofNat, BitVec.toNat_ofBool, Nat.zero_mod]
  cases y.fatal <;> simp <;> omega

/-- The number a register stands for: its CSRR value, but a table's length is not cut to 64 bits. -/
def Csr.shown (s : State) : Csr → Nat
  | .ccMqLen   => s.cc.mq.length
  | .ccMshrLen => s.cc.mshr.length
  | .ccMetaLen => s.cc.metaTab.length
  | r          => (csrRead s r).toNat

theorem csrRead_eq_ofNat_shown (s : State) (r : Csr) : csrRead s r = BitVec.ofNat 64 (r.shown s) := by
  cases r with
  | ccMqLen | ccMshrLen | ccMetaLen => rfl
  | _ => simp [Csr.shown]

theorem csrView_eq_table (s : State) : s.csrView = Csr.all.map fun r => (r.addr.toNat, r.shown s) := by
  rw [State.csrView, ← toNat_fatalWord, ← toNat_flagReg, ← toNat_flagReg, ← toNat_flagReg]
  rfl

theorem mem_csrView_iff {n : Nat} : (a.toNat, n) ∈ s.csrView ↔ ∃ r, Csr.ofAddr a = some r ∧ r.shown s = n := by
  simp [csrView_eq_table, Csr.mem_table_iff, Csr.mem_all]

theorem rwWidths_eq_table : rwWidths = (Csr.all.filter fun r => !r.readOnly).map fun r => (r.addr.toNat, r.width) := rfl

theorem mem_rwWidths_iff {n : Nat} :
    (a.toNat, n) ∈ rwWidths ↔ ∃ r, Csr.ofAddr a = some r ∧ r.readOnly = false ∧ r.width = n := by
  simp [rwWidths_eq_table, Csr.mem_table_iff, Csr.mem_all]

theorem exec_csrr_register (h : Csr.ofAddr a = some r) (s : State) :
    exec (.csrr a) s = .next (s.answering { status := .ok, q0 := csrRead s r }) := by
  change execCsrr a s = _
  rw [execCsrr, h]
  rfl

theorem exec_csrr_unimplemented (h : Csr.ofAddr a = none) (s : State) :
    exec (.csrr a) s = .next (s.answering { status := .badCsr }) := by
  change execCsrr a s = _
  rw [execCsrr, h]
  rfl

/-- Settles O10: the view lists each implemented register, under the address the CSR map gives it. -/
theorem csrReadsAnswerTheRegister : Obligations.CsrReadsAnswerTheRegister := by
  intro s csr
  refine ⟨fun v hv => ?listed, fun hnone => ?unlisted⟩
  case listed =>
    obtain ⟨r, hr, rfl⟩ := mem_csrView_iff.1 hv
    rw [exec_csrr_register hr, csrRead_eq_ofNat_shown]
  case unlisted =>
    have unimplemented : Csr.ofAddr csr = none :=
      Option.eq_none_iff_forall_ne_some.2 fun r hr => hnone _ (mem_csrView_iff.2 ⟨r, hr, rfl⟩)
    exact exec_csrr_unimplemented unimplemented s

/-- A register write changes the staging copies and AD_DIAG only (R26, R212). -/
theorem csrWrite_eq_withStages (v : Reg64) (s : State) (r : Csr) :
    ∃ a c x d, csrWrite v s r = (s.withStages a c x).withDiag d :=
  ⟨(csrWrite v s r).ad.stage, (csrWrite v s r).cc.stage, (csrWrite v s r).xb.stage, (csrWrite v s r).ad.diag,
    by cases r <;> rfl⟩

/-- A write to an `RW` register changes the row of that register alone (R212): for each of them, the two tables written out
are the same row by row. -/
theorem csrView_csrWrite (v : Reg64) (s : State) (h : r.readOnly = false) :
    (csrWrite v s r).csrView =
      s.csrView.map fun e => if e.1 = r.addr.toNat then (e.1, (v.setWidth r.width).toNat) else e := by
  cases r <;> cases h <;> rfl

theorem exec_csrw_writable (hs : s.sys.fatal = false) (ha : Csr.ofAddr a = some r) (hr : r.readOnly = false) (v : Reg64) :
    exec (.csrw a v) s = .next ((csrWrite v s r).answering { status := .ok }) := by
  change execCsrw a v s = _
  rw [execCsrw, unlessFatal_ok hs, ha]
  simp only [hr]
  rfl

theorem exec_csrw_unwritable (hs : s.sys.fatal = false) (h : ∀ r, Csr.ofAddr a = some r → r.readOnly = true) (v : Reg64) :
    exec (.csrw a v) s = .next (s.answering { status := .badCsr }) := by
  change execCsrw a v s = _
  rw [execCsrw, unlessFatal_ok hs]
  cases ha : Csr.ofAddr a with
  | none => rfl
  | some r => simp only [h r ha]; rfl

/-- Settles O11: the listed widths are those of the writable registers, and the write changes one row of the view. -/
theorem csrWritesStoreTheMaskedValue : Obligations.CsrWritesStoreTheMaskedValue := by
  intro s csr value hs
  refine ⟨fun n hn => ?listed, fun hnone => ?unlisted⟩
  case listed =>
    obtain ⟨r, ha, hr, rfl⟩ := mem_rwWidths_iff.1 hn
    obtain ⟨a, c, x, d, hw⟩ := csrWrite_eq_withStages value s r
    refine ⟨a, c, x, d, ?_, ?_⟩
    · rw [← hw, exec_csrw_writable hs ha hr]
    · rw [← hw, csrView_csrWrite value s hr, Csr.ofAddr_eq_some_iff.1 ha, BitVec.toNat_setWidth]
  case unlisted =>
    have unwritable : ∀ r, Csr.ofAddr csr = some r → r.readOnly = true := fun r ha =>
      eq_true_of_ne_false fun hr => hnone _ (mem_rwWidths_iff.2 ⟨r, ha, hr, rfl⟩)
    exact exec_csrw_unwritable hs unwritable value

end Sys2Proof.Machine
end

section
/-! The fatal state (60_exceptions.md rules R221 to R223, R227): what is performed in it, that only a reset pulse leaves it, and
that it is entered precisely, each cause by its own command. -/

namespace Sys2Proof.Machine

variable {s t : State} {i : Instr} {k : Outcome}

/-! ## Commands in the fatal state (R223) -/

/-- Opcodes 0x00 and 0x01 are those of NOP and CSRR (R85). -/
theorem opcode_zero_or_one_iff (i : Instr) : i.opcode = 0x00 ∨ i.opcode = 0x01 ↔ i = .nop ∨ ∃ csr, i = .csrr csr := by
  cases i <;> simp [Instr.opcode]

/-- NOP and CSRR are performed in every state, the fatal one included. -/
theorem exec_performed (h : i = .nop ∨ ∃ csr, i = .csrr csr) (s : State) :
    ∃ r, exec i s = .next (s.answering r) ∧ (r.status = .ok ∨ r.status = .badCsr) := by
  obtain rfl | ⟨csr, rfl⟩ := h
  · exact ⟨_, rfl, .inl rfl⟩
  cases hr : Csr.ofAddr csr with
  | none => exact ⟨_, exec_csrr_unimplemented hr s, .inr rfl⟩
  | some r => exact ⟨_, exec_csrr_register hr s, .inl rfl⟩

/-- Every other command begins with the fatal check. -/
theorem exec_refused_of_fatal (hf : s.sys.fatal = true) (h : ¬(i = .nop ∨ ∃ csr, i = .csrr csr)) :
    exec i s = .next (s.answering { status := .fatalState }) := by
  cases i with
  | nop => exact absurd (.inl rfl) h
  | csrr csr => exact absurd (.inr ⟨csr, rfl⟩) h
  | _ => exact unlessFatal_fatal hf

/-- In the fatal state a command word changes nothing but the response. -/
theorem runCmd_of_fatal (w : CmdWord) (hf : s.sys.fatal = true) : ∃ r, runCmd w s = .next (s.answering r) := by
  by_cases hw : ∃ i, decode w = .ok i
  · obtain ⟨i, hi⟩ := hw
    rw [runCmd_legal hi]
    by_cases hp : i = .nop ∨ ∃ csr, i = .csrr csr
    · obtain ⟨r, hr, -⟩ := exec_performed hp s
      exact ⟨r, hr⟩
    · exact ⟨_, exec_refused_of_fatal hf hp⟩
  · exact ⟨_, runCmd_illegal hw s⟩

/-! ## Steps and runs (R227) -/

/-- In the fatal state a step that is no reset pulse takes its input and changes nothing but the response. -/
theorem step_of_fatal (hf : s.sys.fatal = true) (hno : .reset ∉ s.inputs.head?) :
    ∃ r, step s = .next { s with rsp := r, inputs := s.inputs.tail } := by
  cases e : s.inputs with
  | nil => exact ⟨s.rsp, by rw [step_of_no_input e, List.tail_nil, ← e]⟩
  | cons x rest =>
    cases x with
    | reset => simp [e] at hno
    | cmd w =>
      obtain ⟨r, hr⟩ := runCmd_of_fatal (s := s.withInputs rest) w hf
      exact ⟨some r, (step_of_cmd e).trans hr⟩

/-- Settles O13: the common checks by the decoded command, and a step out of the fatal state cannot be any but the reset. -/
theorem commonChecksAndTheFatalState : Obligations.CommonChecksAndTheFatalState := by
  refine ⟨fun w s h => runCmd_illegal ((illegal_iff w).1 h) s, fun w s hlegal hf h0 h1 => ?refused,
    fun w s hlegal _ hop => ?performed, fun w s i h => runCmd_legal h s, fun s t hf hstep hleft => ?leaves⟩
  case refused =>
    obtain ⟨i, hi⟩ := not_not.1 (mt (illegal_iff w).2 hlegal)
    rw [runCmd_legal hi]
    refine exec_refused_of_fatal hf fun hp => ?_
    rw [← opcode_zero_or_one_iff, ← decode_op hi] at hp
    exact hp.elim h0 h1
  case performed =>
    obtain ⟨i, hi⟩ := not_not.1 (mt (illegal_iff w).2 hlegal)
    rw [runCmd_legal hi]
    rw [decode_op hi, opcode_zero_or_one_iff] at hop
    exact exec_performed hop s
  case leaves =>
    suffices head : .reset ∈ s.inputs.head? from List.head?_eq_some_iff.1 head
    by_contra hno
    obtain ⟨r, hr⟩ := step_of_fatal hf hno
    rw [hr] at hstep
    cases hstep
    rw [hf] at hleft
    cases hleft

/-- Settles O14, by induction on the steps: each leaves a fatal state with one input less. -/
theorem fatalStateIsFrozenAlongRuns : Obligations.FatalStateIsFrozenAlongRuns := by
  intro n
  induction n with
  | zero => exact fun s _ _ => ⟨s.rsp, rfl⟩
  | succ n ih =>
    intro s hf hno
    obtain ⟨hhead, htail⟩ := noReset_succ hno
    obtain ⟨q, first⟩ := step_of_fatal hf hhead
    obtain ⟨r, rest⟩ := ih { s with rsp := q, inputs := s.inputs.tail } hf htail
    refine ⟨r, ((run_succ_of_step (M := core) n first).trans rest).trans ?_⟩
    rw [List.drop_tail]

/-! ## Entering the fatal state (R221, R222) -/

/-- The fatal condition a command can raise, by its cause and info (R221). -/
def Raises : Instr → BitVec 8 → Reg64 → Prop
  | .adConfigure, cause, info => cause = 1 ∧ info ≠ 0
  | .adSweep base count stride, cause, info =>
    cause = 2 ∧ ∃ k, k < count.toNat ∧ info.toNat = base.toNat + k * stride.toNat
  | .ccFill hasParent id parent, cause, info => cause = 3 ∧ info.toNat = if hasParent then parent.toNat else id.toNat
  | .xbPush src dst _ _, cause, info => cause = 4 ∧ info.toNat = dst.toNat + 2 ^ 16 * src.toNat
  | _, _, _ => False

/-- The outcome, if it is a fatal state, is the entry from this state for such a cause and info (R222). -/
def EntersFatalFor (P : BitVec 8 → Reg64 → Prop) (s : State) (k : Outcome) : Prop :=
  ∀ t, k = .next t → t.sys.fatal = true → ∃ cause info, t = s.fatalEntry cause info ∧ P cause info

/-! ### The addresses of a sweep (R122) -/

/-- The index a sweep finds lies in its range. -/
theorem AdRegs.lt_of_sweepFailure {F : ParamFns} {c : AdRegs} {base : Addr} {stride : BitVec 32} {n j : Nat}
    (h : c.sweepFailure F base stride n = some j) : j < n :=
  List.mem_range.1 (List.mem_of_find?_eq_some h)

/-- The addresses of an accepted sweep do not wrap (R122). -/
theorem SweepRange.sweepAddr_toNat {base : Addr} {count stride : BitVec 32} (h : SweepRange base count stride) {j : Nat}
    (hj : j < count.toNat) : (sweepAddr base stride j).toNat = base.toNat + j * stride.toNat := by
  obtain ⟨-, -, last⟩ := h
  have below : j * stride.toNat ≤ (count.toNat - 1) * stride.toNat := Nat.mul_le_mul_right _ (by omega)
  rw [sweepAddr, BitVec.toNat_ofNat, Nat.mod_eq_of_lt (by omega)]

/-! ### The shared operations -/

section Live

variable {P : BitVec 8 → Reg64 → Prop} (hf : s.sys.fatal = false)

namespace EntersFatalFor

theorem raiseFatal {c : FatalCause} {info : Reg64} (h : P c.code info) :
    EntersFatalFor P s (Machine.raiseFatal c info s) := by
  rintro t ⟨⟩ -
  exact ⟨c.code, info, rfl, h⟩

theorem fault (r : Fault) : EntersFatalFor P s (.fault r) := fun _ h => nomatch h

/-- A next state that is not fatal is no entry. -/
theorem next_of_live (ht : t.sys.fatal = false) : EntersFatalFor P s (.next t) := by
  rintro u ⟨⟩ hu
  rw [ht] at hu
  cases hu

theorem withIndexing (hk : EntersFatalFor P s k) : EntersFatalFor P s (Machine.withIndexing s k) :=
  fun t ht => hk t (withIndexing_next ht).2

include hf

theorem of_answersOnly (h : AnswersOnly s k) : EntersFatalFor P s k := by
  intro t ht
  obtain ⟨r, rfl⟩ := h t ht
  exact next_of_live (t := s.answering r) hf _ rfl

theorem unlessFatal (hk : EntersFatalFor P s k) : EntersFatalFor P s (Machine.unlessFatal s k) := by
  rwa [unlessFatal_ok hf]

theorem ifConfigured (b : Bool) (hk : EntersFatalFor P s k) : EntersFatalFor P s (Machine.ifConfigured b s k) := by
  cases b with
  | true => exact hk
  | false => exact next_of_live hf

theorem ccOp (hk : EntersFatalFor P s k) : EntersFatalFor P s (Machine.ccOp s k) := unlessFatal hf (ifConfigured hf _ hk)

theorem xbOp (hk : EntersFatalFor P s k) : EntersFatalFor P s (Machine.xbOp s k) := unlessFatal hf (ifConfigured hf _ hk)

theorem ifNodes (ds : List NodeId) (hk : EntersFatalFor P s k) : EntersFatalFor P s (Machine.ifNodes ds s k) := by
  unfold Machine.ifNodes
  split_ifs
  · exact hk
  · exact next_of_live hf

end EntersFatalFor

/-! ### The four commands that can raise a fatal condition -/

include hf

theorem execAdConfigure_entersFatalFor : EntersFatalFor (Raises .adConfigure) s (execAdConfigure s) := by
  refine .unlessFatal hf ?_
  split_ifs with hc hov hl
  · exact .next_of_live hf
  · exact .raiseFatal ⟨rfl, hov⟩
  · exact .next_of_live hf
  · exact .next_of_live hf

theorem execAdSweep_entersFatalFor (base : Addr) (count stride : BitVec 32) :
    EntersFatalFor (Raises (.adSweep base count stride)) s (execAdSweep base count stride s) := by
  refine .unlessFatal hf ?_
  split
  · exact .next_of_live hf
  refine .ifConfigured hf _ ?_
  split
  · exact .next_of_live hf
  next hrange =>
    refine .withIndexing ?_
    split
    next j hj =>
      have inRange := AdRegs.lt_of_sweepFailure hj
      exact .raiseFatal ⟨rfl, j, inRange, (sweepRange_iff.2 hrange).sweepAddr_toNat inRange⟩
    · exact .next_of_live hf

/-- A fill that finds its record and entry raises no fatal condition. -/
theorem fillFound_entersFatalFor (r : ReqId) (e : MetaRec) (m : MshrEntry) : EntersFatalFor P s (fillFound s r e m) := by
  unfold fillFound
  dsimp only
  split_ifs
  · exact .next_of_live hf
  · exact .fault _
  · exact .fault _
  · exact .next_of_live hf

theorem execCcFill_entersFatalFor (hasParent : Bool) (id parent : ReqId) :
    EntersFatalFor (Raises (.ccFill hasParent id parent)) s (execCcFill hasParent id parent s) := by
  have raises : Raises (.ccFill hasParent id parent) 3 ((if hasParent then parent else id).setWidth 64) :=
    ⟨rfl, by rw [BitVec.toNat_setWidth_of_le (by decide), apply_ite BitVec.toNat]⟩
  refine .ccOp hf ?_
  dsimp only
  split
  · exact .raiseFatal raises
  · split
    · exact .raiseFatal raises
    · exact fillFound_entersFatalFor hf _ _ _

theorem execXbPush_entersFatalFor (src dst : NodeId) (payload : Payload) (size : ReqSize) :
    EntersFatalFor (Raises (.xbPush src dst payload size)) s (execXbPush src dst payload size s) := by
  refine .xbOp hf (.ifNodes hf _ ?_)
  dsimp only
  split_ifs with hfull
  · refine .raiseFatal ⟨rfl, ?_⟩
    rw [pushInfo_eq, BitVec.toNat_ofNat, Nat.mod_eq_of_lt (by omega)]
  · exact .next_of_live hf

/-! ### The other commands that change state -/

theorem execCsrw_entersFatalFor (csr : CsrAddr) (v : Reg64) : EntersFatalFor P s (execCsrw csr v s) := by
  refine .unlessFatal hf ?_
  split
  · exact .next_of_live hf
  split_ifs
  · exact .next_of_live hf
  · obtain ⟨sys, -⟩ := csrWrite_frame v s ‹Csr›
    exact .next_of_live ((congrArg SysState.fatal sys).trans hf)

theorem execCcConfigure_entersFatalFor : EntersFatalFor P s (execCcConfigure s) := by
  refine .unlessFatal hf ?_
  split_ifs <;> exact .next_of_live hf

theorem execCcAccess_entersFatalFor (isWrite isAtomic : Bool) (smask : SectorMask) (addr : Addr) (id : ReqId)
    (size : ReqSize) : EntersFatalFor P s (execCcAccess isWrite isAtomic smask addr id size s) := by
  refine .ccOp hf ?_
  dsimp only
  split_ifs <;> exact .next_of_live hf

theorem execCcCycle_entersFatalFor (dsOk : Bool) : EntersFatalFor P s (execCcCycle dsOk s) := by
  refine .ccOp hf ?_
  dsimp only
  split <;> exact .next_of_live hf

theorem execCcNext_entersFatalFor : EntersFatalFor P s (execCcNext s) := by
  refine .ccOp hf ?_
  split
  · exact .next_of_live hf
  split
  · exact .fault _
  split
  · exact .fault _
  · exact .next_of_live hf

theorem execXbConfigure_entersFatalFor : EntersFatalFor P s (execXbConfigure s) := by
  refine .unlessFatal hf ?_
  split_ifs <;> exact .next_of_live hf

theorem execXbPop_entersFatalFor (dev : NodeId) : EntersFatalFor P s (execXbPop dev s) := by
  refine .xbOp hf (.ifNodes hf _ ?_)
  dsimp only
  split
  · exact .next_of_live hf
  split <;> exact .next_of_live hf

/-- Every command of a live machine enters the fatal state precisely, and for its own condition. -/
theorem exec_entersFatalFor (i : Instr) : EntersFatalFor (Raises i) s (exec i s) := by
  cases i with
  | nop => exact .next_of_live hf
  | csrr csr => exact .of_answersOnly hf (execCsrr_answersOnly csr)
  | csrw csr v => exact execCsrw_entersFatalFor hf csr v
  | adConfigure => exact execAdConfigure_entersFatalFor hf
  | adDecode a => exact .unlessFatal hf (.ifConfigured hf _ (.withIndexing (.next_of_live hf)))
  | adPaddr a => exact .unlessFatal hf (.ifConfigured hf _ (.next_of_live hf))
  | adSweep base count stride => exact execAdSweep_entersFatalFor hf base count stride
  | ccConfigure => exact execCcConfigure_entersFatalFor hf
  | ccAccess isWrite isAtomic smask addr id size =>
    exact execCcAccess_entersFatalFor hf isWrite isAtomic smask addr id size
  | ccFill hasParent id parent => exact execCcFill_entersFatalFor hf hasParent id parent
  | ccCycle dsOk => exact execCcCycle_entersFatalFor hf dsOk
  | ccDpfree | ccFpfree | ccReady => exact .ccOp hf (.next_of_live hf)
  | ccNext => exact execCcNext_entersFatalFor hf
  | ccMqhead => exact .of_answersOnly hf execCcMqhead_answersOnly
  | xbConfigure => exact execXbConfigure_entersFatalFor hf
  | xbHasbuf src dst payload size => exact .xbOp hf (.ifNodes hf _ (.next_of_live hf))
  | xbPush src dst payload size => exact execXbPush_entersFatalFor hf src dst payload size
  | xbPop dev => exact execXbPop_entersFatalFor hf dev
  | xbAdvance | xbBusy => exact .xbOp hf (.next_of_live hf)

end Live

/-- Settles O15: the entry is precise, and the commands with a fatal condition are the four. -/
theorem fatalEntryIsPrecise : Obligations.FatalEntryIsPrecise := by
  intro i s t hf h ht
  obtain ⟨cause, info, rfl, raises⟩ := exec_entersFatalFor hf i t h ht
  refine ⟨rfl, ?_⟩
  cases i with
  | adConfigure => exact .inl ⟨rfl, raises⟩
  | adSweep base count stride =>
    obtain ⟨hcause, j, hj, hinfo⟩ := raises
    exact .inr (.inl ⟨base, count, stride, j, rfl, hcause, hj, hinfo⟩)
  | ccFill hasParent id parent => exact .inr (.inr (.inl ⟨hasParent, id, parent, rfl, raises⟩))
  | xbPush src dst payload size => exact .inr (.inr (.inr ⟨src, dst, payload, size, rfl, raises⟩))
  | _ => exact raises.elim

end Sys2Proof.Machine
end

section
/-! Reset and the checks around it (70_reset_and_hazards.md rules R250 to R252): what a reset pulse leaves, and that a block
answers NOT_CONFIGURED until its CONFIGURE. -/

namespace Sys2Proof.Machine

variable {s : State} {k : Outcome}

/-! ## Reset (R250, R251) -/

/-- After reset SYS_ID shows its constant and every other register 0 (R251). -/
theorem csrView_reset : ∀ x ∈ State.reset.csrView, x.2 = if x.1 = 0 then 0x0000000147435348 else 0 := by decide

/-- Settles O16: the view reads the blocks and the system registers only, and those a pulse puts back to their reset values. -/
theorem resetLeavesTheStatedValues : Obligations.ResetLeavesTheStatedValues := fun _ _ hin =>
  ⟨_, step_of_reset hin, rfl, csrView_reset, rfl, rfl, rfl, rfl, rfl, rfl, rfl⟩

/-- Settles O59: the invariant does not see the inputs and the run, in which a pulse alone differs from reset. -/
theorem resetIsSound : Obligations.ResetIsSound := by
  obtain ⟨sys, ad, cc, xb⟩ := resetPulse_inv .reset
  exact ⟨sys, ad, cc, xb⟩

/-! ## Before CONFIGURE (R252) -/

/-- The two checks that begin a decoder operation, on a decoder that is not configured. -/
theorem adChecks_unconfigured (hf : s.sys.fatal = false) (hc : s.ad.configured = false) :
    unlessFatal s (ifConfigured s.ad.configured s k) = .next (s.answering { status := .notConfigured }) := by
  rw [unlessFatal_ok hf, hc, ifConfigured_false]
  rfl

/-- Every cache operation but CC.CONFIGURE, on a cache engine that is not configured. -/
theorem exec_cc_unconfigured {i : Instr} (hf : s.sys.fatal = false) (hc : s.cc.configured = false) (hu : unitOf i = 2)
    (hne : i ≠ .ccConfigure) : exec i s = .next (s.answering { status := .notConfigured }) := by
  rw [unitOf_eq_commandUnit] at hu
  cases i with
  | ccConfigure => exact absurd rfl hne
  | ccAccess _ _ _ _ _ _ | ccFill _ _ _ | ccCycle _ | ccDpfree | ccFpfree | ccReady | ccNext | ccMqhead =>
    exact ccOp_unconfigured hf hc
  | _ => cases hu

/-- Every crossbar operation but XB.CONFIGURE, on a crossbar that is not configured. -/
theorem exec_xb_unconfigured {i : Instr} (hf : s.sys.fatal = false) (hc : s.xb.configured = false) (hu : unitOf i = 3)
    (hne : i ≠ .xbConfigure) : exec i s = .next (s.answering { status := .notConfigured }) := by
  rw [unitOf_eq_commandUnit] at hu
  cases i with
  | xbConfigure => exact absurd rfl hne
  | xbHasbuf _ _ _ _ | xbPush _ _ _ _ | xbPop _ | xbAdvance | xbBusy => exact xbOp_unconfigured hf hc
  | _ => cases hu

/-- Settles O19, block by block: the configured check comes before everything else the command does. -/
theorem unconfiguredBlocksRefuseWork : Obligations.UnconfiguredBlocksRefuseWork := by
  rintro i s hf (⟨⟨_, rfl⟩ | ⟨_, rfl⟩ | ⟨hdiag, _, _, _, rfl⟩, hc⟩ | ⟨hu, hne, hc⟩ | ⟨hu, hne, hc⟩)
  · exact adChecks_unconfigured hf hc
  · exact adChecks_unconfigured hf hc
  · exact exec_adSweep_unconfigured hf ((BitVec.eq_zero_or_eq_one _).resolve_left hdiag) hc
  · exact exec_cc_unconfigured hf hc hu hne
  · exact exec_xb_unconfigured hf hc hu hne

end Sys2Proof.Machine
end

section
/-! Two hazards (70_reset_and_hazards.md rules R254, R257): a fill too many, and how long a positive XB.HASBUF answer holds. -/

namespace Sys2Proof.Machine

variable {s t : State} {i : Instr} {q : Rsp}

/-! ## One fill too many (R257) -/

/-- A fill that answers FILL_DONE has removed the request's record, and left the system registers and CC_CTRL. -/
theorem fillFound_done {r : ReqId} {e : MetaRec} {m : MshrEntry} (h : fillFound s r e m = .next t) (hq : t.rsp = some q)
    (hdone : q.status = .fillDone) :
    t.sys = s.sys ∧ t.cc.configured = s.cc.configured ∧ t.cc.metaTab.lookup r.toNat = none := by
  unfold fillFound at h
  dsimp only at h
  split_ifs at h <;> cases h
  · cases hq; cases hdone
  · exact ⟨rfl, rfl, FMap.lookup_erase_self _ _⟩

/-- After CC.FILL answered FILL_DONE the cache engine still accepts work, and the request has no record. -/
theorem execCcFill_done {hasParent : Bool} {id parent : ReqId} (h : execCcFill hasParent id parent s = .next t)
    (hq : t.rsp = some q) (hdone : q.status = .fillDone) :
    t.CcLive ∧ t.cc.metaTab.lookup (if hasParent then parent else id).toNat = none := by
  obtain ⟨-, rfl⟩ | ⟨hf, h⟩ := unlessFatal_next h
  · cases hq; cases hdone
  obtain ⟨-, rfl⟩ | ⟨hc, h⟩ := ifConfigured_next h
  · cases hq; cases hdone
  dsimp only at h
  split at h
  · cases h; cases hq; cases hdone
  split at h
  · cases h; cases hq; cases hdone
  · obtain ⟨hsys, hconf, hnone⟩ := fillFound_done h hq hdone
    exact ⟨⟨by rw [hsys, hf], by rw [hconf, hc]⟩, hnone⟩

/-- Settles O44: the first fill removed the record the second one looks for. -/
theorem aSecondCompletingFillIsFatal : Obligations.ASecondCompletingFillIsFatal := by
  intro s t hasParent id parent q h hq hdone
  obtain ⟨live, hnone⟩ := execCcFill_done h hq hdone
  exact exec_ccFill_missing live rfl (by rw [hnone]; rfl)

/-! ## A positive XB.HASBUF answer (R254) -/

/-- What a positive answer of XB.HASBUF tells: both operands are nodes and the destination has room. -/
theorem State.XbLive.hasbuf_positive {src dst : NodeId} {payload : Payload} {size : ReqSize} (hs : s.XbLive)
    (h : Machine.exec (.xbHasbuf src dst payload size) s = .next t) (hq : t.rsp = some q) (hok : q.status = .ok)
    (haux : q.aux = 1) :
    t = s.answering q ∧ src.toNat < s.xb.active.nodes ∧ dst.toNat < s.xb.active.nodes ∧
      s.xb.depth (s.sendsOn src) dst.toNat 0 < s.xb.active.capacity := by
  obtain rfl | ⟨hnodes, -⟩ := ifNodes_next (hs.xbOp.symm.trans h)
  · cases hq; cases hok
  have hsrc := hnodes src List.mem_cons_self
  have hdst := hnodes dst (List.mem_cons_of_mem _ List.mem_cons_self)
  rw [exec_xbHasbuf hs hsrc hdst, auxBit0_decide] at h
  cases h
  cases hq
  refine ⟨rfl, hsrc, hdst, by_contra fun hfull => ?_⟩
  dsimp only at haux
  rw [if_neg hfull] at haux
  cases haux

/-- A register write leaves the crossbar but for its staging copy (R26, R212). -/
theorem execCsrw_xb {csr : CsrAddr} {v : Reg64} (h : execCsrw csr v s = .next t) :
    t.xb = { s.xb with stage := t.xb.stage } := by
  obtain ⟨-, rfl⟩ | ⟨-, h⟩ := unlessFatal_next h
  · rfl
  split at h
  · cases h; rfl
  split_ifs at h <;> cases h
  · rfl
  · obtain ⟨-, -, -, -, hxb, -⟩ := csrWrite_frame v s _
    exact hxb

/-- Everything a command can make of a configured crossbar: another staging copy, a push or a pop. -/
theorem exec_configured_xb (hc : s.xb.configured = true) (h : exec i s = .next t) :
    (∃ stage, t.xb = { s.xb with stage := stage }) ∨
    (∃ src dst payload size, i = .xbPush src dst payload size ∧ t.xb = s.xb.push (s.sendsOn src) dst.toNat payload) ∨
    (∃ dev v p rest, i = .xbPop dev ∧ v < s.xb.active.channels ∧ s.xb.cell (s.receivesOn dev) dev.toNat 0 v = p :: rest ∧
      t.xb = s.xb.popped (s.receivesOn dev) dev.toNat v rest) := by
  cases i with
  | nop => cases h; exact .inl ⟨_, rfl⟩
  | csrr csr =>
    obtain ⟨r, rfl⟩ := execCsrr_answersOnly csr t h
    exact .inl ⟨_, rfl⟩
  | csrw csr v => exact .inl ⟨_, execCsrw_xb h⟩
  | adConfigure | adDecode _ | adPaddr _ | adSweep _ _ _ =>
    rw [← exec_ad_frame (unitOf_eq_commandUnit _) h]
    exact .inl ⟨_, rfl⟩
  | ccConfigure | ccAccess _ _ _ _ _ _ | ccFill _ _ _ | ccCycle _ | ccDpfree | ccFpfree | ccReady | ccNext | ccMqhead =>
    rw [← exec_cc_frame (unitOf_eq_commandUnit _) h]
    exact .inl ⟨_, rfl⟩
  | xbConfigure =>
    obtain hxb | ⟨hun, -⟩ := execXbConfigure_xb h
    · exact .inl ⟨_, hxb⟩
    · rw [hc] at hun; cases hun
  | xbPush src dst payload size =>
    obtain hxb | hxb := execXbPush_xb (size := size) h
    · exact .inl ⟨_, hxb⟩
    · exact .inr (.inl ⟨src, dst, payload, size, rfl, hxb⟩)
  | xbPop dev =>
    obtain hxb | ⟨v, p, rest, hv, hcell, hxb, -⟩ := execXbPop_xb h
    · exact .inl ⟨_, hxb⟩
    · exact .inr (.inr ⟨dev, v, p, rest, rfl, hv, hcell, hxb⟩)
  | xbHasbuf _ _ _ _ =>
    obtain ⟨r, rfl⟩ := xbOp_answersOnly (ifNodes_answersOnly _ (respond_answersOnly _)) t h
    exact .inl ⟨_, rfl⟩
  | xbAdvance | xbBusy =>
    obtain ⟨r, rfl⟩ := xbOp_answersOnly (respond_answersOnly _) t h
    exact .inl ⟨_, rfl⟩

/-- A command that is no push to the queue `(sub, d)` keeps a configured crossbar's configuration and makes that queue no
deeper; only a pop changes its depth at all. -/
theorem exec_depth_of_no_push {sub d : Nat} (hc : s.xb.configured = true) (hd : d < 65536) (h : exec i s = .next t)
    (hother : ∀ src dst payload size, i = .xbPush src dst payload size → s.sendsOn src = sub → dst.toNat ≠ d) :
    t.xb.active = s.xb.active ∧ t.xb.configured = true ∧ t.xb.depth sub d 0 ≤ s.xb.depth sub d 0 ∧
      ((∀ dev, i ≠ .xbPop dev) → t.xb.depth sub d 0 = s.xb.depth sub d 0) := by
  obtain ⟨stage, hxb⟩ | ⟨src, dst, payload, size, rfl, hxb⟩ | ⟨dev, v, p, rest, rfl, hv, hcell, hxb⟩ := exec_configured_xb hc h
  · rw [hxb]
    exact ⟨rfl, hc, le_rfl, fun _ => rfl⟩
  · have elsewhere : turnKey sub d ≠ turnKey (s.sendsOn src) dst.toNat := fun hkey => by
      obtain ⟨hsub, hdst⟩ := (turnKey_eq_iff dst.isLt hd).1 hkey
      exact hother _ _ _ _ rfl hsub.symm hdst.symm
    have same := depth_push_ne (xb := s.xb) _ _ payload elsewhere
    rw [hxb]
    exact ⟨rfl, hc, same.le, fun _ => same⟩
  · rw [hxb]
    exact ⟨rfl, hc, depth_popped_le hv hcell sub d, fun hpop => absurd rfl (hpop dev)⟩

/-- Settles O58: the answer is the check of the push, and no other command makes the queue deeper. -/
theorem hasbufAnswersStayTrue : Obligations.HasbufAnswersStayTrue := by
  refine ⟨fun s src dst p₁ p₂ z₁ z₂ t q hs h hq hok haux => ?safe, fun i s t sub d hs _ _ hd h hother => ?stays⟩
  case safe =>
    obtain ⟨rfl, hsrc, hdst, room⟩ := hs.hasbuf_positive h hq hok haux
    exact ⟨_, exec_xbPush_room (s := s.answering q) ⟨hs.notFatal, hs.configured⟩ hsrc hdst room, hs.notFatal, rfl⟩
  case stays =>
    obtain ⟨active, configured, below, same⟩ := exec_depth_of_no_push hs.configured hd h hother
    exact ⟨active, configured, fun room => by rw [active]; exact below.trans_lt room, below, same⟩

end Sys2Proof.Machine
end
